-- ==== Sys2Proof/Word.lean ====
section
/-! DEFINITION. The word types of the CORE (spec/00_scope.md R9, R10; spec/10_state.md R33).
Only the types stand here: every arithmetic helper is in Machine/Num.lean. -/

namespace Sys2Proof

/-- A 32-bit register, bus word or block element (DATA_W = 32, 00_scope.md R8). -/
abbrev Word := BitVec 32

/-- A byte of a buffer, a table entry or a staging entry. -/
abbrev Byte := BitVec 8

/-- A block register file: 64 elements in raster order (00_scope.md R14), each an s32 pattern. -/
abbrev Block := Vector Word 64

/-- A quantization table: 64 divisors in raster order (10_state.md R37). -/
abbrev QTable := Vector Byte 64

/-- A host bus byte address: the 256 KiB window (20_memory.md R100). -/
abbrev BusAddr := BitVec 18

end Sys2Proof
end

