-- ==== Sys2Proof/Syntax.lean ====
section
/-! DEFINITION. The command set of the CORE as syntax (spec/30_encoding.md R142, R143, R152, R156): one constructor of
`Instr` per row of spec/opcode_table.json. Meaning is in Machine/ alone. -/

namespace Sys2Proof

/-- The channel of formats C, G and M (30_encoding.md R142); the field value 3 is illegal (R153) and has no name here. -/
inductive Chan where
  | y
  | cb
  | cr
  deriving DecidableEq, Repr

/-- TID: 0 the luminance table, 1 the chrominance table (30_encoding.md R143). -/
inductive TableId where
  | luma
  | chroma
  deriving DecidableEq, Repr

/-- CLS: 0 a DC Huffman table, 1 an AC Huffman table (30_encoding.md R143). -/
inductive TableClass where
  | dc
  | ac
  deriving DecidableEq, Repr

/-- The command formats of 30_encoding.md R143. -/
inductive Format where
  | z | c | t | q | h | g | m
  deriving DecidableEq, Repr

/-- The commands. `q` is QF, `bx` and `row` are BX and BY (block column, block row), `mv` is MVF: numbers that must
fit their fields (30_encoding.md R156), which `Instr.wf` checks. -/
inductive Instr where
  | nop
  | dcreset
  | bwreset
  | brreset
  | refclr
  | wbclr
  | fdct
  | idct
  | quant (ch : Chan)
  | dequant (ch : Chan)
  | qscale (tid : TableId) (q : Nat)
  | qdefault (tid : TableId)
  | qload (tid : TableId)
  | zzscan
  | zzunscan
  | rleenc (ch : Chan)
  | rledec (ch : Chan)
  | hbuild (cls : TableClass) (tid : TableId)
  | hdefault (cls : TableClass) (tid : TableId)
  | henc (ch : Chan)
  | hdec (ch : Chan)
  | hflush
  | refsave (ch : Chan) (bx row : Nat)
  | msearch (ch : Chan) (bx row : Nat)
  | resid
  | recon
  | mvload (ch : Chan) (mv bx row : Nat)
  deriving DecidableEq, Repr

/-- The mnemonics of 30_encoding.md R152. -/
inductive Mnem where
  | nop | dcreset | bwreset | brreset | refclr | wbclr | fdct | idct | quant | dequant | qscale | qdefault | qload
  | zzscan | zzunscan | rleenc | rledec | hbuild | hdefault | henc | hdec | hflush | refsave | msearch | resid | recon
  | mvload
  deriving DecidableEq, Repr

/-- The row of 30_encoding.md R152 that an instruction belongs to. -/
def Instr.mnem : Instr → Mnem
  | .nop => .nop
  | .dcreset => .dcreset
  | .bwreset => .bwreset
  | .brreset => .brreset
  | .refclr => .refclr
  | .wbclr => .wbclr
  | .fdct => .fdct
  | .idct => .idct
  | .quant _ => .quant
  | .dequant _ => .dequant
  | .qscale _ _ => .qscale
  | .qdefault _ => .qdefault
  | .qload _ => .qload
  | .zzscan => .zzscan
  | .zzunscan => .zzunscan
  | .rleenc _ => .rleenc
  | .rledec _ => .rledec
  | .hbuild _ _ => .hbuild
  | .hdefault _ _ => .hdefault
  | .henc _ => .henc
  | .hdec _ => .hdec
  | .hflush => .hflush
  | .refsave _ _ _ => .refsave
  | .msearch _ _ _ => .msearch
  | .resid => .resid
  | .recon => .recon
  | .mvload _ _ _ _ => .mvload

/-- The format of each command (30_encoding.md R143, last column). -/
def Mnem.format : Mnem → Format
  | .nop | .dcreset | .bwreset | .brreset | .refclr | .wbclr | .fdct | .idct | .zzscan | .zzunscan | .hflush | .resid
  | .recon => .z
  | .quant | .dequant | .rleenc | .rledec | .henc | .hdec => .c
  | .qdefault | .qload => .t
  | .qscale => .q
  | .hbuild | .hdefault => .h
  | .refsave | .msearch => .g
  | .mvload => .m

end Sys2Proof
end

