-- ==== Sys2Proof/WellFormed.lean ====
section
/-! DEFINITION. When an instruction is well formed: every number fits its field (spec/30_encoding.md R143, R156: "an
assembler rejects a value that does not fit"). -/

namespace Sys2Proof

/-- Every operand of the instruction fits its field: QF 7 bits, BX, BY and MVF 8 bits (30_encoding.md R143). -/
def Instr.wf : Instr → Bool
  | .qscale _ q => decide (q < 128)
  | .refsave _ bx row | .msearch _ bx row => decide (bx < 256) && decide (row < 256)
  | .mvload _ mv bx row => decide (mv < 256) && decide (bx < 256) && decide (row < 256)
  | .nop | .dcreset | .bwreset | .brreset | .refclr | .wbclr | .fdct | .idct | .quant _ | .dequant _ | .qdefault _
  | .qload _ | .zzscan | .zzunscan | .rleenc _ | .rledec _ | .hbuild _ _ | .hdefault _ _ | .henc _ | .hdec _ | .hflush
  | .resid | .recon => true

end Sys2Proof
end

