-- ==== Sys2Proof/Decode.lean ====
section
/-! DEFINITION. The command decoder (spec/30_encoding.md R140 to R155), total on every 32-bit word and rejecting by
name, and the encoder, written from the same tables. -/

namespace Sys2Proof

/-- Why a word is no command (30_encoding.md R153, in the order of its three cases). -/
inductive DecodeError where
  | unassignedOp
  | reservedBit
  | channelThree
  deriving DecidableEq, Repr

/-- The ERRDETAIL of E_ILLEGAL (30_encoding.md R153). -/
def DecodeError.detail : DecodeError → Word
  | .unassignedOp => 0
  | .reservedBit => 1
  | .channelThree => 2

/-- A row of the opcode map (30_encoding.md R152). -/
structure OpRow where
  op    : BitVec 6
  mnem  : Mnem
  mtch  : Word
  mask  : Word
  deriving DecidableEq, Repr

/-- The complete command set (30_encoding.md R152), in the table's order. -/
def opTable : List OpRow := [
  ⟨0x00, .nop,      0x00000000, 0xFFFFFFFF⟩,
  ⟨0x01, .dcreset,  0x04000000, 0xFFFFFFFF⟩,
  ⟨0x02, .bwreset,  0x08000000, 0xFFFFFFFF⟩,
  ⟨0x03, .brreset,  0x0C000000, 0xFFFFFFFF⟩,
  ⟨0x04, .refclr,   0x10000000, 0xFFFFFFFF⟩,
  ⟨0x05, .wbclr,    0x14000000, 0xFFFFFFFF⟩,
  ⟨0x08, .fdct,     0x20000000, 0xFFFFFFFF⟩,
  ⟨0x09, .idct,     0x24000000, 0xFFFFFFFF⟩,
  ⟨0x10, .quant,    0x40000000, 0xFCFFFFFF⟩,
  ⟨0x11, .dequant,  0x44000000, 0xFCFFFFFF⟩,
  ⟨0x12, .qscale,   0x48000000, 0xFFFEFF80⟩,
  ⟨0x13, .qdefault, 0x4C000000, 0xFFFEFFFF⟩,
  ⟨0x14, .qload,    0x50000000, 0xFFFEFFFF⟩,
  ⟨0x18, .zzscan,   0x60000000, 0xFFFFFFFF⟩,
  ⟨0x19, .zzunscan, 0x64000000, 0xFFFFFFFF⟩,
  ⟨0x1A, .rleenc,   0x68000000, 0xFCFFFFFF⟩,
  ⟨0x1B, .rledec,   0x6C000000, 0xFCFFFFFF⟩,
  ⟨0x20, .hbuild,   0x80000000, 0xFFFCFFFF⟩,
  ⟨0x21, .hdefault, 0x84000000, 0xFFFCFFFF⟩,
  ⟨0x22, .henc,     0x88000000, 0xFCFFFFFF⟩,
  ⟨0x23, .hdec,     0x8C000000, 0xFCFFFFFF⟩,
  ⟨0x24, .hflush,   0x90000000, 0xFFFFFFFF⟩,
  ⟨0x28, .refsave,  0xA0000000, 0xFCFF0000⟩,
  ⟨0x29, .msearch,  0xA4000000, 0xFCFF0000⟩,
  ⟨0x2A, .resid,    0xA8000000, 0xFFFFFFFF⟩,
  ⟨0x2B, .recon,    0xAC000000, 0xFFFFFFFF⟩,
  ⟨0x2C, .mvload,   0xB0000000, 0xFC000000⟩]

/-- The row of an opcode, if it is assigned. -/
def opRow (op : BitVec 6) : Option OpRow := opTable.find? (fun r => r.op == op)

/-- The five byte-aligned columns of every format (30_encoding.md R143): OP [31:26], CH [25:24], [23:16], [15:8], [7:0]. -/
@[ext] structure Fields where
  op : BitVec 6
  ch : BitVec 2
  b2 : Byte
  b1 : Byte
  b0 : Byte
  deriving DecidableEq, Repr

/-- Cut a command word into the columns of 30_encoding.md R143. -/
def fieldsOf (w : Word) : Fields :=
  { op := w.extractLsb' 26 6, ch := w.extractLsb' 24 2, b2 := w.extractLsb' 16 8, b1 := w.extractLsb' 8 8,
    b0 := w.extractLsb' 0 8 }

/-- Join the columns of 30_encoding.md R143 into a command word. -/
def Fields.word (f : Fields) : Word := f.op ++ f.ch ++ f.b2 ++ f.b1 ++ f.b0

/-- CH, bits [25:24] (30_encoding.md R142); 3 is no channel. -/
def chanOf (b : BitVec 2) : Option Chan :=
  if b = 0 then some .y else if b = 1 then some .cb else if b = 2 then some .cr else none

/-- TID, bit [16] (30_encoding.md R143, R144). -/
def tidOf (f : Fields) : TableId := if f.b2.getLsbD 0 then .chroma else .luma

/-- CLS, bit [17] (30_encoding.md R143, R144). -/
def clsOf (f : Fields) : TableClass := if f.b2.getLsbD 1 then .ac else .dc

/-- Operand assembly (30_encoding.md R144): every field is zero-extended, QF = w[6:0], BX = w[7:0], BY = w[15:8],
MVF = w[23:16]. -/
def assembleInstr (m : Mnem) (f : Fields) (ch : Chan) : Instr :=
  match m with
  | .nop => .nop
  | .dcreset => .dcreset
  | .bwreset => .bwreset
  | .brreset => .brreset
  | .refclr => .refclr
  | .wbclr => .wbclr
  | .fdct => .fdct
  | .idct => .idct
  | .quant => .quant ch
  | .dequant => .dequant ch
  | .qscale => .qscale (tidOf f) (f.b0.extractLsb' 0 7).toNat
  | .qdefault => .qdefault (tidOf f)
  | .qload => .qload (tidOf f)
  | .zzscan => .zzscan
  | .zzunscan => .zzunscan
  | .rleenc => .rleenc ch
  | .rledec => .rledec ch
  | .hbuild => .hbuild (clsOf f) (tidOf f)
  | .hdefault => .hdefault (clsOf f) (tidOf f)
  | .henc => .henc ch
  | .hdec => .hdec ch
  | .hflush => .hflush
  | .refsave => .refsave ch f.b0.toNat f.b1.toNat
  | .msearch => .msearch ch f.b0.toNat f.b1.toNat
  | .resid => .resid
  | .recon => .recon
  | .mvload => .mvload ch f.b2.toNat f.b0.toNat f.b1.toNat

/-- Decode a command word (30_encoding.md R153, R155): unassigned OP first, then a reserved bit, then CH = 3. The last
case arises only for formats C, G and M: in the other formats bits [25:24] are reserved, so they are 0 here. -/
def decode (w : Word) : Except DecodeError Instr :=
  match opRow (fieldsOf w).op with
  | none => .error .unassignedOp
  | some r =>
    if w &&& r.mask ≠ r.mtch then .error .reservedBit
    else
      match chanOf (fieldsOf w).ch with
      | none => .error .channelThree
      | some ch => .ok (assembleInstr r.mnem (fieldsOf w) ch)

/-- The opcode of each command (30_encoding.md R152, column OP). -/
def Mnem.opcode : Mnem → BitVec 6
  | .nop => 0x00
  | .dcreset => 0x01
  | .bwreset => 0x02
  | .brreset => 0x03
  | .refclr => 0x04
  | .wbclr => 0x05
  | .fdct => 0x08
  | .idct => 0x09
  | .quant => 0x10
  | .dequant => 0x11
  | .qscale => 0x12
  | .qdefault => 0x13
  | .qload => 0x14
  | .zzscan => 0x18
  | .zzunscan => 0x19
  | .rleenc => 0x1A
  | .rledec => 0x1B
  | .hbuild => 0x20
  | .hdefault => 0x21
  | .henc => 0x22
  | .hdec => 0x23
  | .hflush => 0x24
  | .refsave => 0x28
  | .msearch => 0x29
  | .resid => 0x2A
  | .recon => 0x2B
  | .mvload => 0x2C

/-- The CH field of a channel (30_encoding.md R142). -/
def Chan.bits : Chan → BitVec 2
  | .y => 0
  | .cb => 1
  | .cr => 2

/-- The TID bit in place in bits [23:16] (30_encoding.md R143). -/
def TableId.bits : TableId → Byte
  | .luma => 0
  | .chroma => 1

/-- The CLS bit in place in bits [23:16] (30_encoding.md R143). -/
def TableClass.bits : TableClass → Byte
  | .dc => 0
  | .ac => 2

/-- The operand columns of an instruction (30_encoding.md R143): CH, [23:16], [15:8], [7:0]. -/
def operandFields : Instr → BitVec 2 × Byte × Byte × Byte
  | .nop | .dcreset | .bwreset | .brreset | .refclr | .wbclr | .fdct | .idct | .zzscan | .zzunscan | .hflush | .resid
  | .recon => (0, 0, 0, 0)
  | .quant ch | .dequant ch | .rleenc ch | .rledec ch | .henc ch | .hdec ch => (ch.bits, 0, 0, 0)
  | .qdefault tid | .qload tid => (0, tid.bits, 0, 0)
  | .qscale tid q => (0, tid.bits, 0, BitVec.ofNat 8 q)
  | .hbuild cls tid | .hdefault cls tid => (0, cls.bits ||| tid.bits, 0, 0)
  | .refsave ch bx row | .msearch ch bx row => (ch.bits, 0, BitVec.ofNat 8 row, BitVec.ofNat 8 bx)
  | .mvload ch mv bx row => (ch.bits, BitVec.ofNat 8 mv, BitVec.ofNat 8 row, BitVec.ofNat 8 bx)

/-- The command word of an instruction (30_encoding.md R143, R152). -/
def encode (i : Instr) : Word :=
  let o := operandFields i
  Fields.word { op := i.mnem.opcode, ch := o.1, b2 := o.2.1, b1 := o.2.2.1, b0 := o.2.2.2 }

/-- The instruction the decoder reads from a table word: one 32-bit word whatever `nbits` says up to 32 (30_encoding.md
R140: "There is one length only"), bits above `nbits` zero; a number that does not fit 32 bits is no command word. -/
def decodeTableWord (nbits w : Nat) : Option Instr :=
  if nbits ≤ 32 ∧ w < 2 ^ nbits then
    match decode (BitVec.ofNat 32 w) with
    | .ok i => some i
    | .error _ => none
  else none

end Sys2Proof
end

