-- ==== Sys2Proof/Config.lean ====
section
/-! DEFINITION. What an implementation fixes (the parameters of spec/00_scope.md R8) and the free values, which the
spec leaves open (spec/93_implementation_defined.md Part 1). The parameters' values stand in Machine/Defaults.lean. -/

namespace Sys2Proof

/-- The candidate visit orders of the motion search that the spec names (45_motion.md R365). -/
inductive SearchOrder where
  | rowMajor
  | columnMajor
  deriving DecidableEq, Repr

/-- A BITS/VALS definition of a Huffman table (44_huffman.md R303, R305): `bits[n-1]` is BITS[n], `vals[i]` is VALS[i];
entries of `vals` at or beyond the BITS total are not used. -/
structure HuffDef where
  bits : Vector Byte 16
  vals : Vector Byte 256
  deriving DecidableEq, Repr

/-- The implementation parameters of 00_scope.md R8. DCT_EPS is the rational `epsNum / epsDen` (log 10).
No command and no bus access changes them. -/
structure Params where
  outSize        : Nat
  inSize         : Nat
  gridMaxW       : Nat
  gridMaxH       : Nat
  epsNum         : Nat
  epsDen         : Nat
  searchOrder    : SearchOrder
  defaultQt0     : QTable
  defaultQt1     : QTable
  defaultHdc0    : HuffDef
  defaultHdc1    : HuffDef
  defaultHac0    : HuffDef
  defaultHac1    : HuffDef
  subsampling411 : Nat × Nat
  deriving DecidableEq, Repr

/-- The value of a read of a mapped register that the spec leaves unspecified while BUSY = 1 (20_memory.md R115;
93 U3): free, one for each draw (log 6). -/
opaque Config.freeWord : Nat → Word

/-- The value of a read of OUTBUF[i] for i ≥ OUTPTR (10_state.md R49; 93 U1): free, one for each draw (log 8). -/
opaque Config.freeByte : Nat → Byte

/-- What a reset leaves in INBUF (10_state.md R50, R59; 93 U2): free, one for each reset and index (log 7). -/
opaque Config.resetInByte : Nat → Nat → Byte

/-- The draw inside the conformance band DCT_EPS (41_transform.md R205; 93 U15): free, one for each draw and
element (log 12). -/
opaque Config.bandDraw : Nat → Nat → Nat

end Sys2Proof
end

