-- ==== Sys2Proof/Machine/Num.lean ====
section
/-! DEFINITION. The numeric functions of spec/00_scope.md R9 to R13: fields, wrapping, saturation, rounding, sizes. -/

namespace Sys2Proof.Machine

/-- The s32 pattern congruent to v modulo 2^32 (00_scope.md R10). -/
def wrap32 (v : Int) : Word := BitVec.ofInt 32 v

/-- The integer v saturated to s32: min(max(v, −2^31), 2^31 − 1) (00_scope.md R10). -/
def sat32Int (v : Int) : Int := min (max v (-2147483648)) 2147483647

/-- The s32 pattern of the saturated integer (00_scope.md R10, 41_transform.md R206). -/
def sat32 (v : Int) : Word := BitVec.ofInt 32 (sat32Int v)

/-- clamp(lo, hi, v) = min(max(v, lo), hi) on naturals (00_scope.md R10). -/
def clampNat (lo hi v : Nat) : Nat := min (max v lo) hi

/-- The quotient truncated toward zero (00_scope.md R11); only called with b ≠ 0 in a state the CORE can reach. -/
def tdiv (a b : Int) : Int := Int.tdiv a b

/-- bitlen(a): the number of bits of |a| in binary, bitlen(0) = 0 (00_scope.md R13). -/
def bitlen (a : Int) : Nat := if a = 0 then 0 else a.natAbs.log2 + 1

/-- dcsize(a) = bitlen(a), so dcsize(0) = 0 (00_scope.md R13). -/
def dcsize (a : Int) : Nat := bitlen a

/-- acsize(a) = bitlen(a) for a ≠ 0 and acsize(0) = 1 (00_scope.md R13); no rule uses acsize(0). -/
def acsize (a : Int) : Nat := if a = 0 then 1 else bitlen a

/-- sext_4 of the low four bits of a number (00_scope.md R10, 30_encoding.md R144). -/
def sext4 (n : Nat) : Int := (BitVec.ofNat 4 n).toInt

/-- The integer value lies in s32 (00_scope.md R10). -/
def fitsS32 (v : Int) : Bool := decide (-2147483648 ≤ v) && decide (v ≤ 2147483647)

/-- The integer value lies in −32767..32767, the range of a coded amplitude (43_zigzag_rle.md R267). -/
def fitsAmp (v : Int) : Bool := decide (-32767 ≤ v) && decide (v ≤ 32767)

/-- A low bit field written by the host: the n low bits of a bus word (00_scope.md R9). -/
def lowBits (n : Nat) (v : Word) : BitVec n := v.setWidth n

/-- A byte shown in bits [7:0] of a bus word (20_memory.md R103). -/
def wordOfByte (b : Byte) : Word := b.setWidth 32

end Sys2Proof.Machine
end

