-- ==== Sys2Proof/Machine/HuffBuild.lean ====
section
/-! DEFINITION. Canonical Huffman tables and their construction from a BITS/VALS definition (spec/44_huffman.md R300 to
R306), on plain data: HBUILD, HDEFAULT and the reset tables all use it. -/

namespace Sys2Proof.Machine

/-- A table slot (10_state.md R38): LEN 1..16, or 0 when the symbol has no code; CODE right-aligned in LEN bits. -/
structure Slot where
  len  : BitVec 5
  code : BitVec 16
  deriving DecidableEq, Repr

/-- The slot of a symbol with no code: LEN 0, CODE 0. -/
def Slot.empty : Slot := ⟨0, 0⟩

/-- The slot of symbol `sym`; a symbol beyond the table's slots has no code (44_huffman.md R324: "s >= 12"). -/
def slotAt {n : Nat} (t : Vector Slot n) (sym : Nat) : Slot := t[sym]?.getD Slot.empty

/-- BITS[1] + ... + BITS[16], an exact sum (44_huffman.md R305). -/
def bitsTotal (bits : Vector Byte 16) : Nat := (bits.toList.map BitVec.toNat).sum

/-- VALS[0..total−1] as numbers (44_huffman.md R305). -/
def usedVals (d : HuffDef) : List Nat := (d.vals.toList.take (bitsTotal d.bits)).map BitVec.toNat

/-- What the construction carries: the table so far, the running code, and the index of the next symbol. -/
structure BuildSt (cap : Nat) where
  table : Vector Slot cap
  code  : Nat
  k     : Nat
  deriving DecidableEq, Repr

/-- One code of length n (44_huffman.md R305, inner loop body): none when the code space of length n is exhausted. -/
def buildOne {cap : Nat} (vals : Vector Byte 256) (n : Nat) (st : BuildSt cap) : Option (BuildSt cap) :=
  if st.code ≥ 2 ^ n then none
  else
    some
      { table := st.table.setIfInBounds (vals[st.k]?.getD 0).toNat ⟨BitVec.ofNat 5 n, BitVec.ofNat 16 st.code⟩
        code := st.code + 1
        k := st.k + 1 }

/-- `m` codes of length n (44_huffman.md R305, the loop over m). -/
def buildLength {cap : Nat} (vals : Vector Byte 256) (n : Nat) : Nat → BuildSt cap → Option (BuildSt cap)
  | 0, st => some st
  | m + 1, st => (buildOne vals n st).bind (buildLength vals n m)

/-- The loop over the code lengths: `counts` lists BITS[n], BITS[n+1], ...; after every length the code is shifted once
(44_huffman.md R305, 90_conflicts.md C5). -/
def buildLengths {cap : Nat} (vals : Vector Byte 256) : Nat → List Nat → BuildSt cap → Option (BuildSt cap)
  | _, [], st => some st
  | n, c :: cs, st =>
    (buildLength vals n c st).bind fun st' => buildLengths vals (n + 1) cs { st' with code := st'.code * 2 }

/-- HBUILD's checks and construction for a table of `cap` slots (44_huffman.md R305): the table, or the ERRDETAIL of
E_HUFF_TABLE: 1 more codes than slots, 2 a symbol beyond the slots (only a DC symbol can be), 3 a symbol listed twice,
4 the code space of some length exhausted. -/
def buildTable (cap : Nat) (d : HuffDef) : Except Nat (Vector Slot cap) :=
  if bitsTotal d.bits > cap then .error 1
  else if (usedVals d).any (fun v => decide (v ≥ cap)) then .error 2
  else if ¬ (usedVals d).Nodup then .error 3
  else
    match buildLengths d.vals 1 (d.bits.toList.map BitVec.toNat) ⟨Vector.replicate cap Slot.empty, 0, 0⟩ with
    | some st => .ok st.table
    | none => .error 4

/-- The table of a built-in definition (44_huffman.md R306: "the built-in definitions are valid", so the empty table
stands for no definition that `Params.legal` admits). -/
def builtin (cap : Nat) (d : HuffDef) : Vector Slot cap :=
  match buildTable cap d with
  | .ok t => t
  | .error _ => Vector.replicate cap Slot.empty

end Sys2Proof.Machine

namespace Sys2Proof

open Machine in
/-- The legal parameter values of 00_scope.md R8 and 92_eei_decisions.md "Open parameters". -/
def Params.legal (p : Params) : Bool :=
  decide (1 ≤ p.outSize ∧ p.outSize ≤ 16384) && decide (1 ≤ p.inSize ∧ p.inSize ≤ 16384)
    && decide (1 ≤ p.gridMaxW ∧ p.gridMaxW ≤ 256) && decide (1 ≤ p.gridMaxH ∧ p.gridMaxH ≤ 256)
    && decide (0 < p.epsDen)
    && p.defaultQt0.toList.all (fun e => e != 0) && p.defaultQt1.toList.all (fun e => e != 0)
    && (buildTable 12 p.defaultHdc0).isOk && (buildTable 12 p.defaultHdc1).isOk
    && (buildTable 256 p.defaultHac0).isOk && (buildTable 256 p.defaultHac1).isOk
    && (decide (p.subsampling411 = (2, 2)) || decide (p.subsampling411 = (4, 1)))

end Sys2Proof
end

