-- ==== Sys2Proof/Machine/Sparse.lean ====
section
/-! DEFINITION. Sparse storage by a natural key: the form of OUTBUF and INBUF (spec/20_memory.md R100, R112) and of the
reference store. A list of (key, value) pairs with strictly rising keys; a key that is not listed holds no value
(log 14). -/

namespace Sys2Proof.Machine

/-- The value listed at a key. -/
def Sparse.get {β : Type} : List (Nat × β) → Nat → Option β
  | [], _ => none
  | (k, v) :: m, a => if k = a then some v else Sparse.get m a

/-- The list with the value v at key a, in canonical form when the list is. -/
def Sparse.set {β : Type} : List (Nat × β) → Nat → β → List (Nat × β)
  | [], a, v => [(a, v)]
  | (k, w) :: m, a, v =>
    if a < k then (a, v) :: (k, w) :: m
    else if a = k then (a, v) :: m
    else (k, w) :: Sparse.set m a v

/-- The canonical form: keys strictly rising. -/
def Sparse.wf {β : Type} (m : List (Nat × β)) : Bool := decide ((m.map Prod.fst).Pairwise (· < ·))

/-- Every key lies below a bound. -/
def Sparse.below {β : Type} (bound : Nat) (m : List (Nat × β)) : Bool := m.all fun c => decide (c.1 < bound)

/-- A byte buffer: OUTBUF or INBUF (10_state.md R49, R50). -/
abbrev Memory := List Host.Cell

/-- The canonical form of a byte buffer: addresses strictly rising (an unlisted address holds no value, so no entry can
equal what it reads as). -/
abbrev Memory.wf (m : Memory) : Bool := Sparse.wf m

/-- Store bytes at consecutive addresses, the first at `a`, in order. -/
def Memory.setAll : Memory → Nat → List Byte → Memory
  | m, _, [] => m
  | m, a, b :: bs => Memory.setAll (Sparse.set m a b) (a + 1) bs

end Sys2Proof.Machine
end

