-- ==== Sys2Proof/Machine/State.lean ====
section
/-! DEFINITION. The state of the CORE as plain data (spec/10_state.md R33 to R59), the events of the outside world, the
reasons a step can stop, and the state after reset. INVENTORY.md lists every field with its rule and reset value. -/

namespace Sys2Proof.Machine

/-- A symbol entry (10_state.md R35): RUN s8, SIZE u4, AMP s16; the reserved bits [19:16] have no storage. -/
structure SymEntry where
  run  : BitVec 8
  size : BitVec 4
  amp  : BitVec 16
  deriving DecidableEq, Repr

/-- A reference-store cell (10_state.md R54): the VALID bit and 64 elements. -/
structure RefCell where
  valid : Bool
  data  : Block
  deriving DecidableEq, Repr

/-- The reference store (10_state.md R54): the cells written since reset, by `refKey` (log 15). -/
abbrev RefStore := List (Nat × RefCell)

/-- A channel's grid size in blocks (10_state.md R53). -/
structure GridDim where
  gw : BitVec 9
  gh : BitVec 9
  deriving DecidableEq, Repr

/-- The width of a host access; only `word` is supported (20_memory.md R101). -/
inductive AccessSize where
  | byte
  | half
  | word
  deriving DecidableEq, Repr

/-- A host access (20_memory.md R101). -/
inductive Access where
  | read  (size : AccessSize) (addr : BusAddr)
  | write (size : AccessSize) (addr : BusAddr) (data : Word)
  deriving DecidableEq, Repr

/-- What happens next (log 1): a host access, a turn of the command engine, or the reset input (10_state.md R30,
70_reset_and_hazards.md R470). -/
inductive Event where
  | access (a : Access)
  | engine
  | hardReset
  deriving DecidableEq, Repr

/-- The bus response to a host access: read data (0 for a write) and the bus error flag (20_memory.md R101, R109). -/
structure BusResp where
  data  : Word
  error : Bool
  deriving DecidableEq, Repr

/-- The whole machine. -/
structure State where
  cfg       : Params
  wb        : Block
  rb        : Block
  sym       : Vector SymEntry 64
  symn      : BitVec 7
  lastDc0   : Word
  lastDc1   : Word
  lastDc2   : Word
  qt0       : QTable
  qt1       : QTable
  hdc0      : Vector Slot 12
  hdc1      : Vector Slot 12
  hac0      : Vector Slot 256
  hac1      : Vector Slot 256
  hbits     : Vector Byte 16
  hvals     : Vector Byte 256
  ieDone    : Bool
  ieErr     : Bool
  done      : Bool
  err       : Bool
  zres      : Bool
  found     : Bool
  drop      : Bool
  errCode   : Byte
  errInfo   : Word
  errDetail : Word
  cmdCnt    : Word
  bwn       : BitVec 3
  bwacc     : Byte
  outbuf    : Memory
  outptr    : BitVec 15
  inbuf     : Memory
  inlen     : BitVec 15
  inpos     : BitVec 15
  inbits    : BitVec 4
  inprev    : Byte
  radius    : BitVec 3
  grid0     : GridDim
  grid1     : GridDim
  grid2     : GridDim
  ref       : RefStore
  mv        : Byte
  matchX    : Byte
  matchY    : Byte
  sse       : Word
  pending   : Option Word
  env       : List Event
  resp      : Option BusResp
  draws     : Nat
  epoch     : Nat
  deriving DecidableEq, Repr

/-- Why the machine stops with a fault: never. A command fault is a next state with the fault record written
(60_exceptions.md R430, R433), a bus error a response without effect; the spec names no event that stops the CORE, so
this type has no constructor (log 17, safe: no run is cut short). -/
inductive Fault
  deriving DecidableEq, Repr

/-- Why the model gives an instruction no meaning. -/
inductive Refusal where
  /-- Raised by an arm of `exec` whose instruction has no meaning yet, by its mnemonic; safe: the run stops there. No arm
  raises it now. -/
  | notModelled (mnemonic : String)
  deriving DecidableEq, Repr

/-- The state after reset of a chip with parameters `p` (10_state.md R59, 70_reset_and_hazards.md R470). -/
def State.resetOf (p : Params) : State where
  cfg := p
  wb := Vector.replicate 64 0
  rb := Vector.replicate 64 0
  sym := Vector.replicate 64 ⟨0, 0, 0⟩
  symn := 0
  lastDc0 := 0
  lastDc1 := 0
  lastDc2 := 0
  qt0 := p.defaultQt0
  qt1 := p.defaultQt1
  hdc0 := builtin 12 p.defaultHdc0
  hdc1 := builtin 12 p.defaultHdc1
  hac0 := builtin 256 p.defaultHac0
  hac1 := builtin 256 p.defaultHac1
  hbits := Vector.replicate 16 0
  hvals := Vector.replicate 256 0
  ieDone := false
  ieErr := false
  done := false
  err := false
  zres := false
  found := false
  drop := false
  errCode := 0
  errInfo := 0
  errDetail := 0
  cmdCnt := 0
  bwn := 0
  bwacc := 0
  outbuf := []
  outptr := 0
  inbuf := []
  inlen := 0
  inpos := 0
  inbits := 0
  inprev := 0
  radius := 3
  grid0 := ⟨0, 0⟩
  grid1 := ⟨0, 0⟩
  grid2 := ⟨0, 0⟩
  ref := []
  mv := 0
  matchX := 0
  matchY := 0
  sse := 0
  pending := none
  env := []
  resp := none
  draws := 0
  epoch := 0

/-- The machine right after reset: this spec's CORE (00_scope.md R8), idle, with no event scheduled
(70_reset_and_hazards.md R472). -/
def State.reset : State := State.resetOf Params.core

end Sys2Proof.Machine
end

