-- ==== Sys2Proof/Machine/Flags.lean ====
section
/-! DEFINITION. The flags and the views computed from them: STATUS, CTRL, IRQ, BWSTATE, HWCFG2 (spec/10_state.md R41 to
R43, R48, R56; 60_exceptions.md R440). -/

namespace Sys2Proof.Machine

/-- STATUS.BUSY: 1 from the accepted CMD write until the command completes or faults (10_state.md R43, R57). -/
def State.busy (s : State) : Bool := s.pending.isSome

/-- The interrupt output: (DONE AND IE_DONE) OR (ERR AND IE_ERR) (60_exceptions.md R440). -/
def State.irq (s : State) : Bool := (s.done && s.ieDone) || (s.err && s.ieErr)

/-- STATUS as the host reads it (10_state.md R43): [15:8] ERRCODE, [5] DROP, [4] FOUND, [3] ZRES, [2] ERR, [1] DONE,
[0] BUSY, the others 0. -/
def State.statusWord (s : State) : Word :=
  (0 : BitVec 16) ++ s.errCode ++ (0 : BitVec 2) ++ BitVec.ofBool s.drop ++ BitVec.ofBool s.found
    ++ BitVec.ofBool s.zres ++ BitVec.ofBool s.err ++ BitVec.ofBool s.done ++ BitVec.ofBool s.busy

/-- CTRL as the host reads it: [1] IE_ERR, [0] IE_DONE; SRESET and the reserved bits read 0 (10_state.md R42). -/
def State.ctrlWord (s : State) : Word := (0 : BitVec 30) ++ BitVec.ofBool s.ieErr ++ BitVec.ofBool s.ieDone

/-- BWSTATE: [15:8] BWACC, [3:0] BWN, the others 0 (10_state.md R48). -/
def State.bwstateWord (s : State) : Word := (0 : BitVec 16) ++ s.bwacc ++ (0 : BitVec 5) ++ s.bwn

/-- HWCFG2: [24:16] GRID_MAX_H, [8:0] GRID_MAX_W, the others 0 (10_state.md R41). -/
def hwcfg2Word (p : Params) : Word :=
  (0 : BitVec 7) ++ BitVec.ofNat 9 p.gridMaxH ++ (0 : BitVec 7) ++ BitVec.ofNat 9 p.gridMaxW

/-- GRIDDIMc as the host reads it: [24:16] GH, [8:0] GW, the others 0 (10_state.md R53). -/
def GridDim.word (g : GridDim) : Word := (0 : BitVec 7) ++ g.gh ++ (0 : BitVec 7) ++ g.gw

/-- A symbol entry as the host reads it (10_state.md R35): RUN, SIZE, four reserved zeros, AMP. -/
def SymEntry.word (e : SymEntry) : Word := e.run ++ e.size ++ (0 : BitVec 4) ++ e.amp

/-- A table slot as the host reads it (10_state.md R38): eleven reserved zeros, LEN, CODE. -/
def Slot.word (t : Slot) : Word := (0 : BitVec 11) ++ t.len ++ t.code

/-- MATCH as the host reads it: [15:8] by, [7:0] bx (10_state.md R55). -/
def State.matchWord (s : State) : Word := (0 : BitVec 16) ++ s.matchY ++ s.matchX

/-- RESID's flag: 1 if every element of the residual is zero (45_motion.md R372). -/
def zresFlag (b : Block) : Bool := b.toList.all fun e => e == 0

end Sys2Proof.Machine
end

