-- ==== Sys2Proof/Machine/Operands.lean ====
section
/-! DEFINITION. Operand selection: what a command's CH, TID, CLS, BX, BY and MVF fields name in the state
(spec/30_encoding.md R142 to R144; 42_quantizer.md R230; 44_huffman.md R300; 45_motion.md R360 to R370), and how a
symbol entry is read (43_zigzag_rle.md R265). -/

namespace Sys2Proof.Machine

/-- QT(TID) (42_quantizer.md R230). -/
def State.qtOfTid (s : State) : TableId → QTable
  | .luma => s.qt0
  | .chroma => s.qt1

/-- The table id a channel selects: Y the luminance tables, Cb and Cr the chrominance ones (30_encoding.md R142). -/
def chanTid : Chan → TableId
  | .y => .luma
  | .cb => .chroma
  | .cr => .chroma

/-- QT(CH) (42_quantizer.md R230). -/
def State.qtOf (s : State) (ch : Chan) : QTable := s.qtOfTid (chanTid ch)

/-- HDC(CH) (44_huffman.md R300). -/
def State.hdcOf (s : State) (ch : Chan) : Vector Slot 12 :=
  match chanTid ch with
  | .luma => s.hdc0
  | .chroma => s.hdc1

/-- HAC(CH) (44_huffman.md R300). -/
def State.hacOf (s : State) (ch : Chan) : Vector Slot 256 :=
  match chanTid ch with
  | .luma => s.hac0
  | .chroma => s.hac1

/-- LASTDC[CH] (10_state.md R36). -/
def State.lastDcOf (s : State) : Chan → Word
  | .y => s.lastDc0
  | .cb => s.lastDc1
  | .cr => s.lastDc2

/-- GRIDDIM[CH] (10_state.md R53). -/
def State.gridOf (s : State) : Chan → GridDim
  | .y => s.grid0
  | .cb => s.grid1
  | .cr => s.grid2

/-- The channel code 0, 1, 2 (30_encoding.md R142). -/
def chanIndex : Chan → Nat
  | .y => 0
  | .cb => 1
  | .cr => 2

/-- The key of the cell REF[c][y][x] (20_memory.md R100: channel, 8-bit block row, 8-bit block column). -/
def refKey (ch : Chan) (x y : Nat) : Nat := chanIndex ch * 65536 + y * 256 + x

/-- (x, y) is in the channel's grid (45_motion.md R361). -/
def State.inGrid (s : State) (ch : Chan) (x y : Int) : Bool :=
  decide (0 ≤ x) && decide (x < (s.gridOf ch).gw.toNat) && decide (0 ≤ y) && decide (y < (s.gridOf ch).gh.toNat)

/-- The data of the cell (x, y) when it is usable: in the grid and VALID (45_motion.md R361). -/
def State.usable (s : State) (ch : Chan) (x y : Int) : Option Block :=
  if s.inGrid ch x y then
    match Sparse.get s.ref (refKey ch x.toNat y.toNat) with
    | some c => if c.valid then some c.data else none
    | none => none
  else none

/-- The word (BY << 8) | BX: the detail of E_GRID and the layout of MATCH (45_motion.md R362, R366). -/
def coordWord (bx row : Nat) : Word := (BitVec.ofNat 32 row <<< 8) ||| BitVec.ofNat 32 bx

/-- dx of a packed motion vector: sext_4(MVF[7:4]) (45_motion.md R370). -/
def mvDx (mv : Nat) : Int := sext4 (mv / 16)

/-- dy of a packed motion vector: sext_4(MVF[3:0]) (45_motion.md R370). -/
def mvDy (mv : Nat) : Int := sext4 mv

/-- The packed motion vector ((dx AND 0xF) << 4) | (dy AND 0xF) (45_motion.md R370). -/
def packMv (dx dy : Int) : Byte := BitVec.ofInt 4 dx ++ BitVec.ofInt 4 dy

/-- A run-length symbol as the source's triple (43_zigzag_rle.md R265). -/
structure Sym where
  run  : Int
  size : Nat
  amp  : Int
  deriving DecidableEq, Repr

/-- EOB = (0, 0, 0) (43_zigzag_rle.md R265). -/
def Sym.eob : Sym := ⟨0, 0, 0⟩

/-- Reading a symbol entry: r = sext_8(RUN), s = SIZE, a = sext_16(AMP) (43_zigzag_rle.md R265). -/
def SymEntry.read (e : SymEntry) : Sym := ⟨e.run.toInt, e.size.toNat, e.amp.toInt⟩

/-- The entry that holds a symbol (10_state.md R35). -/
def Sym.entry (y : Sym) : SymEntry := ⟨BitVec.ofInt 8 y.run, BitVec.ofNat 4 y.size, BitVec.ofInt 16 y.amp⟩

/-- SYM[0..SYMN−1] as symbols; at most the 64 entries the buffer has (10_state.md R35). -/
def State.syms (s : State) : List Sym := (s.sym.toList.take s.symn.toNat).map SymEntry.read

/-- The symbol buffer with the given symbols in its first entries and the others unchanged (43_zigzag_rle.md R267,
44_huffman.md R335: "entries at index ≥ SYMN keep their previous values"). -/
def writeSyms (old : Vector SymEntry 64) (out : List Sym) : Vector SymEntry 64 :=
  Vector.ofFn fun i : Fin 64 =>
    match out[i.val]? with
    | some y => y.entry
    | none => old[i]

/-- What HDEC reads: INLEN, the INBUF bytes written since reset, and which reset that was. -/
structure InStream where
  len   : Nat
  cells : Memory
  epoch : Nat
  deriving DecidableEq, Repr

/-- INBUF[i]: the byte the host wrote, else what the last reset left there (10_state.md R50, log 7). -/
def InStream.byte (m : InStream) (i : Nat) : Byte :=
  match Sparse.get m.cells i with
  | some b => b
  | none => Config.resetInByte m.epoch i

/-- The input stream as a command or a bus read finds it (10_state.md R50). -/
def State.inStream (s : State) : InStream := ⟨s.inlen.toNat, s.inbuf, s.epoch⟩

end Sys2Proof.Machine
end

