-- ==== Sys2Proof/Machine/Ops.lean ====
section
/-! DEFINITION. The shared operations of all commands: completion, taking a command fault, the return from one, reset, and
the writes into the selected tables and predictors (spec/60_exceptions.md R431 to R439; 70_reset_and_hazards.md R470,
R471). -/

namespace Sys2Proof.Machine

/-- The fault codes by name (60_exceptions.md R431). -/
inductive ErrCode where
  | illegal | qparam | qrange | range | symForm | huffTable | noCode | outFull | trunc | unresolved | badSymbol
  | runOverflow | grid | noref
  deriving DecidableEq, Repr

/-- ERRCODE (60_exceptions.md R431). -/
def ErrCode.byte : ErrCode → Byte
  | .illegal => 0x01
  | .qparam => 0x02
  | .qrange => 0x03
  | .range => 0x04
  | .symForm => 0x05
  | .huffTable => 0x06
  | .noCode => 0x07
  | .outFull => 0x08
  | .trunc => 0x09
  | .unresolved => 0x0A
  | .badSymbol => 0x0B
  | .runOverflow => 0x0C
  | .grid => 0x0D
  | .noref => 0x0E

/-- What `raise Fault(code, detail)` records (00_scope.md R16). -/
structure CmdFault where
  code   : ErrCode
  detail : Word
  deriving DecidableEq, Repr

/-- A fault with a small number as its detail. -/
def CmdFault.num (c : ErrCode) (n : Nat) : CmdFault := ⟨c, BitVec.ofNat 32 n⟩

/-- The word of the command in progress (10_state.md R57); 0 when none is, which no engine turn meets (log 22). -/
def State.cmdWord (s : State) : Word := s.pending.getD 0

/-- Completion (60_exceptions.md R439): CMDCNT + 1 modulo 2^32, DONE 1, BUSY 0. -/
def State.complete (s : State) : State := { s with cmdCnt := s.cmdCnt + 1, done := true, pending := none }

/-- Taking a command fault (60_exceptions.md R433): ERRCODE, ERRINFO the command word, ERRDETAIL, ERR 1, BUSY 0; nothing
else changes. It is applied to the state before the command, so every write the command made is discarded. -/
def State.raise (s : State) (f : CmdFault) : State :=
  { s with errCode := f.code.byte, errInfo := s.cmdWord, errDetail := f.detail, err := true, pending := none }

/-- The end of a command that started in `s` (00_scope.md R17): its writes take effect together, or it faults and has
none. -/
def commit (s : State) : Except CmdFault State → Host.Outcome State Fault Refusal
  | .ok t => .next t.complete
  | .error f => .next (s.raise f)

/-- The return from a fault: writing 1 to STATUS.ERR clears ERR, ERRCODE, ERRINFO and ERRDETAIL (10_state.md R43,
60_exceptions.md R435). -/
def State.clearErr (s : State) : State := { s with err := false, errCode := 0, errInfo := 0, errDetail := 0 }

/-- A reset at any time (70_reset_and_hazards.md R470, R471): every piece of state takes its reset value; the chip's
parameters, the coming events and the last bus response are outside the reset; the contents a reset leaves in INBUF are
new ones (log 7), and the count of drawn free values goes on (log 6). -/
def State.resetNow (s : State) : State :=
  { State.resetOf s.cfg with env := s.env, resp := s.resp, draws := s.draws, epoch := s.epoch + 1 }

/-- Write QT(TID) (42_quantizer.md R230). -/
def State.setQt (s : State) (tid : TableId) (t : QTable) : State :=
  match tid with
  | .luma => { s with qt0 := t }
  | .chroma => { s with qt1 := t }

/-- Write LASTDC[CH] (10_state.md R36). -/
def State.setLastDc (s : State) (ch : Chan) (v : Word) : State :=
  match ch with
  | .y => { s with lastDc0 := v }
  | .cb => { s with lastDc1 := v }
  | .cr => { s with lastDc2 := v }

/-- Write HDC0 or HDC1 (44_huffman.md R300). -/
def State.setHdc (s : State) (tid : TableId) (t : Vector Slot 12) : State :=
  match tid with
  | .luma => { s with hdc0 := t }
  | .chroma => { s with hdc1 := t }

/-- Write HAC0 or HAC1 (44_huffman.md R300). -/
def State.setHac (s : State) (tid : TableId) (t : Vector Slot 256) : State :=
  match tid with
  | .luma => { s with hac0 := t }
  | .chroma => { s with hac1 := t }

/-- Raise E_GRID when (BX, BY) is outside the channel's grid (45_motion.md R362, R366, R371). -/
def State.checkGrid (s : State) (ch : Chan) (bx row : Nat) : Except CmdFault Unit :=
  if s.inGrid ch bx row then .ok () else .error ⟨.grid, coordWord bx row⟩

/-- Apply a function to every element of a block at its raster index (00_scope.md R14, R17: the whole old block is
read first). -/
def blockOf (f : Fin 64 → Word) : Block := Vector.ofFn f

end Sys2Proof.Machine
end

