-- ==== Sys2Proof/Machine/Bus.lean ====
section
/-! DEFINITION. The host bus: the register map, reads and writes (spec/20_memory.md R100 to R110, R115; 10_state.md R33 to
R55; 60_exceptions.md R430, R437, R438; 70_reset_and_hazards.md R471). -/

namespace Sys2Proof.Machine

/-- The mapped locations of the host bus space by name (20_memory.md R110). -/
inductive Reg where
  | id | hwcfg0 | hwcfg1 | hwcfg2 | ctrl | status | cmd | errinfo | errdetail | cmdcnt | radius
  | griddim (ch : Chan)
  | lastdc (ch : Chan)
  | symn | bwstate | outptr | inlen | inpos | inbits | inprev | mv | mtch | sse
  | hbits (n : Fin 16)
  | hvals (i : Fin 256)
  | wb (k : Fin 64)
  | rb (k : Fin 64)
  | sym (i : Fin 64)
  | qt (tid : TableId) (k : Fin 64)
  | hdc (tid : TableId) (y : Fin 12)
  | hac (tid : TableId) (y : Fin 256)
  | outbuf (i : Nat)
  | inbuf (i : Nat)
  deriving DecidableEq, Repr

/-- The registers at 0x00000, 0x00004, ..., 0x00068 in order (20_memory.md R110). -/
def controlRegs : List Reg := [
  .id, .hwcfg0, .hwcfg1, .hwcfg2, .ctrl, .status, .cmd, .errinfo,
  .errdetail, .cmdcnt, .radius, .griddim .y, .griddim .cb, .griddim .cr, .lastdc .y, .lastdc .cb,
  .lastdc .cr, .symn, .bwstate, .outptr, .inlen, .inpos, .inbits, .inprev,
  .mv, .mtch, .sse]

/-- The index of an address in a window of n words at `base` (20_memory.md R110). -/
def windowIndex (base n a : Nat) : Option (Fin n) :=
  if h : base ≤ a ∧ (a - base) / 4 < n then some ⟨(a - base) / 4, h.2⟩ else none

/-- The location at a word-aligned byte address; none where the map lists nothing (20_memory.md R109, R110). The OUTBUF
and INBUF windows end at OUT_SIZE and IN_SIZE. -/
def regAt (p : Params) (a : Nat) : Option Reg :=
  if a < 0x6C then controlRegs[a / 4]?
  else
    ((windowIndex 0x00100 16 a).map .hbits).or <|
    ((windowIndex 0x00400 256 a).map .hvals).or <|
    ((windowIndex 0x00800 64 a).map .wb).or <|
    ((windowIndex 0x00900 64 a).map .rb).or <|
    ((windowIndex 0x00A00 64 a).map .sym).or <|
    ((windowIndex 0x00B00 64 a).map (.qt .luma)).or <|
    ((windowIndex 0x00C00 64 a).map (.qt .chroma)).or <|
    ((windowIndex 0x00D00 12 a).map (.hdc .luma)).or <|
    ((windowIndex 0x00D40 12 a).map (.hdc .chroma)).or <|
    ((windowIndex 0x01000 256 a).map (.hac .luma)).or <|
    ((windowIndex 0x01400 256 a).map (.hac .chroma)).or <|
    ((windowIndex 0x10000 p.outSize a).map fun i => .outbuf i.val).or <|
    ((windowIndex 0x20000 p.inSize a).map fun i => .inbuf i.val)

/-- The location an access reaches: none, a bus error, unless it is a 32-bit access at a word-aligned mapped address
(20_memory.md R101, R109). -/
def accessReg (p : Params) (size : AccessSize) (addr : BusAddr) : Option Reg :=
  if size = .word ∧ addr.toNat % 4 = 0 then regAt p addr.toNat else none

/-- What a read of a location gives: a value, or any value (93_implementation_defined.md U1 to U3). -/
inductive ReadValue where
  | value (w : Word)
  | anyWord
  | anyByte
  deriving DecidableEq, Repr

/-- The locations whose reads return their value while BUSY = 1 (20_memory.md R115). -/
def Reg.readableWhileBusy : Reg → Bool
  | .id | .hwcfg0 | .hwcfg1 | .hwcfg2 | .ctrl | .status => true
  | _ => false

/-- The value of a location (10_state.md R33 to R55); OUTBUF[i] for i ≥ OUTPTR is any byte (R49). -/
def State.regValue (s : State) : Reg → ReadValue
  | .id => .value 0x4A455643
  | .hwcfg0 => .value (BitVec.ofNat 32 s.cfg.outSize)
  | .hwcfg1 => .value (BitVec.ofNat 32 s.cfg.inSize)
  | .hwcfg2 => .value (hwcfg2Word s.cfg)
  | .ctrl => .value s.ctrlWord
  | .status => .value s.statusWord
  | .cmd => .value 0
  | .errinfo => .value s.errInfo
  | .errdetail => .value s.errDetail
  | .cmdcnt => .value s.cmdCnt
  | .radius => .value (s.radius.setWidth 32)
  | .griddim ch => .value (s.gridOf ch).word
  | .lastdc ch => .value (s.lastDcOf ch)
  | .symn => .value (s.symn.setWidth 32)
  | .bwstate => .value s.bwstateWord
  | .outptr => .value (s.outptr.setWidth 32)
  | .inlen => .value (s.inlen.setWidth 32)
  | .inpos => .value (s.inpos.setWidth 32)
  | .inbits => .value (s.inbits.setWidth 32)
  | .inprev => .value (wordOfByte s.inprev)
  | .mv => .value (wordOfByte s.mv)
  | .mtch => .value s.matchWord
  | .sse => .value s.sse
  | .hbits n => .value (wordOfByte s.hbits[n])
  | .hvals i => .value (wordOfByte s.hvals[i])
  | .wb k => .value s.wb[k]
  | .rb k => .value s.rb[k]
  | .sym i => .value s.sym[i].word
  | .qt tid k => .value (wordOfByte (s.qtOfTid tid)[k])
  | .hdc .luma y => .value s.hdc0[y].word
  | .hdc .chroma y => .value s.hdc1[y].word
  | .hac .luma y => .value s.hac0[y].word
  | .hac .chroma y => .value s.hac1[y].word
  | .outbuf i =>
    if i < s.outptr.toNat then
      match Sparse.get s.outbuf i with
      | some b => .value (wordOfByte b)
      | none => .anyByte
    else .anyByte
  | .inbuf i => .value (wordOfByte (s.inStream.byte i))

/-- The value a host read of a location gives: while BUSY = 1 only ID, HWCFG, CTRL and STATUS have one (20_memory.md
R115, 60_exceptions.md R437). -/
def State.readValue (s : State) (r : Reg) : ReadValue :=
  if s.busy && !r.readableWhileBusy then .anyWord else s.regValue r

/-- The bus response of the access just made (log 5). -/
def State.respond (s : State) (data : Word) (error : Bool) : State := { s with resp := some ⟨data, error⟩ }

/-- A host read (20_memory.md R101, R108, R109, R115): no side effect on the CORE; a bus error reads 0. -/
def hostRead (size : AccessSize) (addr : BusAddr) (s : State) : State :=
  match accessReg s.cfg size addr with
  | none => s.respond 0 true
  | some r =>
    match s.readValue r with
    | .value w => s.respond w false
    | .anyWord => { s with draws := s.draws + 1 }.respond (Config.freeWord s.draws) false
    | .anyByte => { s with draws := s.draws + 1 }.respond (wordOfByte (Config.freeByte s.draws)) false

/-- A host write of CTRL (10_state.md R42, 70_reset_and_hazards.md R471): SRESET = 1 resets and the write's other bits are
ignored. -/
def State.writeCtrl (s : State) (v : Word) : State :=
  if v.getLsbD 31 then s.resetNow else { s with ieDone := v.getLsbD 0, ieErr := v.getLsbD 1 }

/-- A host write of STATUS (10_state.md R43): write 1 to clear DONE, ERR (with the fault record) and DROP. -/
def State.writeStatus (s : State) (v : Word) : State :=
  let s1 := if v.getLsbD 1 then { s with done := false } else s
  let s2 := if v.getLsbD 2 then s1.clearErr else s1
  if v.getLsbD 5 then { s2 with drop := false } else s2

/-- A host write of CMD (60_exceptions.md R438): discarded with DROP when BUSY = 1 or ERR = 1, else captured as the
pending command. -/
def State.submit (s : State) (w : Word) : State :=
  if s.busy || s.err then { s with drop := true } else { s with pending := some w }

/-- A GRIDDIM write: GW = min(v[8:0], GRID_MAX_W), GH = min(v[24:16], GRID_MAX_H) (10_state.md R53). -/
def gridOfWord (p : Params) (v : Word) : GridDim :=
  { gw := BitVec.ofNat 9 (min (v.extractLsb' 0 9).toNat p.gridMaxW)
    gh := BitVec.ofNat 9 (min (v.extractLsb' 16 9).toNat p.gridMaxH) }

/-- Write GRIDDIM[CH] (10_state.md R53). -/
def State.setGrid (s : State) (ch : Chan) (g : GridDim) : State :=
  match ch with
  | .y => { s with grid0 := g }
  | .cb => { s with grid1 := g }
  | .cr => { s with grid2 := g }

/-- The symbol entry a host write stores (10_state.md R35): the reserved bits [19:16] are ignored. -/
def symOfWord (v : Word) : SymEntry :=
  { run := v.extractLsb' 24 8, size := v.extractLsb' 20 4, amp := v.extractLsb' 0 16 }

/-- A host write of a data location while BUSY = 0 (10_state.md R33 to R55): a read-only location ignores it
(20_memory.md R108). CTRL, STATUS and CMD are written by `hostWrite`. -/
def State.writeData (s : State) (r : Reg) (v : Word) : State :=
  match r with
  | .radius => { s with radius := lowBits 3 v }
  | .griddim ch => s.setGrid ch (gridOfWord s.cfg v)
  | .lastdc ch => s.setLastDc ch v
  | .symn => { s with symn := lowBits 7 v }
  | .inlen => { s with inlen := BitVec.ofNat 15 (min (lowBits 15 v).toNat s.cfg.inSize) }
  | .hbits n => { s with hbits := s.hbits.set n (lowBits 8 v) }
  | .hvals i => { s with hvals := s.hvals.set i (lowBits 8 v) }
  | .wb k => { s with wb := s.wb.set k v }
  | .rb k => { s with rb := s.rb.set k v }
  | .sym i => { s with sym := s.sym.set i (symOfWord v) }
  | .inbuf i => { s with inbuf := Sparse.set s.inbuf i (lowBits 8 v) }
  | .id | .hwcfg0 | .hwcfg1 | .hwcfg2 | .ctrl | .status | .cmd | .errinfo | .errdetail | .cmdcnt | .bwstate | .outptr
  | .inpos | .inbits | .inprev | .mv | .mtch | .sse | .qt _ _ | .hdc _ _ | .hac _ _ | .outbuf _ => s

/-- What a host write of a mapped location does (60_exceptions.md R437, R438): CTRL and STATUS at once; CMD submits; any
other location while BUSY = 1 is discarded and sets DROP. -/
def State.writeReg (s : State) (r : Reg) (v : Word) : State :=
  match r with
  | .ctrl => s.writeCtrl v
  | .status => s.writeStatus v
  | .cmd => s.submit v
  | r => if s.busy then { s with drop := true } else s.writeData r v

/-- A host write (20_memory.md R101, R108, R109): a bus error changes no state. -/
def hostWrite (size : AccessSize) (addr : BusAddr) (v : Word) (s : State) : State :=
  match accessReg s.cfg size addr with
  | none => s.respond 0 true
  | some r => (s.writeReg r v).respond 0 false

/-- A host access (20_memory.md R101). -/
def hostAccess (a : Access) (s : State) : State :=
  match a with
  | .read size addr => hostRead size addr s
  | .write size addr v => hostWrite size addr v s

end Sys2Proof.Machine
end

