-- ==== Sys2Proof/Machine/Control.lean ====
section
/-! DEFINITION. The control commands (spec/46_control.md R400 to R405). -/

namespace Sys2Proof.Machine

/-- NOP (46_control.md R400): it completes like every other command. -/
def execNop (s : State) : Host.Outcome State Fault Refusal := commit s (.ok s)

/-- DCRESET (46_control.md R401). -/
def execDcreset (s : State) : Host.Outcome State Fault Refusal :=
  commit s (.ok { s with lastDc0 := 0, lastDc1 := 0, lastDc2 := 0 })

/-- BWRESET (46_control.md R402): pending bits are discarded; the OUTBUF bytes are not cleared. -/
def execBwreset (s : State) : Host.Outcome State Fault Refusal :=
  commit s (.ok { s with bwn := 0, bwacc := 0, outptr := 0 })

/-- BRRESET (46_control.md R403): INBUF and INLEN are not changed. -/
def execBrreset (s : State) : Host.Outcome State Fault Refusal :=
  commit s (.ok { s with inpos := 0, inbits := 0, inprev := 0 })

/-- REFCLR (46_control.md R404): every VALID bit becomes 0; the cell data is not changed. -/
def execRefclr (s : State) : Host.Outcome State Fault Refusal :=
  commit s (.ok { s with ref := s.ref.map fun c => (c.1, { c.2 with valid := false }) })

/-- WBCLR (46_control.md R405). -/
def execWbclr (s : State) : Host.Outcome State Fault Refusal :=
  commit s (.ok { s with wb := Vector.replicate 64 0 })

end Sys2Proof.Machine
end

