-- ==== Sys2Proof/Machine/ZigzagRle.lean ====
section
/-! DEFINITION. The ZigZagRunLengthCoder: ZZSCAN, ZZUNSCAN, RLEENC, RLEDEC and the well-formedness check of a symbol
sequence (spec/43_zigzag_rle.md R263 to R268). -/

namespace Sys2Proof.Machine

/-- ZZSCAN (43_zigzag_rle.md R263): WB[k] <- T[ZZ[k]]. -/
def execZzscan (s : State) : Host.Outcome State Fault Refusal :=
  commit s (.ok { s with wb := blockOf fun k => s.wb[zz k] })

/-- ZZUNSCAN (43_zigzag_rle.md R264): WB[ZZ[k]] <- T[k], that is WB[r] <- T[IZZ[r]] (R262). -/
def execZzunscan (s : State) : Host.Outcome State Fault Refusal :=
  commit s (.ok { s with wb := blockOf fun r => s.wb[izz r] })

/-- WF_SYM's loop over the entries from index i on, with `pos` AC positions used (43_zigzag_rle.md R266); the answer is
the failing detail, none when the check succeeds. `rest` lists the entries from i on, so EOB is last when nothing
follows it. -/
def wfSymFrom : Nat → Nat → List Sym → Option Nat
  | i, pos, [] => if pos = 63 then none else some i
  | i, pos, y :: rest =>
    if y = Sym.eob then (if rest ≠ [] ∨ pos = 63 then some i else none)
    else if y.run < 0 ∨ y.amp = 0 ∨ y.amp = -32768 ∨ y.size ≠ bitlen y.amp then some i
    else if pos + y.run.toNat + 1 > 63 then some i
    else wfSymFrom (i + 1) (pos + y.run.toNat + 1) rest

/-- The check of entry 0, the DC symbol (43_zigzag_rle.md R266). -/
def wfDc (y : Sym) : Bool := decide (y.run = -1) && decide (y.amp ≠ -32768) && decide (y.size = dcsize y.amp)

/-- WF_SYM on a symbol sequence of a SYMN in 1..64 (43_zigzag_rle.md R266). -/
def wfSyms : List Sym → Option Nat
  | [] => some 0xFFFF
  | dc :: ac => if wfDc dc then wfSymFrom 1 0 ac else some 0

/-- WF_SYM (43_zigzag_rle.md R266): none, or the failing detail; 0xFFFF when SYMN is outside 1..64. -/
def State.wfSym (s : State) : Option Nat := if 64 < s.symn.toNat then some 0xFFFF else wfSyms s.syms

/-- WF_SYM or raise E_SYM_FORM (43_zigzag_rle.md R268, 44_huffman.md R324). -/
def State.checkSyms (s : State) : Except CmdFault Unit :=
  match s.wfSym with
  | some d => .error (.num .symForm d)
  | none => .ok ()

/-- RLEENC's loop over the AC coefficients in scan order (43_zigzag_rle.md R267): `k` is the scan position, `run` the
zeros counted so far, the list the coefficients from k on; the answer is the symbols of the rest, EOB included. -/
def rleAc : Nat → Nat → List Int → Except CmdFault (List Sym)
  | _, run, [] => .ok (if run > 0 then [Sym.eob] else [])
  | k, run, a :: rest =>
    if a = 0 then rleAc (k + 1) (run + 1) rest
    else if fitsAmp a then
      match rleAc (k + 1) 0 rest with
      | .ok out => .ok (⟨run, bitlen a, a⟩ :: out)
      | .error f => .error f
    else .error (.num .range k)

/-- The elements of a block in scan order (00_scope.md R15). -/
def scanList (b : Block) : List Int := (List.finRange 64).map fun k => b[zz k].toInt

/-- RLEENC's symbols for a block and a predictor (43_zigzag_rle.md R267): the DC difference is checked first. -/
def rleEncode (b : Block) (last : Int) : Except CmdFault (List Sym) :=
  let diff := b[0].toInt - last
  if fitsAmp diff then
    match rleAc 1 0 (scanList b).tail with
    | .ok out => .ok (⟨-1, dcsize diff, diff⟩ :: out)
    | .error f => .error f
  else .error (.num .range 0)

/-- RLEENC (43_zigzag_rle.md R267). -/
def execRleenc (ch : Chan) (s : State) : Host.Outcome State Fault Refusal :=
  commit s
    (match rleEncode s.wb (s.lastDcOf ch).toInt with
     | .ok out =>
       .ok ({ s with sym := writeSyms s.sym out, symn := BitVec.ofNat 7 out.length }.setLastDc ch s.wb[0])
     | .error f => .error f)

/-- RLEDEC's walk over the AC symbols (43_zigzag_rle.md R268): each skips its run of positions and writes its amplitude at
the next, stopping at EOB. -/
def rlePlace : Nat → List Sym → Block → Block
  | _, [], t => t
  | pos, y :: rest, t =>
    if y = Sym.eob then t
    else
      let pos' := pos + y.run.toNat + 1
      rlePlace pos' rest (t.set (zz (Fin.ofNat 64 pos')) (wrap32 y.amp))

/-- RLEDEC's block for a well-formed sequence and the reconstructed DC (43_zigzag_rle.md R268). -/
def rleDecode (dc : Int) (ac : List Sym) : Block :=
  rlePlace 0 ac ((Vector.replicate 64 (0 : Word)).set (zz 0) (wrap32 dc))

/-- RLEDEC (43_zigzag_rle.md R268). -/
def execRledec (ch : Chan) (s : State) : Host.Outcome State Fault Refusal :=
  commit s
    (match s.checkSyms with
     | .error f => .error f
     | .ok () =>
       match s.syms with
       | [] => .error (.num .symForm 0xFFFF)
       | y :: ac =>
         let dc := (s.lastDcOf ch).toInt + y.amp
         if fitsS32 dc then .ok ({ s with wb := rleDecode dc ac }.setLastDc ch (wrap32 dc)) else .error (.num .range 0))

end Sys2Proof.Machine
end

