-- ==== Sys2Proof/Machine/Huffman.lean ====
section
/-! DEFINITION. The HuffmanCodec: HBUILD, HDEFAULT, HENC, HFLUSH, HDEC and the bit-level operations they share
(spec/44_huffman.md R305, R306, R320 to R325, R330 to R335). -/

namespace Sys2Proof.Machine

/-- HBUILD (44_huffman.md R305): the selected table is built from HBITS and HVALS, or E_HUFF_TABLE is raised. -/
def execHbuild (cls : TableClass) (tid : TableId) (s : State) : Host.Outcome State Fault Refusal :=
  commit s
    (match cls with
     | .dc =>
       match buildTable 12 ⟨s.hbits, s.hvals⟩ with
       | .ok t => .ok (s.setHdc tid t)
       | .error d => .error (.num .huffTable d)
     | .ac =>
       match buildTable 256 ⟨s.hbits, s.hvals⟩ with
       | .ok t => .ok (s.setHac tid t)
       | .error d => .error (.num .huffTable d))

/-- HDEFAULT (44_huffman.md R306): the selected table is reloaded from the built-in definition; HBITS and HVALS are
neither read nor written. -/
def execHdefault (cls : TableClass) (tid : TableId) (s : State) : Host.Outcome State Fault Refusal :=
  commit s
    (.ok
      (match cls, tid with
       | .dc, .luma => s.setHdc .luma (builtin 12 s.cfg.defaultHdc0)
       | .dc, .chroma => s.setHdc .chroma (builtin 12 s.cfg.defaultHdc1)
       | .ac, .luma => s.setHac .luma (builtin 256 s.cfg.defaultHac0)
       | .ac, .chroma => s.setHac .chroma (builtin 256 s.cfg.defaultHac1)))

/-- AmpBits(a, s): the low s bits of a when a ≥ 0, of a − 1 when a < 0 (44_huffman.md R323). -/
def ampBits (a : Int) (s : Nat) : Nat := ((if 0 ≤ a then a else a - 1) % (2 ^ s : Nat)).toNat

/-- Extend(v, s): the amplitude of an s-bit field (44_huffman.md R332). -/
def extend (v s : Nat) : Int :=
  if s = 0 then 0
  else if v.testBit (s - 1) then v
  else (v : Int) - ((2 ^ s : Nat) - 1)

/-- The n low bits of v, most significant first (20_memory.md R104). -/
def bitsOf (v : Nat) : Nat → List Bool
  | 0 => []
  | n + 1 => v.testBit n :: bitsOf v n

/-- The bit writer while a command runs (10_state.md R48): BWACC, BWN, and the bytes emitted so far, in order. -/
structure BitWriter where
  acc : Byte
  n   : Nat
  out : List Byte
  deriving DecidableEq, Repr

/-- Emit(b): the data byte, and a stuffing byte 0x00 after 0xFF (44_huffman.md R321). -/
def emitBytes (b : Byte) : List Byte := if b = 0xFF then [0xFF, 0x00] else [b]

/-- One bit of PutBits (44_huffman.md R320): a byte is emitted as soon as its eighth bit arrives. -/
def putBit (w : BitWriter) (b : Bool) : BitWriter :=
  let acc := (w.acc <<< 1) ||| (if b then 1 else 0)
  if w.n + 1 = 8 then { acc := 0, n := 0, out := w.out ++ emitBytes acc } else { w with acc := acc, n := w.n + 1 }

/-- PutBits(v, n) (44_huffman.md R320). -/
def putBits (w : BitWriter) (v n : Nat) : BitWriter := (bitsOf v n).foldl putBit w

/-- PutBits for each (value, nbits) of a plan, in order (44_huffman.md R324). -/
def putPlan (w : BitWriter) (plan : List (Nat × Nat)) : BitWriter := plan.foldl (fun w p => putBits w p.1 p.2) w

/-- The code of a symbol as (value, nbits), none when the table has none (44_huffman.md R301). -/
def codeOf {n : Nat} (t : Vector Slot n) (sym : Nat) : Option (Nat × Nat) :=
  if (slotAt t sym).len = 0 then none else some ((slotAt t sym).code.toNat, (slotAt t sym).len.toNat)

/-- The plan of the DC symbol (44_huffman.md R324). -/
def planDc (d : Vector Slot 12) (y : Sym) : Except CmdFault (List (Nat × Nat)) :=
  match codeOf d y.size with
  | none => .error (.num .noCode 0)
  | some c => .ok [c, (ampBits y.amp y.size, y.size)]

/-- The plan of SYM entry i ≥ 1 (44_huffman.md R324): EOB is its code alone; else floor(run/16) ZRL codes, then the code
of (run mod 16, size), then the amplitude bits. -/
def planAc (a : Vector Slot 256) (i : Nat) (y : Sym) : Except CmdFault (List (Nat × Nat)) :=
  if y = Sym.eob then
    match codeOf a 0x00 with
    | none => .error (.num .noCode i)
    | some c => .ok [c]
  else
    match codeOf a 0xF0, codeOf a (y.run.toNat % 16 * 16 + y.size) with
    | some z, some c => .ok (List.replicate (y.run.toNat / 16) z ++ [c, (ampBits y.amp y.size, y.size)])
    | none, some c =>
      if y.run.toNat / 16 = 0 then .ok [c, (ampBits y.amp y.size, y.size)] else .error (.num .noCode i)
    | _, none => .error (.num .noCode i)

/-- The plans of the entries from i on (44_huffman.md R324): the first entry that lacks a code raises E_NO_CODE. -/
def planFrom (a : Vector Slot 256) : Nat → List Sym → Except CmdFault (List (Nat × Nat))
  | _, [] => .ok []
  | i, y :: rest =>
    match planAc a i y with
    | .error f => .error f
    | .ok p =>
      match planFrom a (i + 1) rest with
      | .error f => .error f
      | .ok ps => .ok (p ++ ps)

/-- The plan of a whole symbol sequence (44_huffman.md R324). -/
def planSyms (d : Vector Slot 12) (a : Vector Slot 256) : List Sym → Except CmdFault (List (Nat × Nat))
  | [] => .ok []
  | y :: ac =>
    match planDc d y with
    | .error f => .error f
    | .ok p =>
      match planFrom a 1 ac with
      | .error f => .error f
      | .ok ps => .ok (p ++ ps)

/-- The bit writer as a command finds it (10_state.md R48). -/
def State.writer (s : State) : BitWriter := ⟨s.bwacc, s.bwn.toNat, []⟩

/-- Append emitted bytes to OUTBUF at OUTPTR, or raise E_OUT_FULL with OUTPTR + N and write nothing (44_huffman.md R322);
the bit writer's pending bits are then those of `w`. -/
def State.flushWriter (s : State) (w : BitWriter) : Except CmdFault State :=
  let total := s.outptr.toNat + w.out.length
  if s.cfg.outSize < total then .error (.num .outFull total)
  else
    .ok { s with
          outbuf := Memory.setAll s.outbuf s.outptr.toNat w.out
          outptr := BitVec.ofNat 15 total
          bwacc := w.acc
          bwn := BitVec.ofNat 3 w.n }

/-- HENC (44_huffman.md R324): E_SYM_FORM, then E_NO_CODE, then E_OUT_FULL; on success the plan's bits are appended. -/
def execHenc (ch : Chan) (s : State) : Host.Outcome State Fault Refusal :=
  commit s
    (match s.checkSyms with
     | .error f => .error f
     | .ok () =>
       match planSyms (s.hdcOf ch) (s.hacOf ch) s.syms with
       | .error f => .error f
       | .ok plan => s.flushWriter (putPlan s.writer plan))

/-- HFLUSH (44_huffman.md R325): the pending bits, zero-filled at the low end, are emitted as one byte; with none pending
nothing is written. -/
def execHflush (s : State) : Host.Outcome State Fault Refusal :=
  commit s
    (if s.bwn = 0 then .ok s
     else s.flushWriter ⟨0, 0, emitBytes (s.bwacc <<< (8 - s.bwn.toNat))⟩)

/-- The bitstream cursor while a command runs (10_state.md R51): INPOS, INBITS, INPREV. -/
structure Cursor where
  pos  : Nat
  bits : Nat
  prev : Byte
  deriving DecidableEq, Repr

/-- The skip of a stuffing byte (44_huffman.md R330): a 0x00 after 0xFF is passed over and INPREV becomes 0x00, so the
loop of R330 skips at most once. E_TRUNC when no byte is left. -/
def skipStuffing (m : InStream) (c : Cursor) : Except CmdFault Cursor :=
  if m.len ≤ c.pos then .error (.num .trunc c.pos)
  else if c.prev = 0xFF ∧ m.byte c.pos = 0x00 then .ok { c with prev := 0x00, pos := c.pos + 1 }
  else .ok c

/-- Loading the next data byte (44_huffman.md R330). -/
def loadByte (m : InStream) (c : Cursor) : Except CmdFault Cursor :=
  match skipStuffing m c with
  | .error f => .error f
  | .ok c' =>
    if m.len ≤ c'.pos then .error (.num .trunc c'.pos)
    else .ok { pos := c'.pos + 1, bits := 8, prev := m.byte c'.pos }

/-- ReadBit (44_huffman.md R330): bit INBITS of INBUF[INPOS − 1] after the decrement, most significant first. -/
def readBit (m : InStream) (c : Cursor) : Except CmdFault (Bool × Cursor) :=
  match (if c.bits = 0 then loadByte m c else .ok c) with
  | .error f => .error f
  | .ok c' => .ok ((m.byte (c'.pos - 1)).getLsbD (c'.bits - 1), { c' with bits := c'.bits - 1 })

/-- ReadBits(n) appended to the value read so far, most significant first (44_huffman.md R330). -/
def readBits (m : InStream) : Nat → Nat → Cursor → Except CmdFault (Nat × Cursor)
  | 0, v, c => .ok (v, c)
  | n + 1, v, c =>
    match readBit m c with
    | .error f => .error f
    | .ok (b, c') => readBits m n (v * 2 + b.toNat) c'

/-- The symbol whose code is the length-l string of value v (44_huffman.md R333); a prefix-free table has at most one. -/
def findCode {n : Nat} (t : Vector Slot n) (l v : Nat) : Option Nat :=
  t.toList.findIdx? fun e => e.len.toNat == l && e.code.toNat == v

/-- DecodeSym's loop (44_huffman.md R333): `left` more lengths to try after the `l` bits of value v read so far;
E_UNRESOLVED for entry i when none is left. -/
def decodeSymFrom {n : Nat} (t : Vector Slot n) (m : InStream) (i : Nat) :
    Nat → Nat → Nat → Cursor → Except CmdFault (Nat × Cursor)
  | 0, _, _, _ => .error (.num .unresolved i)
  | left + 1, l, v, c =>
    match readBit m c with
    | .error f => .error f
    | .ok (b, c') =>
      match findCode t (l + 1) (v * 2 + b.toNat) with
      | some y => .ok (y, c')
      | none => decodeSymFrom t m i left (l + 1) (v * 2 + b.toNat) c'

/-- DecodeSym(T, i) (44_huffman.md R333): lengths 1 to 16. -/
def decodeSym {n : Nat} (t : Vector Slot n) (m : InStream) (i : Nat) (c : Cursor) : Except CmdFault (Nat × Cursor) :=
  decodeSymFrom t m i 16 0 0 c

/-- HDEC's loop over the AC symbols (44_huffman.md R335): `i` is the index of the entry being decoded, `pos` the AC
positions filled, `run` the zeros carried by ZRLs. Every turn raises pos + run, which stays at most 63, so 64 turns are
never exceeded (log 27); the answer lists the symbols from entry i on, with the cursor after them. -/
def hdecAc (a : Vector Slot 256) (m : InStream) :
    Nat → Nat → Nat → Nat → Cursor → Except CmdFault (List Sym × Cursor)
  | 0, _, _, _, c => .ok ([], c)
  | turns + 1, i, pos, run, c =>
    if 63 ≤ pos then .ok ([], c)
    else
      match decodeSym a m i c with
      | .error f => .error f
      | .ok (t, c1) =>
        if t % 16 = 0 then
          if t / 16 = 0 then .ok ([Sym.eob], c1)
          else if t / 16 = 15 then
            if pos + (run + 16) > 63 then .error (.num .runOverflow i)
            else hdecAc a m turns i pos (run + 16) c1
          else .error (.num .badSymbol t)
        else if pos + (run + t / 16) + 1 > 63 then .error (.num .runOverflow i)
        else
          match readBits m (t % 16) 0 c1 with
          | .error f => .error f
          | .ok (v, c2) =>
            match hdecAc a m turns (i + 1) (pos + (run + t / 16) + 1) 0 c2 with
            | .error f => .error f
            | .ok (out, c3) => .ok (⟨((run + t / 16 : Nat) : Int), t % 16, extend v (t % 16)⟩ :: out, c3)

/-- HDEC's symbols and cursor (44_huffman.md R335). -/
def hdecSyms (d : Vector Slot 12) (a : Vector Slot 256) (m : InStream) (c : Cursor) :
    Except CmdFault (List Sym × Cursor) :=
  match decodeSym d m 0 c with
  | .error f => .error f
  | .ok (sz, c1) =>
    match readBits m sz 0 c1 with
    | .error f => .error f
    | .ok (v, c2) =>
      match hdecAc a m 64 1 0 0 c2 with
      | .error f => .error f
      | .ok (out, c3) => .ok (⟨-1, sz, extend v sz⟩ :: out, c3)

/-- The cursor as a command finds it (10_state.md R51). -/
def State.cursor (s : State) : Cursor := ⟨s.inpos.toNat, s.inbits.toNat, s.inprev⟩

/-- HDEC (44_huffman.md R335): on a fault neither SYM, SYMN nor the cursor is written. -/
def execHdec (ch : Chan) (s : State) : Host.Outcome State Fault Refusal :=
  commit s
    (match hdecSyms (s.hdcOf ch) (s.hacOf ch) s.inStream s.cursor with
     | .error f => .error f
     | .ok (out, c) =>
       .ok { s with
             sym := writeSyms s.sym out
             symn := BitVec.ofNat 7 out.length
             inpos := BitVec.ofNat 15 c.pos
             inbits := BitVec.ofNat 4 c.bits
             inprev := c.prev })

end Sys2Proof.Machine
end

