-- ==== Sys2Proof/Machine/Motion.lean ====
section
/-! DEFINITION. The BlockReferenceStore and MotionEstimator: REFSAVE, MSEARCH, MVLOAD, RESID, RECON
(spec/45_motion.md R360 to R373). -/

namespace Sys2Proof.Machine

/-- REFSAVE (45_motion.md R362): WB into the cell (BX, BY) of the channel, which becomes valid. -/
def execRefsave (ch : Chan) (bx row : Nat) (s : State) : Host.Outcome State Fault Refusal :=
  commit s
    (match s.checkGrid ch bx row with
     | .error f => .error f
     | .ok () => .ok { s with ref := Sparse.set s.ref (refKey ch bx row) ⟨true, s.wb⟩ })

/-- The offsets −r..r in rising order (45_motion.md R364). -/
def offsets (r : Nat) : List Int := (List.range (2 * r + 1)).map fun n : Nat => (n : Int) - r

/-- The displacements (dx, dy) in visit order (45_motion.md R365): ROW_MAJOR takes dy outer and dx inner, COLUMN_MAJOR
the other way round. -/
def displacements (o : SearchOrder) (r : Nat) : List (Int × Int) :=
  match o with
  | .rowMajor => (offsets r).flatMap fun dy => (offsets r).map fun dx => (dx, dy)
  | .columnMajor => (offsets r).flatMap fun dx => (offsets r).map fun dy => (dx, dy)

/-- The exact sum of squared differences of two blocks (45_motion.md R366). -/
def blockSse (a b : Block) : Int :=
  ((List.finRange 64).map fun k => (a[k].toInt - b[k].toInt) * (a[k].toInt - b[k].toInt)).sum

/-- A candidate of the search: its error, displacement and data. -/
structure Candidate where
  e    : Int
  dx   : Int
  dy   : Int
  data : Block
  deriving DecidableEq, Repr

/-- The usable candidates of a query in visit order (45_motion.md R364, R365). -/
def State.candidates (s : State) (ch : Chan) (bx row : Nat) : List Candidate :=
  (displacements s.cfg.searchOrder s.radius.toNat).filterMap fun d =>
    (s.usable ch (bx + d.1) (row + d.2)).map fun b => ⟨blockSse s.wb b, d.1, d.2, b⟩

/-- The first strict minimum (45_motion.md R366): an equal error does not replace the best. -/
def firstMin : Option Candidate → List Candidate → Option Candidate
  | best, [] => best
  | none, c :: cs => firstMin (some c) cs
  | some b, c :: cs => if c.e < b.e then firstMin (some c) cs else firstMin (some b) cs

/-- The results of a search (45_motion.md R366); SSE saturates at 2^32 − 1. -/
def State.searchResult (s : State) (bx row : Nat) : Option Candidate → State
  | none =>
    { s with
      found := false
      rb := Vector.replicate 64 0
      mv := 0
      sse := 0xFFFFFFFF
      matchX := BitVec.ofNat 8 bx
      matchY := BitVec.ofNat 8 row }
  | some c =>
    { s with
      found := true
      rb := c.data
      mv := packMv c.dx c.dy
      sse := BitVec.ofNat 32 (min c.e.toNat 4294967295)
      matchX := BitVec.ofInt 8 (bx + c.dx)
      matchY := BitVec.ofInt 8 (row + c.dy) }

/-- MSEARCH (45_motion.md R366). -/
def execMsearch (ch : Chan) (bx row : Nat) (s : State) : Host.Outcome State Fault Refusal :=
  commit s
    (match s.checkGrid ch bx row with
     | .error f => .error f
     | .ok () => .ok (s.searchResult bx row (firstMin none (s.candidates ch bx row))))

/-- MVLOAD (45_motion.md R371): E_GRID for the query, then E_NOREF for the named cell; MV, MATCH, SSE and FOUND keep
their values. -/
def execMvload (ch : Chan) (mv bx row : Nat) (s : State) : Host.Outcome State Fault Refusal :=
  commit s
    (match s.checkGrid ch bx row with
     | .error f => .error f
     | .ok () =>
       match s.usable ch (bx + mvDx mv) (row + mvDy mv) with
       | none => .error (.num .noref mv)
       | some b => .ok { s with rb := b })

/-- RESID's block: WB − RB, wrapping (45_motion.md R372). -/
def residBlock (a b : Block) : Block := blockOf fun k => wrap32 (a[k].toInt - b[k].toInt)

/-- RESID (45_motion.md R372): ZRES tests the wrapped result. -/
def execResid (s : State) : Host.Outcome State Fault Refusal :=
  commit s (.ok { s with wb := residBlock s.wb s.rb, zres := zresFlag (residBlock s.wb s.rb) })

/-- RECON (45_motion.md R373): WB + RB, wrapping. -/
def execRecon (s : State) : Host.Outcome State Fault Refusal :=
  commit s (.ok { s with wb := blockOf fun k => wrap32 (s.wb[k].toInt + s.rb[k].toInt) })

end Sys2Proof.Machine
end

