-- ==== Sys2Proof/Machine/Quantizer.lean ====
section
/-! DEFINITION. The Quantizer commands (spec/42_quantizer.md R233 to R237). -/

namespace Sys2Proof.Machine

/-- S = (Q < 50) ? tdiv(5000, Q) : 200 − 2Q, for Q in 1..100 (42_quantizer.md R233). -/
def qscaleFactor (q : Nat) : Nat := if q < 50 then 5000 / q else 200 - 2 * q

/-- clamp(1, 255, tdiv(e·S + 50, 100)) (42_quantizer.md R233; no operand is negative). -/
def scaleEntry (factor : Nat) (e : Byte) : Byte := BitVec.ofNat 8 (clampNat 1 255 ((e.toNat * factor + 50) / 100))

/-- A quantization table scaled by a quality factor (42_quantizer.md R233). -/
def scaleTable (q : Nat) (t : QTable) : QTable := t.map (scaleEntry (qscaleFactor q))

/-- QSCALE (42_quantizer.md R233): the table's current content is scaled; Q = 0 or Q > 100 raises E_QPARAM. -/
def execQscale (tid : TableId) (q : Nat) (s : State) : Host.Outcome State Fault Refusal :=
  commit s (if q < 1 ∨ 100 < q then .error (.num .qparam q) else .ok (s.setQt tid (scaleTable q (s.qtOfTid tid))))

/-- DEFAULT_QT(TID) (42_quantizer.md R231, R234). -/
def defaultQtOf (p : Params) : TableId → QTable
  | .luma => p.defaultQt0
  | .chroma => p.defaultQt1

/-- QDEFAULT (42_quantizer.md R234). -/
def execQdefault (tid : TableId) (s : State) : Host.Outcome State Fault Refusal :=
  commit s (.ok (s.setQt tid (defaultQtOf s.cfg tid)))

/-- A WB entry that QLOAD accepts: 1..255 (42_quantizer.md R235). -/
def qloadable (w : Word) : Bool := decide (1 ≤ w.toInt) && decide (w.toInt ≤ 255)

/-- QLOAD (42_quantizer.md R235): E_QRANGE with the lowest raster index of an entry outside 1..255. -/
def execQload (tid : TableId) (s : State) : Host.Outcome State Fault Refusal :=
  commit s
    (match s.wb.toList.findIdx? (fun w => !qloadable w) with
     | some k => .error (.num .qrange k)
     | none => .ok (s.setQt tid (s.wb.map fun w => w.setWidth 8)))

/-- QUANT (42_quantizer.md R236): division by the channel's table, truncated toward zero. -/
def execQuant (ch : Chan) (s : State) : Host.Outcome State Fault Refusal :=
  commit s (.ok { s with wb := blockOf fun k => wrap32 (tdiv s.wb[k].toInt (s.qtOf ch)[k].toNat) })

/-- DEQUANT (42_quantizer.md R237): multiplication by the channel's table, wrapping. -/
def execDequant (ch : Chan) (s : State) : Host.Outcome State Fault Refusal :=
  commit s (.ok { s with wb := blockOf fun k => wrap32 (s.wb[k].toInt * (s.qtOf ch)[k].toNat) })

end Sys2Proof.Machine
end

