-- ==== Sys2Proof/Machine/Dct.lean ====
section
/-! DEFINITION. The exact arithmetic of the transform (spec/00_scope.md R11, R12; spec/41_transform.md R200 to R205). Every
value that R201 and R204 form is an integer combination of products of √2, √(2+√2) and √(2+√(2+√2)), so it is held
exactly, its sign is decided exactly, and only the final rounding makes an integer (log 11). -/

namespace Sys2Proof.Machine

/-- a + b·√2. -/
structure Z2 where
  a : Int
  b : Int
  deriving DecidableEq, Repr

/-- a + b·√(2+√2), where √(2+√2) = 2·cos(2π/16). -/
structure Z4 where
  a : Z2
  b : Z2
  deriving DecidableEq, Repr

/-- a + b·√(2+√(2+√2)), where √(2+√(2+√2)) = 2·cos(π/16). -/
structure Z8 where
  a : Z4
  b : Z4
  deriving DecidableEq, Repr

def Z2.zero : Z2 := ⟨0, 0⟩
def Z2.add (x y : Z2) : Z2 := ⟨x.a + y.a, x.b + y.b⟩
def Z2.neg (x : Z2) : Z2 := ⟨-x.a, -x.b⟩
def Z2.smul (n : Int) (x : Z2) : Z2 := ⟨n * x.a, n * x.b⟩
/-- (a + b√2)(c + d√2) = (ac + 2bd) + (ad + bc)√2. -/
def Z2.mul (x y : Z2) : Z2 := ⟨x.a * y.a + 2 * (x.b * y.b), x.a * y.b + x.b * y.a⟩

/-- Multiplication by 2 + √2, the square of √(2+√2). -/
def Z2.mulD (x : Z2) : Z2 := ⟨2 * x.a + 2 * x.b, x.a + 2 * x.b⟩

def Z4.zero : Z4 := ⟨Z2.zero, Z2.zero⟩
def Z4.add (x y : Z4) : Z4 := ⟨x.a.add y.a, x.b.add y.b⟩
def Z4.neg (x : Z4) : Z4 := ⟨x.a.neg, x.b.neg⟩
def Z4.smul (n : Int) (x : Z4) : Z4 := ⟨x.a.smul n, x.b.smul n⟩
def Z4.mul (x y : Z4) : Z4 :=
  ⟨(x.a.mul y.a).add (x.b.mul y.b).mulD, (x.a.mul y.b).add (x.b.mul y.a)⟩

/-- Multiplication by 2 + √(2+√2), the square of √(2+√(2+√2)). -/
def Z4.mulD (x : Z4) : Z4 := ⟨(x.a.smul 2).add x.b.mulD, x.a.add (x.b.smul 2)⟩

def Z8.zero : Z8 := ⟨Z4.zero, Z4.zero⟩
def Z8.add (x y : Z8) : Z8 := ⟨x.a.add y.a, x.b.add y.b⟩
def Z8.neg (x : Z8) : Z8 := ⟨x.a.neg, x.b.neg⟩
def Z8.smul (n : Int) (x : Z8) : Z8 := ⟨x.a.smul n, x.b.smul n⟩
def Z8.mul (x y : Z8) : Z8 :=
  ⟨(x.a.mul y.a).add (x.b.mul y.b).mulD, (x.a.mul y.b).add (x.b.mul y.a)⟩
/-- The integer n. -/
def Z8.ofInt (n : Int) : Z8 := ⟨⟨⟨n, 0⟩, Z2.zero⟩, Z4.zero⟩

/-- The sign of x + y·√d from the signs of x, of y and of x² − d·y²: −1, 0 or 1. -/
def signExt (sx sy sn : Int) : Int :=
  if sx = 0 then sy else if sy = 0 then sx else if sx = sy then sx else sx * sn

/-- The sign of a + b·√2. -/
def Z2.sign (x : Z2) : Int := signExt x.a.sign x.b.sign (x.a * x.a - 2 * (x.b * x.b)).sign

/-- The sign of a + b·√(2+√2). -/
def Z4.sign (x : Z4) : Int := signExt x.a.sign x.b.sign ((x.a.mul x.a).add (x.b.mul x.b).mulD.neg).sign

/-- The sign of a + b·√(2+√(2+√2)). -/
def Z8.sign (x : Z8) : Int := signExt x.a.sign x.b.sign ((x.a.mul x.a).add (x.b.mul x.b).mulD.neg).sign

/-- A first estimate of x·2^64: the eight basis values scaled by 2^64 and cut to integers, in the order 1, √2, √(2+√2),
√2·√(2+√2), and the same four times √(2+√(2+√2)). -/
def Z8.approx (x : Z8) : Int :=
  x.a.a.a * 18446744073709551616 + x.a.a.b * 26087635650665564424
    + x.a.b.a * 34085138582348259978 + x.a.b.b * 48203665258523359512
    + x.b.a.a * 36184590117719704236 + x.b.a.b * 51172738093390673661
    + x.b.b.a * 66860404404142813920 + x.b.b.b * 94554890694088582274

/-- c is floor(x / m): c·m ≤ x < (c+1)·m, decided by exact signs. -/
def Z8.isFloor (x : Z8) (m : Nat) (c : Int) : Bool :=
  decide (0 ≤ (x.add (Z8.ofInt (-(c * m)))).sign) && decide ((x.add (Z8.ofInt (-((c + 1) * m)))).sign < 0)

/-- The floor of x / m between lo and hi by halving, for lo·m ≤ x < hi·m and 2^fuel ≥ hi − lo. -/
def Z8.bisect (x : Z8) (m : Nat) : Nat → Int → Int → Int
  | 0, lo, _ => lo
  | fuel + 1, lo, hi =>
    if hi ≤ lo + 1 then lo
    else
      let mid := (lo + hi) / 2
      if 0 ≤ (x.add (Z8.ofInt (-(mid * m)))).sign then x.bisect m fuel mid hi else x.bisect m fuel lo mid

/-- A bound on |x|: no basis value exceeds 6. -/
def Z8.bound (x : Z8) : Nat :=
  6 * (x.a.a.a.natAbs + x.a.a.b.natAbs + x.a.b.a.natAbs + x.a.b.b.natAbs
    + x.b.a.a.natAbs + x.b.a.b.natAbs + x.b.b.a.natAbs + x.b.b.b.natAbs) + 1

/-- floor(x / m) for m > 0: the estimate's quotient when the exact signs confirm it, else by halving. -/
def Z8.floorDiv (x : Z8) (m : Nat) : Int :=
  let c := x.approx / (m * 18446744073709551616 : Nat)
  if x.isFloor m c then c else x.bisect m (x.bound.log2 + 2) (-(x.bound : Int)) x.bound

/-- trunc(x / m) for m > 0: rounded toward zero (00_scope.md R11). -/
def Z8.truncDiv (x : Z8) (m : Nat) : Int :=
  if x.sign < 0 then -(x.neg.floorDiv m) else x.floorDiv m

/-- 2·cos(kπ/16) for k ≤ 8. -/
def twoCosSmall : Nat → Z8
  | 0 => ⟨⟨⟨2, 0⟩, ⟨0, 0⟩⟩, ⟨⟨0, 0⟩, ⟨0, 0⟩⟩⟩
  | 1 => ⟨⟨⟨0, 0⟩, ⟨0, 0⟩⟩, ⟨⟨1, 0⟩, ⟨0, 0⟩⟩⟩
  | 2 => ⟨⟨⟨0, 0⟩, ⟨1, 0⟩⟩, ⟨⟨0, 0⟩, ⟨0, 0⟩⟩⟩
  | 3 => ⟨⟨⟨0, 0⟩, ⟨0, 0⟩⟩, ⟨⟨-1, 0⟩, ⟨1, 0⟩⟩⟩
  | 4 => ⟨⟨⟨0, 1⟩, ⟨0, 0⟩⟩, ⟨⟨0, 0⟩, ⟨0, 0⟩⟩⟩
  | 5 => ⟨⟨⟨0, 0⟩, ⟨0, 0⟩⟩, ⟨⟨1, 1⟩, ⟨-1, 0⟩⟩⟩
  | 6 => ⟨⟨⟨0, 0⟩, ⟨-1, 1⟩⟩, ⟨⟨0, 0⟩, ⟨0, 0⟩⟩⟩
  | 7 => ⟨⟨⟨0, 0⟩, ⟨0, 0⟩⟩, ⟨⟨-1, -1⟩, ⟨0, 1⟩⟩⟩
  | _ => Z8.zero

/-- 2·cos(kπ/16): the cosine has period 32 in k, is even, and changes its sign about k = 8. -/
def twoCos (k : Nat) : Z8 :=
  let r := k % 32
  let m := if r ≤ 16 then r else 32 - r
  if m ≤ 8 then twoCosSmall m else (twoCosSmall (16 - m)).neg

/-- 4·C(u, i) = 2·α(u)·cos((2i+1)uπ/16) (41_transform.md R200): √2 for u = 0, and 2·cos((2i+1)uπ/16) for u ≥ 1. -/
def basis4 (u i : Nat) : Z8 := if u = 0 then twoCos 4 else twoCos ((2 * i + 1) * u)

/-- f 0 + ... + f 7. -/
def Z8.sum8 (f : Nat → Z8) : Z8 := (List.range 8).foldl (fun acc i => acc.add (f i)) Z8.zero

/-- 16·X(u,v) for the level-shifted samples t(i,j) = s(i,j) − 128 (41_transform.md R201):
X(u,v) = Σ_i Σ_j C(u,i)·t(i,j)·C(v,j). -/
def forward16 (t : Nat → Nat → Int) (u v : Nat) : Z8 :=
  Z8.sum8 fun i => (basis4 u i).mul (Z8.sum8 fun j => (basis4 v j).smul (t i j))

/-- 16·Y(i,j) for the coefficients F(u,v) (41_transform.md R204): Y(i,j) = Σ_u Σ_v C(u,i)·F(u,v)·C(v,j). -/
def inverse16 (f : Nat → Nat → Int) (i j : Nat) : Z8 :=
  Z8.sum8 fun u => (basis4 u i).mul (Z8.sum8 fun v => (basis4 v j).smul (f u v))

/-- An integer of the band lo..hi chosen by the draw `d` (41_transform.md R205, log 12); the band has one member when
lo = hi. -/
def bandPick (lo hi : Int) (d : Nat) : Int := if hi ≤ lo then lo else lo + ((d : Int) % (hi - lo + 1))

/-- The FDCT result before saturation for the exact value x = p/16: a member of Tf(x) = the integers trunc(y) with
|y − x| ≤ ε, ε = n/m (41_transform.md R205); trunc(x) when ε = 0. -/
def forwardPick (p : Z8) (n m : Nat) (d : Nat) : Int :=
  if n = 0 then p.truncDiv 16
  else
    bandPick (((p.smul m).add (Z8.ofInt (-(16 * n)))).truncDiv (16 * m))
      (((p.smul m).add (Z8.ofInt (16 * n))).truncDiv (16 * m)) d

/-- round_hu(z) + 128 = floor(z + 1/2) + 128 for z = p/(16·m) (00_scope.md R11). -/
def roundHuShift (p : Z8) (m : Nat) : Int := ((p.smul 2).add (Z8.ofInt (16 * m))).floorDiv (32 * m) + 128

/-- The IDCT result before saturation for the exact value y = p/16: a member of Ti(y) = the integers round_hu(z) + 128
with |z − y| ≤ ε, ε = n/m (41_transform.md R205); round_hu(y) + 128 when ε = 0. -/
def inversePick (p : Z8) (n m : Nat) (d : Nat) : Int :=
  if n = 0 then roundHuShift p 1
  else
    bandPick (roundHuShift ((p.smul m).add (Z8.ofInt (-(16 * n)))) m)
      (roundHuShift ((p.smul m).add (Z8.ofInt (16 * n))) m) d

end Sys2Proof.Machine
end

