-- ==== Sys2Proof/Machine/Transform.lean ====
section
/-! DEFINITION. The BlockTransform commands FDCT and IDCT (spec/41_transform.md R202, R203, R205 to R207). -/

namespace Sys2Proof.Machine

/-- Element (row, column) of a block as an integer (00_scope.md R14). -/
def elemAt (b : Block) (row col : Nat) : Int := (b[8 * row + col]?.getD 0).toInt

/-- The forward transform of a block (41_transform.md R202): element 8u+v is sat32 of a member of Tf(X(u,v)). -/
def fdctBlock (p : Params) (draw : Nat) (s : Block) : Block :=
  blockOf fun k =>
    sat32 (forwardPick (forward16 (fun i j => elemAt s i j - 128) (k.val / 8) (k.val % 8)) p.epsNum p.epsDen
      (Config.bandDraw draw k.val))

/-- The inverse transform of a block (41_transform.md R203): element 8i+j is sat32 of a member of Ti(Y(i,j)); it is not
clamped to 0..255 (R207). -/
def idctBlock (p : Params) (draw : Nat) (f : Block) : Block :=
  blockOf fun k =>
    sat32 (inversePick (inverse16 (elemAt f) (k.val / 8) (k.val % 8)) p.epsNum p.epsDen (Config.bandDraw draw k.val))

/-- The count of drawn free values after a transform: one draw when the band is open (log 12). -/
def State.drawsAfterBand (s : State) : Nat := if s.cfg.epsNum = 0 then s.draws else s.draws + 1

/-- FDCT (41_transform.md R202). -/
def execFdct (s : State) : Host.Outcome State Fault Refusal :=
  commit s (.ok { s with wb := fdctBlock s.cfg s.draws s.wb, draws := s.drawsAfterBand })

/-- IDCT (41_transform.md R203). -/
def execIdct (s : State) : Host.Outcome State Fault Refusal :=
  commit s (.ok { s with wb := idctBlock s.cfg s.draws s.wb, draws := s.drawsAfterBand })

end Sys2Proof.Machine
end

