-- ==== Sys2Proof/Machine/Dispatch.lean ====
section
/-! DEFINITION. One arm per command (spec/30_encoding.md R152). -/

namespace Sys2Proof.Machine

/-- The meaning of each command. -/
def exec (i : Instr) (s : State) : Host.Outcome State Fault Refusal :=
  match i with
  | .nop => Sys2Proof.Machine.execNop s
  | .dcreset => Sys2Proof.Machine.execDcreset s
  | .bwreset => Sys2Proof.Machine.execBwreset s
  | .brreset => Sys2Proof.Machine.execBrreset s
  | .refclr => Sys2Proof.Machine.execRefclr s
  | .wbclr => Sys2Proof.Machine.execWbclr s
  | .fdct => Sys2Proof.Machine.execFdct s
  | .idct => Sys2Proof.Machine.execIdct s
  | .quant ch => Sys2Proof.Machine.execQuant ch s
  | .dequant ch => Sys2Proof.Machine.execDequant ch s
  | .qscale tid q => Sys2Proof.Machine.execQscale tid q s
  | .qdefault tid => Sys2Proof.Machine.execQdefault tid s
  | .qload tid => Sys2Proof.Machine.execQload tid s
  | .zzscan => Sys2Proof.Machine.execZzscan s
  | .zzunscan => Sys2Proof.Machine.execZzunscan s
  | .rleenc ch => Sys2Proof.Machine.execRleenc ch s
  | .rledec ch => Sys2Proof.Machine.execRledec ch s
  | .hbuild cls tid => Sys2Proof.Machine.execHbuild cls tid s
  | .hdefault cls tid => Sys2Proof.Machine.execHdefault cls tid s
  | .henc ch => Sys2Proof.Machine.execHenc ch s
  | .hdec ch => Sys2Proof.Machine.execHdec ch s
  | .hflush => Sys2Proof.Machine.execHflush s
  | .refsave ch bx row => Sys2Proof.Machine.execRefsave ch bx row s
  | .msearch ch bx row => Sys2Proof.Machine.execMsearch ch bx row s
  | .resid => Sys2Proof.Machine.execResid s
  | .recon => Sys2Proof.Machine.execRecon s
  | .mvload ch mv bx row => Sys2Proof.Machine.execMvload ch mv bx row s

end Sys2Proof.Machine
end

