-- ==== Sys2Proof/Machine/Engine.lean ====
section
/-! DEFINITION. The command engine's turn and the dispatch of one event (spec/60_exceptions.md R432 to R439;
spec/20_memory.md R114; log 1). -/

namespace Sys2Proof.Machine

/-- The fault record of a word that is no command (30_encoding.md R153; 60_exceptions.md R431). -/
def illegalFault (e : DecodeError) : CmdFault := ⟨.illegal, e.detail⟩

/-- Executing a captured word (60_exceptions.md R438): decode it, then run its rule or raise E_ILLEGAL. -/
def execWord (w : Word) (s : State) : Host.Outcome State Fault Refusal :=
  match decode w with
  | .ok i => exec i s
  | .error e => .next (s.raise (illegalFault e))

/-- A turn of the command engine: the captured command runs to its end; with none captured the CORE idles
(60_exceptions.md R449, log 3). -/
def engineTurn (s : State) : Host.Outcome State Fault Refusal :=
  match s.pending with
  | none => .next s
  | some w => execWord w s

/-- One event on a state it has been taken off from: a host access, an engine turn, or the reset input
(20_memory.md R114: events are totally ordered). -/
def runEvent (e : Event) (s : State) : Host.Outcome State Fault Refusal :=
  match e with
  | .access a => .next (hostAccess a s)
  | .engine => engineTurn s
  | .hardReset => .next s.resetNow

/-- A command word captured as if a CMD write had just been accepted, with the engine's turn next (log 2). -/
def State.captured (s : State) (w : Word) : State := { s with pending := some w, env := Event.engine :: s.env }

end Sys2Proof.Machine
end

