-- ==== Sys2Proof/Machine/Step.lean ====
section
/-! DEFINITION. One step of the machine: the next event of the schedule, or the engine's turn when none is left (log 1). -/

namespace Sys2Proof.Machine

/-- One step (spec/20_memory.md R114): the first event of `env` is taken off and happens; when no event is left the
engine has the turn, so every accepted command ends (70_reset_and_hazards.md R490). -/
def step (s : State) : Host.Outcome State Fault Refusal :=
  match s.env with
  | [] => engineTurn s
  | e :: rest => runEvent e { s with env := rest }

/-- `s` with the word `w` captured as the pending command and the engine's turn next, so that the next step decodes and
runs exactly it (log 2). `nbits` says where the table's bits end; the bits above them are zero. -/
def State.withFetchWord (s : State) (nbits w : Nat) : State := s.captured (BitVec.ofNat 32 (w % 2 ^ nbits))

end Sys2Proof.Machine
end

