-- ==== Sys2Proof/Safety.lean ====
section
/-! DEFINITION. What the spec promises of every reachable state, as predicates on a state: the invariants that every step
keeps (spec/10_state.md R37, R48 to R54; 42_quantizer.md R232; 44_huffman.md R301, R302, R322; 60_exceptions.md R436). Then
the terms the statements are written in: the spec's formulas as mathematics, apart from how the machine computes them. -/

namespace Sys2Proof.Machine

/-- The chip's parameters have legal values (00_scope.md R8). -/
def State.paramsLegal (s : State) : Prop := s.cfg.legal = true

/-- Every entry of both quantization tables is in 1..255 (42_quantizer.md R232; an entry is a byte). -/
def State.quantLegal (s : State) : Prop := ∀ k : Fin 64, s.qt0[k] ≠ 0 ∧ s.qt1[k] ≠ 0

/-- A slot's LEN is at most 16 and its CODE fits in LEN bits (44_huffman.md R301). -/
def Slot.legal (t : Slot) : Prop := t.len.toNat ≤ 16 ∧ t.code.toNat < 2 ^ t.len.toNat

/-- Code a is a prefix of code b (44_huffman.md R302): both exist, a is no longer, and b begins with a. -/
def Slot.prefixOf (a b : Slot) : Prop :=
  a.len ≠ 0 ∧ b.len ≠ 0 ∧ a.len.toNat ≤ b.len.toNat ∧ b.code.toNat / 2 ^ (b.len.toNat - a.len.toNat) = a.code.toNat

/-- A legal, prefix-free table (44_huffman.md R301, R302). -/
def tableLegal {n : Nat} (t : Vector Slot n) : Prop :=
  (∀ a : Fin n, t[a].legal) ∧ ∀ a b : Fin n, a ≠ b → ¬ t[a].prefixOf t[b]

/-- Each of the four Huffman tables is legal and prefix-free (44_huffman.md R302). -/
def State.huffLegal (s : State) : Prop :=
  tableLegal s.hdc0 ∧ tableLegal s.hdc1 ∧ tableLegal s.hac0 ∧ tableLegal s.hac1

/-- The bit writer and OUTBUF (10_state.md R48, R49; 44_huffman.md R322): no bit of BWACC at or above BWN, OUTPTR at most
OUT_SIZE, the buffer canonical and within its size, every byte below OUTPTR written. -/
def State.writerLegal (s : State) : Prop :=
  s.bwacc.toNat < 2 ^ s.bwn.toNat ∧ s.outptr.toNat ≤ s.cfg.outSize ∧ Memory.wf s.outbuf = true ∧
    Sparse.below s.cfg.outSize s.outbuf = true ∧ ∀ i < s.outptr.toNat, (Sparse.get s.outbuf i).isSome = true

/-- INBUF and the cursor (10_state.md R50, R51): INLEN and INPOS at most IN_SIZE, INBITS at most 8, a current byte exists
while bits of it are left, the buffer canonical and within its size. -/
def State.readerLegal (s : State) : Prop :=
  s.inlen.toNat ≤ s.cfg.inSize ∧ s.inpos.toNat ≤ s.cfg.inSize ∧ s.inbits.toNat ≤ 8 ∧
    (0 < s.inbits.toNat → 0 < s.inpos.toNat) ∧ Memory.wf s.inbuf = true ∧ Sparse.below s.cfg.inSize s.inbuf = true

/-- The grid sizes do not pass the implemented maximum (10_state.md R53). -/
def State.gridLegal (s : State) : Prop :=
  ∀ ch : Chan, (s.gridOf ch).gw.toNat ≤ s.cfg.gridMaxW ∧ (s.gridOf ch).gh.toNat ≤ s.cfg.gridMaxH

/-- The reference store is canonical and lists only cells of the implemented grids (10_state.md R54). -/
def State.refLegal (s : State) : Prop :=
  Sparse.wf s.ref = true ∧
    ∀ c ∈ s.ref, ∃ (ch : Chan) (x y : Nat), x < s.cfg.gridMaxW ∧ y < s.cfg.gridMaxH ∧ c.1 = refKey ch x y

/-- The fault record (10_state.md R43, R45, R46; 60_exceptions.md R431, R436): without a fault it is zero, with one
ERRCODE is a code of R431, and no command is in progress while a fault is pending. -/
def State.faultRecordLegal (s : State) : Prop :=
  (s.err = false → s.errCode = 0 ∧ s.errInfo = 0 ∧ s.errDetail = 0) ∧
    (s.err = true → (1 ≤ s.errCode.toNat ∧ s.errCode.toNat ≤ 0x0E) ∧ s.busy = false)

/-! ## Fault records -/

/-- The state after a fault of a command that started in `s` (60_exceptions.md R433): the fault record, BUSY 0, and nothing
else. -/
def State.faulted (s : State) (code : Byte) (detail : Word) : State :=
  { s with errCode := code, errInfo := s.cmdWord, errDetail := detail, err := true, pending := none }

/-- The fault codes each command can raise besides E_ILLEGAL (60_exceptions.md R431, column "raised by"). -/
def commandFaults : Instr → List Byte
  | .qscale _ _ => [0x02]
  | .qload _ => [0x03]
  | .rleenc _ => [0x04]
  | .rledec _ => [0x05, 0x04]
  | .hbuild _ _ => [0x06]
  | .henc _ => [0x05, 0x07, 0x08]
  | .hflush => [0x08]
  | .hdec _ => [0x09, 0x0A, 0x0B, 0x0C]
  | .refsave _ _ _ => [0x0D]
  | .msearch _ _ _ => [0x0D]
  | .mvload _ _ _ _ => [0x0D, 0x0E]
  | .nop | .dcreset | .bwreset | .brreset | .refclr | .wbclr | .fdct | .idct | .quant _ | .dequant _ | .qdefault _
  | .zzscan | .zzunscan | .hdefault _ _ | .resid | .recon => []

/-! ## Encodings -/

/-- The opcodes that no command has (30_encoding.md R153, case 1). -/
def unassignedOps : List (BitVec 6) :=
  [0x06, 0x07, 0x0A, 0x0B, 0x0C, 0x0D, 0x0E, 0x0F, 0x15, 0x16, 0x17, 0x1C, 0x1D, 0x1E, 0x1F, 0x25, 0x26, 0x27] ++
  [0x2D, 0x2E, 0x2F, 0x30, 0x31, 0x32, 0x33, 0x34, 0x35, 0x36, 0x37, 0x38, 0x39, 0x3A, 0x3B, 0x3C, 0x3D, 0x3E, 0x3F]

/-- The bits that each format reserves (30_encoding.md R143). -/
def reservedBits : Format → Word
  | .z => 0x03FFFFFF
  | .c => 0x00FFFFFF
  | .t => 0x03FEFFFF
  | .q => 0x03FEFF80
  | .h => 0x03FCFFFF
  | .g => 0x00FF0000
  | .m => 0x00000000

/-- The formats that carry a channel (30_encoding.md R142). -/
def hasChannel : Format → Bool
  | .c | .g | .m => true
  | .z | .t | .q | .h => false

/-! ## The host bus -/

/-- The byte addresses that the register map lists (20_memory.md R110), as the ranges of its rows. -/
def busMapped (p : Params) (a : Nat) : Prop :=
  a < 0x6C ∨ (0x100 ≤ a ∧ a < 0x140) ∨ (0x400 ≤ a ∧ a < 0x800) ∨ (0x800 ≤ a ∧ a < 0x900) ∨ (0x900 ≤ a ∧ a < 0xA00) ∨
    (0xA00 ≤ a ∧ a < 0xB00) ∨ (0xB00 ≤ a ∧ a < 0xC00) ∨ (0xC00 ≤ a ∧ a < 0xD00) ∨ (0xD00 ≤ a ∧ a < 0xD30) ∨
    (0xD40 ≤ a ∧ a < 0xD70) ∨ (0x1000 ≤ a ∧ a < 0x1400) ∨ (0x1400 ≤ a ∧ a < 0x1800) ∨
    (0x10000 ≤ a ∧ a < 0x10000 + 4 * p.outSize) ∨ (0x20000 ≤ a ∧ a < 0x20000 + 4 * p.inSize)

/-- An access the CORE answers without a bus error (20_memory.md R101, R109). -/
def busAllowed (p : Params) (size : AccessSize) (a : BusAddr) : Prop :=
  size = .word ∧ a.toNat % 4 = 0 ∧ busMapped p a.toNat

/-- A host read at byte address `a` answers `x` without error and changes nothing else (20_memory.md R108). -/
def State.readsAs (s : State) (a : Nat) (x : Word) : Prop :=
  hostAccess (.read .word (BitVec.ofNat 18 a)) s = { s with resp := some ⟨x, false⟩ }

/-- A host write of `v` at byte address `a` is answered without error and leaves the state `t` (20_memory.md R108). -/
def State.writesTo (s : State) (v : Word) (a : Nat) (t : State) : Prop :=
  hostAccess (.write .word (BitVec.ofNat 18 a) v) s = { t with resp := some ⟨0, false⟩ }

/-! ## The transform -/

/-- Element (i, j) of a block, row i and column j (00_scope.md R14). -/
def blockAt (b : Block) (i j : Fin 8) : Int := (b[8 * i.val + j.val]'(by omega)).toInt

/-- x rounded toward zero to an integer (00_scope.md R11). -/
noncomputable def truncReal (x : ℝ) : Int := if x < 0 then ⌈x⌉ else ⌊x⌋

/-- x rounded to the nearest integer, ties upward: floor(x + 1/2) (00_scope.md R11). -/
noncomputable def roundReal (x : ℝ) : Int := ⌊x + 1 / 2⌋

/-- An integer saturated to s32 (00_scope.md R10). -/
def satInt (v : Int) : Int := min (max v (-2 ^ 31)) (2 ^ 31 - 1)

/-- α(0) = 1/√2, else α = 1 (41_transform.md R200). -/
noncomputable def dctAlpha (u : Fin 8) : ℝ := if u = 0 then 1 / √2 else 1

/-- cos((2i+1)uπ/16) (41_transform.md R201). -/
noncomputable def dctCos (i u : Fin 8) : ℝ := Real.cos ((2 * (i.val : ℝ) + 1) * (u.val : ℝ) * Real.pi / 16)

/-- X(u,v) as 41_transform.md R201 writes it. -/
noncomputable def forwardReal (b : Block) (u v : Fin 8) : ℝ :=
  1 / 4 * dctAlpha u * dctAlpha v * ∑ i : Fin 8, ∑ j : Fin 8, ((blockAt b i j : ℝ) - 128) * dctCos i u * dctCos j v

/-- Y(i,j) as 41_transform.md R204 writes it. -/
noncomputable def inverseReal (b : Block) (i j : Fin 8) : ℝ :=
  1 / 4 * ∑ u : Fin 8, ∑ v : Fin 8, dctAlpha u * dctAlpha v * (blockAt b u v : ℝ) * dctCos i u * dctCos j v

/-- The conformance band DCT_EPS (41_transform.md R205). -/
noncomputable def dctEps (p : Params) : ℝ := (p.epsNum : ℝ) / (p.epsDen : ℝ)

/-! ## Quantization tables, predictors and Huffman tables by name -/

/-- QT0 or QT1 by table id (42_quantizer.md R230). -/
def State.quantTable (s : State) (tid : TableId) : QTable := if tid = .luma then s.qt0 else s.qt1

/-- The divisor of element k for a channel (42_quantizer.md R230). -/
def State.divisor (s : State) (ch : Chan) (k : Fin 64) : Nat := if ch = .y then s.qt0[k].toNat else s.qt1[k].toNat

/-- The slot of symbol `y` in table(CLS, TID); no code beyond the table's slots (44_huffman.md R300, R301). -/
def State.huffSlot (s : State) (cls : TableClass) (tid : TableId) (y : Nat) : Slot :=
  match cls, tid with
  | .dc, .luma => s.hdc0[y]?.getD ⟨0, 0⟩
  | .dc, .chroma => s.hdc1[y]?.getD ⟨0, 0⟩
  | .ac, .luma => s.hac0[y]?.getD ⟨0, 0⟩
  | .ac, .chroma => s.hac1[y]?.getD ⟨0, 0⟩

/-- The table id a channel uses in HENC and HDEC (44_huffman.md R300). -/
def huffTableId (ch : Chan) : TableId := if ch = .y then .luma else .chroma

/-- The number of slots of a table (44_huffman.md R305). -/
def slotCount : TableClass → Nat
  | .dc => 12
  | .ac => 256

/-- The default definition of table(CLS, TID) (44_huffman.md R303). -/
def defaultDef (p : Params) : TableClass → TableId → HuffDef
  | .dc, .luma => p.defaultHdc0
  | .dc, .chroma => p.defaultHdc1
  | .ac, .luma => p.defaultHac0
  | .ac, .chroma => p.defaultHac1

/-- The code lengths in the order of VALS: BITS[1] times 1, BITS[2] times 2, ..., BITS[16] times 16 (44_huffman.md
R305). -/
def codeLengths (bits : Vector Byte 16) : List Nat :=
  (List.finRange 16).flatMap fun n => List.replicate bits[n].toNat (n.val + 1)

/-- The Kraft sum of code lengths, times 2^16 (44_huffman.md R305, "the Kraft sum exceeds 1"). -/
def kraft16 (lens : List Nat) : Nat := (lens.map fun l => 2 ^ (16 - l)).sum

/-- The canonical code of the i-th listed symbol: each earlier code takes 2^(Lᵢ − Lⱼ) codes of its length (44_huffman.md
R304, R305). -/
def canonicalCode (lens : List Nat) (i : Nat) : Nat := ((lens.take i).map fun l => 2 ^ (lens.getD i 0 - l)).sum

/-- The table that a definition describes (44_huffman.md R304, R305): the i-th listed symbol has the i-th length and its
canonical code, every other symbol has no code. -/
def isCanonicalTable (slots : Nat → Slot) (d : HuffDef) : Prop :=
  (∀ i : Fin 256, i.val < (codeLengths d.bits).length →
      (slots d.vals[i].toNat).len.toNat = (codeLengths d.bits).getD i.val 0 ∧
        (slots d.vals[i].toNat).code.toNat = canonicalCode (codeLengths d.bits) i.val) ∧
    ∀ y : Nat, (∀ i : Fin 256, i.val < (codeLengths d.bits).length → d.vals[i].toNat ≠ y) → slots y = ⟨0, 0⟩

/-! ## Run-length symbols -/

/-- The values of the 63 AC coefficients in scan order (43_zigzag_rle.md R261). -/
def acScan (b : Block) : List Int := (List.finRange 63).map fun k => b[zz k.succ].toInt

/-- What symbols stand for (43_zigzag_rle.md R268): each its run of zeros and then its amplitude. -/
def spreadAc (ac : List Sym) : List Int := ac.flatMap fun y => List.replicate y.run.toNat 0 ++ [y.amp]

/-- A list filled up with zeros to 63 entries (43_zigzag_rle.md R268, "any position never reached is zero"). -/
def padAc (l : List Int) : List Int := l ++ List.replicate (63 - l.length) 0

/-- A well-formed DC symbol (43_zigzag_rle.md R266: "Amplitudes lie in −32767..32767", which for a 16-bit field is
a ≠ −32768). -/
def Sym.isDc (y : Sym) : Prop := y.run = -1 ∧ |y.amp| ≤ 32767 ∧ y.size = y.amp.natAbs.size

/-- A well-formed AC symbol other than EOB (43_zigzag_rle.md R266). -/
def Sym.isAc (y : Sym) : Prop := 0 ≤ y.run ∧ y.amp ≠ 0 ∧ |y.amp| ≤ 32767 ∧ y.size = y.amp.natAbs.size

/-- The AC positions that symbols use (43_zigzag_rle.md R266). -/
def acPositions (ac : List Sym) : Nat := (ac.map fun y => y.run.toNat + 1).sum

/-- A well-formed symbol sequence (43_zigzag_rle.md R266): one DC symbol, then AC symbols that use all 63 positions, or
fewer and an EOB. -/
def symsWellFormed (l : List Sym) : Prop :=
  ∃ y ac, l = y :: ac ∧ y.isDc ∧
    ((∀ z ∈ ac, z.isAc) ∧ acPositions ac = 63 ∨
      ∃ pre, ac = pre ++ [Sym.eob] ∧ (∀ z ∈ pre, z.isAc) ∧ acPositions pre < 63)

/-! ## The bitstream -/

/-- The n low bits of v, most significant first (20_memory.md R104). -/
def msbBits (v n : Nat) : List Bool := (List.range n).map fun j => v.testBit (n - 1 - j)

/-- The code of a slot as bits (44_huffman.md R301). -/
def codeBits (t : Slot) : List Bool := msbBits t.code.toNat t.len.toNat

/-- The amplitude field: the low s bits of a, or of a − 1 when a < 0 (44_huffman.md R323). -/
def ampField (a : Int) (s : Nat) : List Bool := msbBits (BitVec.ofInt s (if 0 ≤ a then a else a - 1)).toNat s

/-- The bits of the DC symbol (44_huffman.md R324). -/
def dcSymBits (dc : Nat → Slot) (y : Sym) : List Bool := codeBits (dc y.size) ++ ampField y.amp y.size

/-- The bits of k ZRL codes (44_huffman.md R324). -/
def zrlBits (ac : Nat → Slot) (k : Nat) : List Bool := (List.replicate k (codeBits (ac 0xF0))).flatten

/-- The bits of an AC symbol (44_huffman.md R324): EOB is its code; else a ZRL code per full 16 of the run, the code of
(run mod 16, size), and the amplitude field. -/
def acSymBits (ac : Nat → Slot) (y : Sym) : List Bool :=
  if y = Sym.eob then codeBits (ac 0x00)
  else
    zrlBits ac (y.run.toNat / 16) ++ codeBits (ac (y.run.toNat % 16 * 16 + y.size)) ++ ampField y.amp y.size

/-- The bits of a block's symbols (44_huffman.md R324). -/
def blockBits (dc ac : Nat → Slot) : List Sym → List Bool
  | [] => []
  | y :: ys => dcSymBits dc y ++ ys.flatMap (acSymBits ac)

/-- The bits that HDEC reads as the symbols l (44_huffman.md R335): those of R324, or, for a block that ends in EOB, the
same with k ZRL codes before the EOB ("accepted and their zeros dropped"). -/
def readsAsBlock (dc ac : Nat → Slot) (l : List Sym) (bits : List Bool) : Prop :=
  bits = blockBits dc ac l ∨
    ∃ y pre k, l = y :: (pre ++ [Sym.eob]) ∧ (1 ≤ k → (ac 0xF0).len ≠ 0) ∧ acPositions pre + 16 * k ≤ 63 ∧
      bits = blockBits dc ac (y :: pre) ++ zrlBits ac k ++ codeBits (ac 0x00)

/-- The table has the codes that an AC symbol needs (44_huffman.md R324). -/
def acCoded (ac : Nat → Slot) (y : Sym) : Prop :=
  if y = Sym.eob then (ac 0x00).len ≠ 0
  else (16 ≤ y.run → (ac 0xF0).len ≠ 0) ∧ (ac (y.run.toNat % 16 * 16 + y.size)).len ≠ 0

/-- The tables have every code that a block's symbols need (44_huffman.md R324). -/
def blockCoded (dc ac : Nat → Slot) (l : List Sym) : Prop :=
  ∃ y ys, l = y :: ys ∧ (dc y.size).len ≠ 0 ∧ ∀ z ∈ ys, acCoded ac z

/-- The pending bits of the bit write buffer, oldest first (10_state.md R48). -/
def State.pendingBits (s : State) : List Bool := msbBits s.bwacc.toNat s.bwn.toNat

/-- The value of bits, most significant first. -/
def bitsValue (l : List Bool) : Nat := l.foldl (fun v b => 2 * v + b.toNat) 0

/-- The whole bytes of a bit sequence, in order (20_memory.md R104). -/
def packBytes : List Bool → List Byte
  | b7 :: b6 :: b5 :: b4 :: b3 :: b2 :: b1 :: b0 :: rest =>
    BitVec.ofNat 8 (bitsValue [b7, b6, b5, b4, b3, b2, b1, b0]) :: packBytes rest
  | _ => []

/-- The bits after the last whole byte (44_huffman.md R320). -/
def packRest : List Bool → List Bool
  | _ :: _ :: _ :: _ :: _ :: _ :: _ :: _ :: rest => packRest rest
  | l => l

/-- Byte stuffing: a 0x00 after every 0xFF (20_memory.md R105, 44_huffman.md R321). -/
def stuffBytes (l : List Byte) : List Byte := l.flatMap fun b => if b = 0xFF then [b, 0x00] else [b]

/-- The data bits of stuffed bytes, given the byte before them (20_memory.md R105; 44_huffman.md R330, R331). -/
def unstuffBits : Byte → List Byte → List Bool
  | _, [] => []
  | prev, b :: bs =>
    if prev = 0xFF ∧ b = 0x00 then unstuffBits 0x00 bs else msbBits b.toNat 8 ++ unstuffBits b bs

/-- The bits that the decoder has before it (10_state.md R51): the unconsumed bits of the current byte, then the data bits
of INBUF[INPOS..INLEN−1]. -/
def State.cursorBits (s : State) : List Bool :=
  msbBits (s.inStream.byte (s.inpos.toNat - 1)).toNat s.inbits.toNat ++
    unstuffBits s.inprev
      ((List.range (s.inlen.toNat - s.inpos.toNat)).map fun j => s.inStream.byte (s.inpos.toNat + j))

/-- The bits from the cursor up to INBUF[p]: the unconsumed bits of the current byte, then the data bits of
INBUF[INPOS..p−1] (44_huffman.md R330). -/
def State.bitsUpTo (s : State) (p : Nat) : List Bool :=
  msbBits (s.inStream.byte (s.inpos.toNat - 1)).toNat s.inbits.toNat ++
    unstuffBits s.inprev ((List.range (p - s.inpos.toNat)).map fun j => s.inStream.byte (s.inpos.toNat + j))

/-- The cursor of t is the one of s after n bits (44_huffman.md R330): INPOS is the first position up to which there are n
bits, so a stuffing byte after the last consumed byte is left; INBITS counts the bits of the last byte that are left;
INPREV is the last byte consumed. -/
def State.cursorAfter (s t : State) (n : Nat) : Prop :=
  s.inpos.toNat ≤ t.inpos.toNat ∧ n ≤ (s.bitsUpTo t.inpos.toNat).length ∧
    (∀ p, s.inpos.toNat ≤ p → p < t.inpos.toNat → (s.bitsUpTo p).length < n) ∧
    t.inbits.toNat = (s.bitsUpTo t.inpos.toNat).length - n ∧
    t.inprev = if t.inpos = s.inpos then s.inprev else s.inStream.byte (t.inpos.toNat - 1)

/-! ## Motion -/

/-- The sum of squared differences of two blocks (45_motion.md R366). -/
def sumSquares (a b : Block) : Nat := ∑ k : Fin 64, ((a[k].toInt - b[k].toInt) ^ 2).toNat

/-- (dx, dy) is visited no later than (dx', dy') (45_motion.md R365). -/
def visitedNoLater (o : SearchOrder) (dx dy dx' dy' : Int) : Prop :=
  match o with
  | .rowMajor => dy < dy' ∨ (dy = dy' ∧ dx ≤ dx')
  | .columnMajor => dx < dx' ∨ (dx = dx' ∧ dy ≤ dy')

/-- The block (bx, by) is in the channel's grid (45_motion.md R361, R362). -/
def State.queryInGrid (s : State) (ch : Chan) (bx row : Nat) : Prop :=
  match ch with
  | .y => bx < s.grid0.gw.toNat ∧ row < s.grid0.gh.toNat
  | .cb => bx < s.grid1.gw.toNat ∧ row < s.grid1.gh.toNat
  | .cr => bx < s.grid2.gw.toNat ∧ row < s.grid2.gh.toNat

end Sys2Proof.Machine
end

