-- ==== Sys2Proof/Certificates/Slice0/Obligations.lean ====
section
/-! DEFINITION. The statements for the provers, from the numbered rules of spec/. Each docstring names its rule. A statement
of a command's result has the command's answer as its conclusion: it completes, for every state and operands that meet the
hypotheses; the equation for the next state (or `t = { s with ... }`) is its frame: nothing outside the named fields
changes, memory included. -/

open Sys2Proof Sys2Proof.Machine

/-! ## Encoding -/

/-- 30_encoding.md R143, R144, R152: no bit of an encoding is dropped. -/
def Obligations.DecodeEncodeRoundTrip : Prop :=
  ∀ i : Instr, i.wf = true → decode (encode i) = .ok i

/-- 30_encoding.md R154: every word is at most one command, and that command has no other word. -/
def Obligations.DecodedWordIsItsEncoding : Prop :=
  ∀ (w : Word) (i : Instr), decode w = .ok i → i.wf = true ∧ encode i = w

/-- 30_encoding.md R153: the three cases in their order, and an illegal command changes only the fault record. -/
def Obligations.IllegalWordsInOrder : Prop :=
  ∀ w : Word,
    (decode w = .error .unassignedOp ↔ w.extractLsb' 26 6 ∈ unassignedOps) ∧
    (∀ m : Mnem, w.extractLsb' 26 6 = m.opcode →
      (decode w = .error .reservedBit ↔ w &&& reservedBits m.format ≠ 0) ∧
      (decode w = .error .channelThree ↔
        w &&& reservedBits m.format = 0 ∧ hasChannel m.format = true ∧ w.extractLsb' 24 2 = 3) ∧
      ((∃ i, decode w = .ok i ∧ i.mnem = m) ↔
        w &&& reservedBits m.format = 0 ∧ (hasChannel m.format = true → w.extractLsb' 24 2 ≠ 3))) ∧
    ∀ (s : State) (e : DecodeError), s.env = [] → s.pending = some w → decode w = .error e →
      step s =
        .next { s with
          errCode := 0x01
          errInfo := w
          errDetail := (match e with | .unassignedOp => 0 | .reservedBit => 1 | .channelThree => 2)
          err := true
          pending := none }

/-- 30_encoding.md R152, R156: words of the tables, one or more of each format. -/
def Obligations.OpcodeTableWords : Prop :=
  decode 0x00000000 = .ok .nop ∧ decode 0x20000000 = .ok .fdct ∧ decode 0x40000000 = .ok (.quant .y) ∧
  decode 0x69000000 = .ok (.rleenc .cb) ∧ decode 0x50010000 = .ok (.qload .chroma) ∧
  decode 0x4800004B = .ok (.qscale .luma 75) ∧ decode 0x80030000 = .ok (.hbuild .ac .chroma) ∧
  decode 0xA0000102 = .ok (.refsave .y 2 1) ∧ decode 0xA5000403 = .ok (.msearch .cb 3 4) ∧
  decode 0xB0ED0302 = .ok (.mvload .y 0xED 2 3)

/-- 20_memory.md R114, 60_exceptions.md R438 and log 1: a step is the next event of the schedule; the engine's turn runs the
instruction that the captured word decodes to, and idles when none is captured. -/
def Obligations.StepRunsDecodedCommand : Prop :=
  ∀ (s : State) (rest : List Event),
    (∀ w i, s.pending = some w → decode w = .ok i →
      (s.env = [] → step s = exec i s) ∧ (s.env = .engine :: rest → step s = exec i { s with env := rest })) ∧
    (s.pending = none →
      (s.env = [] → step s = .next s) ∧ (s.env = .engine :: rest → step s = .next { s with env := rest })) ∧
    (∀ a, s.env = .access a :: rest → step s = .next (hostAccess a { s with env := rest })) ∧
    (s.env = .hardReset :: rest → step s = .next ({ s with env := rest } : State).resetNow)

/-! ## All commands -/

/-- 60_exceptions.md R431, R433, R434, R439: a command completes, or it raises a fault of its own with no other effect. -/
def Obligations.CommandsCompleteOrFault : Prop :=
  ∀ (i : Instr) (s : State), ∃ t, exec i s = .next t ∧ t.pending = none ∧
    ((t.cmdCnt = s.cmdCnt + 1 ∧ t.done = true ∧ t.err = s.err ∧ t.errCode = s.errCode ∧ t.errInfo = s.errInfo ∧
        t.errDetail = s.errDetail) ∨
      ∃ c ∈ commandFaults i, ∃ d, t = s.faulted c d)

/-- 10_state.md R33 to R39 and R48 to R55, "Command access": a command changes only the state that names it as a writer. -/
def Obligations.CommandsWriteOnlyTheirOwn : Prop :=
  ∀ (i : Instr) (s t : State), exec i s = .next t →
    (t.wb ≠ s.wb → i.mnem ∈ [.fdct, .idct, .quant, .dequant, .zzscan, .zzunscan, .rledec, .resid, .recon, .wbclr]) ∧
    (t.rb ≠ s.rb → i.mnem ∈ [.msearch, .mvload]) ∧
    (t.sym ≠ s.sym ∨ t.symn ≠ s.symn → i.mnem ∈ [.rleenc, .hdec]) ∧
    (t.lastDc0 ≠ s.lastDc0 → i = .rleenc .y ∨ i = .rledec .y ∨ i = .dcreset) ∧
    (t.lastDc1 ≠ s.lastDc1 → i = .rleenc .cb ∨ i = .rledec .cb ∨ i = .dcreset) ∧
    (t.lastDc2 ≠ s.lastDc2 → i = .rleenc .cr ∨ i = .rledec .cr ∨ i = .dcreset) ∧
    (t.qt0 ≠ s.qt0 ∨ t.qt1 ≠ s.qt1 → i.mnem ∈ [.qscale, .qdefault, .qload]) ∧
    (t.hdc0 ≠ s.hdc0 ∨ t.hdc1 ≠ s.hdc1 ∨ t.hac0 ≠ s.hac0 ∨ t.hac1 ≠ s.hac1 → i.mnem ∈ [.hbuild, .hdefault]) ∧
    (t.bwn ≠ s.bwn ∨ t.bwacc ≠ s.bwacc ∨ t.outptr ≠ s.outptr → i.mnem ∈ [.henc, .hflush, .bwreset]) ∧
    (t.outbuf ≠ s.outbuf → i.mnem ∈ [.henc, .hflush]) ∧
    (t.inpos ≠ s.inpos ∨ t.inbits ≠ s.inbits ∨ t.inprev ≠ s.inprev → i.mnem ∈ [.hdec, .brreset]) ∧
    (t.ref ≠ s.ref → i.mnem ∈ [.refsave, .refclr]) ∧
    (t.mv ≠ s.mv ∨ t.matchX ≠ s.matchX ∨ t.matchY ≠ s.matchY ∨ t.sse ≠ s.sse → i.mnem = .msearch) ∧
    (t.draws ≠ s.draws → i.mnem ∈ [.fdct, .idct]) ∧
    t.cfg = s.cfg ∧ t.hbits = s.hbits ∧ t.hvals = s.hvals ∧ t.ieDone = s.ieDone ∧ t.ieErr = s.ieErr ∧ t.drop = s.drop ∧
    t.inbuf = s.inbuf ∧ t.inlen = s.inlen ∧ t.radius = s.radius ∧ t.grid0 = s.grid0 ∧ t.grid1 = s.grid1 ∧
    t.grid2 = s.grid2 ∧ t.env = s.env ∧ t.resp = s.resp ∧ t.epoch = s.epoch

/-- 10_state.md R56: ZRES is written by RESID only, FOUND by MSEARCH only, both reset to 0, and no command reads either:
from states that differ in the flags alone, all results are equal, the flag a command writes included, and a flag it does
not write keeps its value (a MSEARCH that raises E_GRID writes nothing). -/
def Obligations.FlagsBelongToTwoCommands : Prop :=
  (State.reset.zres = false ∧ State.reset.found = false) ∧
  (∀ (i : Instr) (s t : State), exec i s = .next t →
    (i.mnem ≠ .resid → t.zres = s.zres) ∧ (i.mnem ≠ .msearch → t.found = s.found)) ∧
  ∀ (i : Instr) (s : State) (z f : Bool), ∃ t t',
    exec i s = .next t ∧ exec i { s with zres := z, found := f } = .next t' ∧
      t'.zres = (if i.mnem = .resid then t.zres else z) ∧
      t'.found = (if i.mnem = .msearch ∧ t.cmdCnt = s.cmdCnt + 1 then t.found else f) ∧
      t' = { t with zres := t'.zres, found := t'.found }

/-! ## Control -/

/-- 46_control.md R400, R401, R402, R403, R405. -/
def Obligations.ControlCommandResults : Prop :=
  (∀ s : State,
    exec .nop s = .next { s with cmdCnt := s.cmdCnt + 1, done := true, pending := none } ∧
    exec .dcreset s =
      .next { s with lastDc0 := 0, lastDc1 := 0, lastDc2 := 0, cmdCnt := s.cmdCnt + 1, done := true, pending := none } ∧
    exec .bwreset s =
      .next { s with bwn := 0, bwacc := 0, outptr := 0, cmdCnt := s.cmdCnt + 1, done := true, pending := none } ∧
    exec .brreset s =
      .next { s with inpos := 0, inbits := 0, inprev := 0, cmdCnt := s.cmdCnt + 1, done := true, pending := none } ∧
    exec .wbclr s =
      .next { s with wb := Vector.replicate 64 0, cmdCnt := s.cmdCnt + 1, done := true, pending := none }) ∧
  encode .nop = 0x00000000 ∧ encode .dcreset = 0x04000000 ∧ encode .bwreset = 0x08000000 ∧ encode .brreset = 0x0C000000 ∧
  encode .wbclr = 0x14000000

/-- 46_control.md R404: every VALID bit becomes 0, so no cell is usable; the data of every cell and all else stay. -/
def Obligations.RefclrInvalidatesEveryCell : Prop :=
  encode .refclr = 0x10000000 ∧
  ∀ s : State, ∃ t, exec .refclr s = .next t ∧
    (∀ key, Sparse.get t.ref key = (Sparse.get s.ref key).map fun c => { c with valid := false }) ∧
    (∀ (ch : Chan) (x y : Int), t.usable ch x y = none) ∧
    t = { s with ref := t.ref, cmdCnt := s.cmdCnt + 1, done := true, pending := none }

/-! ## Transform -/

/-- 41_transform.md R202 with R201 and R206, DCT_EPS = 0: each element is X(u,v) truncated, saturated to s32. -/
def Obligations.FdctExact : Prop :=
  encode .fdct = 0x20000000 ∧
  ∀ s : State, s.cfg.epsNum = 0 → ∃ t, exec .fdct s = .next t ∧
    (∀ u v : Fin 8, blockAt t.wb u v = satInt (truncReal (forwardReal s.wb u v))) ∧
    t = { s with wb := t.wb, cmdCnt := s.cmdCnt + 1, done := true, pending := none }

/-- 41_transform.md R203 with R204 and R206, DCT_EPS = 0: each element is round_hu(Y(i,j)) + 128, saturated to s32. -/
def Obligations.IdctExact : Prop :=
  encode .idct = 0x24000000 ∧
  ∀ s : State, s.cfg.epsNum = 0 → ∃ t, exec .idct s = .next t ∧
    (∀ i j : Fin 8, blockAt t.wb i j = satInt (roundReal (inverseReal s.wb i j) + 128)) ∧
    t = { s with wb := t.wb, cmdCnt := s.cmdCnt + 1, done := true, pending := none }

/-- 41_transform.md R205: for any DCT_EPS each element is a member of Tf or Ti, saturated. It holds whatever the free draws
are (log 12). -/
def Obligations.TransformsStayInBand : Prop :=
  ∀ s : State, 0 < s.cfg.epsDen →
    (∃ t, exec .fdct s = .next t ∧
      (∀ u v : Fin 8, ∃ y : ℝ, |y - forwardReal s.wb u v| ≤ dctEps s.cfg ∧ blockAt t.wb u v = satInt (truncReal y)) ∧
      t = { s with wb := t.wb, draws := t.draws, cmdCnt := s.cmdCnt + 1, done := true, pending := none }) ∧
    ∃ t, exec .idct s = .next t ∧
      (∀ i j : Fin 8, ∃ z : ℝ, |z - inverseReal s.wb i j| ≤ dctEps s.cfg ∧
        blockAt t.wb i j = satInt (roundReal z + 128)) ∧
      t = { s with wb := t.wb, draws := t.draws, cmdCnt := s.cmdCnt + 1, done := true, pending := none }

/-- 41_transform.md R202 (corner cases) and R209: a constant block of value c gives 8·(c − 128) and zeros, and comes back
exactly. -/
def Obligations.ConstantBlockTransforms : Prop :=
  ∀ (s : State) (c : Word), s.cfg.epsNum = 0 → |c.toInt - 128| < 2 ^ 28 → s.wb = Vector.replicate 64 c →
    ∃ t u, exec .fdct s = .next t ∧ t.wb[0].toInt = 8 * (c.toInt - 128) ∧ (∀ k : Fin 64, k ≠ 0 → t.wb[k] = 0) ∧
      exec .idct t = .next u ∧ u.wb = s.wb

/-- 41_transform.md R208: the bound 8·M, under which nothing saturates. -/
def Obligations.TransformRanges : Prop :=
  ∀ (s : State) (m : Nat), s.cfg.epsNum = 0 →
    (m < 2 ^ 28 → (∀ k : Fin 64, |s.wb[k].toInt - 128| ≤ m) →
      ∃ t, exec .fdct s = .next t ∧ ∀ k : Fin 64, |t.wb[k].toInt| ≤ 8 * m) ∧
    (m < 2 ^ 27 → (∀ k : Fin 64, |s.wb[k].toInt| ≤ m) →
      ∃ t, exec .idct s = .next t ∧ ∀ k : Fin 64, |t.wb[k].toInt - 128| ≤ 8 * m)

/-! ## Quantizer -/

/-- 42_quantizer.md R236 with R230: each element divided by its entry, truncated toward zero, with no overflow. -/
def Obligations.QuantResult : Prop :=
  [encode (.quant .y), encode (.quant .cb), encode (.quant .cr)] = [0x40000000, 0x41000000, 0x42000000] ∧
  ∀ (ch : Chan) (s : State), ∃ t, exec (.quant ch) s = .next t ∧
    (∀ k : Fin 64, t.wb[k].toInt = Int.tdiv s.wb[k].toInt (s.divisor ch k)) ∧
    t = { s with wb := t.wb, cmdCnt := s.cmdCnt + 1, done := true, pending := none }

/-- 42_quantizer.md R237 with R230: each element multiplied by its entry modulo 2^32. -/
def Obligations.DequantResult : Prop :=
  [encode (.dequant .y), encode (.dequant .cb), encode (.dequant .cr)] = [0x44000000, 0x45000000, 0x46000000] ∧
  ∀ (ch : Chan) (s : State), ∃ t, exec (.dequant ch) s = .next t ∧
    (∀ k : Fin 64, t.wb[k] = s.wb[k] * BitVec.ofNat 32 (s.divisor ch k)) ∧
    t = { s with wb := t.wb, cmdCnt := s.cmdCnt + 1, done := true, pending := none }

/-- 42_quantizer.md R238. -/
def Obligations.QuantThenDequantIsLossy : Prop :=
  ∀ (ch : Chan) (s : State), ∃ t u, exec (.quant ch) s = .next t ∧ exec (.dequant ch) t = .next u ∧
    ∀ k : Fin 64,
      u.wb[k].toInt = Int.tdiv s.wb[k].toInt (s.divisor ch k) * s.divisor ch k ∧
      (0 ≤ s.wb[k].toInt → u.wb[k].toInt = s.wb[k].toInt / s.divisor ch k * s.divisor ch k) ∧
      (s.wb[k].toInt < 0 → u.wb[k].toInt = -(|s.wb[k].toInt| / s.divisor ch k * s.divisor ch k))

/-- 42_quantizer.md R233: the scaled table for Q in 1..100, E_QPARAM with detail Q otherwise. -/
def Obligations.QscaleResult : Prop :=
  (∀ q < 128, (encode (.qscale .luma q)).toNat = 0x48000000 + q ∧ (encode (.qscale .chroma q)).toNat = 0x48010000 + q) ∧
  ∀ (tid : TableId) (q : Nat) (s : State),
    (1 ≤ q → q ≤ 100 → ∃ t, exec (.qscale tid q) s = .next t ∧
      (∀ k : Fin 64, (t.quantTable tid)[k].toNat =
        min (max (((s.quantTable tid)[k].toNat * (if q < 50 then 5000 / q else 200 - 2 * q) + 50) / 100) 1) 255) ∧
      (∀ tid' ≠ tid, t.quantTable tid' = s.quantTable tid') ∧
      t = { s with qt0 := t.qt0, qt1 := t.qt1, cmdCnt := s.cmdCnt + 1, done := true, pending := none }) ∧
    (q < 1 ∨ 100 < q → exec (.qscale tid q) s = .next (s.faulted 0x02 (BitVec.ofNat 32 q)))

/-- 42_quantizer.md R234. -/
def Obligations.QdefaultResult : Prop :=
  encode (.qdefault .luma) = 0x4C000000 ∧ encode (.qdefault .chroma) = 0x4C010000 ∧
  ∀ s : State,
    exec (.qdefault .luma) s =
      .next { s with qt0 := s.cfg.defaultQt0, cmdCnt := s.cmdCnt + 1, done := true, pending := none } ∧
    exec (.qdefault .chroma) s =
      .next { s with qt1 := s.cfg.defaultQt1, cmdCnt := s.cmdCnt + 1, done := true, pending := none }

/-- 42_quantizer.md R235: the table takes WB when every element is in 1..255, else E_QRANGE names the first that is not. -/
def Obligations.QloadResult : Prop :=
  encode (.qload .luma) = 0x50000000 ∧ encode (.qload .chroma) = 0x50010000 ∧
  ∀ (tid : TableId) (s : State),
    ((∀ k : Fin 64, 1 ≤ s.wb[k].toInt ∧ s.wb[k].toInt ≤ 255) → ∃ t, exec (.qload tid) s = .next t ∧
      (∀ k : Fin 64, ((t.quantTable tid)[k].toNat : Int) = s.wb[k].toInt) ∧
      (∀ tid' ≠ tid, t.quantTable tid' = s.quantTable tid') ∧
      t = { s with qt0 := t.qt0, qt1 := t.qt1, cmdCnt := s.cmdCnt + 1, done := true, pending := none }) ∧
    ∀ k : Fin 64, (∀ j < k, 1 ≤ s.wb[j].toInt ∧ s.wb[j].toInt ≤ 255) → (s.wb[k].toInt < 1 ∨ 255 < s.wb[k].toInt) →
      exec (.qload tid) s = .next (s.faulted 0x03 (BitVec.ofNat 32 k.val))

/-! ## Zigzag and run length -/

/-- 43_zigzag_rle.md R261 to R264: ZZ is a bijection that visits the anti-diagonals in turn, odd ones downwards and even ones
upwards; ZZSCAN gathers by it, ZZUNSCAN scatters by it, and each undoes the other. -/
def Obligations.ZigzagCommands : Prop :=
  ((∀ k : Fin 64, izz (zz k) = k ∧ zz (izz k) = k) ∧ zz 0 = 0 ∧ zz 63 = 63 ∧
    ∀ k l : Fin 64, k < l →
      (zz k).val / 8 + (zz k).val % 8 < (zz l).val / 8 + (zz l).val % 8 ∨
      ((zz k).val / 8 + (zz k).val % 8 = (zz l).val / 8 + (zz l).val % 8 ∧
        (if ((zz k).val / 8 + (zz k).val % 8) % 2 = 1 then (zz k).val / 8 < (zz l).val / 8
          else (zz l).val / 8 < (zz k).val / 8))) ∧
  encode .zzscan = 0x60000000 ∧ encode .zzunscan = 0x64000000 ∧
  ∀ s : State,
    (∃ t u, exec .zzscan s = .next t ∧ (∀ k : Fin 64, t.wb[k] = s.wb[zz k]) ∧
      t = { s with wb := t.wb, cmdCnt := s.cmdCnt + 1, done := true, pending := none } ∧
      exec .zzunscan t = .next u ∧ u.wb = s.wb) ∧
    ∃ t u, exec .zzunscan s = .next t ∧ (∀ k : Fin 64, t.wb[zz k] = s.wb[k]) ∧
      t = { s with wb := t.wb, cmdCnt := s.cmdCnt + 1, done := true, pending := none } ∧
      exec .zzscan t = .next u ∧ u.wb = s.wb

/-- 43_zigzag_rle.md R266: WF_SYM accepts exactly the well-formed sequences of 1 to 64 symbols; otherwise its detail is
0xFFFF for a SYMN outside 1..64, 0 for the DC symbol, the index of the first entry that is wrong (an EOB that is not last
or has no position left, a symbol that is no AC symbol, a run past position 63), or SYMN when the entries end before
position 63. RLEDEC and HENC fault with that detail (RledecResult, HencFaults). -/
def Obligations.WellFormedSymbols : Prop :=
  ∀ s : State,
    (s.wfSym = none ↔ s.symn.toNat ≤ 64 ∧ symsWellFormed s.syms) ∧
    (s.symn.toNat = 0 ∨ 64 < s.symn.toNat → s.wfSym = some 0xFFFF) ∧
    (s.symn.toNat ≤ 64 →
      (∀ y ac, s.syms = y :: ac → ¬ y.isDc → s.wfSym = some 0) ∧
      (∀ y pre z post, s.syms = y :: (pre ++ z :: post) → y.isDc → (∀ x ∈ pre, x.isAc) → acPositions pre ≤ 63 →
        (z = Sym.eob ∧ (post ≠ [] ∨ acPositions pre = 63) ∨
          z ≠ Sym.eob ∧ (¬ z.isAc ∨ 63 < acPositions pre + z.run.toNat + 1)) → s.wfSym = some (pre.length + 1)) ∧
      ∀ y ac, s.syms = y :: ac → y.isDc → (∀ x ∈ ac, x.isAc) → acPositions ac < 63 → s.wfSym = some s.symn.toNat)

/-- 43_zigzag_rle.md R267: the symbols of the DC difference and of the AC coefficients, which determine them; E_RANGE for
the first value outside −32767..32767. -/
def Obligations.RleencResult : Prop :=
  [encode (.rleenc .y), encode (.rleenc .cb), encode (.rleenc .cr)] = [0x68000000, 0x69000000, 0x6A000000] ∧
  ∀ (ch : Chan) (s : State) (diff : Int), diff = s.wb[0].toInt - (s.lastDcOf ch).toInt →
    (|diff| ≤ 32767 → (∀ a ∈ acScan s.wb, |a| ≤ 32767) → ∃ t ac, exec (.rleenc ch) s = .next t ∧
      t.syms = ⟨-1, diff.natAbs.size, diff⟩ :: ac ∧ t.symn.toNat = ac.length + 1 ∧ symsWellFormed t.syms ∧
      padAc (spreadAc ac) = acScan s.wb ∧
      (∀ i : Fin 64, t.symn.toNat ≤ i.val → t.sym[i] = s.sym[i]) ∧
      t.lastDcOf ch = s.wb[0] ∧ (∀ c ≠ ch, t.lastDcOf c = s.lastDcOf c) ∧
      t = { s with
            sym := t.sym, symn := t.symn, lastDc0 := t.lastDc0, lastDc1 := t.lastDc1, lastDc2 := t.lastDc2
            cmdCnt := s.cmdCnt + 1, done := true, pending := none }) ∧
    (32767 < |diff| → exec (.rleenc ch) s = .next (s.faulted 0x04 0)) ∧
    ∀ k : Fin 63, |diff| ≤ 32767 → (∀ j < k, |s.wb[zz j.succ].toInt| ≤ 32767) → 32767 < |s.wb[zz k.succ].toInt| →
      exec (.rleenc ch) s = .next (s.faulted 0x04 (BitVec.ofNat 32 (k.val + 1)))

/-- 43_zigzag_rle.md R268: the block that the symbols stand for; E_SYM_FORM, then E_RANGE. -/
def Obligations.RledecResult : Prop :=
  [encode (.rledec .y), encode (.rledec .cb), encode (.rledec .cr)] = [0x6C000000, 0x6D000000, 0x6E000000] ∧
  ∀ (ch : Chan) (s : State),
    (∀ d, s.wfSym = some d → exec (.rledec ch) s = .next (s.faulted 0x05 (BitVec.ofNat 32 d))) ∧
    ∀ (y : Sym) (ac : List Sym) (dc : Int), s.wfSym = none → s.syms = y :: ac → dc = (s.lastDcOf ch).toInt + y.amp →
      (-2 ^ 31 ≤ dc → dc ≤ 2 ^ 31 - 1 → ∃ t, exec (.rledec ch) s = .next t ∧
        t.wb[0].toInt = dc ∧ acScan t.wb = padAc (spreadAc ac) ∧
        (t.lastDcOf ch).toInt = dc ∧ (∀ c ≠ ch, t.lastDcOf c = s.lastDcOf c) ∧
        t = { s with
              wb := t.wb, lastDc0 := t.lastDc0, lastDc1 := t.lastDc1, lastDc2 := t.lastDc2
              cmdCnt := s.cmdCnt + 1, done := true, pending := none }) ∧
      (dc < -2 ^ 31 ∨ 2 ^ 31 - 1 < dc → exec (.rledec ch) s = .next (s.faulted 0x04 0))

/-- 43_zigzag_rle.md R271: RLEENC then RLEDEC, and RLEDEC then RLEENC, with the predictor restored between and the result's
register overwritten with anything. -/
def Obligations.RunLengthRoundTrips : Prop :=
  (∀ (ch : Chan) (s : State) (b : Block), |s.wb[0].toInt - (s.lastDcOf ch).toInt| ≤ 32767 →
    (∀ a ∈ acScan s.wb, |a| ≤ 32767) →
    ∃ t u, exec (.rleenc ch) s = .next t ∧
      exec (.rledec ch) { t with wb := b, lastDc0 := s.lastDc0, lastDc1 := s.lastDc1, lastDc2 := s.lastDc2 } = .next u ∧
      u.wb = s.wb ∧ u.lastDcOf ch = s.wb[0]) ∧
  ∀ (ch : Chan) (s : State) (y : Sym) (ac : List Sym) (junk : Vector SymEntry 64), s.wfSym = none → s.syms = y :: ac →
    -2 ^ 31 ≤ (s.lastDcOf ch).toInt + y.amp → (s.lastDcOf ch).toInt + y.amp ≤ 2 ^ 31 - 1 →
    ∃ t u, exec (.rledec ch) s = .next t ∧
      exec (.rleenc ch) { t with
        lastDc0 := s.lastDc0, lastDc1 := s.lastDc1, lastDc2 := s.lastDc2, sym := junk, symn := 0 } = .next u ∧
      u.syms = s.syms ∧ u.symn = s.symn

/-! ## Huffman -/

/-- 44_huffman.md R305 with R304: the canonical table of the definition; otherwise the first check that fails, detail 4
when the Kraft sum exceeds 1. -/
def Obligations.HbuildResult : Prop :=
  [encode (.hbuild .dc .luma), encode (.hbuild .dc .chroma), encode (.hbuild .ac .luma), encode (.hbuild .ac .chroma)] =
    [0x80000000, 0x80010000, 0x80020000, 0x80030000] ∧
  ∀ (cls : TableClass) (tid : TableId) (s : State) (lens vals : List Nat), lens = codeLengths s.hbits →
    vals = (s.hvals.toList.take lens.length).map BitVec.toNat →
    (slotCount cls < lens.length → exec (.hbuild cls tid) s = .next (s.faulted 0x06 1)) ∧
    (lens.length ≤ slotCount cls → cls = .dc ∧ (∃ v ∈ vals, 12 ≤ v) →
      exec (.hbuild cls tid) s = .next (s.faulted 0x06 2)) ∧
    (lens.length ≤ slotCount cls → (cls = .dc → ∀ v ∈ vals, v < 12) → ¬ vals.Nodup →
      exec (.hbuild cls tid) s = .next (s.faulted 0x06 3)) ∧
    (lens.length ≤ slotCount cls → (cls = .dc → ∀ v ∈ vals, v < 12) → vals.Nodup → 2 ^ 16 < kraft16 lens →
      exec (.hbuild cls tid) s = .next (s.faulted 0x06 4)) ∧
    (lens.length ≤ slotCount cls → (cls = .dc → ∀ v ∈ vals, v < 12) → vals.Nodup → kraft16 lens ≤ 2 ^ 16 →
      ∃ t, exec (.hbuild cls tid) s = .next t ∧ isCanonicalTable (t.huffSlot cls tid) ⟨s.hbits, s.hvals⟩ ∧
        (∀ cls' tid', (cls', tid') ≠ (cls, tid) → t.huffSlot cls' tid' = s.huffSlot cls' tid') ∧
        t = { s with
              hdc0 := t.hdc0, hdc1 := t.hdc1, hac0 := t.hac0, hac1 := t.hac1
              cmdCnt := s.cmdCnt + 1, done := true, pending := none })

/-- 44_huffman.md R306 with R303: the table of the built-in definition, whatever HBITS and HVALS hold. That the table is
canonical needs legal parameters (00_scope.md R8), which no step changes. -/
def Obligations.HdefaultResult : Prop :=
  [encode (.hdefault .dc .luma), encode (.hdefault .dc .chroma), encode (.hdefault .ac .luma),
    encode (.hdefault .ac .chroma)] = [0x84000000, 0x84010000, 0x84020000, 0x84030000] ∧
  ∀ (cls : TableClass) (tid : TableId) (s : State), ∃ t, exec (.hdefault cls tid) s = .next t ∧
    (s.paramsLegal → isCanonicalTable (t.huffSlot cls tid) (defaultDef s.cfg cls tid)) ∧
    t.huffSlot cls tid = (State.resetOf s.cfg).huffSlot cls tid ∧
    (∀ cls' tid', (cls', tid') ≠ (cls, tid) → t.huffSlot cls' tid' = s.huffSlot cls' tid') ∧
    t = { s with
          hdc0 := t.hdc0, hdc1 := t.hdc1, hac0 := t.hac0, hac1 := t.hac1
          cmdCnt := s.cmdCnt + 1, done := true, pending := none }

/-- 44_huffman.md R303, "Selected codes", and the counts of codes, in the tables after reset. -/
def Obligations.DefaultHuffmanCodes : Prop :=
  [0, 1, 5, 11].map (fun y => codeBits (State.reset.huffSlot .dc .luma y)) =
    [[false, false], [false, true, false], [true, true, false],
      [true, true, true, true, true, true, true, true, false]] ∧
  [0, 1, 2, 11].map (fun y => codeBits (State.reset.huffSlot .dc .chroma y)) =
    [[false, false], [false, true], [true, false],
      [true, true, true, true, true, true, true, true, true, true, false]] ∧
  [0x00, 0x01, 0xF0, 0xFA].map (fun y => codeBits (State.reset.huffSlot .ac .luma y)) =
    [[true, false, true, false], [false, false],
      [true, true, true, true, true, true, true, true, false, false, true],
      [true, true, true, true, true, true, true, true, true, true, true, true, true, true, true, false]] ∧
  [0x00, 0x01, 0xF0].map (fun y => codeBits (State.reset.huffSlot .ac .chroma y)) =
    [[false, false], [false, true], [true, true, true, true, true, true, true, false, true, false]] ∧
  [((List.range 12).filter fun y => (State.reset.huffSlot .dc .luma y).len ≠ 0).length,
    ((List.range 12).filter fun y => (State.reset.huffSlot .dc .chroma y).len ≠ 0).length,
    ((List.range 256).filter fun y => (State.reset.huffSlot .ac .luma y).len ≠ 0).length,
    ((List.range 256).filter fun y => (State.reset.huffSlot .ac .chroma y).len ≠ 0).length] = [12, 12, 162, 162]

/-- 44_huffman.md R320, R321, R322, R324: HENC appends the block's bits to the pending ones, stores the stuffed whole bytes
at OUTPTR and keeps the rest pending; every other byte of OUTBUF is unchanged. -/
def Obligations.HencResult : Prop :=
  [encode (.henc .y), encode (.henc .cb), encode (.henc .cr)] = [0x88000000, 0x89000000, 0x8A000000] ∧
  ∀ (ch : Chan) (s : State) (bits : List Bool) (out : List Byte), s.wfSym = none →
    blockCoded (s.huffSlot .dc (huffTableId ch)) (s.huffSlot .ac (huffTableId ch)) s.syms →
    bits = s.pendingBits ++ blockBits (s.huffSlot .dc (huffTableId ch)) (s.huffSlot .ac (huffTableId ch)) s.syms →
    out = stuffBytes (packBytes bits) → s.outptr.toNat + out.length ≤ s.cfg.outSize →
    ∃ t, exec (.henc ch) s = .next t ∧
      t.outptr = s.outptr + BitVec.ofNat 15 out.length ∧
      (∀ j < out.length, Sparse.get t.outbuf (s.outptr.toNat + j) = out[j]?) ∧
      (∀ a, a < s.outptr.toNat ∨ s.outptr.toNat + out.length ≤ a → Sparse.get t.outbuf a = Sparse.get s.outbuf a) ∧
      t.pendingBits = packRest bits ∧
      t = { s with
            outbuf := t.outbuf, outptr := t.outptr, bwn := t.bwn, bwacc := t.bwacc
            cmdCnt := s.cmdCnt + 1, done := true, pending := none }

/-- 44_huffman.md R324 and R322, the faults in their order: E_SYM_FORM, E_NO_CODE at the first entry that lacks a code,
E_OUT_FULL with the byte count that would have been reached. -/
def Obligations.HencFaults : Prop :=
  ∀ (ch : Chan) (s : State) (dc ac : Nat → Slot), dc = s.huffSlot .dc (huffTableId ch) →
    ac = s.huffSlot .ac (huffTableId ch) →
    (∀ d, s.wfSym = some d → exec (.henc ch) s = .next (s.faulted 0x05 (BitVec.ofNat 32 d))) ∧
    (∀ y ys, s.wfSym = none → s.syms = y :: ys → (dc y.size).len = 0 →
      exec (.henc ch) s = .next (s.faulted 0x07 0)) ∧
    (∀ y pre z post, s.wfSym = none → s.syms = y :: (pre ++ z :: post) → (dc y.size).len ≠ 0 →
      (∀ x ∈ pre, acCoded ac x) → ¬ acCoded ac z →
      exec (.henc ch) s = .next (s.faulted 0x07 (BitVec.ofNat 32 (pre.length + 1)))) ∧
    (∀ n, s.wfSym = none → blockCoded dc ac s.syms →
      n = s.outptr.toNat + (stuffBytes (packBytes (s.pendingBits ++ blockBits dc ac s.syms))).length → s.cfg.outSize < n →
      exec (.henc ch) s = .next (s.faulted 0x08 (BitVec.ofNat 32 n)))

/-- 44_huffman.md R325: the pending bits filled with zeros at the low end, one byte; nothing with none pending; E_OUT_FULL
without room. -/
def Obligations.HflushResult : Prop :=
  encode .hflush = 0x90000000 ∧
  ∀ s : State,
    (s.bwn = 0 → exec .hflush s = .next { s with cmdCnt := s.cmdCnt + 1, done := true, pending := none }) ∧
    (s.bwn ≠ 0 → s.outptr.toNat + 1 ≤ s.cfg.outSize → ∃ t b, exec .hflush s = .next t ∧
      Sparse.get t.outbuf s.outptr.toNat = some b ∧
      msbBits b.toNat 8 = s.pendingBits ++ List.replicate (8 - s.bwn.toNat) false ∧
      (∀ a ≠ s.outptr.toNat, Sparse.get t.outbuf a = Sparse.get s.outbuf a) ∧
      t = { s with
            outbuf := t.outbuf, outptr := s.outptr + 1, bwn := 0, bwacc := 0
            cmdCnt := s.cmdCnt + 1, done := true, pending := none }) ∧
    (s.bwn ≠ 0 → s.cfg.outSize < s.outptr.toNat + 1 →
      exec .hflush s = .next (s.faulted 0x08 (BitVec.ofNat 32 (s.outptr.toNat + 1))))

/-- 44_huffman.md R332 with R323: Extend undoes AmpBits, and the field's top bit is the sign. -/
def Obligations.ExtendInvertsAmpBits : Prop :=
  ∀ (a : Int) (n : Nat), a.natAbs.size = n →
    extend (ampBits a n) n = a ∧ msbBits (ampBits a n) n = ampField a n ∧
      (1 ≤ n → ((ampBits a n).testBit (n - 1) = true ↔ 0 < a))

/-- 44_huffman.md R330, R333, R335: HDEC decodes any well-formed block that stands next in the stream, also one with ZRL
codes directly before its EOB, takes exactly its bits (INPOS, INBITS and INPREV are those of R330 after them), and leaves
SYM beyond the block, LASTDC and INBUF alone. -/
def Obligations.HdecDecodesBlock : Prop :=
  [encode (.hdec .y), encode (.hdec .cb), encode (.hdec .cr)] = [0x8C000000, 0x8D000000, 0x8E000000] ∧
  ∀ (ch : Chan) (s : State) (dc ac : Nat → Slot) (l : List Sym) (bits rest : List Bool), s.huffLegal →
    dc = s.huffSlot .dc (huffTableId ch) → ac = s.huffSlot .ac (huffTableId ch) → symsWellFormed l →
    blockCoded dc ac l → readsAsBlock dc ac l bits → s.cursorBits = bits ++ rest →
    ∃ t, exec (.hdec ch) s = .next t ∧ t.syms = l ∧ t.symn.toNat = l.length ∧
      (∀ i : Fin 64, l.length ≤ i.val → t.sym[i] = s.sym[i]) ∧
      t.cursorBits = rest ∧ s.cursorAfter t bits.length ∧
      t = { s with
            sym := t.sym, symn := t.symn, inpos := t.inpos, inbits := t.inbits, inprev := t.inprev
            cmdCnt := s.cmdCnt + 1, done := true, pending := none }

/-- 44_huffman.md R330, R333, R335, the faults of HDEC. E_TRUNC: no byte left at the start, a stream that ends within a coded
block, within a code that none of its bits completes, or within an amplitude field. E_UNRESOLVED: 16 bits that match no
code. After a DC symbol, AC symbols and k ZRLs that leave a position free: E_BAD_SYMBOL, and E_RUN_OVERFLOW of a symbol or
of one more ZRL. -/
def Obligations.HdecFaults : Prop :=
  ∀ (ch : Chan) (s : State) (dc ac : Nat → Slot) (truncated : State), dc = s.huffSlot .dc (huffTableId ch) →
    ac = s.huffSlot .ac (huffTableId ch) → s.huffLegal →
    truncated = s.faulted 0x09 (BitVec.ofNat 32 (max s.inpos.toNat s.inlen.toNat)) →
    (s.inbits = 0 → s.inlen.toNat ≤ s.inpos.toNat →
      exec (.hdec ch) s = .next (s.faulted 0x09 (BitVec.ofNat 32 s.inpos.toNat))) ∧
    (∀ (l : List Sym) (more : List Bool), symsWellFormed l → blockCoded dc ac l → more ≠ [] →
      s.cursorBits ++ more = blockBits dc ac l → exec (.hdec ch) s = .next truncated) ∧
    ((∀ y : Nat, (dc y).len ≠ 0 → ¬ codeBits (dc y) <+: s.cursorBits) →
      (s.cursorBits.length < 16 → exec (.hdec ch) s = .next truncated) ∧
      (16 ≤ s.cursorBits.length → exec (.hdec ch) s = .next (s.faulted 0x0A 0))) ∧
    (∀ (n : Nat) (rest : List Bool), (dc n).len ≠ 0 → s.cursorBits = codeBits (dc n) ++ rest → rest.length < n →
      exec (.hdec ch) s = .next truncated) ∧
    ∀ (y : Sym) (pre : List Sym) (k : Nat) (rest : List Bool), y.isDc → (dc y.size).len ≠ 0 →
      (∀ z ∈ pre, z.isAc ∧ acCoded ac z) → acPositions pre < 63 → (1 ≤ k → (ac 0xF0).len ≠ 0) →
      acPositions pre + 16 * k ≤ 63 → s.cursorBits = blockBits dc ac (y :: pre) ++ zrlBits ac k ++ rest →
      ((∀ b : Nat, (ac b).len ≠ 0 → ¬ codeBits (ac b) <+: rest) →
        (rest.length < 16 → exec (.hdec ch) s = .next truncated) ∧
        (16 ≤ rest.length → exec (.hdec ch) s = .next (s.faulted 0x0A (BitVec.ofNat 32 (pre.length + 1))))) ∧
      ∀ (b : Nat) (more : List Bool), b < 256 → (ac b).len ≠ 0 → rest = codeBits (ac b) ++ more →
        (b % 16 = 0 → b ≠ 0x00 → b ≠ 0xF0 → exec (.hdec ch) s = .next (s.faulted 0x0B (BitVec.ofNat 32 b))) ∧
        (b % 16 ≠ 0 → 63 < acPositions pre + 16 * k + b / 16 + 1 →
          exec (.hdec ch) s = .next (s.faulted 0x0C (BitVec.ofNat 32 (pre.length + 1)))) ∧
        (b = 0xF0 → 63 < acPositions pre + 16 * k + 16 →
          exec (.hdec ch) s = .next (s.faulted 0x0C (BitVec.ofNat 32 (pre.length + 1)))) ∧
        (b % 16 ≠ 0 → acPositions pre + 16 * k + b / 16 + 1 ≤ 63 → more.length < b % 16 →
          exec (.hdec ch) s = .next truncated)

/-- 44_huffman.md R336: whatever the stream holds, symbols that HDEC stores are well formed, with the amplitude bounds of
the rule. -/
def Obligations.HdecSymbolsWellFormed : Prop :=
  ∀ (ch : Chan) (s t : State), exec (.hdec ch) s = .next t → s.err = false → t.err = false →
    t.symn.toNat ≤ 64 ∧ symsWellFormed t.syms ∧ (∀ y ∈ t.syms, |y.amp| ≤ 32767) ∧ ∀ y ∈ t.syms.head?, |y.amp| ≤ 2047

/-- 44_huffman.md R338: BWRESET, HENC, HFLUSH, the bytes copied to INBUF, BRRESET, HDEC give the symbols back. -/
def Obligations.HencHdecRoundTrip : Prop :=
  ∀ (ch : Chan) (s : State) (bits : List Bool) (n : Nat), s.huffLegal → s.cfg.outSize ≤ 16384 → s.wfSym = none →
    blockCoded (s.huffSlot .dc (huffTableId ch)) (s.huffSlot .ac (huffTableId ch)) s.syms →
    bits = blockBits (s.huffSlot .dc (huffTableId ch)) (s.huffSlot .ac (huffTableId ch)) s.syms →
    n = (stuffBytes (packBytes bits)).length + (if bits.length % 8 = 0 then 0 else 1) → n ≤ s.cfg.outSize →
    ∃ t1 t2 t3, exec .bwreset s = .next t1 ∧ exec (.henc ch) t1 = .next t2 ∧ exec .hflush t2 = .next t3 ∧
      t3.outptr.toNat = n ∧
      ∀ (m : Memory) (junk : Vector SymEntry 64), (∀ a < n, Sparse.get m a = Sparse.get t3.outbuf a) →
        ∃ u v, exec .brreset { t3 with inbuf := m, inlen := t3.outptr, sym := junk, symn := 0 } = .next u ∧
          exec (.hdec ch) u = .next v ∧ v.syms = s.syms ∧ v.symn = s.symn

/-! ## Reference store and motion -/

/-- 45_motion.md R362: the named cell holds WB and is usable, no other cell of the store changes, in the grid or outside it
(10_state.md R54: a cell outside the current grid keeps its data and VALID bit); E_GRID outside the grid. -/
def Obligations.RefsaveResult : Prop :=
  (∀ bx < 256, ∀ row < 256, (encode (.refsave .y bx row)).toNat = 0xA0000000 + row * 256 + bx ∧
    (encode (.refsave .cb bx row)).toNat = 0xA1000000 + row * 256 + bx ∧
    (encode (.refsave .cr bx row)).toNat = 0xA2000000 + row * 256 + bx) ∧
  ∀ (ch : Chan) (bx row : Nat) (s : State), bx < 256 → row < 256 →
    (s.queryInGrid ch bx row → ∃ t, exec (.refsave ch bx row) s = .next t ∧
      Sparse.get t.ref (refKey ch bx row) = some ⟨true, s.wb⟩ ∧
      (∀ key ≠ refKey ch bx row, Sparse.get t.ref key = Sparse.get s.ref key) ∧
      (∀ (c : Chan) (x y : Nat), x < 256 → y < 256 → (refKey c x y = refKey ch bx row ↔ c = ch ∧ x = bx ∧ y = row) ∧
        t.usable c x y = if c = ch ∧ x = bx ∧ y = row then some s.wb else s.usable c x y) ∧
      t = { s with ref := t.ref, cmdCnt := s.cmdCnt + 1, done := true, pending := none }) ∧
    (¬ s.queryInGrid ch bx row → exec (.refsave ch bx row) s = .next (s.faulted 0x0D (BitVec.ofNat 32 (row * 256 + bx))))

/-- 45_motion.md R364, R365, R366: the first minimum over the usable cells of the window in visit order; FOUND = 0 and its
values when none is usable; E_GRID outside the grid. -/
def Obligations.MsearchResult : Prop :=
  (∀ bx < 256, ∀ row < 256, (encode (.msearch .y bx row)).toNat = 0xA4000000 + row * 256 + bx ∧
    (encode (.msearch .cb bx row)).toNat = 0xA5000000 + row * 256 + bx ∧
    (encode (.msearch .cr bx row)).toNat = 0xA6000000 + row * 256 + bx) ∧
  ∀ (ch : Chan) (bx row : Nat) (s : State), bx < 256 → row < 256 →
    (¬ s.queryInGrid ch bx row →
      exec (.msearch ch bx row) s = .next (s.faulted 0x0D (BitVec.ofNat 32 (row * 256 + bx)))) ∧
    (s.queryInGrid ch bx row → ∃ t, exec (.msearch ch bx row) s = .next t ∧
      t = { s with
            rb := t.rb, mv := t.mv, matchX := t.matchX, matchY := t.matchY, sse := t.sse, found := t.found
            cmdCnt := s.cmdCnt + 1, done := true, pending := none } ∧
      ((∀ dx dy : Int, |dx| ≤ s.radius.toNat → |dy| ≤ s.radius.toNat → s.usable ch (bx + dx) (row + dy) = none) →
        t.found = false ∧ t.rb = Vector.replicate 64 0 ∧ t.mv = 0 ∧ t.sse = 0xFFFFFFFF ∧
          t.matchX.toNat = bx ∧ t.matchY.toNat = row) ∧
      ((∃ dx dy : Int, |dx| ≤ s.radius.toNat ∧ |dy| ≤ s.radius.toNat ∧ s.usable ch (bx + dx) (row + dy) ≠ none) →
        ∃ (dx dy : Int) (b : Block), |dx| ≤ s.radius.toNat ∧ |dy| ≤ s.radius.toNat ∧
          s.usable ch (bx + dx) (row + dy) = some b ∧
          (∀ (dx' dy' : Int) (b' : Block), |dx'| ≤ s.radius.toNat → |dy'| ≤ s.radius.toNat →
            s.usable ch (bx + dx') (row + dy') = some b' →
              sumSquares s.wb b ≤ sumSquares s.wb b' ∧
                (sumSquares s.wb b = sumSquares s.wb b' → visitedNoLater s.cfg.searchOrder dx dy dx' dy')) ∧
          t.found = true ∧ t.rb = b ∧ t.sse.toNat = min (sumSquares s.wb b) (2 ^ 32 - 1) ∧
          t.mv.toNat = (dx % 16).toNat * 16 + (dy % 16).toNat ∧
          t.matchX = BitVec.ofInt 8 (bx + dx) ∧ t.matchY = BitVec.ofInt 8 (row + dy)))

/-- 45_motion.md R368: the query's own cell holds exactly WB; the cell that the vector names holds WB too and is the first
visited that does. -/
def Obligations.MsearchFindsExactMatch : Prop :=
  ∀ (ch : Chan) (bx row : Nat) (s : State), bx < 256 → row < 256 → s.usable ch bx row = some s.wb →
    ∃ (t : State) (dx dy : Int), exec (.msearch ch bx row) s = .next t ∧ t.found = true ∧ t.sse = 0 ∧ t.rb = s.wb ∧
      |dx| ≤ s.radius.toNat ∧ |dy| ≤ s.radius.toNat ∧ s.usable ch (bx + dx) (row + dy) = some s.wb ∧
      (∀ dx' dy' : Int, |dx'| ≤ s.radius.toNat → |dy'| ≤ s.radius.toNat → s.usable ch (bx + dx') (row + dy') = some s.wb →
        visitedNoLater s.cfg.searchOrder dx dy dx' dy') ∧
      t.mv = packMv dx dy ∧ t.matchX = BitVec.ofInt 8 (bx + dx) ∧ t.matchY = BitVec.ofInt 8 (row + dy)

/-- 45_motion.md R371 with R370: the cell the vector names, nibbles sign-extended; E_GRID, then E_NOREF. -/
def Obligations.MvloadResult : Prop :=
  (∀ mv < 256, ∀ bx < 256, ∀ row < 256,
    (encode (.mvload .y mv bx row)).toNat = 0xB0000000 + mv * 65536 + row * 256 + bx ∧
    (encode (.mvload .cb mv bx row)).toNat = 0xB1000000 + mv * 65536 + row * 256 + bx ∧
    (encode (.mvload .cr mv bx row)).toNat = 0xB2000000 + mv * 65536 + row * 256 + bx) ∧
  ∀ (ch : Chan) (mv bx row : Nat) (s : State) (dx dy : Int), mv < 256 → bx < 256 → row < 256 →
    dx = (if mv / 16 < 8 then (mv / 16 : Int) else mv / 16 - 16) →
    dy = (if mv % 16 < 8 then (mv % 16 : Int) else mv % 16 - 16) →
    (¬ s.queryInGrid ch bx row →
      exec (.mvload ch mv bx row) s = .next (s.faulted 0x0D (BitVec.ofNat 32 (row * 256 + bx)))) ∧
    (s.queryInGrid ch bx row → s.usable ch (bx + dx) (row + dy) = none →
      exec (.mvload ch mv bx row) s = .next (s.faulted 0x0E (BitVec.ofNat 32 mv))) ∧
    ∀ b, s.queryInGrid ch bx row → s.usable ch (bx + dx) (row + dy) = some b →
      exec (.mvload ch mv bx row) s = .next { s with rb := b, cmdCnt := s.cmdCnt + 1, done := true, pending := none }

/-- 45_motion.md R371, corner cases: MVLOAD with the vector MSEARCH returned loads the same block, whatever RB held. -/
def Obligations.MvloadFollowsMsearch : Prop :=
  ∀ (ch : Chan) (bx row : Nat) (s t : State) (b : Block), exec (.msearch ch bx row) s = .next t → s.err = false →
    t.err = false → t.found = true →
    exec (.mvload ch t.mv.toNat bx row) { t with rb := b } =
      .next { t with cmdCnt := t.cmdCnt + 1, done := true, pending := none }

/-- 45_motion.md R372, R373: wrapping difference with the flag of the wrapped result, wrapping sum, and RECON undoes RESID. -/
def Obligations.ResidReconResults : Prop :=
  encode .resid = 0xA8000000 ∧ encode .recon = 0xAC000000 ∧
  ∀ s : State,
    (∃ t u, exec .resid s = .next t ∧ (∀ k : Fin 64, t.wb[k] = s.wb[k] - s.rb[k]) ∧
      (t.zres = true ↔ ∀ k : Fin 64, s.wb[k] = s.rb[k]) ∧
      t = { s with wb := t.wb, zres := t.zres, cmdCnt := s.cmdCnt + 1, done := true, pending := none } ∧
      exec .recon t = .next u ∧ u.wb = s.wb) ∧
    ∃ t, exec .recon s = .next t ∧ (∀ k : Fin 64, t.wb[k] = s.wb[k] + s.rb[k]) ∧
      t = { s with wb := t.wb, cmdCnt := s.cmdCnt + 1, done := true, pending := none }

/-- 45_motion.md R370: packing and unpacking of vectors in −8..7, and the rule's examples. -/
def Obligations.MotionVectorPacking : Prop :=
  (∀ dx dy : Int, -8 ≤ dx → dx ≤ 7 → -8 ≤ dy → dy ≤ 7 →
    (packMv dx dy).toNat = (dx % 16).toNat * 16 + (dy % 16).toNat ∧
      mvDx (packMv dx dy).toNat = dx ∧ mvDy (packMv dx dy).toNat = dy) ∧
  packMv 1 0 = 0x10 ∧ packMv 0 1 = 0x01 ∧ packMv (-2) (-3) = 0xED ∧ packMv (-1) 7 = 0xF7

/-! ## The host bus -/

/-- 60_exceptions.md R438, the acceptance of a CMD write. -/
def Obligations.CommandAcceptance : Prop :=
  ∀ (s : State) (w : Word),
    (s.busy = true ∨ s.err = true →
      hostAccess (.write .word 0x00018 w) s = { s with drop := true, resp := some ⟨0, false⟩ }) ∧
    (s.busy = false → s.err = false →
      hostAccess (.write .word 0x00018 w) s = { s with pending := some w, resp := some ⟨0, false⟩ })

/-- 60_exceptions.md R437, 20_memory.md R115, 10_state.md R43: accesses while BUSY = 1. That a write to a read-only mapped
location sets DROP is log 9 (DEDUCED); that a read of another register draws a free value, counted in draws, is log 6; the
bus response is log 5. -/
def Obligations.AccessesWhileBusy : Prop :=
  ∀ (s : State) (a : BusAddr) (v : Word), s.busy = true →
    (v.getLsbD 31 = false → hostAccess (.write .word 0x00010 v) s =
      { s with ieDone := v.getLsbD 0, ieErr := v.getLsbD 1, resp := some ⟨0, false⟩ }) ∧
    (v.getLsbD 31 = true → (hostAccess (.write .word 0x00010 v) s).busy = false) ∧
    (hostAccess (.write .word 0x00014 v) s =
      { s with
        done := s.done && !v.getLsbD 1
        err := s.err && !v.getLsbD 2
        errCode := if v.getLsbD 2 then 0 else s.errCode
        errInfo := if v.getLsbD 2 then 0 else s.errInfo
        errDetail := if v.getLsbD 2 then 0 else s.errDetail
        drop := s.drop && !v.getLsbD 5
        resp := some ⟨0, false⟩ }) ∧
    (busAllowed s.cfg .word a → a ≠ 0x00010 → a ≠ 0x00014 →
      hostAccess (.write .word a v) s = { s with drop := true, resp := some ⟨0, false⟩ }) ∧
    (busAllowed s.cfg .word a → ∃ x d, hostAccess (.read .word a) s = { s with draws := d, resp := some ⟨x, false⟩ }) ∧
    hostAccess (.read .word 0x00000) s = { s with resp := some ⟨0x4A455643, false⟩ } ∧
    hostAccess (.read .word 0x00004) s = { s with resp := some ⟨BitVec.ofNat 32 s.cfg.outSize, false⟩ } ∧
    hostAccess (.read .word 0x00008) s = { s with resp := some ⟨BitVec.ofNat 32 s.cfg.inSize, false⟩ } ∧
    hostAccess (.read .word 0x0000C) s = { s with resp := some ⟨hwcfg2Word s.cfg, false⟩ } ∧
    hostAccess (.read .word 0x00010) s = { s with resp := some ⟨s.ctrlWord, false⟩ } ∧
    hostAccess (.read .word 0x00014) s = { s with resp := some ⟨s.statusWord, false⟩ } ∧ s.statusWord.getLsbD 0 = true

/-- 20_memory.md R101, R109: exactly the accesses of the wrong width, misaligned or unmapped get a bus error; they read 0
and change no state, DROP included, also while BUSY = 1 (log 9, DEDUCED: R109 goes before R437). The bus response is the
model's record of the answer (log 5). -/
def Obligations.BusErrorsChangeNothing : Prop :=
  ∀ (s : State) (size : AccessSize) (a : BusAddr) (v : Word),
    (¬ busAllowed s.cfg size a →
      hostAccess (.read size a) s = { s with resp := some ⟨0, true⟩ } ∧
        hostAccess (.write size a v) s = { s with resp := some ⟨0, true⟩ }) ∧
    (busAllowed s.cfg size a →
      (∃ x, (hostAccess (.read size a) s).resp = some ⟨x, false⟩) ∧
        (hostAccess (.write size a v) s).resp = some ⟨0, false⟩)

/-- 20_memory.md R108, R110 and 10_state.md R33 to R55: with BUSY = 0 a read has no side effect and returns the register at
its address; an OUTBUF byte at or beyond OUTPTR is any byte (R49, log 8). -/
def Obligations.HostReadsReturnRegisters : Prop :=
  ∀ s : State, s.busy = false → s.cfg.outSize ≤ 16384 → s.cfg.inSize ≤ 16384 →
    s.readsAs 0x00 0x4A455643 ∧ s.readsAs 0x04 (BitVec.ofNat 32 s.cfg.outSize) ∧
    s.readsAs 0x08 (BitVec.ofNat 32 s.cfg.inSize) ∧
    (s.cfg.gridMaxW ≤ 256 → s.cfg.gridMaxH ≤ 256 →
      s.readsAs 0x0C (BitVec.ofNat 32 (s.cfg.gridMaxH * 65536 + s.cfg.gridMaxW))) ∧
    s.readsAs 0x10 (BitVec.ofNat 32 (s.ieErr.toNat * 2 + s.ieDone.toNat)) ∧
    s.readsAs 0x14 (BitVec.ofNat 32 (s.errCode.toNat * 256 + s.drop.toNat * 32 + s.found.toNat * 16 + s.zres.toNat * 8 +
      s.err.toNat * 4 + s.done.toNat * 2)) ∧
    s.readsAs 0x18 0 ∧ s.readsAs 0x1C s.errInfo ∧ s.readsAs 0x20 s.errDetail ∧ s.readsAs 0x24 s.cmdCnt ∧
    s.readsAs 0x28 (BitVec.ofNat 32 s.radius.toNat) ∧
    s.readsAs 0x2C (BitVec.ofNat 32 (s.grid0.gh.toNat * 65536 + s.grid0.gw.toNat)) ∧
    s.readsAs 0x30 (BitVec.ofNat 32 (s.grid1.gh.toNat * 65536 + s.grid1.gw.toNat)) ∧
    s.readsAs 0x34 (BitVec.ofNat 32 (s.grid2.gh.toNat * 65536 + s.grid2.gw.toNat)) ∧
    s.readsAs 0x38 s.lastDc0 ∧ s.readsAs 0x3C s.lastDc1 ∧ s.readsAs 0x40 s.lastDc2 ∧
    s.readsAs 0x44 (BitVec.ofNat 32 s.symn.toNat) ∧
    s.readsAs 0x48 (BitVec.ofNat 32 (s.bwacc.toNat * 256 + s.bwn.toNat)) ∧
    s.readsAs 0x4C (BitVec.ofNat 32 s.outptr.toNat) ∧
    s.readsAs 0x50 (BitVec.ofNat 32 s.inlen.toNat) ∧ s.readsAs 0x54 (BitVec.ofNat 32 s.inpos.toNat) ∧
    s.readsAs 0x58 (BitVec.ofNat 32 s.inbits.toNat) ∧ s.readsAs 0x5C (BitVec.ofNat 32 s.inprev.toNat) ∧
    s.readsAs 0x60 (BitVec.ofNat 32 s.mv.toNat) ∧
    s.readsAs 0x64 (BitVec.ofNat 32 (s.matchY.toNat * 256 + s.matchX.toNat)) ∧
    s.readsAs 0x68 s.sse ∧
    (∀ n : Fin 16, s.readsAs (0x100 + 4 * n.val) (BitVec.ofNat 32 s.hbits[n].toNat)) ∧
    (∀ i : Fin 256, s.readsAs (0x400 + 4 * i.val) (BitVec.ofNat 32 s.hvals[i].toNat)) ∧
    (∀ k : Fin 64, s.readsAs (0x800 + 4 * k.val) s.wb[k] ∧ s.readsAs (0x900 + 4 * k.val) s.rb[k] ∧
      s.readsAs (0xA00 + 4 * k.val) (BitVec.ofNat 32
        (s.sym[k].run.toNat * 2 ^ 24 + s.sym[k].size.toNat * 2 ^ 20 + s.sym[k].amp.toNat)) ∧
      s.readsAs (0xB00 + 4 * k.val) (BitVec.ofNat 32 s.qt0[k].toNat) ∧
      s.readsAs (0xC00 + 4 * k.val) (BitVec.ofNat 32 s.qt1[k].toNat)) ∧
    (∀ y : Fin 12, s.readsAs (0xD00 + 4 * y.val) (BitVec.ofNat 32 (s.hdc0[y].len.toNat * 65536 + s.hdc0[y].code.toNat)) ∧
      s.readsAs (0xD40 + 4 * y.val) (BitVec.ofNat 32 (s.hdc1[y].len.toNat * 65536 + s.hdc1[y].code.toNat))) ∧
    (∀ y : Fin 256, s.readsAs (0x1000 + 4 * y.val) (BitVec.ofNat 32 (s.hac0[y].len.toNat * 65536 + s.hac0[y].code.toNat)) ∧
      s.readsAs (0x1400 + 4 * y.val) (BitVec.ofNat 32 (s.hac1[y].len.toNat * 65536 + s.hac1[y].code.toNat))) ∧
    (∀ i b, i < s.outptr.toNat → i < s.cfg.outSize → Sparse.get s.outbuf i = some b →
      s.readsAs (0x10000 + 4 * i) (BitVec.ofNat 32 b.toNat)) ∧
    (∀ i, s.outptr.toNat ≤ i → i < s.cfg.outSize → ∃ b : Byte,
      hostAccess (.read .word (BitVec.ofNat 18 (0x10000 + 4 * i))) s =
        { s with draws := s.draws + 1, resp := some ⟨BitVec.ofNat 32 b.toNat, false⟩ }) ∧
    ∀ i b, i < s.cfg.inSize → Sparse.get s.inbuf i = some b → s.readsAs (0x20000 + 4 * i) (BitVec.ofNat 32 b.toNat)

/-- 20_memory.md R108, R110 and 10_state.md R33 to R55: with BUSY = 0 a write stores into the register at its address, masked
and limited as its rule says; a read-only location ignores it; INBUF is written one byte at a time. -/
def Obligations.HostWritesStoreRegisters : Prop :=
  ∀ (s : State) (v : Word), s.busy = false → s.cfg.outSize ≤ 16384 → s.cfg.inSize ≤ 16384 →
    (v.getLsbD 31 = false → s.writesTo v 0x10 { s with ieDone := v.getLsbD 0, ieErr := v.getLsbD 1 }) ∧
    s.writesTo v 0x28 { s with radius := BitVec.ofNat 3 (v.toNat % 8) } ∧
    (∀ g : GridDim, g.gw.toNat = min (v.toNat % 512) s.cfg.gridMaxW →
      g.gh.toNat = min (v.toNat / 65536 % 512) s.cfg.gridMaxH →
      s.writesTo v 0x2C { s with grid0 := g } ∧ s.writesTo v 0x30 { s with grid1 := g } ∧
        s.writesTo v 0x34 { s with grid2 := g }) ∧
    s.writesTo v 0x38 { s with lastDc0 := v } ∧ s.writesTo v 0x3C { s with lastDc1 := v } ∧
    s.writesTo v 0x40 { s with lastDc2 := v } ∧
    s.writesTo v 0x44 { s with symn := BitVec.ofNat 7 (v.toNat % 128) } ∧
    s.writesTo v 0x50 { s with inlen := BitVec.ofNat 15 (min (v.toNat % 32768) s.cfg.inSize) } ∧
    (∀ n : Fin 16, s.writesTo v (0x100 + 4 * n.val) { s with hbits := s.hbits.set n (BitVec.ofNat 8 v.toNat) }) ∧
    (∀ i : Fin 256, s.writesTo v (0x400 + 4 * i.val) { s with hvals := s.hvals.set i (BitVec.ofNat 8 v.toNat) }) ∧
    (∀ k : Fin 64, s.writesTo v (0x800 + 4 * k.val) { s with wb := s.wb.set k v } ∧
      s.writesTo v (0x900 + 4 * k.val) { s with rb := s.rb.set k v } ∧
      s.writesTo v (0xA00 + 4 * k.val) { s with
        sym := s.sym.set k ⟨BitVec.ofNat 8 (v.toNat / 2 ^ 24), BitVec.ofNat 4 (v.toNat / 2 ^ 20), BitVec.ofNat 16 v.toNat⟩ } ∧
      s.writesTo v (0xB00 + 4 * k.val) s ∧ s.writesTo v (0xC00 + 4 * k.val) s) ∧
    (∀ y : Fin 12, s.writesTo v (0xD00 + 4 * y.val) s ∧ s.writesTo v (0xD40 + 4 * y.val) s) ∧
    (∀ y : Fin 256, s.writesTo v (0x1000 + 4 * y.val) s ∧ s.writesTo v (0x1400 + 4 * y.val) s) ∧
    (∀ i < s.cfg.outSize, s.writesTo v (0x10000 + 4 * i) s) ∧
    (∀ i < s.cfg.inSize, ∃ m : Memory, s.writesTo v (0x20000 + 4 * i) { s with inbuf := m } ∧
      Sparse.get m i = some (BitVec.ofNat 8 v.toNat) ∧ ∀ j ≠ i, Sparse.get m j = Sparse.get s.inbuf j) ∧
    ∀ a ∈ [0x00, 0x04, 0x08, 0x0C, 0x1C, 0x20, 0x24, 0x48, 0x4C, 0x54, 0x58, 0x5C, 0x60, 0x64, 0x68], s.writesTo v a s

/-- 10_state.md R43, 60_exceptions.md R435 and R440: STATUS is write 1 to clear, and IRQ follows its expression. -/
def Obligations.StatusWriteClears : Prop :=
  ∀ (s : State) (v : Word),
    hostAccess (.write .word 0x00014 v) s =
      { s with
        done := s.done && !v.getLsbD 1
        err := s.err && !v.getLsbD 2
        errCode := if v.getLsbD 2 then 0 else s.errCode
        errInfo := if v.getLsbD 2 then 0 else s.errInfo
        errDetail := if v.getLsbD 2 then 0 else s.errDetail
        drop := s.drop && !v.getLsbD 5
        resp := some ⟨0, false⟩ } ∧
    (s.irq = true ↔ (s.done = true ∧ s.ieDone = true) ∨ (s.err = true ∧ s.ieErr = true)) ∧
    ((hostAccess (.write .word 0x00014 0x00000006) s).irq = false)

/-- 10_state.md R59, 70_reset_and_hazards.md R470, R471: the reset values, at State.reset, after a soft reset and after a
hardware reset. For legal parameters the four Huffman tables are the canonical ones of the default definitions (44_huffman.md
R303). No cell of the reference store is listed, so every VALID bit is 0. The coming events, the bus response and the two
counters of free values are the model's own (log 29). -/
def Obligations.ResetValues : Prop :=
  (∀ s : State, ∀ v : Word, v.getLsbD 31 = true →
    hostAccess (.write .word 0x00010 v) s = { s.resetNow with resp := some ⟨0, false⟩ }) ∧
  (∀ (s : State) (rest : List Event), s.env = .hardReset :: rest →
    ∃ t, step s = .next t ∧ t = { (State.resetOf s.cfg) with
      env := rest, resp := s.resp, draws := s.draws, epoch := s.epoch + 1 }) ∧
  (∀ s : State, s.resetNow = { (State.resetOf s.cfg) with
    env := s.env, resp := s.resp, draws := s.draws, epoch := s.epoch + 1 }) ∧
  (∀ p : Params, ∃ t, State.resetOf p = t ∧ t.cfg = p ∧ t.wb = Vector.replicate 64 0 ∧ t.rb = Vector.replicate 64 0 ∧
    t.sym = Vector.replicate 64 ⟨0, 0, 0⟩ ∧ t.symn = 0 ∧ t.lastDc0 = 0 ∧ t.lastDc1 = 0 ∧ t.lastDc2 = 0 ∧
    t.qt0 = p.defaultQt0 ∧ t.qt1 = p.defaultQt1 ∧ t.hbits = Vector.replicate 16 0 ∧ t.hvals = Vector.replicate 256 0 ∧
    t.ctrlWord = 0 ∧ t.statusWord = 0 ∧ t.errInfo = 0 ∧ t.errDetail = 0 ∧ t.cmdCnt = 0 ∧ t.bwn = 0 ∧ t.bwacc = 0 ∧
    t.outptr = 0 ∧ t.inlen = 0 ∧ t.inpos = 0 ∧ t.inbits = 0 ∧ t.inprev = 0 ∧ t.radius = 3 ∧ t.grid0 = ⟨0, 0⟩ ∧
    t.grid1 = ⟨0, 0⟩ ∧ t.grid2 = ⟨0, 0⟩ ∧ t.ref = [] ∧ (∀ ch x y, t.usable ch x y = none) ∧ t.mv = 0 ∧ t.matchWord = 0 ∧
    t.sse = 0 ∧ t.pending = none ∧ t.irq = false ∧
    (p.legal = true → ∀ cls tid, isCanonicalTable (t.huffSlot cls tid) (defaultDef p cls tid))) ∧
  State.reset = State.resetOf Params.core

/-! ## Whole-machine rules -/

/-- No event stops the CORE: the model's inference from 60_exceptions.md R430's list of the abnormal events (log 17,
DEDUCED). None changes its parameters (00_scope.md R8). -/
def Obligations.NoStepStopsTheCore : Prop :=
  ∀ s : State, ∃ t, step s = .next t ∧ t.cfg = s.cfg

/-- 70_reset_and_hazards.md R490: an accepted command ends (it completes, faults, or a reset abandons it). The bound, one
step more than the events scheduled before it, is the model's: the schedule is log 1 and the one step of a command log 4,
both DESIGN CHOICE. -/
def Obligations.AcceptedCommandsEnd : Prop :=
  ∀ (s : State) (w : Word), s.pending = some w →
    ∃ n ≤ s.env.length + 1, ∃ t : State, Host.Core.run Sys2Proof.core n s = .next t ∧ t.pending = none

/-- 60_exceptions.md R436: while ERR = 1 no step changes the fault record, unless it clears ERR. -/
def Obligations.FaultsDoNotNest : Prop :=
  ∀ s t : State, s.faultRecordLegal → s.err = true → step s = .next t → t.err = true →
    t.errCode = s.errCode ∧ t.errInfo = s.errInfo ∧ t.errDetail = s.errDetail ∧ t.cmdCnt = s.cmdCnt ∧ t.pending = none

/-- 42_quantizer.md R232, for every step from every state with the invariant. -/
def Obligations.QuantTablesStayInRange : Prop :=
  ∀ s t : State, s.paramsLegal → s.quantLegal → step s = .next t → t.quantLegal

/-- 44_huffman.md R302 and R301, for every step from every state with the invariant. -/
def Obligations.HuffmanTablesStayPrefixFree : Prop :=
  ∀ s t : State, s.paramsLegal → s.huffLegal → step s = .next t → t.huffLegal

/-- 10_state.md R48 to R51, 44_huffman.md R322, and the canonical form of both buffers, for every step from every state with
the invariant. -/
def Obligations.StreamStateStaysLegal : Prop :=
  ∀ s t : State, s.paramsLegal → s.writerLegal → s.readerLegal → step s = .next t → t.writerLegal ∧ t.readerLegal

/-- 10_state.md R53, R54, and the canonical form of the reference store, for every step from every state with the
invariant. -/
def Obligations.ReferenceStoreStaysLegal : Prop :=
  ∀ s t : State, s.paramsLegal → s.gridLegal → s.refLegal → step s = .next t → t.gridLegal ∧ t.refLegal

/-- 10_state.md R43, R45, R46 and 60_exceptions.md R431, R436, for every step from every state with the invariant. -/
def Obligations.FaultRecordStaysLegal : Prop :=
  ∀ s t : State, s.faultRecordLegal → step s = .next t → t.faultRecordLegal

/-- The invariants hold after reset (10_state.md R59). -/
def Obligations.ResetMeetsInvariants : Prop :=
  State.reset.paramsLegal ∧ State.reset.quantLegal ∧ State.reset.huffLegal ∧ State.reset.writerLegal ∧
    State.reset.readerLegal ∧ State.reset.gridLegal ∧ State.reset.refLegal ∧ State.reset.faultRecordLegal
end

