-- ==== Sys2Proof/Laws/Num.lean ====
section
/-! SUPPORT. What the numeric functions mean: sizes as `Nat.size`, saturation and wrapping of integers in range. -/

namespace Sys2Proof.Machine

/-- bitlen is the size of the magnitude (spec/00_scope.md R13). -/
theorem bitlen_eq (a : Int) : bitlen a = a.natAbs.size := by
  unfold bitlen
  split
  · subst_vars; rfl
  · rename_i h
    have hn : a.natAbs ≠ 0 := by omega
    apply Nat.le_antisymm
    · exact Nat.lt_size.mpr (Nat.log2_self_le hn)
    · exact Nat.size_le.mpr Nat.lt_log2_self

theorem bitlen_le_iff (a : Int) (n : Nat) : bitlen a ≤ n ↔ a.natAbs < 2 ^ n := by rw [bitlen_eq]; exact Nat.size_le

/-- The size of a coded amplitude fits its four-bit field (spec/43_zigzag_rle.md R266). -/
theorem bitlen_le_fifteen {a : Int} (h : a.natAbs ≤ 32767) : bitlen a ≤ 15 := (bitlen_le_iff a 15).mpr (by omega)

theorem fitsAmp_iff (v : Int) : fitsAmp v = true ↔ |v| ≤ 32767 := by
  simp only [fitsAmp, Bool.and_eq_true, decide_eq_true_eq, abs_le]

theorem fitsS32_iff (v : Int) : fitsS32 v = true ↔ -2 ^ 31 ≤ v ∧ v ≤ 2 ^ 31 - 1 := by
  simp [fitsS32]

/-- An s32 value read back from its register. -/
theorem toInt_wrap32 {v : Int} (h1 : -2 ^ 31 ≤ v) (h2 : v ≤ 2 ^ 31 - 1) : (wrap32 v).toInt = v := by
  rw [wrap32, BitVec.toInt_ofInt]
  exact Int.bmod_eq_of_le (by norm_num at h1 ⊢; omega) (by norm_num at h2 ⊢; omega)

@[simp] theorem toInt_sat32 (v : Int) : (sat32 v).toInt = min (max v (-2 ^ 31)) (2 ^ 31 - 1) := by
  have e : sat32Int v = min (max v (-2 ^ 31)) (2 ^ 31 - 1) := rfl
  rw [sat32, e]
  exact toInt_wrap32 (by omega) (by omega)

theorem toInt_bounds (w : Word) : -2 ^ 31 ≤ w.toInt ∧ w.toInt ≤ 2 ^ 31 - 1 := by
  have h1 := BitVec.le_toInt w
  have h2 := BitVec.toInt_lt (x := w)
  norm_num at h1 h2 ⊢
  omega

/-- The value of a register laid out as fields: the upper field times its place, plus the lower ones. -/
theorem toNat_append_eq {m n : Nat} (x : BitVec m) (y : BitVec n) : (x ++ y).toNat = x.toNat * 2 ^ n + y.toNat := by
  rw [BitVec.toNat_append, ← Nat.shiftLeft_add_eq_or_of_lt y.isLt, Nat.shiftLeft_eq]

theorem toNat_ofBool_eq (b : Bool) : (BitVec.ofBool b).toNat = b.toNat := by cases b <;> rfl

end Sys2Proof.Machine
end

