-- ==== Sys2Proof/Laws/Bits.lean ====
section
/-! SUPPORT. Bit strings, most significant first: their values, the bytes they make, and what the bit writer does with them
(spec/20_memory.md R104, R105; 44_huffman.md R320 to R324). -/

namespace Sys2Proof.Machine

/-! ### Bit strings of numbers -/

@[simp] theorem msbBits_zero (v : Nat) : msbBits v 0 = [] := rfl

theorem msbBits_succ (v n : Nat) : msbBits v (n + 1) = v.testBit n :: msbBits v n := by
  rw [msbBits, List.range_succ_eq_map, List.map_cons, List.map_map]
  refine congrArg₂ List.cons (by simp) (List.map_congr_left fun j hj => ?_)
  have : n + 1 - 1 - (j + 1) = n - 1 - j := by omega
  simp only [Function.comp, this]

@[simp] theorem msbBits_length (v n : Nat) : (msbBits v n).length = n := by simp [msbBits]

/-- The machine's bit list is the spec's. -/
theorem bitsOf_eq (v n : Nat) : bitsOf v n = msbBits v n := by
  induction n with
  | zero => rfl
  | succ n ih => rw [bitsOf, ih, msbBits_succ]

/-- Appending a low bit. -/
theorem msbBits_snoc (v n : Nat) (b : Bool) : msbBits (2 * v + b.toNat) (n + 1) = msbBits v n ++ [b] := by
  induction n with
  | zero => rw [msbBits_succ]; cases b <;> simp [Nat.testBit_zero]
  | succ n ih =>
    rw [msbBits_succ, ih, msbBits_succ v n, List.cons_append, Nat.testBit_succ]
    congr 2
    cases b <;> simp <;> omega

/-- Only the low bits count. -/
theorem msbBits_mod (v n : Nat) : msbBits (v % 2 ^ n) n = msbBits v n := by
  simp only [msbBits]
  refine List.map_congr_left fun j hj => ?_
  have hj' : j < n := List.mem_range.mp hj
  rw [Nat.testBit_mod_two_pow]
  simp; omega

@[simp] theorem bitsValue_nil : bitsValue [] = 0 := rfl

theorem bitsValue_snoc (l : List Bool) (b : Bool) : bitsValue (l ++ [b]) = 2 * bitsValue l + b.toNat := by
  simp [bitsValue]

theorem bitsValue_append (l k : List Bool) : bitsValue (l ++ k) = bitsValue l * 2 ^ k.length + bitsValue k := by
  induction k using List.reverseRecOn with
  | nil => simp
  | append_singleton k b ih =>
    rw [← List.append_assoc, bitsValue_snoc, ih, bitsValue_snoc, List.length_append, List.length_singleton, pow_succ]
    ring

theorem bitsValue_lt (l : List Bool) : bitsValue l < 2 ^ l.length := by
  induction l using List.reverseRecOn with
  | nil => simp
  | append_singleton l b ih =>
    rw [bitsValue_snoc, List.length_append, List.length_singleton, pow_succ]
    cases b <;> simp <;> omega

/-- The value of a number's low bits. -/
theorem bitsValue_msbBits (v n : Nat) : bitsValue (msbBits v n) = v % 2 ^ n := by
  induction n generalizing v with
  | zero => simp [Nat.mod_one]
  | succ n ih =>
    have h : v = 2 * (v / 2) + (v.testBit 0).toNat := by
      rw [Nat.testBit_zero]
      rcases Nat.mod_two_eq_zero_or_one v with h | h <;> simp [h] <;> omega
    have e : v % 2 ^ (n + 1) = 2 * (v / 2 % 2 ^ n) + v % 2 := by
      rw [pow_succ, Nat.mul_comm (2 ^ n) 2, Nat.mod_mul]; omega
    conv_lhs => rw [h]
    rw [msbBits_snoc, bitsValue_snoc, ih, e, Nat.testBit_zero]
    rcases Nat.mod_two_eq_zero_or_one v with h | h <;> simp [h]

/-- The bits of the value of a bit list. -/
theorem msbBits_bitsValue (l : List Bool) : msbBits (bitsValue l) l.length = l := by
  induction l using List.reverseRecOn with
  | nil => rfl
  | append_singleton l b ih => rw [bitsValue_snoc, List.length_append, List.length_singleton, msbBits_snoc, ih]

/-! ### Whole bytes -/

theorem packBytes_short {l : List Bool} (h : l.length < 8) : packBytes l = [] := by
  match l, h with
  | [], _ => rfl
  | [_], _ => rfl
  | [_, _], _ => rfl
  | [_, _, _], _ => rfl
  | [_, _, _, _], _ => rfl
  | [_, _, _, _, _], _ => rfl
  | [_, _, _, _, _, _], _ => rfl
  | [_, _, _, _, _, _, _], _ => rfl

theorem packRest_short {l : List Bool} (h : l.length < 8) : packRest l = l := by
  match l, h with
  | [], _ => rfl
  | [_], _ => rfl
  | [_, _], _ => rfl
  | [_, _, _], _ => rfl
  | [_, _, _, _], _ => rfl
  | [_, _, _, _, _], _ => rfl
  | [_, _, _, _, _, _], _ => rfl
  | [_, _, _, _, _, _, _], _ => rfl

theorem pack_byte {l : List Bool} (h : l.length = 8) (rest : List Bool) :
    packBytes (l ++ rest) = BitVec.ofNat 8 (bitsValue l) :: packBytes rest ∧ packRest (l ++ rest) = packRest rest := by
  match l, h with
  | [_, _, _, _, _, _, _, _], _ => exact ⟨rfl, rfl⟩

theorem emitBytes_eq (b : Byte) : emitBytes b = stuffBytes [b] := by
  by_cases h : b = 255#8 <;> simp [emitBytes, stuffBytes, h]

theorem stuffBytes_append (l k : List Byte) : stuffBytes (l ++ k) = stuffBytes l ++ stuffBytes k := by
  simp [stuffBytes]

theorem stuffBytes_cons (b : Byte) (l : List Byte) : stuffBytes (b :: l) = stuffBytes [b] ++ stuffBytes l := by
  simp [stuffBytes]

/-! ### The bit writer -/

/-- The pending bits of a bit writer, oldest first. -/
def BitWriter.pend (w : BitWriter) : List Bool := msbBits w.acc.toNat w.n

theorem putBit_acc (acc : Byte) (b : Bool) :
    ((acc <<< 1) ||| (if b then 1 else 0)).toNat = (2 * acc.toNat + b.toNat) % 256 := by
  have h : ∀ acc : Byte, ∀ b : Bool, ((acc <<< 1) ||| (if b then 1 else 0)).toNat = (2 * acc.toNat + b.toNat) % 256 := by
    decide +kernel
  exact h acc b

/-- One bit: it joins the pending ones, or completes a byte. -/
theorem putBit_spec (w : BitWriter) (hw : w.n < 8) (b : Bool) :
    (w.n + 1 < 8 ∧ (putBit w b).n = w.n + 1 ∧ (putBit w b).out = w.out ∧ (putBit w b).pend = w.pend ++ [b]) ∨
      (w.n + 1 = 8 ∧ (putBit w b).n = 0 ∧ (putBit w b).pend = [] ∧
        (putBit w b).out = w.out ++ stuffBytes [BitVec.ofNat 8 (bitsValue (w.pend ++ [b]))]) := by
  by_cases h : w.n + 1 = 8
  · refine .inr ⟨h, ?_, ?_, ?_⟩
    · simp [putBit, h]
    · simp [putBit, h, BitWriter.pend]
    · have hn : w.n = 7 := by omega
      simp only [putBit, h, if_true, emitBytes_eq]
      congr 3
      apply BitVec.eq_of_toNat_eq
      rw [putBit_acc, bitsValue_snoc, BitWriter.pend, bitsValue_msbBits, hn, BitVec.toNat_ofNat]
      cases b <;> simp <;> omega
  · refine .inl ⟨by omega, ?_, ?_, ?_⟩
    · simp [putBit, h]
    · simp [putBit, h]
    · simp only [putBit, h, if_false, BitWriter.pend]
      rw [putBit_acc, ← msbBits_snoc, ← msbBits_mod (_ % 256), ← msbBits_mod (2 * _ + _)]
      congr 1
      have : (2 : Nat) ^ (w.n + 1) ∣ 256 := by
        have : (256 : Nat) = 2 ^ 8 := by norm_num
        rw [this]; exact pow_dvd_pow 2 (by omega)
      exact Nat.mod_mod_of_dvd _ this

/-- Everything a run of bits does to the writer (spec/44_huffman.md R320, R321): the stuffed whole bytes of the pending and
the new bits are emitted, the rest stays pending. -/
theorem foldl_putBit (l : List Bool) (w : BitWriter) (hw : w.n < 8) :
    (l.foldl putBit w).out = w.out ++ stuffBytes (packBytes (w.pend ++ l)) ∧
      (l.foldl putBit w).pend = packRest (w.pend ++ l) ∧ (l.foldl putBit w).n < 8 := by
  induction l generalizing w with
  | nil =>
    have hl : w.pend.length < 8 := by simpa [BitWriter.pend] using hw
    simp [packBytes_short hl, packRest_short hl, hw, stuffBytes]
  | cons b l ih =>
    rw [List.foldl_cons]
    rcases putBit_spec w hw b with ⟨h1, h2, h3, h4⟩ | ⟨h1, h2, h3, h4⟩
    · obtain ⟨i1, i2, i3⟩ := ih (putBit w b) (by omega)
      rw [h4] at i1 i2
      rw [h3] at i1
      simp only [List.append_assoc, List.singleton_append] at i1 i2
      exact ⟨i1, i2, i3⟩
    · obtain ⟨i1, i2, i3⟩ := ih (putBit w b) (by omega)
      have hl : (w.pend ++ [b]).length = 8 := by simp [BitWriter.pend, h1]
      obtain ⟨p1, p2⟩ := pack_byte hl l
      have e : w.pend ++ b :: l = w.pend ++ [b] ++ l := by simp
      rw [e, p1, p2, stuffBytes_cons, ← List.append_assoc, ← h4]
      rw [h3, List.nil_append] at i1 i2
      exact ⟨i1, i2, i3⟩

/-- The bits of a plan of (value, length) pairs. -/
def planBits (plan : List (Nat × Nat)) : List Bool := plan.flatMap fun p => msbBits p.1 p.2

theorem putPlan_eq (plan : List (Nat × Nat)) (w : BitWriter) : putPlan w plan = (planBits plan).foldl putBit w := by
  induction plan generalizing w with
  | nil => rfl
  | cons p plan ih =>
    rw [putPlan, List.foldl_cons]
    have := ih (putBits w p.1 p.2)
    rw [putPlan] at this
    rw [this, putBits, bitsOf_eq, ← List.foldl_append]
    rfl

/-- Everything a plan does to a writer (spec/44_huffman.md R324). -/
theorem putPlan_spec (plan : List (Nat × Nat)) (w : BitWriter) (hw : w.n < 8) :
    (putPlan w plan).out = w.out ++ stuffBytes (packBytes (w.pend ++ planBits plan)) ∧
      (putPlan w plan).pend = packRest (w.pend ++ planBits plan) ∧ (putPlan w plan).n < 8 := by
  rw [putPlan_eq]; exact foldl_putBit _ w hw

end Sys2Proof.Machine
end

