-- ==== Sys2Proof/Laws/Sparse.lean ====
section
/-! SUPPORT. The laws of sparse storage: a read after a write, the canonical form, the bound on keys, and consecutive
stores. -/

namespace Sys2Proof.Machine

variable {β : Type}

@[simp] theorem Sparse.get_nil (a : Nat) : Sparse.get ([] : List (Nat × β)) a = none := rfl

theorem Sparse.get_cons (k : Nat) (v : β) (m : List (Nat × β)) (a : Nat) :
    Sparse.get ((k, v) :: m) a = if k = a then some v else Sparse.get m a := rfl

theorem Sparse.wf_cons (k : Nat) (v : β) (m : List (Nat × β)) :
    Sparse.wf ((k, v) :: m) = true ↔ (∀ c ∈ m, k < c.1) ∧ Sparse.wf m = true := by
  simp [Sparse.wf]

/-- Every key of the list is above a bound: no value at or below it. -/
theorem Sparse.get_eq_none_of_lt {m : List (Nat × β)} {a : Nat} (h : ∀ c ∈ m, a < c.1) : Sparse.get m a = none := by
  induction m with
  | nil => rfl
  | cons c m ih =>
    obtain ⟨k, v⟩ := c
    have h1 : a < k := h (k, v) (by simp)
    rw [Sparse.get_cons, if_neg (by omega)]
    exact ih fun c hc => h c (by simp [hc])

/-- A read after a write, in any list. -/
theorem Sparse.get_set (m : List (Nat × β)) (a : Nat) (v : β) (b : Nat) :
    Sparse.get (Sparse.set m a v) b = if a = b then some v else Sparse.get m b := by
  induction m with
  | nil => rfl
  | cons c m ih =>
    obtain ⟨k, w⟩ := c
    simp only [Sparse.set]
    split
    · rfl
    · split
      · subst_vars
        simp only [Sparse.get_cons]
        split <;> rfl
      · simp only [Sparse.get_cons, ih]
        by_cases h1 : k = b
        · subst h1
          have : a ≠ k := by omega
          simp [this]
        · simp [h1]

@[simp] theorem Sparse.get_set_self (m : List (Nat × β)) (a : Nat) (v : β) : Sparse.get (Sparse.set m a v) a = some v := by
  simp [Sparse.get_set]

theorem Sparse.get_set_of_ne (m : List (Nat × β)) {a b : Nat} (v : β) (h : a ≠ b) :
    Sparse.get (Sparse.set m a v) b = Sparse.get m b := by
  simp [Sparse.get_set, h]

theorem Sparse.mem_set {m : List (Nat × β)} {a : Nat} {v : β} {c : Nat × β} (h : c ∈ Sparse.set m a v) :
    c = (a, v) ∨ c ∈ m := by
  induction m with
  | nil => simpa [Sparse.set] using h
  | cons d m ih =>
    obtain ⟨k, w⟩ := d
    simp only [Sparse.set] at h
    split at h
    · simpa using h
    · split at h
      · rcases List.mem_cons.mp h with h | h
        · exact .inl h
        · exact .inr (by simp [h])
      · rcases List.mem_cons.mp h with h | h
        · exact .inr (by simp [h])
        · rcases ih h with h | h
          · exact .inl h
          · exact .inr (by simp [h])

/-- A write keeps the canonical form. -/
theorem Sparse.wf_set {m : List (Nat × β)} (h : Sparse.wf m = true) (a : Nat) (v : β) :
    Sparse.wf (Sparse.set m a v) = true := by
  induction m with
  | nil => simp [Sparse.set, Sparse.wf]
  | cons c m ih =>
    obtain ⟨k, w⟩ := c
    obtain ⟨h1, h2⟩ := (Sparse.wf_cons k w m).mp h
    simp only [Sparse.set]
    split
    · rename_i hlt
      refine (Sparse.wf_cons _ _ _).mpr ⟨fun c hc => ?_, h⟩
      rcases List.mem_cons.mp hc with rfl | hc
      · exact hlt
      · exact hlt.trans (h1 c hc)
    · split
      · rename_i hlt heq
        subst heq
        exact (Sparse.wf_cons _ _ _).mpr ⟨h1, h2⟩
      · rename_i hlt hne
        refine (Sparse.wf_cons _ _ _).mpr ⟨fun c hc => ?_, ih h2⟩
        rcases Sparse.mem_set hc with rfl | hc
        · show k < a
          omega
        · exact h1 c hc

/-- A write within the bound keeps every key within it. -/
theorem Sparse.below_set {m : List (Nat × β)} {n a : Nat} (h : Sparse.below n m = true) (ha : a < n) (v : β) :
    Sparse.below n (Sparse.set m a v) = true := by
  simp only [Sparse.below, List.all_eq_true, decide_eq_true_eq] at h ⊢
  intro c hc
  rcases Sparse.mem_set hc with rfl | hc
  · exact ha
  · exact h c hc

/-- In canonical form a listed entry is what its key reads as. -/
theorem Sparse.get_of_mem {m : List (Nat × β)} (h : Sparse.wf m = true) {c : Nat × β} (hc : c ∈ m) :
    Sparse.get m c.1 = some c.2 := by
  induction m with
  | nil => simp at hc
  | cons d m ih =>
    obtain ⟨k, w⟩ := d
    obtain ⟨h1, h2⟩ := (Sparse.wf_cons k w m).mp h
    rcases List.mem_cons.mp hc with rfl | hc
    · simp [Sparse.get_cons]
    · rw [Sparse.get_cons, if_neg (by have := h1 c hc; omega)]
      exact ih h2 hc

/-- A value that is read is listed. -/
theorem Sparse.mem_of_get {m : List (Nat × β)} {a : Nat} {v : β} (h : Sparse.get m a = some v) : (a, v) ∈ m := by
  induction m with
  | nil => simp at h
  | cons d m ih =>
    obtain ⟨k, w⟩ := d
    rw [Sparse.get_cons] at h
    split at h
    · simp_all
    · exact List.mem_cons_of_mem _ (ih h)

/-- A map of the values keeps the keys, so it keeps the canonical form and maps every read. -/
theorem Sparse.get_mapVal {γ : Type} (f : β → γ) (m : List (Nat × β)) (a : Nat) :
    Sparse.get (m.map fun c => (c.1, f c.2)) a = (Sparse.get m a).map f := by
  induction m with
  | nil => rfl
  | cons d m ih =>
    obtain ⟨k, w⟩ := d
    simp only [List.map_cons, Sparse.get_cons, ih]
    split <;> rfl

theorem Sparse.wf_mapVal {γ : Type} (f : β → γ) (m : List (Nat × β)) :
    Sparse.wf (m.map fun c => (c.1, f c.2)) = Sparse.wf m := by
  simp [Sparse.wf, List.map_map, Function.comp_def]

/-! ### Consecutive stores -/

/-- Reading after a run of stores: the stored bytes at their addresses, everything else as before. -/
theorem Memory.get_setAll (l : List Byte) (m : Memory) (a b : Nat) :
    Sparse.get (Memory.setAll m a l) b =
      if a ≤ b ∧ b < a + l.length then l[b - a]? else Sparse.get m b := by
  induction l generalizing m a with
  | nil => simp [Memory.setAll]
  | cons x l ih =>
    rw [Memory.setAll, ih, Sparse.get_set]
    by_cases h1 : a + 1 ≤ b ∧ b < a + 1 + l.length
    · have h2 : a ≤ b ∧ b < a + (x :: l).length := ⟨by omega, by simp only [List.length_cons]; omega⟩
      rw [if_pos h1, if_pos h2]
      have : b - a = b - (a + 1) + 1 := by omega
      rw [this, List.getElem?_cons_succ]
    · rw [if_neg h1]
      by_cases h3 : a = b
      · subst h3
        simp
      · have h2 : ¬ (a ≤ b ∧ b < a + (x :: l).length) := by simp only [List.length_cons]; omega
        rw [if_neg h3, if_neg h2]

theorem Memory.wf_setAll {m : Memory} (h : Memory.wf m = true) (a : Nat) (l : List Byte) :
    Memory.wf (Memory.setAll m a l) = true := by
  induction l generalizing m a with
  | nil => exact h
  | cons x l ih => exact ih (Sparse.wf_set h a x) (a + 1)

theorem Memory.below_setAll {m : Memory} {n : Nat} (h : Sparse.below n m = true) (a : Nat) (l : List Byte)
    (hl : a + l.length ≤ n) : Sparse.below n (Memory.setAll m a l) = true := by
  induction l generalizing m a with
  | nil => exact h
  | cons x l ih =>
    simp only [List.length_cons] at hl
    exact ih (Sparse.below_set h (by omega) x) (a + 1) (by omega)

end Sys2Proof.Machine
end

