-- ==== Sys2Proof/Laws/State.lean ====
section
/-! SUPPORT. One lemma per field and update of the state's named updates, so that no proof unfolds a record update. -/

namespace Sys2Proof.Machine

@[simp] theorem State.complete_cfg (s : State) : (s.complete).cfg = s.cfg := rfl
@[simp] theorem State.complete_wb (s : State) : (s.complete).wb = s.wb := rfl
@[simp] theorem State.complete_rb (s : State) : (s.complete).rb = s.rb := rfl
@[simp] theorem State.complete_sym (s : State) : (s.complete).sym = s.sym := rfl
@[simp] theorem State.complete_symn (s : State) : (s.complete).symn = s.symn := rfl
@[simp] theorem State.complete_lastDc0 (s : State) : (s.complete).lastDc0 = s.lastDc0 := rfl
@[simp] theorem State.complete_lastDc1 (s : State) : (s.complete).lastDc1 = s.lastDc1 := rfl
@[simp] theorem State.complete_lastDc2 (s : State) : (s.complete).lastDc2 = s.lastDc2 := rfl
@[simp] theorem State.complete_qt0 (s : State) : (s.complete).qt0 = s.qt0 := rfl
@[simp] theorem State.complete_qt1 (s : State) : (s.complete).qt1 = s.qt1 := rfl
@[simp] theorem State.complete_hdc0 (s : State) : (s.complete).hdc0 = s.hdc0 := rfl
@[simp] theorem State.complete_hdc1 (s : State) : (s.complete).hdc1 = s.hdc1 := rfl
@[simp] theorem State.complete_hac0 (s : State) : (s.complete).hac0 = s.hac0 := rfl
@[simp] theorem State.complete_hac1 (s : State) : (s.complete).hac1 = s.hac1 := rfl
@[simp] theorem State.complete_hbits (s : State) : (s.complete).hbits = s.hbits := rfl
@[simp] theorem State.complete_hvals (s : State) : (s.complete).hvals = s.hvals := rfl
@[simp] theorem State.complete_ieDone (s : State) : (s.complete).ieDone = s.ieDone := rfl
@[simp] theorem State.complete_ieErr (s : State) : (s.complete).ieErr = s.ieErr := rfl
@[simp] theorem State.complete_done (s : State) : (s.complete).done = true := rfl
@[simp] theorem State.complete_err (s : State) : (s.complete).err = s.err := rfl
@[simp] theorem State.complete_zres (s : State) : (s.complete).zres = s.zres := rfl
@[simp] theorem State.complete_found (s : State) : (s.complete).found = s.found := rfl
@[simp] theorem State.complete_drop (s : State) : (s.complete).drop = s.drop := rfl
@[simp] theorem State.complete_errCode (s : State) : (s.complete).errCode = s.errCode := rfl
@[simp] theorem State.complete_errInfo (s : State) : (s.complete).errInfo = s.errInfo := rfl
@[simp] theorem State.complete_errDetail (s : State) : (s.complete).errDetail = s.errDetail := rfl
@[simp] theorem State.complete_cmdCnt (s : State) : (s.complete).cmdCnt = s.cmdCnt + 1 := rfl
@[simp] theorem State.complete_bwn (s : State) : (s.complete).bwn = s.bwn := rfl
@[simp] theorem State.complete_bwacc (s : State) : (s.complete).bwacc = s.bwacc := rfl
@[simp] theorem State.complete_outbuf (s : State) : (s.complete).outbuf = s.outbuf := rfl
@[simp] theorem State.complete_outptr (s : State) : (s.complete).outptr = s.outptr := rfl
@[simp] theorem State.complete_inbuf (s : State) : (s.complete).inbuf = s.inbuf := rfl
@[simp] theorem State.complete_inlen (s : State) : (s.complete).inlen = s.inlen := rfl
@[simp] theorem State.complete_inpos (s : State) : (s.complete).inpos = s.inpos := rfl
@[simp] theorem State.complete_inbits (s : State) : (s.complete).inbits = s.inbits := rfl
@[simp] theorem State.complete_inprev (s : State) : (s.complete).inprev = s.inprev := rfl
@[simp] theorem State.complete_radius (s : State) : (s.complete).radius = s.radius := rfl
@[simp] theorem State.complete_grid0 (s : State) : (s.complete).grid0 = s.grid0 := rfl
@[simp] theorem State.complete_grid1 (s : State) : (s.complete).grid1 = s.grid1 := rfl
@[simp] theorem State.complete_grid2 (s : State) : (s.complete).grid2 = s.grid2 := rfl
@[simp] theorem State.complete_ref (s : State) : (s.complete).ref = s.ref := rfl
@[simp] theorem State.complete_mv (s : State) : (s.complete).mv = s.mv := rfl
@[simp] theorem State.complete_matchX (s : State) : (s.complete).matchX = s.matchX := rfl
@[simp] theorem State.complete_matchY (s : State) : (s.complete).matchY = s.matchY := rfl
@[simp] theorem State.complete_sse (s : State) : (s.complete).sse = s.sse := rfl
@[simp] theorem State.complete_pending (s : State) : (s.complete).pending = none := rfl
@[simp] theorem State.complete_env (s : State) : (s.complete).env = s.env := rfl
@[simp] theorem State.complete_resp (s : State) : (s.complete).resp = s.resp := rfl
@[simp] theorem State.complete_draws (s : State) : (s.complete).draws = s.draws := rfl
@[simp] theorem State.complete_epoch (s : State) : (s.complete).epoch = s.epoch := rfl

@[simp] theorem State.raise_cfg (s : State) (f : CmdFault) : (s.raise f).cfg = s.cfg := rfl
@[simp] theorem State.raise_wb (s : State) (f : CmdFault) : (s.raise f).wb = s.wb := rfl
@[simp] theorem State.raise_rb (s : State) (f : CmdFault) : (s.raise f).rb = s.rb := rfl
@[simp] theorem State.raise_sym (s : State) (f : CmdFault) : (s.raise f).sym = s.sym := rfl
@[simp] theorem State.raise_symn (s : State) (f : CmdFault) : (s.raise f).symn = s.symn := rfl
@[simp] theorem State.raise_lastDc0 (s : State) (f : CmdFault) : (s.raise f).lastDc0 = s.lastDc0 := rfl
@[simp] theorem State.raise_lastDc1 (s : State) (f : CmdFault) : (s.raise f).lastDc1 = s.lastDc1 := rfl
@[simp] theorem State.raise_lastDc2 (s : State) (f : CmdFault) : (s.raise f).lastDc2 = s.lastDc2 := rfl
@[simp] theorem State.raise_qt0 (s : State) (f : CmdFault) : (s.raise f).qt0 = s.qt0 := rfl
@[simp] theorem State.raise_qt1 (s : State) (f : CmdFault) : (s.raise f).qt1 = s.qt1 := rfl
@[simp] theorem State.raise_hdc0 (s : State) (f : CmdFault) : (s.raise f).hdc0 = s.hdc0 := rfl
@[simp] theorem State.raise_hdc1 (s : State) (f : CmdFault) : (s.raise f).hdc1 = s.hdc1 := rfl
@[simp] theorem State.raise_hac0 (s : State) (f : CmdFault) : (s.raise f).hac0 = s.hac0 := rfl
@[simp] theorem State.raise_hac1 (s : State) (f : CmdFault) : (s.raise f).hac1 = s.hac1 := rfl
@[simp] theorem State.raise_hbits (s : State) (f : CmdFault) : (s.raise f).hbits = s.hbits := rfl
@[simp] theorem State.raise_hvals (s : State) (f : CmdFault) : (s.raise f).hvals = s.hvals := rfl
@[simp] theorem State.raise_ieDone (s : State) (f : CmdFault) : (s.raise f).ieDone = s.ieDone := rfl
@[simp] theorem State.raise_ieErr (s : State) (f : CmdFault) : (s.raise f).ieErr = s.ieErr := rfl
@[simp] theorem State.raise_done (s : State) (f : CmdFault) : (s.raise f).done = s.done := rfl
@[simp] theorem State.raise_err (s : State) (f : CmdFault) : (s.raise f).err = true := rfl
@[simp] theorem State.raise_zres (s : State) (f : CmdFault) : (s.raise f).zres = s.zres := rfl
@[simp] theorem State.raise_found (s : State) (f : CmdFault) : (s.raise f).found = s.found := rfl
@[simp] theorem State.raise_drop (s : State) (f : CmdFault) : (s.raise f).drop = s.drop := rfl
@[simp] theorem State.raise_errCode (s : State) (f : CmdFault) : (s.raise f).errCode = f.code.byte := rfl
@[simp] theorem State.raise_errInfo (s : State) (f : CmdFault) : (s.raise f).errInfo = s.cmdWord := rfl
@[simp] theorem State.raise_errDetail (s : State) (f : CmdFault) : (s.raise f).errDetail = f.detail := rfl
@[simp] theorem State.raise_cmdCnt (s : State) (f : CmdFault) : (s.raise f).cmdCnt = s.cmdCnt := rfl
@[simp] theorem State.raise_bwn (s : State) (f : CmdFault) : (s.raise f).bwn = s.bwn := rfl
@[simp] theorem State.raise_bwacc (s : State) (f : CmdFault) : (s.raise f).bwacc = s.bwacc := rfl
@[simp] theorem State.raise_outbuf (s : State) (f : CmdFault) : (s.raise f).outbuf = s.outbuf := rfl
@[simp] theorem State.raise_outptr (s : State) (f : CmdFault) : (s.raise f).outptr = s.outptr := rfl
@[simp] theorem State.raise_inbuf (s : State) (f : CmdFault) : (s.raise f).inbuf = s.inbuf := rfl
@[simp] theorem State.raise_inlen (s : State) (f : CmdFault) : (s.raise f).inlen = s.inlen := rfl
@[simp] theorem State.raise_inpos (s : State) (f : CmdFault) : (s.raise f).inpos = s.inpos := rfl
@[simp] theorem State.raise_inbits (s : State) (f : CmdFault) : (s.raise f).inbits = s.inbits := rfl
@[simp] theorem State.raise_inprev (s : State) (f : CmdFault) : (s.raise f).inprev = s.inprev := rfl
@[simp] theorem State.raise_radius (s : State) (f : CmdFault) : (s.raise f).radius = s.radius := rfl
@[simp] theorem State.raise_grid0 (s : State) (f : CmdFault) : (s.raise f).grid0 = s.grid0 := rfl
@[simp] theorem State.raise_grid1 (s : State) (f : CmdFault) : (s.raise f).grid1 = s.grid1 := rfl
@[simp] theorem State.raise_grid2 (s : State) (f : CmdFault) : (s.raise f).grid2 = s.grid2 := rfl
@[simp] theorem State.raise_ref (s : State) (f : CmdFault) : (s.raise f).ref = s.ref := rfl
@[simp] theorem State.raise_mv (s : State) (f : CmdFault) : (s.raise f).mv = s.mv := rfl
@[simp] theorem State.raise_matchX (s : State) (f : CmdFault) : (s.raise f).matchX = s.matchX := rfl
@[simp] theorem State.raise_matchY (s : State) (f : CmdFault) : (s.raise f).matchY = s.matchY := rfl
@[simp] theorem State.raise_sse (s : State) (f : CmdFault) : (s.raise f).sse = s.sse := rfl
@[simp] theorem State.raise_pending (s : State) (f : CmdFault) : (s.raise f).pending = none := rfl
@[simp] theorem State.raise_env (s : State) (f : CmdFault) : (s.raise f).env = s.env := rfl
@[simp] theorem State.raise_resp (s : State) (f : CmdFault) : (s.raise f).resp = s.resp := rfl
@[simp] theorem State.raise_draws (s : State) (f : CmdFault) : (s.raise f).draws = s.draws := rfl
@[simp] theorem State.raise_epoch (s : State) (f : CmdFault) : (s.raise f).epoch = s.epoch := rfl

@[simp] theorem State.clearErr_cfg (s : State) : (s.clearErr).cfg = s.cfg := rfl
@[simp] theorem State.clearErr_wb (s : State) : (s.clearErr).wb = s.wb := rfl
@[simp] theorem State.clearErr_rb (s : State) : (s.clearErr).rb = s.rb := rfl
@[simp] theorem State.clearErr_sym (s : State) : (s.clearErr).sym = s.sym := rfl
@[simp] theorem State.clearErr_symn (s : State) : (s.clearErr).symn = s.symn := rfl
@[simp] theorem State.clearErr_lastDc0 (s : State) : (s.clearErr).lastDc0 = s.lastDc0 := rfl
@[simp] theorem State.clearErr_lastDc1 (s : State) : (s.clearErr).lastDc1 = s.lastDc1 := rfl
@[simp] theorem State.clearErr_lastDc2 (s : State) : (s.clearErr).lastDc2 = s.lastDc2 := rfl
@[simp] theorem State.clearErr_qt0 (s : State) : (s.clearErr).qt0 = s.qt0 := rfl
@[simp] theorem State.clearErr_qt1 (s : State) : (s.clearErr).qt1 = s.qt1 := rfl
@[simp] theorem State.clearErr_hdc0 (s : State) : (s.clearErr).hdc0 = s.hdc0 := rfl
@[simp] theorem State.clearErr_hdc1 (s : State) : (s.clearErr).hdc1 = s.hdc1 := rfl
@[simp] theorem State.clearErr_hac0 (s : State) : (s.clearErr).hac0 = s.hac0 := rfl
@[simp] theorem State.clearErr_hac1 (s : State) : (s.clearErr).hac1 = s.hac1 := rfl
@[simp] theorem State.clearErr_hbits (s : State) : (s.clearErr).hbits = s.hbits := rfl
@[simp] theorem State.clearErr_hvals (s : State) : (s.clearErr).hvals = s.hvals := rfl
@[simp] theorem State.clearErr_ieDone (s : State) : (s.clearErr).ieDone = s.ieDone := rfl
@[simp] theorem State.clearErr_ieErr (s : State) : (s.clearErr).ieErr = s.ieErr := rfl
@[simp] theorem State.clearErr_done (s : State) : (s.clearErr).done = s.done := rfl
@[simp] theorem State.clearErr_err (s : State) : (s.clearErr).err = false := rfl
@[simp] theorem State.clearErr_zres (s : State) : (s.clearErr).zres = s.zres := rfl
@[simp] theorem State.clearErr_found (s : State) : (s.clearErr).found = s.found := rfl
@[simp] theorem State.clearErr_drop (s : State) : (s.clearErr).drop = s.drop := rfl
@[simp] theorem State.clearErr_errCode (s : State) : (s.clearErr).errCode = 0 := rfl
@[simp] theorem State.clearErr_errInfo (s : State) : (s.clearErr).errInfo = 0 := rfl
@[simp] theorem State.clearErr_errDetail (s : State) : (s.clearErr).errDetail = 0 := rfl
@[simp] theorem State.clearErr_cmdCnt (s : State) : (s.clearErr).cmdCnt = s.cmdCnt := rfl
@[simp] theorem State.clearErr_bwn (s : State) : (s.clearErr).bwn = s.bwn := rfl
@[simp] theorem State.clearErr_bwacc (s : State) : (s.clearErr).bwacc = s.bwacc := rfl
@[simp] theorem State.clearErr_outbuf (s : State) : (s.clearErr).outbuf = s.outbuf := rfl
@[simp] theorem State.clearErr_outptr (s : State) : (s.clearErr).outptr = s.outptr := rfl
@[simp] theorem State.clearErr_inbuf (s : State) : (s.clearErr).inbuf = s.inbuf := rfl
@[simp] theorem State.clearErr_inlen (s : State) : (s.clearErr).inlen = s.inlen := rfl
@[simp] theorem State.clearErr_inpos (s : State) : (s.clearErr).inpos = s.inpos := rfl
@[simp] theorem State.clearErr_inbits (s : State) : (s.clearErr).inbits = s.inbits := rfl
@[simp] theorem State.clearErr_inprev (s : State) : (s.clearErr).inprev = s.inprev := rfl
@[simp] theorem State.clearErr_radius (s : State) : (s.clearErr).radius = s.radius := rfl
@[simp] theorem State.clearErr_grid0 (s : State) : (s.clearErr).grid0 = s.grid0 := rfl
@[simp] theorem State.clearErr_grid1 (s : State) : (s.clearErr).grid1 = s.grid1 := rfl
@[simp] theorem State.clearErr_grid2 (s : State) : (s.clearErr).grid2 = s.grid2 := rfl
@[simp] theorem State.clearErr_ref (s : State) : (s.clearErr).ref = s.ref := rfl
@[simp] theorem State.clearErr_mv (s : State) : (s.clearErr).mv = s.mv := rfl
@[simp] theorem State.clearErr_matchX (s : State) : (s.clearErr).matchX = s.matchX := rfl
@[simp] theorem State.clearErr_matchY (s : State) : (s.clearErr).matchY = s.matchY := rfl
@[simp] theorem State.clearErr_sse (s : State) : (s.clearErr).sse = s.sse := rfl
@[simp] theorem State.clearErr_pending (s : State) : (s.clearErr).pending = s.pending := rfl
@[simp] theorem State.clearErr_env (s : State) : (s.clearErr).env = s.env := rfl
@[simp] theorem State.clearErr_resp (s : State) : (s.clearErr).resp = s.resp := rfl
@[simp] theorem State.clearErr_draws (s : State) : (s.clearErr).draws = s.draws := rfl
@[simp] theorem State.clearErr_epoch (s : State) : (s.clearErr).epoch = s.epoch := rfl

@[simp] theorem State.respond_cfg (s : State) (d : Word) (e : Bool) : (s.respond d e).cfg = s.cfg := rfl
@[simp] theorem State.respond_wb (s : State) (d : Word) (e : Bool) : (s.respond d e).wb = s.wb := rfl
@[simp] theorem State.respond_rb (s : State) (d : Word) (e : Bool) : (s.respond d e).rb = s.rb := rfl
@[simp] theorem State.respond_sym (s : State) (d : Word) (e : Bool) : (s.respond d e).sym = s.sym := rfl
@[simp] theorem State.respond_symn (s : State) (d : Word) (e : Bool) : (s.respond d e).symn = s.symn := rfl
@[simp] theorem State.respond_lastDc0 (s : State) (d : Word) (e : Bool) : (s.respond d e).lastDc0 = s.lastDc0 := rfl
@[simp] theorem State.respond_lastDc1 (s : State) (d : Word) (e : Bool) : (s.respond d e).lastDc1 = s.lastDc1 := rfl
@[simp] theorem State.respond_lastDc2 (s : State) (d : Word) (e : Bool) : (s.respond d e).lastDc2 = s.lastDc2 := rfl
@[simp] theorem State.respond_qt0 (s : State) (d : Word) (e : Bool) : (s.respond d e).qt0 = s.qt0 := rfl
@[simp] theorem State.respond_qt1 (s : State) (d : Word) (e : Bool) : (s.respond d e).qt1 = s.qt1 := rfl
@[simp] theorem State.respond_hdc0 (s : State) (d : Word) (e : Bool) : (s.respond d e).hdc0 = s.hdc0 := rfl
@[simp] theorem State.respond_hdc1 (s : State) (d : Word) (e : Bool) : (s.respond d e).hdc1 = s.hdc1 := rfl
@[simp] theorem State.respond_hac0 (s : State) (d : Word) (e : Bool) : (s.respond d e).hac0 = s.hac0 := rfl
@[simp] theorem State.respond_hac1 (s : State) (d : Word) (e : Bool) : (s.respond d e).hac1 = s.hac1 := rfl
@[simp] theorem State.respond_hbits (s : State) (d : Word) (e : Bool) : (s.respond d e).hbits = s.hbits := rfl
@[simp] theorem State.respond_hvals (s : State) (d : Word) (e : Bool) : (s.respond d e).hvals = s.hvals := rfl
@[simp] theorem State.respond_ieDone (s : State) (d : Word) (e : Bool) : (s.respond d e).ieDone = s.ieDone := rfl
@[simp] theorem State.respond_ieErr (s : State) (d : Word) (e : Bool) : (s.respond d e).ieErr = s.ieErr := rfl
@[simp] theorem State.respond_done (s : State) (d : Word) (e : Bool) : (s.respond d e).done = s.done := rfl
@[simp] theorem State.respond_err (s : State) (d : Word) (e : Bool) : (s.respond d e).err = s.err := rfl
@[simp] theorem State.respond_zres (s : State) (d : Word) (e : Bool) : (s.respond d e).zres = s.zres := rfl
@[simp] theorem State.respond_found (s : State) (d : Word) (e : Bool) : (s.respond d e).found = s.found := rfl
@[simp] theorem State.respond_drop (s : State) (d : Word) (e : Bool) : (s.respond d e).drop = s.drop := rfl
@[simp] theorem State.respond_errCode (s : State) (d : Word) (e : Bool) : (s.respond d e).errCode = s.errCode := rfl
@[simp] theorem State.respond_errInfo (s : State) (d : Word) (e : Bool) : (s.respond d e).errInfo = s.errInfo := rfl
@[simp] theorem State.respond_errDetail (s : State) (d : Word) (e : Bool) : (s.respond d e).errDetail = s.errDetail := rfl
@[simp] theorem State.respond_cmdCnt (s : State) (d : Word) (e : Bool) : (s.respond d e).cmdCnt = s.cmdCnt := rfl
@[simp] theorem State.respond_bwn (s : State) (d : Word) (e : Bool) : (s.respond d e).bwn = s.bwn := rfl
@[simp] theorem State.respond_bwacc (s : State) (d : Word) (e : Bool) : (s.respond d e).bwacc = s.bwacc := rfl
@[simp] theorem State.respond_outbuf (s : State) (d : Word) (e : Bool) : (s.respond d e).outbuf = s.outbuf := rfl
@[simp] theorem State.respond_outptr (s : State) (d : Word) (e : Bool) : (s.respond d e).outptr = s.outptr := rfl
@[simp] theorem State.respond_inbuf (s : State) (d : Word) (e : Bool) : (s.respond d e).inbuf = s.inbuf := rfl
@[simp] theorem State.respond_inlen (s : State) (d : Word) (e : Bool) : (s.respond d e).inlen = s.inlen := rfl
@[simp] theorem State.respond_inpos (s : State) (d : Word) (e : Bool) : (s.respond d e).inpos = s.inpos := rfl
@[simp] theorem State.respond_inbits (s : State) (d : Word) (e : Bool) : (s.respond d e).inbits = s.inbits := rfl
@[simp] theorem State.respond_inprev (s : State) (d : Word) (e : Bool) : (s.respond d e).inprev = s.inprev := rfl
@[simp] theorem State.respond_radius (s : State) (d : Word) (e : Bool) : (s.respond d e).radius = s.radius := rfl
@[simp] theorem State.respond_grid0 (s : State) (d : Word) (e : Bool) : (s.respond d e).grid0 = s.grid0 := rfl
@[simp] theorem State.respond_grid1 (s : State) (d : Word) (e : Bool) : (s.respond d e).grid1 = s.grid1 := rfl
@[simp] theorem State.respond_grid2 (s : State) (d : Word) (e : Bool) : (s.respond d e).grid2 = s.grid2 := rfl
@[simp] theorem State.respond_ref (s : State) (d : Word) (e : Bool) : (s.respond d e).ref = s.ref := rfl
@[simp] theorem State.respond_mv (s : State) (d : Word) (e : Bool) : (s.respond d e).mv = s.mv := rfl
@[simp] theorem State.respond_matchX (s : State) (d : Word) (e : Bool) : (s.respond d e).matchX = s.matchX := rfl
@[simp] theorem State.respond_matchY (s : State) (d : Word) (e : Bool) : (s.respond d e).matchY = s.matchY := rfl
@[simp] theorem State.respond_sse (s : State) (d : Word) (e : Bool) : (s.respond d e).sse = s.sse := rfl
@[simp] theorem State.respond_pending (s : State) (d : Word) (e : Bool) : (s.respond d e).pending = s.pending := rfl
@[simp] theorem State.respond_env (s : State) (d : Word) (e : Bool) : (s.respond d e).env = s.env := rfl
@[simp] theorem State.respond_resp (s : State) (d : Word) (e : Bool) : (s.respond d e).resp = some ⟨d, e⟩ := rfl
@[simp] theorem State.respond_draws (s : State) (d : Word) (e : Bool) : (s.respond d e).draws = s.draws := rfl
@[simp] theorem State.respond_epoch (s : State) (d : Word) (e : Bool) : (s.respond d e).epoch = s.epoch := rfl

@[simp] theorem State.captured_cfg (s : State) (w : Word) : (s.captured w).cfg = s.cfg := rfl
@[simp] theorem State.captured_wb (s : State) (w : Word) : (s.captured w).wb = s.wb := rfl
@[simp] theorem State.captured_rb (s : State) (w : Word) : (s.captured w).rb = s.rb := rfl
@[simp] theorem State.captured_sym (s : State) (w : Word) : (s.captured w).sym = s.sym := rfl
@[simp] theorem State.captured_symn (s : State) (w : Word) : (s.captured w).symn = s.symn := rfl
@[simp] theorem State.captured_lastDc0 (s : State) (w : Word) : (s.captured w).lastDc0 = s.lastDc0 := rfl
@[simp] theorem State.captured_lastDc1 (s : State) (w : Word) : (s.captured w).lastDc1 = s.lastDc1 := rfl
@[simp] theorem State.captured_lastDc2 (s : State) (w : Word) : (s.captured w).lastDc2 = s.lastDc2 := rfl
@[simp] theorem State.captured_qt0 (s : State) (w : Word) : (s.captured w).qt0 = s.qt0 := rfl
@[simp] theorem State.captured_qt1 (s : State) (w : Word) : (s.captured w).qt1 = s.qt1 := rfl
@[simp] theorem State.captured_hdc0 (s : State) (w : Word) : (s.captured w).hdc0 = s.hdc0 := rfl
@[simp] theorem State.captured_hdc1 (s : State) (w : Word) : (s.captured w).hdc1 = s.hdc1 := rfl
@[simp] theorem State.captured_hac0 (s : State) (w : Word) : (s.captured w).hac0 = s.hac0 := rfl
@[simp] theorem State.captured_hac1 (s : State) (w : Word) : (s.captured w).hac1 = s.hac1 := rfl
@[simp] theorem State.captured_hbits (s : State) (w : Word) : (s.captured w).hbits = s.hbits := rfl
@[simp] theorem State.captured_hvals (s : State) (w : Word) : (s.captured w).hvals = s.hvals := rfl
@[simp] theorem State.captured_ieDone (s : State) (w : Word) : (s.captured w).ieDone = s.ieDone := rfl
@[simp] theorem State.captured_ieErr (s : State) (w : Word) : (s.captured w).ieErr = s.ieErr := rfl
@[simp] theorem State.captured_done (s : State) (w : Word) : (s.captured w).done = s.done := rfl
@[simp] theorem State.captured_err (s : State) (w : Word) : (s.captured w).err = s.err := rfl
@[simp] theorem State.captured_zres (s : State) (w : Word) : (s.captured w).zres = s.zres := rfl
@[simp] theorem State.captured_found (s : State) (w : Word) : (s.captured w).found = s.found := rfl
@[simp] theorem State.captured_drop (s : State) (w : Word) : (s.captured w).drop = s.drop := rfl
@[simp] theorem State.captured_errCode (s : State) (w : Word) : (s.captured w).errCode = s.errCode := rfl
@[simp] theorem State.captured_errInfo (s : State) (w : Word) : (s.captured w).errInfo = s.errInfo := rfl
@[simp] theorem State.captured_errDetail (s : State) (w : Word) : (s.captured w).errDetail = s.errDetail := rfl
@[simp] theorem State.captured_cmdCnt (s : State) (w : Word) : (s.captured w).cmdCnt = s.cmdCnt := rfl
@[simp] theorem State.captured_bwn (s : State) (w : Word) : (s.captured w).bwn = s.bwn := rfl
@[simp] theorem State.captured_bwacc (s : State) (w : Word) : (s.captured w).bwacc = s.bwacc := rfl
@[simp] theorem State.captured_outbuf (s : State) (w : Word) : (s.captured w).outbuf = s.outbuf := rfl
@[simp] theorem State.captured_outptr (s : State) (w : Word) : (s.captured w).outptr = s.outptr := rfl
@[simp] theorem State.captured_inbuf (s : State) (w : Word) : (s.captured w).inbuf = s.inbuf := rfl
@[simp] theorem State.captured_inlen (s : State) (w : Word) : (s.captured w).inlen = s.inlen := rfl
@[simp] theorem State.captured_inpos (s : State) (w : Word) : (s.captured w).inpos = s.inpos := rfl
@[simp] theorem State.captured_inbits (s : State) (w : Word) : (s.captured w).inbits = s.inbits := rfl
@[simp] theorem State.captured_inprev (s : State) (w : Word) : (s.captured w).inprev = s.inprev := rfl
@[simp] theorem State.captured_radius (s : State) (w : Word) : (s.captured w).radius = s.radius := rfl
@[simp] theorem State.captured_grid0 (s : State) (w : Word) : (s.captured w).grid0 = s.grid0 := rfl
@[simp] theorem State.captured_grid1 (s : State) (w : Word) : (s.captured w).grid1 = s.grid1 := rfl
@[simp] theorem State.captured_grid2 (s : State) (w : Word) : (s.captured w).grid2 = s.grid2 := rfl
@[simp] theorem State.captured_ref (s : State) (w : Word) : (s.captured w).ref = s.ref := rfl
@[simp] theorem State.captured_mv (s : State) (w : Word) : (s.captured w).mv = s.mv := rfl
@[simp] theorem State.captured_matchX (s : State) (w : Word) : (s.captured w).matchX = s.matchX := rfl
@[simp] theorem State.captured_matchY (s : State) (w : Word) : (s.captured w).matchY = s.matchY := rfl
@[simp] theorem State.captured_sse (s : State) (w : Word) : (s.captured w).sse = s.sse := rfl
@[simp] theorem State.captured_pending (s : State) (w : Word) : (s.captured w).pending = some w := rfl
@[simp] theorem State.captured_env (s : State) (w : Word) : (s.captured w).env = Event.engine :: s.env := rfl
@[simp] theorem State.captured_resp (s : State) (w : Word) : (s.captured w).resp = s.resp := rfl
@[simp] theorem State.captured_draws (s : State) (w : Word) : (s.captured w).draws = s.draws := rfl
@[simp] theorem State.captured_epoch (s : State) (w : Word) : (s.captured w).epoch = s.epoch := rfl

@[simp] theorem State.setQt_cfg (s : State) (tid : TableId) (t : QTable) : (s.setQt tid t).cfg = s.cfg := by cases tid <;> rfl
@[simp] theorem State.setQt_wb (s : State) (tid : TableId) (t : QTable) : (s.setQt tid t).wb = s.wb := by cases tid <;> rfl
@[simp] theorem State.setQt_rb (s : State) (tid : TableId) (t : QTable) : (s.setQt tid t).rb = s.rb := by cases tid <;> rfl
@[simp] theorem State.setQt_sym (s : State) (tid : TableId) (t : QTable) : (s.setQt tid t).sym = s.sym := by cases tid <;> rfl
@[simp] theorem State.setQt_symn (s : State) (tid : TableId) (t : QTable) : (s.setQt tid t).symn = s.symn := by cases tid <;> rfl
@[simp] theorem State.setQt_lastDc0 (s : State) (tid : TableId) (t : QTable) : (s.setQt tid t).lastDc0 = s.lastDc0 := by cases tid <;> rfl
@[simp] theorem State.setQt_lastDc1 (s : State) (tid : TableId) (t : QTable) : (s.setQt tid t).lastDc1 = s.lastDc1 := by cases tid <;> rfl
@[simp] theorem State.setQt_lastDc2 (s : State) (tid : TableId) (t : QTable) : (s.setQt tid t).lastDc2 = s.lastDc2 := by cases tid <;> rfl
@[simp] theorem State.setQt_hdc0 (s : State) (tid : TableId) (t : QTable) : (s.setQt tid t).hdc0 = s.hdc0 := by cases tid <;> rfl
@[simp] theorem State.setQt_hdc1 (s : State) (tid : TableId) (t : QTable) : (s.setQt tid t).hdc1 = s.hdc1 := by cases tid <;> rfl
@[simp] theorem State.setQt_hac0 (s : State) (tid : TableId) (t : QTable) : (s.setQt tid t).hac0 = s.hac0 := by cases tid <;> rfl
@[simp] theorem State.setQt_hac1 (s : State) (tid : TableId) (t : QTable) : (s.setQt tid t).hac1 = s.hac1 := by cases tid <;> rfl
@[simp] theorem State.setQt_hbits (s : State) (tid : TableId) (t : QTable) : (s.setQt tid t).hbits = s.hbits := by cases tid <;> rfl
@[simp] theorem State.setQt_hvals (s : State) (tid : TableId) (t : QTable) : (s.setQt tid t).hvals = s.hvals := by cases tid <;> rfl
@[simp] theorem State.setQt_ieDone (s : State) (tid : TableId) (t : QTable) : (s.setQt tid t).ieDone = s.ieDone := by cases tid <;> rfl
@[simp] theorem State.setQt_ieErr (s : State) (tid : TableId) (t : QTable) : (s.setQt tid t).ieErr = s.ieErr := by cases tid <;> rfl
@[simp] theorem State.setQt_done (s : State) (tid : TableId) (t : QTable) : (s.setQt tid t).done = s.done := by cases tid <;> rfl
@[simp] theorem State.setQt_err (s : State) (tid : TableId) (t : QTable) : (s.setQt tid t).err = s.err := by cases tid <;> rfl
@[simp] theorem State.setQt_zres (s : State) (tid : TableId) (t : QTable) : (s.setQt tid t).zres = s.zres := by cases tid <;> rfl
@[simp] theorem State.setQt_found (s : State) (tid : TableId) (t : QTable) : (s.setQt tid t).found = s.found := by cases tid <;> rfl
@[simp] theorem State.setQt_drop (s : State) (tid : TableId) (t : QTable) : (s.setQt tid t).drop = s.drop := by cases tid <;> rfl
@[simp] theorem State.setQt_errCode (s : State) (tid : TableId) (t : QTable) : (s.setQt tid t).errCode = s.errCode := by cases tid <;> rfl
@[simp] theorem State.setQt_errInfo (s : State) (tid : TableId) (t : QTable) : (s.setQt tid t).errInfo = s.errInfo := by cases tid <;> rfl
@[simp] theorem State.setQt_errDetail (s : State) (tid : TableId) (t : QTable) : (s.setQt tid t).errDetail = s.errDetail := by cases tid <;> rfl
@[simp] theorem State.setQt_cmdCnt (s : State) (tid : TableId) (t : QTable) : (s.setQt tid t).cmdCnt = s.cmdCnt := by cases tid <;> rfl
@[simp] theorem State.setQt_bwn (s : State) (tid : TableId) (t : QTable) : (s.setQt tid t).bwn = s.bwn := by cases tid <;> rfl
@[simp] theorem State.setQt_bwacc (s : State) (tid : TableId) (t : QTable) : (s.setQt tid t).bwacc = s.bwacc := by cases tid <;> rfl
@[simp] theorem State.setQt_outbuf (s : State) (tid : TableId) (t : QTable) : (s.setQt tid t).outbuf = s.outbuf := by cases tid <;> rfl
@[simp] theorem State.setQt_outptr (s : State) (tid : TableId) (t : QTable) : (s.setQt tid t).outptr = s.outptr := by cases tid <;> rfl
@[simp] theorem State.setQt_inbuf (s : State) (tid : TableId) (t : QTable) : (s.setQt tid t).inbuf = s.inbuf := by cases tid <;> rfl
@[simp] theorem State.setQt_inlen (s : State) (tid : TableId) (t : QTable) : (s.setQt tid t).inlen = s.inlen := by cases tid <;> rfl
@[simp] theorem State.setQt_inpos (s : State) (tid : TableId) (t : QTable) : (s.setQt tid t).inpos = s.inpos := by cases tid <;> rfl
@[simp] theorem State.setQt_inbits (s : State) (tid : TableId) (t : QTable) : (s.setQt tid t).inbits = s.inbits := by cases tid <;> rfl
@[simp] theorem State.setQt_inprev (s : State) (tid : TableId) (t : QTable) : (s.setQt tid t).inprev = s.inprev := by cases tid <;> rfl
@[simp] theorem State.setQt_radius (s : State) (tid : TableId) (t : QTable) : (s.setQt tid t).radius = s.radius := by cases tid <;> rfl
@[simp] theorem State.setQt_grid0 (s : State) (tid : TableId) (t : QTable) : (s.setQt tid t).grid0 = s.grid0 := by cases tid <;> rfl
@[simp] theorem State.setQt_grid1 (s : State) (tid : TableId) (t : QTable) : (s.setQt tid t).grid1 = s.grid1 := by cases tid <;> rfl
@[simp] theorem State.setQt_grid2 (s : State) (tid : TableId) (t : QTable) : (s.setQt tid t).grid2 = s.grid2 := by cases tid <;> rfl
@[simp] theorem State.setQt_ref (s : State) (tid : TableId) (t : QTable) : (s.setQt tid t).ref = s.ref := by cases tid <;> rfl
@[simp] theorem State.setQt_mv (s : State) (tid : TableId) (t : QTable) : (s.setQt tid t).mv = s.mv := by cases tid <;> rfl
@[simp] theorem State.setQt_matchX (s : State) (tid : TableId) (t : QTable) : (s.setQt tid t).matchX = s.matchX := by cases tid <;> rfl
@[simp] theorem State.setQt_matchY (s : State) (tid : TableId) (t : QTable) : (s.setQt tid t).matchY = s.matchY := by cases tid <;> rfl
@[simp] theorem State.setQt_sse (s : State) (tid : TableId) (t : QTable) : (s.setQt tid t).sse = s.sse := by cases tid <;> rfl
@[simp] theorem State.setQt_pending (s : State) (tid : TableId) (t : QTable) : (s.setQt tid t).pending = s.pending := by cases tid <;> rfl
@[simp] theorem State.setQt_env (s : State) (tid : TableId) (t : QTable) : (s.setQt tid t).env = s.env := by cases tid <;> rfl
@[simp] theorem State.setQt_resp (s : State) (tid : TableId) (t : QTable) : (s.setQt tid t).resp = s.resp := by cases tid <;> rfl
@[simp] theorem State.setQt_draws (s : State) (tid : TableId) (t : QTable) : (s.setQt tid t).draws = s.draws := by cases tid <;> rfl
@[simp] theorem State.setQt_epoch (s : State) (tid : TableId) (t : QTable) : (s.setQt tid t).epoch = s.epoch := by cases tid <;> rfl
@[simp] theorem State.setQt_qtOfTid (s : State) (tid tid' : TableId) (t : QTable) :
    (s.setQt tid t).qtOfTid tid' = if tid' = tid then t else s.qtOfTid tid' := by cases tid <;> cases tid' <;> rfl

@[simp] theorem State.setLastDc_cfg (s : State) (ch : Chan) (v : Word) : (s.setLastDc ch v).cfg = s.cfg := by cases ch <;> rfl
@[simp] theorem State.setLastDc_wb (s : State) (ch : Chan) (v : Word) : (s.setLastDc ch v).wb = s.wb := by cases ch <;> rfl
@[simp] theorem State.setLastDc_rb (s : State) (ch : Chan) (v : Word) : (s.setLastDc ch v).rb = s.rb := by cases ch <;> rfl
@[simp] theorem State.setLastDc_sym (s : State) (ch : Chan) (v : Word) : (s.setLastDc ch v).sym = s.sym := by cases ch <;> rfl
@[simp] theorem State.setLastDc_symn (s : State) (ch : Chan) (v : Word) : (s.setLastDc ch v).symn = s.symn := by cases ch <;> rfl
@[simp] theorem State.setLastDc_qt0 (s : State) (ch : Chan) (v : Word) : (s.setLastDc ch v).qt0 = s.qt0 := by cases ch <;> rfl
@[simp] theorem State.setLastDc_qt1 (s : State) (ch : Chan) (v : Word) : (s.setLastDc ch v).qt1 = s.qt1 := by cases ch <;> rfl
@[simp] theorem State.setLastDc_hdc0 (s : State) (ch : Chan) (v : Word) : (s.setLastDc ch v).hdc0 = s.hdc0 := by cases ch <;> rfl
@[simp] theorem State.setLastDc_hdc1 (s : State) (ch : Chan) (v : Word) : (s.setLastDc ch v).hdc1 = s.hdc1 := by cases ch <;> rfl
@[simp] theorem State.setLastDc_hac0 (s : State) (ch : Chan) (v : Word) : (s.setLastDc ch v).hac0 = s.hac0 := by cases ch <;> rfl
@[simp] theorem State.setLastDc_hac1 (s : State) (ch : Chan) (v : Word) : (s.setLastDc ch v).hac1 = s.hac1 := by cases ch <;> rfl
@[simp] theorem State.setLastDc_hbits (s : State) (ch : Chan) (v : Word) : (s.setLastDc ch v).hbits = s.hbits := by cases ch <;> rfl
@[simp] theorem State.setLastDc_hvals (s : State) (ch : Chan) (v : Word) : (s.setLastDc ch v).hvals = s.hvals := by cases ch <;> rfl
@[simp] theorem State.setLastDc_ieDone (s : State) (ch : Chan) (v : Word) : (s.setLastDc ch v).ieDone = s.ieDone := by cases ch <;> rfl
@[simp] theorem State.setLastDc_ieErr (s : State) (ch : Chan) (v : Word) : (s.setLastDc ch v).ieErr = s.ieErr := by cases ch <;> rfl
@[simp] theorem State.setLastDc_done (s : State) (ch : Chan) (v : Word) : (s.setLastDc ch v).done = s.done := by cases ch <;> rfl
@[simp] theorem State.setLastDc_err (s : State) (ch : Chan) (v : Word) : (s.setLastDc ch v).err = s.err := by cases ch <;> rfl
@[simp] theorem State.setLastDc_zres (s : State) (ch : Chan) (v : Word) : (s.setLastDc ch v).zres = s.zres := by cases ch <;> rfl
@[simp] theorem State.setLastDc_found (s : State) (ch : Chan) (v : Word) : (s.setLastDc ch v).found = s.found := by cases ch <;> rfl
@[simp] theorem State.setLastDc_drop (s : State) (ch : Chan) (v : Word) : (s.setLastDc ch v).drop = s.drop := by cases ch <;> rfl
@[simp] theorem State.setLastDc_errCode (s : State) (ch : Chan) (v : Word) : (s.setLastDc ch v).errCode = s.errCode := by cases ch <;> rfl
@[simp] theorem State.setLastDc_errInfo (s : State) (ch : Chan) (v : Word) : (s.setLastDc ch v).errInfo = s.errInfo := by cases ch <;> rfl
@[simp] theorem State.setLastDc_errDetail (s : State) (ch : Chan) (v : Word) : (s.setLastDc ch v).errDetail = s.errDetail := by cases ch <;> rfl
@[simp] theorem State.setLastDc_cmdCnt (s : State) (ch : Chan) (v : Word) : (s.setLastDc ch v).cmdCnt = s.cmdCnt := by cases ch <;> rfl
@[simp] theorem State.setLastDc_bwn (s : State) (ch : Chan) (v : Word) : (s.setLastDc ch v).bwn = s.bwn := by cases ch <;> rfl
@[simp] theorem State.setLastDc_bwacc (s : State) (ch : Chan) (v : Word) : (s.setLastDc ch v).bwacc = s.bwacc := by cases ch <;> rfl
@[simp] theorem State.setLastDc_outbuf (s : State) (ch : Chan) (v : Word) : (s.setLastDc ch v).outbuf = s.outbuf := by cases ch <;> rfl
@[simp] theorem State.setLastDc_outptr (s : State) (ch : Chan) (v : Word) : (s.setLastDc ch v).outptr = s.outptr := by cases ch <;> rfl
@[simp] theorem State.setLastDc_inbuf (s : State) (ch : Chan) (v : Word) : (s.setLastDc ch v).inbuf = s.inbuf := by cases ch <;> rfl
@[simp] theorem State.setLastDc_inlen (s : State) (ch : Chan) (v : Word) : (s.setLastDc ch v).inlen = s.inlen := by cases ch <;> rfl
@[simp] theorem State.setLastDc_inpos (s : State) (ch : Chan) (v : Word) : (s.setLastDc ch v).inpos = s.inpos := by cases ch <;> rfl
@[simp] theorem State.setLastDc_inbits (s : State) (ch : Chan) (v : Word) : (s.setLastDc ch v).inbits = s.inbits := by cases ch <;> rfl
@[simp] theorem State.setLastDc_inprev (s : State) (ch : Chan) (v : Word) : (s.setLastDc ch v).inprev = s.inprev := by cases ch <;> rfl
@[simp] theorem State.setLastDc_radius (s : State) (ch : Chan) (v : Word) : (s.setLastDc ch v).radius = s.radius := by cases ch <;> rfl
@[simp] theorem State.setLastDc_grid0 (s : State) (ch : Chan) (v : Word) : (s.setLastDc ch v).grid0 = s.grid0 := by cases ch <;> rfl
@[simp] theorem State.setLastDc_grid1 (s : State) (ch : Chan) (v : Word) : (s.setLastDc ch v).grid1 = s.grid1 := by cases ch <;> rfl
@[simp] theorem State.setLastDc_grid2 (s : State) (ch : Chan) (v : Word) : (s.setLastDc ch v).grid2 = s.grid2 := by cases ch <;> rfl
@[simp] theorem State.setLastDc_ref (s : State) (ch : Chan) (v : Word) : (s.setLastDc ch v).ref = s.ref := by cases ch <;> rfl
@[simp] theorem State.setLastDc_mv (s : State) (ch : Chan) (v : Word) : (s.setLastDc ch v).mv = s.mv := by cases ch <;> rfl
@[simp] theorem State.setLastDc_matchX (s : State) (ch : Chan) (v : Word) : (s.setLastDc ch v).matchX = s.matchX := by cases ch <;> rfl
@[simp] theorem State.setLastDc_matchY (s : State) (ch : Chan) (v : Word) : (s.setLastDc ch v).matchY = s.matchY := by cases ch <;> rfl
@[simp] theorem State.setLastDc_sse (s : State) (ch : Chan) (v : Word) : (s.setLastDc ch v).sse = s.sse := by cases ch <;> rfl
@[simp] theorem State.setLastDc_pending (s : State) (ch : Chan) (v : Word) : (s.setLastDc ch v).pending = s.pending := by cases ch <;> rfl
@[simp] theorem State.setLastDc_env (s : State) (ch : Chan) (v : Word) : (s.setLastDc ch v).env = s.env := by cases ch <;> rfl
@[simp] theorem State.setLastDc_resp (s : State) (ch : Chan) (v : Word) : (s.setLastDc ch v).resp = s.resp := by cases ch <;> rfl
@[simp] theorem State.setLastDc_draws (s : State) (ch : Chan) (v : Word) : (s.setLastDc ch v).draws = s.draws := by cases ch <;> rfl
@[simp] theorem State.setLastDc_epoch (s : State) (ch : Chan) (v : Word) : (s.setLastDc ch v).epoch = s.epoch := by cases ch <;> rfl
@[simp] theorem State.setLastDc_lastDcOf (s : State) (ch ch' : Chan) (v : Word) :
    (s.setLastDc ch v).lastDcOf ch' = if ch' = ch then v else s.lastDcOf ch' := by cases ch <;> cases ch' <;> rfl

@[simp] theorem State.setHdc_cfg (s : State) (tid : TableId) (t : Vector Slot 12) : (s.setHdc tid t).cfg = s.cfg := by cases tid <;> rfl
@[simp] theorem State.setHdc_wb (s : State) (tid : TableId) (t : Vector Slot 12) : (s.setHdc tid t).wb = s.wb := by cases tid <;> rfl
@[simp] theorem State.setHdc_rb (s : State) (tid : TableId) (t : Vector Slot 12) : (s.setHdc tid t).rb = s.rb := by cases tid <;> rfl
@[simp] theorem State.setHdc_sym (s : State) (tid : TableId) (t : Vector Slot 12) : (s.setHdc tid t).sym = s.sym := by cases tid <;> rfl
@[simp] theorem State.setHdc_symn (s : State) (tid : TableId) (t : Vector Slot 12) : (s.setHdc tid t).symn = s.symn := by cases tid <;> rfl
@[simp] theorem State.setHdc_lastDc0 (s : State) (tid : TableId) (t : Vector Slot 12) : (s.setHdc tid t).lastDc0 = s.lastDc0 := by cases tid <;> rfl
@[simp] theorem State.setHdc_lastDc1 (s : State) (tid : TableId) (t : Vector Slot 12) : (s.setHdc tid t).lastDc1 = s.lastDc1 := by cases tid <;> rfl
@[simp] theorem State.setHdc_lastDc2 (s : State) (tid : TableId) (t : Vector Slot 12) : (s.setHdc tid t).lastDc2 = s.lastDc2 := by cases tid <;> rfl
@[simp] theorem State.setHdc_qt0 (s : State) (tid : TableId) (t : Vector Slot 12) : (s.setHdc tid t).qt0 = s.qt0 := by cases tid <;> rfl
@[simp] theorem State.setHdc_qt1 (s : State) (tid : TableId) (t : Vector Slot 12) : (s.setHdc tid t).qt1 = s.qt1 := by cases tid <;> rfl
@[simp] theorem State.setHdc_hac0 (s : State) (tid : TableId) (t : Vector Slot 12) : (s.setHdc tid t).hac0 = s.hac0 := by cases tid <;> rfl
@[simp] theorem State.setHdc_hac1 (s : State) (tid : TableId) (t : Vector Slot 12) : (s.setHdc tid t).hac1 = s.hac1 := by cases tid <;> rfl
@[simp] theorem State.setHdc_hbits (s : State) (tid : TableId) (t : Vector Slot 12) : (s.setHdc tid t).hbits = s.hbits := by cases tid <;> rfl
@[simp] theorem State.setHdc_hvals (s : State) (tid : TableId) (t : Vector Slot 12) : (s.setHdc tid t).hvals = s.hvals := by cases tid <;> rfl
@[simp] theorem State.setHdc_ieDone (s : State) (tid : TableId) (t : Vector Slot 12) : (s.setHdc tid t).ieDone = s.ieDone := by cases tid <;> rfl
@[simp] theorem State.setHdc_ieErr (s : State) (tid : TableId) (t : Vector Slot 12) : (s.setHdc tid t).ieErr = s.ieErr := by cases tid <;> rfl
@[simp] theorem State.setHdc_done (s : State) (tid : TableId) (t : Vector Slot 12) : (s.setHdc tid t).done = s.done := by cases tid <;> rfl
@[simp] theorem State.setHdc_err (s : State) (tid : TableId) (t : Vector Slot 12) : (s.setHdc tid t).err = s.err := by cases tid <;> rfl
@[simp] theorem State.setHdc_zres (s : State) (tid : TableId) (t : Vector Slot 12) : (s.setHdc tid t).zres = s.zres := by cases tid <;> rfl
@[simp] theorem State.setHdc_found (s : State) (tid : TableId) (t : Vector Slot 12) : (s.setHdc tid t).found = s.found := by cases tid <;> rfl
@[simp] theorem State.setHdc_drop (s : State) (tid : TableId) (t : Vector Slot 12) : (s.setHdc tid t).drop = s.drop := by cases tid <;> rfl
@[simp] theorem State.setHdc_errCode (s : State) (tid : TableId) (t : Vector Slot 12) : (s.setHdc tid t).errCode = s.errCode := by cases tid <;> rfl
@[simp] theorem State.setHdc_errInfo (s : State) (tid : TableId) (t : Vector Slot 12) : (s.setHdc tid t).errInfo = s.errInfo := by cases tid <;> rfl
@[simp] theorem State.setHdc_errDetail (s : State) (tid : TableId) (t : Vector Slot 12) : (s.setHdc tid t).errDetail = s.errDetail := by cases tid <;> rfl
@[simp] theorem State.setHdc_cmdCnt (s : State) (tid : TableId) (t : Vector Slot 12) : (s.setHdc tid t).cmdCnt = s.cmdCnt := by cases tid <;> rfl
@[simp] theorem State.setHdc_bwn (s : State) (tid : TableId) (t : Vector Slot 12) : (s.setHdc tid t).bwn = s.bwn := by cases tid <;> rfl
@[simp] theorem State.setHdc_bwacc (s : State) (tid : TableId) (t : Vector Slot 12) : (s.setHdc tid t).bwacc = s.bwacc := by cases tid <;> rfl
@[simp] theorem State.setHdc_outbuf (s : State) (tid : TableId) (t : Vector Slot 12) : (s.setHdc tid t).outbuf = s.outbuf := by cases tid <;> rfl
@[simp] theorem State.setHdc_outptr (s : State) (tid : TableId) (t : Vector Slot 12) : (s.setHdc tid t).outptr = s.outptr := by cases tid <;> rfl
@[simp] theorem State.setHdc_inbuf (s : State) (tid : TableId) (t : Vector Slot 12) : (s.setHdc tid t).inbuf = s.inbuf := by cases tid <;> rfl
@[simp] theorem State.setHdc_inlen (s : State) (tid : TableId) (t : Vector Slot 12) : (s.setHdc tid t).inlen = s.inlen := by cases tid <;> rfl
@[simp] theorem State.setHdc_inpos (s : State) (tid : TableId) (t : Vector Slot 12) : (s.setHdc tid t).inpos = s.inpos := by cases tid <;> rfl
@[simp] theorem State.setHdc_inbits (s : State) (tid : TableId) (t : Vector Slot 12) : (s.setHdc tid t).inbits = s.inbits := by cases tid <;> rfl
@[simp] theorem State.setHdc_inprev (s : State) (tid : TableId) (t : Vector Slot 12) : (s.setHdc tid t).inprev = s.inprev := by cases tid <;> rfl
@[simp] theorem State.setHdc_radius (s : State) (tid : TableId) (t : Vector Slot 12) : (s.setHdc tid t).radius = s.radius := by cases tid <;> rfl
@[simp] theorem State.setHdc_grid0 (s : State) (tid : TableId) (t : Vector Slot 12) : (s.setHdc tid t).grid0 = s.grid0 := by cases tid <;> rfl
@[simp] theorem State.setHdc_grid1 (s : State) (tid : TableId) (t : Vector Slot 12) : (s.setHdc tid t).grid1 = s.grid1 := by cases tid <;> rfl
@[simp] theorem State.setHdc_grid2 (s : State) (tid : TableId) (t : Vector Slot 12) : (s.setHdc tid t).grid2 = s.grid2 := by cases tid <;> rfl
@[simp] theorem State.setHdc_ref (s : State) (tid : TableId) (t : Vector Slot 12) : (s.setHdc tid t).ref = s.ref := by cases tid <;> rfl
@[simp] theorem State.setHdc_mv (s : State) (tid : TableId) (t : Vector Slot 12) : (s.setHdc tid t).mv = s.mv := by cases tid <;> rfl
@[simp] theorem State.setHdc_matchX (s : State) (tid : TableId) (t : Vector Slot 12) : (s.setHdc tid t).matchX = s.matchX := by cases tid <;> rfl
@[simp] theorem State.setHdc_matchY (s : State) (tid : TableId) (t : Vector Slot 12) : (s.setHdc tid t).matchY = s.matchY := by cases tid <;> rfl
@[simp] theorem State.setHdc_sse (s : State) (tid : TableId) (t : Vector Slot 12) : (s.setHdc tid t).sse = s.sse := by cases tid <;> rfl
@[simp] theorem State.setHdc_pending (s : State) (tid : TableId) (t : Vector Slot 12) : (s.setHdc tid t).pending = s.pending := by cases tid <;> rfl
@[simp] theorem State.setHdc_env (s : State) (tid : TableId) (t : Vector Slot 12) : (s.setHdc tid t).env = s.env := by cases tid <;> rfl
@[simp] theorem State.setHdc_resp (s : State) (tid : TableId) (t : Vector Slot 12) : (s.setHdc tid t).resp = s.resp := by cases tid <;> rfl
@[simp] theorem State.setHdc_draws (s : State) (tid : TableId) (t : Vector Slot 12) : (s.setHdc tid t).draws = s.draws := by cases tid <;> rfl
@[simp] theorem State.setHdc_epoch (s : State) (tid : TableId) (t : Vector Slot 12) : (s.setHdc tid t).epoch = s.epoch := by cases tid <;> rfl
@[simp] theorem State.setHdc_hdcOf (s : State) (tid : TableId) (ch : Chan) (t : Vector Slot 12) :
    (s.setHdc tid t).hdcOf ch = if chanTid ch = tid then t else s.hdcOf ch := by cases tid <;> cases ch <;> rfl

@[simp] theorem State.setHac_cfg (s : State) (tid : TableId) (t : Vector Slot 256) : (s.setHac tid t).cfg = s.cfg := by cases tid <;> rfl
@[simp] theorem State.setHac_wb (s : State) (tid : TableId) (t : Vector Slot 256) : (s.setHac tid t).wb = s.wb := by cases tid <;> rfl
@[simp] theorem State.setHac_rb (s : State) (tid : TableId) (t : Vector Slot 256) : (s.setHac tid t).rb = s.rb := by cases tid <;> rfl
@[simp] theorem State.setHac_sym (s : State) (tid : TableId) (t : Vector Slot 256) : (s.setHac tid t).sym = s.sym := by cases tid <;> rfl
@[simp] theorem State.setHac_symn (s : State) (tid : TableId) (t : Vector Slot 256) : (s.setHac tid t).symn = s.symn := by cases tid <;> rfl
@[simp] theorem State.setHac_lastDc0 (s : State) (tid : TableId) (t : Vector Slot 256) : (s.setHac tid t).lastDc0 = s.lastDc0 := by cases tid <;> rfl
@[simp] theorem State.setHac_lastDc1 (s : State) (tid : TableId) (t : Vector Slot 256) : (s.setHac tid t).lastDc1 = s.lastDc1 := by cases tid <;> rfl
@[simp] theorem State.setHac_lastDc2 (s : State) (tid : TableId) (t : Vector Slot 256) : (s.setHac tid t).lastDc2 = s.lastDc2 := by cases tid <;> rfl
@[simp] theorem State.setHac_qt0 (s : State) (tid : TableId) (t : Vector Slot 256) : (s.setHac tid t).qt0 = s.qt0 := by cases tid <;> rfl
@[simp] theorem State.setHac_qt1 (s : State) (tid : TableId) (t : Vector Slot 256) : (s.setHac tid t).qt1 = s.qt1 := by cases tid <;> rfl
@[simp] theorem State.setHac_hdc0 (s : State) (tid : TableId) (t : Vector Slot 256) : (s.setHac tid t).hdc0 = s.hdc0 := by cases tid <;> rfl
@[simp] theorem State.setHac_hdc1 (s : State) (tid : TableId) (t : Vector Slot 256) : (s.setHac tid t).hdc1 = s.hdc1 := by cases tid <;> rfl
@[simp] theorem State.setHac_hbits (s : State) (tid : TableId) (t : Vector Slot 256) : (s.setHac tid t).hbits = s.hbits := by cases tid <;> rfl
@[simp] theorem State.setHac_hvals (s : State) (tid : TableId) (t : Vector Slot 256) : (s.setHac tid t).hvals = s.hvals := by cases tid <;> rfl
@[simp] theorem State.setHac_ieDone (s : State) (tid : TableId) (t : Vector Slot 256) : (s.setHac tid t).ieDone = s.ieDone := by cases tid <;> rfl
@[simp] theorem State.setHac_ieErr (s : State) (tid : TableId) (t : Vector Slot 256) : (s.setHac tid t).ieErr = s.ieErr := by cases tid <;> rfl
@[simp] theorem State.setHac_done (s : State) (tid : TableId) (t : Vector Slot 256) : (s.setHac tid t).done = s.done := by cases tid <;> rfl
@[simp] theorem State.setHac_err (s : State) (tid : TableId) (t : Vector Slot 256) : (s.setHac tid t).err = s.err := by cases tid <;> rfl
@[simp] theorem State.setHac_zres (s : State) (tid : TableId) (t : Vector Slot 256) : (s.setHac tid t).zres = s.zres := by cases tid <;> rfl
@[simp] theorem State.setHac_found (s : State) (tid : TableId) (t : Vector Slot 256) : (s.setHac tid t).found = s.found := by cases tid <;> rfl
@[simp] theorem State.setHac_drop (s : State) (tid : TableId) (t : Vector Slot 256) : (s.setHac tid t).drop = s.drop := by cases tid <;> rfl
@[simp] theorem State.setHac_errCode (s : State) (tid : TableId) (t : Vector Slot 256) : (s.setHac tid t).errCode = s.errCode := by cases tid <;> rfl
@[simp] theorem State.setHac_errInfo (s : State) (tid : TableId) (t : Vector Slot 256) : (s.setHac tid t).errInfo = s.errInfo := by cases tid <;> rfl
@[simp] theorem State.setHac_errDetail (s : State) (tid : TableId) (t : Vector Slot 256) : (s.setHac tid t).errDetail = s.errDetail := by cases tid <;> rfl
@[simp] theorem State.setHac_cmdCnt (s : State) (tid : TableId) (t : Vector Slot 256) : (s.setHac tid t).cmdCnt = s.cmdCnt := by cases tid <;> rfl
@[simp] theorem State.setHac_bwn (s : State) (tid : TableId) (t : Vector Slot 256) : (s.setHac tid t).bwn = s.bwn := by cases tid <;> rfl
@[simp] theorem State.setHac_bwacc (s : State) (tid : TableId) (t : Vector Slot 256) : (s.setHac tid t).bwacc = s.bwacc := by cases tid <;> rfl
@[simp] theorem State.setHac_outbuf (s : State) (tid : TableId) (t : Vector Slot 256) : (s.setHac tid t).outbuf = s.outbuf := by cases tid <;> rfl
@[simp] theorem State.setHac_outptr (s : State) (tid : TableId) (t : Vector Slot 256) : (s.setHac tid t).outptr = s.outptr := by cases tid <;> rfl
@[simp] theorem State.setHac_inbuf (s : State) (tid : TableId) (t : Vector Slot 256) : (s.setHac tid t).inbuf = s.inbuf := by cases tid <;> rfl
@[simp] theorem State.setHac_inlen (s : State) (tid : TableId) (t : Vector Slot 256) : (s.setHac tid t).inlen = s.inlen := by cases tid <;> rfl
@[simp] theorem State.setHac_inpos (s : State) (tid : TableId) (t : Vector Slot 256) : (s.setHac tid t).inpos = s.inpos := by cases tid <;> rfl
@[simp] theorem State.setHac_inbits (s : State) (tid : TableId) (t : Vector Slot 256) : (s.setHac tid t).inbits = s.inbits := by cases tid <;> rfl
@[simp] theorem State.setHac_inprev (s : State) (tid : TableId) (t : Vector Slot 256) : (s.setHac tid t).inprev = s.inprev := by cases tid <;> rfl
@[simp] theorem State.setHac_radius (s : State) (tid : TableId) (t : Vector Slot 256) : (s.setHac tid t).radius = s.radius := by cases tid <;> rfl
@[simp] theorem State.setHac_grid0 (s : State) (tid : TableId) (t : Vector Slot 256) : (s.setHac tid t).grid0 = s.grid0 := by cases tid <;> rfl
@[simp] theorem State.setHac_grid1 (s : State) (tid : TableId) (t : Vector Slot 256) : (s.setHac tid t).grid1 = s.grid1 := by cases tid <;> rfl
@[simp] theorem State.setHac_grid2 (s : State) (tid : TableId) (t : Vector Slot 256) : (s.setHac tid t).grid2 = s.grid2 := by cases tid <;> rfl
@[simp] theorem State.setHac_ref (s : State) (tid : TableId) (t : Vector Slot 256) : (s.setHac tid t).ref = s.ref := by cases tid <;> rfl
@[simp] theorem State.setHac_mv (s : State) (tid : TableId) (t : Vector Slot 256) : (s.setHac tid t).mv = s.mv := by cases tid <;> rfl
@[simp] theorem State.setHac_matchX (s : State) (tid : TableId) (t : Vector Slot 256) : (s.setHac tid t).matchX = s.matchX := by cases tid <;> rfl
@[simp] theorem State.setHac_matchY (s : State) (tid : TableId) (t : Vector Slot 256) : (s.setHac tid t).matchY = s.matchY := by cases tid <;> rfl
@[simp] theorem State.setHac_sse (s : State) (tid : TableId) (t : Vector Slot 256) : (s.setHac tid t).sse = s.sse := by cases tid <;> rfl
@[simp] theorem State.setHac_pending (s : State) (tid : TableId) (t : Vector Slot 256) : (s.setHac tid t).pending = s.pending := by cases tid <;> rfl
@[simp] theorem State.setHac_env (s : State) (tid : TableId) (t : Vector Slot 256) : (s.setHac tid t).env = s.env := by cases tid <;> rfl
@[simp] theorem State.setHac_resp (s : State) (tid : TableId) (t : Vector Slot 256) : (s.setHac tid t).resp = s.resp := by cases tid <;> rfl
@[simp] theorem State.setHac_draws (s : State) (tid : TableId) (t : Vector Slot 256) : (s.setHac tid t).draws = s.draws := by cases tid <;> rfl
@[simp] theorem State.setHac_epoch (s : State) (tid : TableId) (t : Vector Slot 256) : (s.setHac tid t).epoch = s.epoch := by cases tid <;> rfl
@[simp] theorem State.setHac_hacOf (s : State) (tid : TableId) (ch : Chan) (t : Vector Slot 256) :
    (s.setHac tid t).hacOf ch = if chanTid ch = tid then t else s.hacOf ch := by cases tid <;> cases ch <;> rfl

@[simp] theorem State.setGrid_cfg (s : State) (ch : Chan) (g : GridDim) : (s.setGrid ch g).cfg = s.cfg := by cases ch <;> rfl
@[simp] theorem State.setGrid_wb (s : State) (ch : Chan) (g : GridDim) : (s.setGrid ch g).wb = s.wb := by cases ch <;> rfl
@[simp] theorem State.setGrid_rb (s : State) (ch : Chan) (g : GridDim) : (s.setGrid ch g).rb = s.rb := by cases ch <;> rfl
@[simp] theorem State.setGrid_sym (s : State) (ch : Chan) (g : GridDim) : (s.setGrid ch g).sym = s.sym := by cases ch <;> rfl
@[simp] theorem State.setGrid_symn (s : State) (ch : Chan) (g : GridDim) : (s.setGrid ch g).symn = s.symn := by cases ch <;> rfl
@[simp] theorem State.setGrid_lastDc0 (s : State) (ch : Chan) (g : GridDim) : (s.setGrid ch g).lastDc0 = s.lastDc0 := by cases ch <;> rfl
@[simp] theorem State.setGrid_lastDc1 (s : State) (ch : Chan) (g : GridDim) : (s.setGrid ch g).lastDc1 = s.lastDc1 := by cases ch <;> rfl
@[simp] theorem State.setGrid_lastDc2 (s : State) (ch : Chan) (g : GridDim) : (s.setGrid ch g).lastDc2 = s.lastDc2 := by cases ch <;> rfl
@[simp] theorem State.setGrid_qt0 (s : State) (ch : Chan) (g : GridDim) : (s.setGrid ch g).qt0 = s.qt0 := by cases ch <;> rfl
@[simp] theorem State.setGrid_qt1 (s : State) (ch : Chan) (g : GridDim) : (s.setGrid ch g).qt1 = s.qt1 := by cases ch <;> rfl
@[simp] theorem State.setGrid_hdc0 (s : State) (ch : Chan) (g : GridDim) : (s.setGrid ch g).hdc0 = s.hdc0 := by cases ch <;> rfl
@[simp] theorem State.setGrid_hdc1 (s : State) (ch : Chan) (g : GridDim) : (s.setGrid ch g).hdc1 = s.hdc1 := by cases ch <;> rfl
@[simp] theorem State.setGrid_hac0 (s : State) (ch : Chan) (g : GridDim) : (s.setGrid ch g).hac0 = s.hac0 := by cases ch <;> rfl
@[simp] theorem State.setGrid_hac1 (s : State) (ch : Chan) (g : GridDim) : (s.setGrid ch g).hac1 = s.hac1 := by cases ch <;> rfl
@[simp] theorem State.setGrid_hbits (s : State) (ch : Chan) (g : GridDim) : (s.setGrid ch g).hbits = s.hbits := by cases ch <;> rfl
@[simp] theorem State.setGrid_hvals (s : State) (ch : Chan) (g : GridDim) : (s.setGrid ch g).hvals = s.hvals := by cases ch <;> rfl
@[simp] theorem State.setGrid_ieDone (s : State) (ch : Chan) (g : GridDim) : (s.setGrid ch g).ieDone = s.ieDone := by cases ch <;> rfl
@[simp] theorem State.setGrid_ieErr (s : State) (ch : Chan) (g : GridDim) : (s.setGrid ch g).ieErr = s.ieErr := by cases ch <;> rfl
@[simp] theorem State.setGrid_done (s : State) (ch : Chan) (g : GridDim) : (s.setGrid ch g).done = s.done := by cases ch <;> rfl
@[simp] theorem State.setGrid_err (s : State) (ch : Chan) (g : GridDim) : (s.setGrid ch g).err = s.err := by cases ch <;> rfl
@[simp] theorem State.setGrid_zres (s : State) (ch : Chan) (g : GridDim) : (s.setGrid ch g).zres = s.zres := by cases ch <;> rfl
@[simp] theorem State.setGrid_found (s : State) (ch : Chan) (g : GridDim) : (s.setGrid ch g).found = s.found := by cases ch <;> rfl
@[simp] theorem State.setGrid_drop (s : State) (ch : Chan) (g : GridDim) : (s.setGrid ch g).drop = s.drop := by cases ch <;> rfl
@[simp] theorem State.setGrid_errCode (s : State) (ch : Chan) (g : GridDim) : (s.setGrid ch g).errCode = s.errCode := by cases ch <;> rfl
@[simp] theorem State.setGrid_errInfo (s : State) (ch : Chan) (g : GridDim) : (s.setGrid ch g).errInfo = s.errInfo := by cases ch <;> rfl
@[simp] theorem State.setGrid_errDetail (s : State) (ch : Chan) (g : GridDim) : (s.setGrid ch g).errDetail = s.errDetail := by cases ch <;> rfl
@[simp] theorem State.setGrid_cmdCnt (s : State) (ch : Chan) (g : GridDim) : (s.setGrid ch g).cmdCnt = s.cmdCnt := by cases ch <;> rfl
@[simp] theorem State.setGrid_bwn (s : State) (ch : Chan) (g : GridDim) : (s.setGrid ch g).bwn = s.bwn := by cases ch <;> rfl
@[simp] theorem State.setGrid_bwacc (s : State) (ch : Chan) (g : GridDim) : (s.setGrid ch g).bwacc = s.bwacc := by cases ch <;> rfl
@[simp] theorem State.setGrid_outbuf (s : State) (ch : Chan) (g : GridDim) : (s.setGrid ch g).outbuf = s.outbuf := by cases ch <;> rfl
@[simp] theorem State.setGrid_outptr (s : State) (ch : Chan) (g : GridDim) : (s.setGrid ch g).outptr = s.outptr := by cases ch <;> rfl
@[simp] theorem State.setGrid_inbuf (s : State) (ch : Chan) (g : GridDim) : (s.setGrid ch g).inbuf = s.inbuf := by cases ch <;> rfl
@[simp] theorem State.setGrid_inlen (s : State) (ch : Chan) (g : GridDim) : (s.setGrid ch g).inlen = s.inlen := by cases ch <;> rfl
@[simp] theorem State.setGrid_inpos (s : State) (ch : Chan) (g : GridDim) : (s.setGrid ch g).inpos = s.inpos := by cases ch <;> rfl
@[simp] theorem State.setGrid_inbits (s : State) (ch : Chan) (g : GridDim) : (s.setGrid ch g).inbits = s.inbits := by cases ch <;> rfl
@[simp] theorem State.setGrid_inprev (s : State) (ch : Chan) (g : GridDim) : (s.setGrid ch g).inprev = s.inprev := by cases ch <;> rfl
@[simp] theorem State.setGrid_radius (s : State) (ch : Chan) (g : GridDim) : (s.setGrid ch g).radius = s.radius := by cases ch <;> rfl
@[simp] theorem State.setGrid_ref (s : State) (ch : Chan) (g : GridDim) : (s.setGrid ch g).ref = s.ref := by cases ch <;> rfl
@[simp] theorem State.setGrid_mv (s : State) (ch : Chan) (g : GridDim) : (s.setGrid ch g).mv = s.mv := by cases ch <;> rfl
@[simp] theorem State.setGrid_matchX (s : State) (ch : Chan) (g : GridDim) : (s.setGrid ch g).matchX = s.matchX := by cases ch <;> rfl
@[simp] theorem State.setGrid_matchY (s : State) (ch : Chan) (g : GridDim) : (s.setGrid ch g).matchY = s.matchY := by cases ch <;> rfl
@[simp] theorem State.setGrid_sse (s : State) (ch : Chan) (g : GridDim) : (s.setGrid ch g).sse = s.sse := by cases ch <;> rfl
@[simp] theorem State.setGrid_pending (s : State) (ch : Chan) (g : GridDim) : (s.setGrid ch g).pending = s.pending := by cases ch <;> rfl
@[simp] theorem State.setGrid_env (s : State) (ch : Chan) (g : GridDim) : (s.setGrid ch g).env = s.env := by cases ch <;> rfl
@[simp] theorem State.setGrid_resp (s : State) (ch : Chan) (g : GridDim) : (s.setGrid ch g).resp = s.resp := by cases ch <;> rfl
@[simp] theorem State.setGrid_draws (s : State) (ch : Chan) (g : GridDim) : (s.setGrid ch g).draws = s.draws := by cases ch <;> rfl
@[simp] theorem State.setGrid_epoch (s : State) (ch : Chan) (g : GridDim) : (s.setGrid ch g).epoch = s.epoch := by cases ch <;> rfl
@[simp] theorem State.setGrid_gridOf (s : State) (ch ch' : Chan) (g : GridDim) :
    (s.setGrid ch g).gridOf ch' = if ch' = ch then g else s.gridOf ch' := by cases ch <;> cases ch' <;> rfl

end Sys2Proof.Machine
end

