-- ==== Sys2Proof/Laws/Ops.lean ====
section
/-! SUPPORT. What the shared operations do: the end of a command, the blocks they build, the grid check, one step, one host
access. Proofs about a command cite these and never unfold the operation. -/

namespace Sys2Proof.Machine

@[simp] theorem commit_ok (s t : State) : commit s (.ok t) = .next t.complete := rfl
@[simp] theorem commit_error (s : State) (f : CmdFault) : commit s (.error f) = .next (s.raise f) := rfl

/-- Everything the end of a command can be (spec/60_exceptions.md R433, R439). -/
theorem commit_cases {s t : State} {r : Except CmdFault State} (h : commit s r = .next t) :
    (∃ u, r = .ok u ∧ t = u.complete) ∨ ∃ f, r = .error f ∧ t = s.raise f := by
  cases r with
  | ok u => exact .inl ⟨u, rfl, by simpa using h.symm⟩
  | error f => exact .inr ⟨f, rfl, by simpa using h.symm⟩

/-- A command always ends in a next state. -/
theorem commit_next (s : State) (r : Except CmdFault State) : ∃ t, commit s r = .next t := by cases r <;> exact ⟨_, rfl⟩

@[simp] theorem blockOf_get (f : Fin 64 → Word) (k : Fin 64) : (blockOf f)[k] = f k := by simp [blockOf]

@[simp] theorem blockOf_getElem (f : Fin 64 → Word) (k : Nat) (hk : k < 64) : (blockOf f)[k] = f ⟨k, hk⟩ := by
  simp [blockOf]

/-- Two blocks with equal elements are equal. -/
theorem block_ext {a b : Block} (h : ∀ k : Fin 64, a[k] = b[k]) : a = b :=
  Vector.ext fun i hi => h ⟨i, hi⟩

/-- Everything the grid check can answer (spec/45_motion.md R362). -/
theorem checkGrid_cases (s : State) (ch : Chan) (bx row : Nat) :
    (s.inGrid ch bx row = true ∧ s.checkGrid ch bx row = .ok ()) ∨
      (s.inGrid ch bx row = false ∧ s.checkGrid ch bx row = .error ⟨.grid, coordWord bx row⟩) := by
  unfold State.checkGrid
  cases h : s.inGrid ch bx row <;> simp

/-- Everything one step can be (spec/20_memory.md R114, log 1). -/
theorem step_cases {s t : State} (h : step s = .next t) :
    (∃ r, r = (match s.env with | [] => s | _ :: rest => { s with env := rest }) ∧ engineTurn r = .next t) ∨
      (∃ a rest, s.env = .access a :: rest ∧ t = hostAccess a { s with env := rest }) ∨
      ∃ rest, s.env = .hardReset :: rest ∧ t = ({ s with env := rest } : State).resetNow := by
  unfold step at h
  cases he : s.env with
  | nil => rw [he] at h; exact .inl ⟨s, by simp, h⟩
  | cons e rest =>
    rw [he] at h
    cases e with
    | access a => exact .inr (.inl ⟨a, rest, by simp, by simpa [runEvent] using h.symm⟩)
    | engine => exact .inl ⟨{ s with env := rest }, by simp, by simpa [runEvent] using h⟩
    | hardReset => exact .inr (.inr ⟨rest, by simp, by simpa [runEvent] using h.symm⟩)

/-- Everything a turn of the command engine can be (spec/60_exceptions.md R438). -/
theorem engineTurn_cases {s t : State} (h : engineTurn s = .next t) :
    (s.pending = none ∧ t = s) ∨
      (∃ w i, s.pending = some w ∧ decode w = .ok i ∧ exec i s = .next t) ∨
      ∃ w e, s.pending = some w ∧ decode w = .error e ∧ t = s.raise (illegalFault e) := by
  unfold engineTurn at h
  cases hp : s.pending with
  | none => rw [hp] at h; exact .inl ⟨rfl, by simpa using h.symm⟩
  | some w =>
    rw [hp] at h
    simp only [execWord] at h
    cases hd : decode w with
    | ok i => rw [hd] at h; exact .inr (.inl ⟨w, i, rfl, hd, h⟩)
    | error e => rw [hd] at h; exact .inr (.inr ⟨w, e, rfl, hd, by simpa using h.symm⟩)

/-- Everything a host read can do: the response, and the count of drawn free values (spec/20_memory.md R108). -/
theorem hostRead_eq (size : AccessSize) (addr : BusAddr) (s : State) :
    ∃ r d, hostRead size addr s = { s with resp := r, draws := d } := by
  unfold hostRead
  split
  · exact ⟨_, s.draws, rfl⟩
  · split
    · exact ⟨_, s.draws, rfl⟩
    · exact ⟨_, _, rfl⟩
    · exact ⟨_, _, rfl⟩

/-- Everything a host write can do (spec/60_exceptions.md R437, R438): an error response, a CTRL, STATUS or CMD write, a
discarded write, or a stored one. -/
theorem hostWrite_cases (size : AccessSize) (addr : BusAddr) (v : Word) (s : State) :
    (accessReg s.cfg size addr = none ∧ hostWrite size addr v s = s.respond 0 true) ∨
      hostWrite size addr v s = (s.writeCtrl v).respond 0 false ∨
      hostWrite size addr v s = (s.writeStatus v).respond 0 false ∨
      hostWrite size addr v s = (s.submit v).respond 0 false ∨
      (s.busy = true ∧ hostWrite size addr v s = { s with drop := true }.respond 0 false) ∨
      ∃ r, s.busy = false ∧ accessReg s.cfg size addr = some r ∧
        hostWrite size addr v s = (s.writeData r v).respond 0 false := by
  unfold hostWrite
  cases h : accessReg s.cfg size addr with
  | none => exact .inl ⟨rfl, rfl⟩
  | some r =>
    right
    cases hb : s.busy
    · cases r <;> simp only [State.writeReg, hb] <;> simp
    · cases r <;> simp only [State.writeReg, hb] <;> simp

/-- The two outcomes of a CMD write (spec/60_exceptions.md R438). -/
theorem submit_cases (s : State) (w : Word) :
    ((s.busy = true ∨ s.err = true) ∧ s.submit w = { s with drop := true }) ∨
      (s.busy = false ∧ s.err = false ∧ s.submit w = { s with pending := some w }) := by
  unfold State.submit
  cases hb : s.busy <;> cases he : s.err <;> simp

/-- A write of STATUS in one record (spec/10_state.md R43). -/
theorem writeStatus_eq (s : State) (v : Word) :
    s.writeStatus v =
      { s with
        done := s.done && !v.getLsbD 1
        err := s.err && !v.getLsbD 2
        errCode := if v.getLsbD 2 then 0 else s.errCode
        errInfo := if v.getLsbD 2 then 0 else s.errInfo
        errDetail := if v.getLsbD 2 then 0 else s.errDetail
        drop := s.drop && !v.getLsbD 5 } := by
  unfold State.writeStatus State.clearErr
  cases h1 : v.getLsbD 1 <;> cases h2 : v.getLsbD 2 <;> cases h5 : v.getLsbD 5 <;> simp

end Sys2Proof.Machine
end

