-- ==== Sys2Proof/Laws/Bus.lean ====
section
/-! SUPPORT. The register map row by row: the location at each address of spec/20_memory.md R110, and what an access that
reaches a location does. -/

namespace Sys2Proof.Machine

theorem windowIndex_hit (base : Nat) {n : Nat} (k : Fin n) : windowIndex base n (base + 4 * k.val) = some k := by
  simp [windowIndex]

theorem windowIndex_miss {base n a : Nat} (h : a < base ∨ base + 4 * n ≤ a) : windowIndex base n a = none := by
  have : ¬ (base ≤ a ∧ (a - base) / 4 < n) := by omega
  simp [windowIndex, this]

/-- A window is hit exactly inside its range. -/
theorem windowIndex_isSome {base n a : Nat} : (windowIndex base n a).isSome = true ↔ base ≤ a ∧ a < base + 4 * n := by
  by_cases h : base ≤ a ∧ (a - base) / 4 < n
  · exact iff_of_true (by rw [windowIndex, dif_pos h]; rfl) (by omega)
  · exact iff_of_false (by rw [windowIndex, dif_neg h]; simp) (by omega)

section rows

variable (p : Params)

theorem regAt_control {a : Nat} (h : a < 0x6C) : regAt p a = controlRegs[a / 4]? := by simp [regAt, h]

theorem regAt_hbits (n : Fin 16) : regAt p (0x100 + 4 * n.val) = some (.hbits n) := by
  have h : ¬ 0x100 + 4 * n.val < 0x6C := by omega
  simp only [regAt, h, if_false, windowIndex_hit, Option.map_some, Option.some_or]

theorem regAt_hvals (i : Fin 256) : regAt p (0x400 + 4 * i.val) = some (.hvals i) := by
  have h : ¬ 0x400 + 4 * i.val < 0x6C := by omega
  simp only [regAt, h, if_false, windowIndex_hit, Option.map_some, Option.some_or,
    windowIndex_miss (base := 0x100) (n := 16) (a := 0x400 + 4 * i.val) (by omega), Option.map_none, Option.none_or]

/-- The rows above HVALS: the windows below the address miss, the row's own hits. -/
theorem regAt_block (k : Fin 64) :
    regAt p (0x800 + 4 * k.val) = some (.wb k) ∧ regAt p (0x900 + 4 * k.val) = some (.rb k) ∧
      regAt p (0xA00 + 4 * k.val) = some (.sym k) ∧ regAt p (0xB00 + 4 * k.val) = some (.qt .luma k) ∧
      regAt p (0xC00 + 4 * k.val) = some (.qt .chroma k) := by
  have h (b : Nat) (hb : 0x800 ≤ b) : ¬ b + 4 * k.val < 0x6C := by omega
  have m (base n b : Nat) (hb : base + 4 * n ≤ b) : windowIndex base n (b + 4 * k.val) = none :=
    windowIndex_miss (by omega)
  refine ⟨?_, ?_, ?_, ?_, ?_⟩ <;> rw [regAt, if_neg (h _ (by norm_num))] <;> simp [m, windowIndex_hit]

theorem regAt_hdc (y : Fin 12) :
    regAt p (0xD00 + 4 * y.val) = some (.hdc .luma y) ∧ regAt p (0xD40 + 4 * y.val) = some (.hdc .chroma y) := by
  have h (b : Nat) (hb : 0x800 ≤ b) : ¬ b + 4 * y.val < 0x6C := by omega
  have m (base n b : Nat) (hb : base + 4 * n ≤ b) : windowIndex base n (b + 4 * y.val) = none :=
    windowIndex_miss (by omega)
  refine ⟨?_, ?_⟩ <;> rw [regAt, if_neg (h _ (by norm_num))] <;> simp [m, windowIndex_hit]

theorem regAt_hac (y : Fin 256) :
    regAt p (0x1000 + 4 * y.val) = some (.hac .luma y) ∧ regAt p (0x1400 + 4 * y.val) = some (.hac .chroma y) := by
  have h (b : Nat) (hb : 0x800 ≤ b) : ¬ b + 4 * y.val < 0x6C := by omega
  have m (base n b : Nat) (hb : base + 4 * n ≤ b) : windowIndex base n (b + 4 * y.val) = none :=
    windowIndex_miss (by omega)
  refine ⟨?_, ?_⟩ <;> rw [regAt, if_neg (h _ (by norm_num))] <;> simp [m, windowIndex_hit]

theorem regAt_outbuf {i : Nat} (hi : i < p.outSize) : regAt p (0x10000 + 4 * i) = some (.outbuf i) := by
  have h : ¬ 0x10000 + 4 * i < 0x6C := by omega
  have m (base n : Nat) (hb : base + 4 * n ≤ 0x10000) : windowIndex base n (0x10000 + 4 * i) = none :=
    windowIndex_miss (by omega)
  have e : windowIndex 0x10000 p.outSize (0x10000 + 4 * i) = some ⟨i, hi⟩ := windowIndex_hit 0x10000 ⟨i, hi⟩
  rw [regAt, if_neg h]
  simp [m, e]

theorem regAt_inbuf {i : Nat} (hi : i < p.inSize) (ho : p.outSize ≤ 16384) :
    regAt p (0x20000 + 4 * i) = some (.inbuf i) := by
  have h : ¬ 0x20000 + 4 * i < 0x6C := by omega
  have m (base n : Nat) (hb : base + 4 * n ≤ 0x20000) : windowIndex base n (0x20000 + 4 * i) = none :=
    windowIndex_miss (by omega)
  have e : windowIndex 0x20000 p.inSize (0x20000 + 4 * i) = some ⟨i, hi⟩ := windowIndex_hit 0x20000 ⟨i, hi⟩
  have mo : windowIndex 0x10000 p.outSize (0x20000 + 4 * i) = none := windowIndex_miss (by omega)
  rw [regAt, if_neg h]
  simp [m, mo, e]

end rows

/-- The location of a word access at a byte address below 2^18. -/
theorem accessReg_word (p : Params) {a : Nat} (h1 : a < 2 ^ 18) (h2 : a % 4 = 0) :
    accessReg p .word (BitVec.ofNat 18 a) = regAt p a := by
  have e : (BitVec.ofNat 18 a).toNat = a := by rw [BitVec.toNat_ofNat]; omega
  simp [accessReg, e, h2]

/-- A read that reaches a location with a value. -/
theorem hostAccess_read {s : State} {size : AccessSize} {addr : BusAddr} {r : Reg} {w : Word}
    (h : accessReg s.cfg size addr = some r) (hv : s.readValue r = .value w) :
    hostAccess (.read size addr) s = { s with resp := some ⟨w, false⟩ } := by
  simp only [hostAccess, hostRead, h, hv]; rfl

/-- A write that reaches a location. -/
theorem hostAccess_write {s : State} {size : AccessSize} {addr : BusAddr} {r : Reg} {v : Word}
    (h : accessReg s.cfg size addr = some r) :
    hostAccess (.write size addr v) s = { (s.writeReg r v) with resp := some ⟨0, false⟩ } := by
  simp only [hostAccess, hostWrite, h]; rfl

/-- With BUSY = 0 every location reads as its value. -/
theorem readValue_idle {s : State} (hb : s.busy = false) (r : Reg) : s.readValue r = s.regValue r := by
  simp [State.readValue, hb]

/-- The locations that are read while BUSY = 1 read as their value at any time. -/
theorem readValue_busy {s : State} {r : Reg} (hr : r.readableWhileBusy = true) : s.readValue r = s.regValue r := by
  simp [State.readValue, hr]

/-! ### The registers as the host reads them, as sums of fields -/

theorem hwcfg2Word_toNat (p : Params) (hw : p.gridMaxW ≤ 256) (hh : p.gridMaxH ≤ 256) :
    (hwcfg2Word p).toNat = p.gridMaxH * 65536 + p.gridMaxW := by
  unfold hwcfg2Word
  simp only [toNat_append_eq, BitVec.toNat_ofNat, BitVec.ofNat_eq_ofNat]
  omega

theorem State.statusWord_toNat (s : State) :
    s.statusWord.toNat =
      s.errCode.toNat * 256 + s.drop.toNat * 32 + s.found.toNat * 16 + s.zres.toNat * 8 + s.err.toNat * 4 + s.done.toNat * 2
        + s.busy.toNat := by
  unfold State.statusWord
  simp only [toNat_append_eq, BitVec.toNat_ofNat, BitVec.ofNat_eq_ofNat, toNat_ofBool_eq]
  omega

theorem State.ctrlWord_toNat (s : State) : s.ctrlWord.toNat = s.ieErr.toNat * 2 + s.ieDone.toNat := by
  unfold State.ctrlWord
  simp only [toNat_append_eq, BitVec.toNat_ofNat, BitVec.ofNat_eq_ofNat, toNat_ofBool_eq]
  omega

theorem State.bwstateWord_toNat (s : State) : s.bwstateWord.toNat = s.bwacc.toNat * 256 + s.bwn.toNat := by
  unfold State.bwstateWord
  simp only [toNat_append_eq, BitVec.toNat_ofNat, BitVec.ofNat_eq_ofNat]
  omega

theorem State.matchWord_toNat (s : State) : s.matchWord.toNat = s.matchY.toNat * 256 + s.matchX.toNat := by
  unfold State.matchWord
  simp only [toNat_append_eq, BitVec.toNat_ofNat, BitVec.ofNat_eq_ofNat]
  omega

theorem GridDim.word_toNat (g : GridDim) : g.word.toNat = g.gh.toNat * 65536 + g.gw.toNat := by
  unfold GridDim.word
  simp only [toNat_append_eq, BitVec.toNat_ofNat, BitVec.ofNat_eq_ofNat]
  omega

theorem SymEntry.word_toNat (e : SymEntry) :
    e.word.toNat = e.run.toNat * 2 ^ 24 + e.size.toNat * 2 ^ 20 + e.amp.toNat := by
  unfold SymEntry.word
  simp only [toNat_append_eq, BitVec.toNat_ofNat, BitVec.ofNat_eq_ofNat]
  omega

theorem Slot.word_toNat (t : Slot) : t.word.toNat = t.len.toNat * 65536 + t.code.toNat := by
  unfold Slot.word
  simp only [toNat_append_eq, BitVec.toNat_ofNat, BitVec.ofNat_eq_ofNat]
  omega

end Sys2Proof.Machine
end

