-- ==== Sys2Proof/Laws/Dct.lean ====
section
/-! SUPPORT. What the exact arithmetic of Machine/Dct.lean means in the real numbers: values, signs, floors and the cosine
table. Every statement about FDCT and IDCT results goes through these lemmas. -/

namespace Sys2Proof.Machine

/-! ### Values -/

/-- The real number a + b·√2. -/
noncomputable def Z2.val (x : Z2) : ℝ := x.a + x.b * √2

/-- The real number a + b·√(2+√2). -/
noncomputable def Z4.val (x : Z4) : ℝ := x.a.val + x.b.val * √(2 + √2)

/-- The real number a + b·√(2+√(2+√2)). -/
noncomputable def Z8.val (x : Z8) : ℝ := x.a.val + x.b.val * √(2 + √(2 + √2))

theorem sqrt2_mul : √2 * √2 = (2 : ℝ) := Real.mul_self_sqrt (by norm_num)

theorem sqrt4_mul : √(2 + √2) * √(2 + √2) = (2 + √2 : ℝ) := Real.mul_self_sqrt (by positivity)

theorem sqrt8_mul : √(2 + √(2 + √2)) * √(2 + √(2 + √2)) = (2 + √(2 + √2) : ℝ) := Real.mul_self_sqrt (by positivity)

@[simp] theorem Z2.val_zero : Z2.zero.val = 0 := by simp [Z2.val, Z2.zero]
@[simp] theorem Z4.val_zero : Z4.zero.val = 0 := by simp [Z4.val, Z4.zero]
@[simp] theorem Z8.val_zero : Z8.zero.val = 0 := by simp [Z8.val, Z8.zero]

@[simp] theorem Z2.val_add (x y : Z2) : (x.add y).val = x.val + y.val := by
  simp only [Z2.val, Z2.add]; push_cast; ring
@[simp] theorem Z4.val_add (x y : Z4) : (x.add y).val = x.val + y.val := by
  simp only [Z4.val, Z4.add, Z2.val_add]; ring
@[simp] theorem Z8.val_add (x y : Z8) : (x.add y).val = x.val + y.val := by
  simp only [Z8.val, Z8.add, Z4.val_add]; ring

@[simp] theorem Z2.val_neg (x : Z2) : x.neg.val = -x.val := by simp only [Z2.val, Z2.neg]; push_cast; ring
@[simp] theorem Z4.val_neg (x : Z4) : x.neg.val = -x.val := by simp only [Z4.val, Z4.neg, Z2.val_neg]; ring
@[simp] theorem Z8.val_neg (x : Z8) : x.neg.val = -x.val := by simp only [Z8.val, Z8.neg, Z4.val_neg]; ring

@[simp] theorem Z2.val_smul (n : Int) (x : Z2) : (x.smul n).val = n * x.val := by
  simp only [Z2.val, Z2.smul]; push_cast; ring
@[simp] theorem Z4.val_smul (n : Int) (x : Z4) : (x.smul n).val = n * x.val := by
  simp only [Z4.val, Z4.smul, Z2.val_smul]; ring
@[simp] theorem Z8.val_smul (n : Int) (x : Z8) : (x.smul n).val = n * x.val := by
  simp only [Z8.val, Z8.smul, Z4.val_smul]; ring

@[simp] theorem Z2.val_mul (x y : Z2) : (x.mul y).val = x.val * y.val := by
  simp only [Z2.val, Z2.mul]; push_cast; linear_combination (-(x.b : ℝ) * y.b) * sqrt2_mul

@[simp] theorem Z2.val_mulD (x : Z2) : x.mulD.val = x.val * (2 + √2) := by
  simp only [Z2.val, Z2.mulD]; push_cast; linear_combination (-(x.b : ℝ)) * sqrt2_mul

@[simp] theorem Z4.val_mul (x y : Z4) : (x.mul y).val = x.val * y.val := by
  simp only [Z4.val, Z4.mul, Z2.val_add, Z2.val_mul, Z2.val_mulD]
  linear_combination (-(x.b.val * y.b.val)) * sqrt4_mul

@[simp] theorem Z4.val_mulD (x : Z4) : x.mulD.val = x.val * (2 + √(2 + √2)) := by
  simp only [Z4.val, Z4.mulD, Z2.val_add, Z2.val_smul, Z2.val_mulD]; push_cast
  linear_combination (-x.b.val) * sqrt4_mul

@[simp] theorem Z8.val_mul (x y : Z8) : (x.mul y).val = x.val * y.val := by
  simp only [Z8.val, Z8.mul, Z4.val_add, Z4.val_mul, Z4.val_mulD]
  linear_combination (-(x.b.val * y.b.val)) * sqrt8_mul

@[simp] theorem Z8.val_ofInt (n : Int) : (Z8.ofInt n).val = n := by
  simp [Z8.val, Z8.ofInt, Z4.val, Z2.val, Z2.zero, Z4.zero]

/-! ### Signs -/

/-- s is the sign −1, 0 or 1 of the real number x. -/
def SignOf (s : Int) (x : ℝ) : Prop := (s = -1 ∧ x < 0) ∨ (s = 0 ∧ x = 0) ∨ (s = 1 ∧ 0 < x)

theorem SignOf.nonneg_iff {s : Int} {x : ℝ} (h : SignOf s x) : 0 ≤ s ↔ 0 ≤ x := by
  rcases h with ⟨rfl, h⟩ | ⟨rfl, h⟩ | ⟨rfl, h⟩ <;> simp [h, h.le, not_le.mpr]

theorem SignOf.neg_iff {s : Int} {x : ℝ} (h : SignOf s x) : s < 0 ↔ x < 0 := by
  rw [← not_le, ← not_le, h.nonneg_iff]

theorem signOf_int (n : Int) : SignOf n.sign (n : ℝ) := by
  rcases lt_trichotomy n 0 with h | h | h
  · exact .inl ⟨Int.sign_eq_neg_one_of_neg h, by exact_mod_cast h⟩
  · exact .inr (.inl ⟨by simp [h], by simp [h]⟩)
  · exact .inr (.inr ⟨Int.sign_eq_one_of_pos h, by exact_mod_cast h⟩)

/-- The rule of `signExt` for x + y·d with d > 0, from the sign of x² − y²·d². -/
theorem signExt_spec {sx sy sn : Int} {x y d : ℝ} (hx : SignOf sx x) (hy : SignOf sy y) (hd : 0 < d)
    (hn : SignOf sn (x * x - y * y * (d * d))) : SignOf (signExt sx sy sn) (x + y * d) := by
  have key : x * x - y * y * (d * d) = (x + y * d) * (x - y * d) := by ring
  rw [key] at hn
  rcases hx with ⟨rfl, hx⟩ | ⟨rfl, hx⟩ | ⟨rfl, hx⟩ <;> rcases hy with ⟨rfl, hy⟩ | ⟨rfl, hy⟩ | ⟨rfl, hy⟩ <;>
    simp only [signExt]
  · exact .inl ⟨by simp, by nlinarith⟩
  · exact .inl ⟨by simp, by simp [hy, hx]⟩
  · have hm : x - y * d < 0 := by nlinarith [mul_pos hy hd]
    rcases hn with ⟨rfl, h⟩ | ⟨rfl, h⟩ | ⟨rfl, h⟩
    · exact .inr (.inr ⟨by simp, by nlinarith⟩)
    · exact .inr (.inl ⟨by simp, by rcases mul_eq_zero.mp h with h | h <;> linarith⟩)
    · exact .inl ⟨by simp, by nlinarith⟩
  · exact .inl ⟨by simp, by subst hx; nlinarith⟩
  · exact .inr (.inl ⟨by simp, by simp [hx, hy]⟩)
  · exact .inr (.inr ⟨by simp, by subst hx; nlinarith⟩)
  · have hm : 0 < x - y * d := by nlinarith [mul_neg_of_neg_of_pos hy hd]
    rcases hn with ⟨rfl, h⟩ | ⟨rfl, h⟩ | ⟨rfl, h⟩
    · exact .inl ⟨by simp, by nlinarith⟩
    · exact .inr (.inl ⟨by simp, by rcases mul_eq_zero.mp h with h | h <;> linarith⟩)
    · exact .inr (.inr ⟨by simp, by nlinarith⟩)
  · exact .inr (.inr ⟨by simp, by simp [hy, hx]⟩)
  · exact .inr (.inr ⟨by simp, by nlinarith [mul_pos hy hd]⟩)

theorem Z2.sign_spec (x : Z2) : SignOf x.sign x.val := by
  refine signExt_spec (signOf_int x.a) (signOf_int x.b) (by positivity) ?_
  have h := signOf_int (x.a * x.a - 2 * (x.b * x.b))
  have e : ((x.a * x.a - 2 * (x.b * x.b) : Int) : ℝ) = x.a * x.a - x.b * x.b * (√2 * √2) := by
    rw [sqrt2_mul]; push_cast; ring
  rwa [e] at h

theorem Z4.sign_spec (x : Z4) : SignOf x.sign x.val := by
  refine signExt_spec x.a.sign_spec x.b.sign_spec (by positivity) ?_
  have h := ((x.a.mul x.a).add (x.b.mul x.b).mulD.neg).sign_spec
  have e : ((x.a.mul x.a).add (x.b.mul x.b).mulD.neg).val
      = x.a.val * x.a.val - x.b.val * x.b.val * (√(2 + √2) * √(2 + √2)) := by
    rw [sqrt4_mul]; simp; ring
  rwa [e] at h

theorem Z8.sign_spec (x : Z8) : SignOf x.sign x.val := by
  refine signExt_spec x.a.sign_spec x.b.sign_spec (by positivity) ?_
  have h := ((x.a.mul x.a).add (x.b.mul x.b).mulD.neg).sign_spec
  have e : ((x.a.mul x.a).add (x.b.mul x.b).mulD.neg).val
      = x.a.val * x.a.val - x.b.val * x.b.val * (√(2 + √(2 + √2)) * √(2 + √(2 + √2))) := by
    rw [sqrt8_mul]; simp; ring
  rwa [e] at h

/-! ### Floors -/

theorem Z8.sub_nonneg_iff (x : Z8) (m : Nat) (c : Int) :
    0 ≤ (x.add (Z8.ofInt (-(c * m)))).sign ↔ (c : ℝ) * m ≤ x.val := by
  rw [(Z8.sign_spec _).nonneg_iff]; simp

theorem Z8.isFloor_iff (x : Z8) (m : Nat) (c : Int) :
    x.isFloor m c = true ↔ (c : ℝ) * m ≤ x.val ∧ x.val < ((c + 1 : Int) : ℝ) * m := by
  have h := x.sub_nonneg_iff m (c + 1)
  simp only [Z8.isFloor, Bool.and_eq_true, decide_eq_true_eq, x.sub_nonneg_iff m c]
  rw [← not_le (a := (0 : Int)), h, not_le]

theorem floor_eq_of_between {x : ℝ} {m : Nat} (hm : 0 < m) {c : Int} (h1 : (c : ℝ) * m ≤ x)
    (h2 : x < ((c + 1 : Int) : ℝ) * m) : ⌊x / m⌋ = c := by
  have hm' : (0 : ℝ) < m := by exact_mod_cast hm
  rw [Int.floor_eq_iff]
  refine ⟨by rwa [le_div_iff₀ hm'], ?_⟩
  rw [div_lt_iff₀ hm']; push_cast at h2; exact h2

theorem Z8.bisect_spec (x : Z8) (m : Nat) (hm : 0 < m) :
    ∀ (fuel : Nat) (lo hi : Int), (lo : ℝ) * m ≤ x.val → x.val < (hi : ℝ) * m → hi - lo ≤ 2 ^ fuel →
      x.bisect m fuel lo hi = ⌊x.val / m⌋ := by
  have hm' : (0 : ℝ) < m := by exact_mod_cast hm
  intro fuel
  induction fuel with
  | zero =>
    intro lo hi h1 h2 h3
    have : hi ≤ lo + 1 := by simpa [sub_le_iff_le_add, add_comm] using h3
    have h4 : x.val < ((lo + 1 : Int) : ℝ) * m :=
      h2.trans_le (mul_le_mul_of_nonneg_right (by exact_mod_cast this) hm'.le)
    simp [Z8.bisect, floor_eq_of_between hm h1 h4]
  | succ fuel ih =>
    intro lo hi h1 h2 h3
    unfold Z8.bisect
    split
    · rename_i h
      have h4 : x.val < ((lo + 1 : Int) : ℝ) * m :=
        h2.trans_le (mul_le_mul_of_nonneg_right (by exact_mod_cast h) hm'.le)
      exact (floor_eq_of_between hm h1 h4).symm
    · simp only [x.sub_nonneg_iff]
      have hp : (2 : Int) ^ (fuel + 1) = 2 * 2 ^ fuel := by ring
      split
      · rename_i h
        exact ih _ _ h h2 (by omega)
      · rename_i h
        exact ih _ _ h1 (not_le.mp h) (by omega)

theorem sqrt2_le : √2 ≤ (3 / 2 : ℝ) := by
  rw [Real.sqrt_le_left (by norm_num)]; norm_num

theorem sqrt4_le : √(2 + √2) ≤ (19 / 10 : ℝ) := by
  rw [Real.sqrt_le_left (by norm_num)]; linarith [sqrt2_le]

theorem sqrt8_le : √(2 + √(2 + √2)) ≤ (2 : ℝ) := by
  rw [Real.sqrt_le_left (by norm_num)]; linarith [sqrt4_le]

theorem abs_term_le (n : Int) {b : ℝ} (h0 : 0 ≤ b) (h6 : b ≤ 6) : |(n : ℝ) * b| ≤ 6 * (n.natAbs : ℝ) := by
  have : ((n.natAbs : ℕ) : ℝ) = |(n : ℝ)| := by rw [← Int.cast_natCast, Int.natCast_natAbs]; push_cast; rfl
  rw [abs_mul, abs_of_nonneg h0, this]
  nlinarith [abs_nonneg (n : ℝ)]

/-- `Z8.bound` bounds the value strictly. -/
theorem Z8.abs_val_lt_bound (x : Z8) : |x.val| < (x.bound : ℝ) := by
  have a0 := Real.sqrt_nonneg (2 : ℝ)
  have b0 := Real.sqrt_nonneg (2 + √2 : ℝ)
  have c0 := Real.sqrt_nonneg (2 + √(2 + √2) : ℝ)
  have ab : √2 * √(2 + √2) ≤ (3 / 2 * (19 / 10) : ℝ) := mul_le_mul sqrt2_le sqrt4_le b0 (by norm_num)
  have ac : √2 * √(2 + √(2 + √2)) ≤ (3 / 2 * 2 : ℝ) := mul_le_mul sqrt2_le sqrt8_le c0 (by norm_num)
  have bc : √(2 + √2) * √(2 + √(2 + √2)) ≤ (19 / 10 * 2 : ℝ) := mul_le_mul sqrt4_le sqrt8_le c0 (by norm_num)
  have abc : √2 * √(2 + √2) * √(2 + √(2 + √2)) ≤ (3 / 2 * (19 / 10) * 2 : ℝ) :=
    mul_le_mul ab sqrt8_le c0 (by norm_num)
  have e : x.val = (x.a.a.a : ℝ) * 1 + x.a.a.b * √2 + x.a.b.a * √(2 + √2) + x.a.b.b * (√2 * √(2 + √2))
      + x.b.a.a * √(2 + √(2 + √2)) + x.b.a.b * (√2 * √(2 + √(2 + √2)))
      + x.b.b.a * (√(2 + √2) * √(2 + √(2 + √2))) + x.b.b.b * (√2 * √(2 + √2) * √(2 + √(2 + √2))) := by
    simp only [Z8.val, Z4.val, Z2.val]; ring
  have h1 := abs_term_le x.a.a.a (b := 1) (by norm_num) (by norm_num)
  have h2 := abs_term_le x.a.a.b a0 (by linarith [sqrt2_le])
  have h3 := abs_term_le x.a.b.a b0 (by linarith [sqrt4_le])
  have h4 := abs_term_le x.a.b.b (mul_nonneg a0 b0) (by linarith)
  have h5 := abs_term_le x.b.a.a c0 (by linarith [sqrt8_le])
  have h6 := abs_term_le x.b.a.b (mul_nonneg a0 c0) (by linarith)
  have h7 := abs_term_le x.b.b.a (mul_nonneg b0 c0) (by linarith)
  have h8 := abs_term_le x.b.b.b (mul_nonneg (mul_nonneg a0 b0) c0) (by linarith)
  have hb : (x.bound : ℝ) = 6 * (x.a.a.a.natAbs + x.a.a.b.natAbs + x.a.b.a.natAbs + x.a.b.b.natAbs
      + x.b.a.a.natAbs + x.b.a.b.natAbs + x.b.b.a.natAbs + x.b.b.b.natAbs) + 1 := by
    simp only [Z8.bound]; push_cast; ring
  rw [e, hb, abs_lt]
  simp only [abs_le] at h1 h2 h3 h4 h5 h6 h7 h8
  constructor <;> linarith [h1.1, h2.1, h3.1, h4.1, h5.1, h6.1, h7.1, h8.1, h1.2, h2.2, h3.2, h4.2, h5.2, h6.2, h7.2, h8.2]

/-- `floorDiv` is the exact floor, whatever the estimate gave. -/
theorem Z8.floorDiv_spec (x : Z8) (m : Nat) (hm : 0 < m) : x.floorDiv m = ⌊x.val / m⌋ := by
  by_cases h : x.isFloor m (x.approx / (m * 18446744073709551616 : Nat)) = true
  · simp only [Z8.floorDiv, h, if_true]
    rw [x.isFloor_iff] at h
    exact (floor_eq_of_between hm h.1 h.2).symm
  · simp only [Z8.floorDiv, h]
    have hb := x.abs_val_lt_bound
    rw [abs_lt] at hb
    have hm' : (1 : ℝ) ≤ m := by exact_mod_cast hm
    have hb0 : (0 : ℝ) ≤ x.bound := by positivity
    refine x.bisect_spec m hm _ _ _ ?_ ?_ ?_
    · push_cast; nlinarith
    · push_cast; nlinarith
    · have h1 : x.bound < 2 ^ (x.bound.log2 + 1) := Nat.lt_log2_self
      have h2 : (2 : ℕ) ^ (x.bound.log2 + 2) = 2 * 2 ^ (x.bound.log2 + 1) := by ring
      have h3 : (x.bound : Int) < 2 ^ (x.bound.log2 + 1) := by exact_mod_cast h1
      have h4 : (2 : Int) ^ (x.bound.log2 + 2) = 2 * 2 ^ (x.bound.log2 + 1) := by exact_mod_cast h2
      omega

/-- `truncDiv` is the exact truncation. -/
theorem Z8.truncDiv_spec (x : Z8) (m : Nat) (hm : 0 < m) : x.truncDiv m = truncReal (x.val / m) := by
  have hm' : (0 : ℝ) < m := by exact_mod_cast hm
  unfold Z8.truncDiv truncReal
  have : x.val / m < 0 ↔ x.val < 0 := by rw [div_lt_iff₀ hm']; simp
  simp only [this, x.sign_spec.neg_iff]
  split
  · rw [Z8.floorDiv_spec _ _ hm, Z8.val_neg, neg_div, Int.floor_neg, neg_neg]
  · exact Z8.floorDiv_spec _ _ hm

/-! ### The cosine table -/

theorem twoCosSmall_val_one : (twoCosSmall 1).val = 2 * Real.cos (Real.pi / 16) := by
  rw [Real.cos_pi_div_sixteen]; simp [twoCosSmall, Z8.val, Z4.val, Z2.val]; ring

/-- The table obeys the recurrence of the cosine. -/
theorem twoCosSmall_rec : ∀ k < 7,
    twoCosSmall (k + 2) = ((twoCosSmall 1).mul (twoCosSmall (k + 1))).add (twoCosSmall k).neg := by decide

theorem twoCosSmall_val : ∀ k ≤ 8, (twoCosSmall k).val = 2 * Real.cos (k * Real.pi / 16)
  | 0, _ => by simp [twoCosSmall, Z8.val, Z4.val, Z2.val]
  | 1, _ => by simpa using twoCosSmall_val_one
  | k + 2, h => by
    rw [twoCosSmall_rec k (by omega), Z8.val_add, Z8.val_mul, Z8.val_neg, twoCosSmall_val_one,
      twoCosSmall_val (k + 1) (by omega), twoCosSmall_val k (by omega)]
    have e1 : ((k + 2 : ℕ) : ℝ) * Real.pi / 16 = ((k + 1 : ℕ) : ℝ) * Real.pi / 16 + Real.pi / 16 := by push_cast; ring
    have e2 : (k : ℝ) * Real.pi / 16 = ((k + 1 : ℕ) : ℝ) * Real.pi / 16 - Real.pi / 16 := by push_cast; ring
    rw [e1, e2, Real.cos_add, Real.cos_sub]; ring

/-- `twoCos k` is 2·cos(kπ/16) for every k. -/
theorem twoCos_val (k : Nat) : (twoCos k).val = 2 * Real.cos (k * Real.pi / 16) := by
  have hk : (k : ℝ) * Real.pi / 16 = ((k % 32 : ℕ) : ℝ) * Real.pi / 16 + ((k / 32 : ℕ) : ℝ) * (2 * Real.pi) := by
    have : (k : ℝ) = ((k % 32 : ℕ) : ℝ) + 32 * ((k / 32 : ℕ) : ℝ) := by exact_mod_cast (Nat.mod_add_div k 32).symm
    rw [this]; ring
  rw [hk, Real.cos_add_nat_mul_two_pi]
  have hr : k % 32 < 32 := Nat.mod_lt _ (by norm_num)
  simp only [twoCos]
  generalize k % 32 = r at hr
  have hm : Real.cos ((r : ℝ) * Real.pi / 16) = Real.cos (((if r ≤ 16 then r else 32 - r : ℕ) : ℝ) * Real.pi / 16) := by
    split
    · rfl
    · have : ((32 - r : ℕ) : ℝ) * Real.pi / 16 = 2 * Real.pi - (r : ℝ) * Real.pi / 16 := by
        rw [Nat.cast_sub (by omega)]; push_cast; ring
      rw [this, Real.cos_two_pi_sub]
  rw [hm]
  have hle : (if r ≤ 16 then r else 32 - r) ≤ 16 := by split <;> omega
  generalize (if r ≤ 16 then r else 32 - r) = m at hle
  split
  · rename_i h
    exact twoCosSmall_val m h
  · have : (m : ℝ) * Real.pi / 16 = Real.pi - ((16 - m : ℕ) : ℝ) * Real.pi / 16 := by
      rw [Nat.cast_sub hle]; push_cast; ring
    rw [this, Real.cos_pi_sub, Z8.val_neg, twoCosSmall_val _ (by omega)]; ring

theorem Z8.sum8_val (f : Nat → Z8) : (Z8.sum8 f).val = ∑ i ∈ Finset.range 8, (f i).val := by
  simp [Z8.sum8, List.range_succ, Finset.sum_range_succ]

end Sys2Proof.Machine
end

