-- ==== Sys2Proof/Laws/Decode.lean ====
section
/-! SUPPORT. The columns of a command word: cutting and joining are inverse, and a mask acts column by column. Proofs about
encodings go through these and never through 32-bit arithmetic. -/

namespace Sys2Proof

open Machine (toNat_append_eq)

theorem Fields.word_toNat (f : Fields) :
    f.word.toNat = f.op.toNat * 2 ^ 26 + f.ch.toNat * 2 ^ 24 + f.b2.toNat * 2 ^ 16 + f.b1.toNat * 2 ^ 8 + f.b0.toNat := by
  unfold Fields.word
  simp only [toNat_append_eq]
  omega

/-- Joining the columns of a word gives the word. -/
theorem word_fieldsOf (w : Word) : (fieldsOf w).word = w := by
  apply BitVec.eq_of_toNat_eq
  rw [Fields.word_toNat]
  simp only [fieldsOf, BitVec.extractLsb'_toNat, Nat.shiftRight_eq_div_pow]
  have := w.isLt
  omega

/-- Cutting joined columns gives the columns. -/
theorem fieldsOf_word (f : Fields) : fieldsOf f.word = f := by
  obtain ⟨op, ch, b2, b1, b0⟩ := f
  have h := Fields.word_toNat ⟨op, ch, b2, b1, b0⟩
  have h1 := op.isLt
  have h2 := ch.isLt
  have h3 := b2.isLt
  have h4 := b1.isLt
  have h5 := b0.isLt
  simp only at h
  simp only [fieldsOf, Fields.mk.injEq]
  refine ⟨?_, ?_, ?_, ?_, ?_⟩ <;> apply BitVec.eq_of_toNat_eq <;>
    simp only [BitVec.extractLsb'_toNat, Nat.shiftRight_eq_div_pow, h] <;> omega

/-- Two words with the same columns are equal. -/
theorem fieldsOf_inj {v w : Word} (h : fieldsOf v = fieldsOf w) : v = w := by
  rw [← word_fieldsOf v, h, word_fieldsOf]

theorem fieldsOf_and (v w : Word) :
    fieldsOf (v &&& w) =
      ⟨(fieldsOf v).op &&& (fieldsOf w).op, (fieldsOf v).ch &&& (fieldsOf w).ch, (fieldsOf v).b2 &&& (fieldsOf w).b2,
        (fieldsOf v).b1 &&& (fieldsOf w).b1, (fieldsOf v).b0 &&& (fieldsOf w).b0⟩ := by
  simp only [fieldsOf, Fields.mk.injEq]
  refine ⟨?_, ?_, ?_, ?_, ?_⟩ <;> ext i hi <;> simp [hi]

/-- A word matches a row of the opcode map exactly when its columns do. -/
theorem and_eq_iff (w mask mtch : Word) :
    w &&& mask = mtch ↔
      (fieldsOf w).op &&& (fieldsOf mask).op = (fieldsOf mtch).op ∧ (fieldsOf w).ch &&& (fieldsOf mask).ch = (fieldsOf mtch).ch ∧
        (fieldsOf w).b2 &&& (fieldsOf mask).b2 = (fieldsOf mtch).b2 ∧
        (fieldsOf w).b1 &&& (fieldsOf mask).b1 = (fieldsOf mtch).b1 ∧
        (fieldsOf w).b0 &&& (fieldsOf mask).b0 = (fieldsOf mtch).b0 := by
  constructor
  · intro h
    have h' := fieldsOf_and w mask
    rw [h] at h'
    simpa [eq_comm] using (Fields.ext_iff.mp h')
  · intro h
    apply fieldsOf_inj
    rw [fieldsOf_and]
    exact Fields.ext_iff.mpr h

/-- The columns of an encoding. -/
theorem fieldsOf_encode (i : Instr) :
    fieldsOf (encode i) =
      ⟨i.mnem.opcode, (operandFields i).1, (operandFields i).2.1, (operandFields i).2.2.1, (operandFields i).2.2.2⟩ :=
  fieldsOf_word _

/-- The row of a command's opcode. -/
theorem opRow_opcode (m : Mnem) : ∃ r, opRow m.opcode = some r ∧ r.mnem = m ∧ r.op = m.opcode := by
  cases m <;> exact ⟨_, rfl, rfl, rfl⟩

/-- An assigned opcode is the opcode of its row's command. -/
theorem opRow_some {op : BitVec 6} {r : OpRow} (h : opRow op = some r) : op = r.mnem.opcode := by
  have h1 : r ∈ opTable := List.mem_of_find?_eq_some h
  have h2 : r.op = op := by simpa using List.find?_some h
  have h3 : ∀ r ∈ opTable, r.op = r.mnem.opcode := by decide
  rw [← h2, h3 r h1]

end Sys2Proof
end

