-- ==== Sys2Proof/Laws/Stream.lean ====
section
/-! SUPPORT. The bitstream cursor as a list of bits: what ReadBit, ReadBits and DecodeSym take from it
(spec/44_huffman.md R330, R333). -/

namespace Sys2Proof.Machine

/-- The bytes INBUF[p..INLEN−1]. -/
def InStream.bytesFrom (m : InStream) (p : Nat) : List Byte := (List.range (m.len - p)).map fun j => m.byte (p + j)

/-- The bits a cursor has before it. -/
def streamBits (m : InStream) (c : Cursor) : List Bool :=
  msbBits (m.byte (c.pos - 1)).toNat c.bits ++ unstuffBits c.prev (m.bytesFrom c.pos)

theorem cursorBits_eq (s : State) : s.cursorBits = streamBits s.inStream s.cursor := rfl

theorem InStream.bytesFrom_of_ge {m : InStream} {p : Nat} (h : m.len ≤ p) : m.bytesFrom p = [] := by
  have : m.len - p = 0 := by omega
  simp [InStream.bytesFrom, this]

theorem InStream.bytesFrom_of_lt {m : InStream} {p : Nat} (h : p < m.len) :
    m.bytesFrom p = m.byte p :: m.bytesFrom (p + 1) := by
  have : m.len - p = (m.len - (p + 1)) + 1 := by omega
  simp only [InStream.bytesFrom]
  rw [this, List.range_succ_eq_map, List.map_cons, List.map_map]
  refine congrArg₂ List.cons rfl (List.map_congr_left fun j _ => ?_)
  simp only [Function.comp]
  congr 1; omega

theorem getLsbD_eq_testBit (b : Byte) (i : Nat) : b.getLsbD i = b.toNat.testBit i := rfl

/-- Everything loading a byte can do: the bits of the next data byte, a stuffing byte skipped, or E_TRUNC at the end. -/
theorem loadByte_spec (m : InStream) (c : Cursor) :
    (∃ c', loadByte m c = .ok c' ∧ c'.bits = 8 ∧ c.pos < c'.pos ∧ c'.pos ≤ m.len ∧
        unstuffBits c.prev (m.bytesFrom c.pos) = streamBits m c') ∨
      (loadByte m c = .error (.num .trunc (max c.pos m.len)) ∧ unstuffBits c.prev (m.bytesFrom c.pos) = []) := by
  unfold loadByte skipStuffing
  by_cases h1 : m.len ≤ c.pos
  · right
    rw [if_pos h1, InStream.bytesFrom_of_ge h1, max_eq_left h1]
    exact ⟨rfl, rfl⟩
  · rw [if_neg h1, InStream.bytesFrom_of_lt (not_le.mp h1)]
    by_cases h2 : c.prev = 0xFF ∧ m.byte c.pos = 0x00
    · rw [if_pos h2]
      simp only [unstuffBits, if_pos h2]
      by_cases h3 : m.len ≤ c.pos + 1
      · right
        have : c.pos + 1 = max c.pos m.len := by omega
        rw [if_pos h3, InStream.bytesFrom_of_ge h3, this]
        exact ⟨rfl, rfl⟩
      · left
        rw [if_neg h3, InStream.bytesFrom_of_lt (not_le.mp h3)]
        refine ⟨_, rfl, rfl, by simp only; omega, by simp only; omega, ?_⟩
        have : ¬ ((0x00 : Byte) = 0xFF ∧ m.byte (c.pos + 1) = 0x00) := by simp
        simp only [unstuffBits, if_neg this, streamBits, Nat.add_sub_cancel]
    · left
      rw [if_neg h2]
      simp only [if_neg h1]
      refine ⟨_, rfl, rfl, by simp only; omega, by simp only; omega, ?_⟩
      simp only [unstuffBits, if_neg h2, streamBits, Nat.add_sub_cancel]

/-- Everything ReadBit can do: it takes the first bit of the stream, or raises E_TRUNC when there is none. -/
theorem readBit_spec (m : InStream) (c : Cursor) :
    (∃ b c', readBit m c = .ok (b, c') ∧ streamBits m c = b :: streamBits m c' ∧ c.pos ≤ c'.pos ∧
        c'.pos ≤ max c.pos m.len ∧ (c'.bits < 8 ∨ c'.bits < c.bits) ∧ (c'.pos = c.pos → c'.bits < c.bits)) ∨
      (readBit m c = .error (.num .trunc (max c.pos m.len)) ∧ streamBits m c = []) := by
  unfold readBit
  by_cases h : c.bits = 0
  · rw [if_pos h]
    have e : streamBits m c = unstuffBits c.prev (m.bytesFrom c.pos) := by simp [streamBits, h]
    rcases loadByte_spec m c with ⟨c', h1, h2, h3, h4, h5⟩ | ⟨h1, h2⟩
    · left
      rw [h1, e, h5]
      refine ⟨_, _, rfl, ?_, h3.le, by simp only; omega, by simp only; omega, by simp only; omega⟩
      simp only [streamBits, h2, getLsbD_eq_testBit]
      rw [msbBits_succ _ 7]; rfl
    · right
      rw [h1, e, h2]
      exact ⟨rfl, rfl⟩
  · rw [if_neg h]
    left
    refine ⟨_, _, rfl, ?_, le_refl _, by simp only; omega, by simp only; omega, by simp only; omega⟩
    obtain ⟨n, hn⟩ : ∃ n, c.bits = n + 1 := ⟨c.bits - 1, by omega⟩
    simp only [streamBits, hn, getLsbD_eq_testBit, Nat.add_sub_cancel]
    rw [msbBits_succ]; rfl

/-- ReadBits takes the next n bits as a number. -/
theorem readBits_ok (m : InStream) (l : List Bool) (v : Nat) (c : Cursor) (rest : List Bool)
    (h : streamBits m c = l ++ rest) :
    ∃ c', readBits m l.length v c = .ok (v * 2 ^ l.length + bitsValue l, c') ∧ streamBits m c' = rest ∧
      c.pos ≤ c'.pos ∧ c'.pos ≤ max c.pos m.len := by
  induction l generalizing v c with
  | nil => exact ⟨c, by simp [readBits], h, le_refl _, by omega⟩
  | cons b l ih =>
    rcases readBit_spec m c with ⟨b', c', h1, h2, h3, h4, -⟩ | ⟨h1, h2⟩
    · rw [h, List.cons_append, List.cons.injEq] at h2
      obtain ⟨hb, hs⟩ := h2
      obtain ⟨c'', i1, i2, i3, i4⟩ := ih (v * 2 + b.toNat) c' hs.symm
      refine ⟨c'', ?_, i2, by omega, by omega⟩
      simp only [List.length_cons, readBits, h1, ← hb, i1]
      have e : bitsValue (b :: l) = b.toNat * 2 ^ l.length + bitsValue l := by
        have := bitsValue_append [b] l
        simpa [bitsValue] using this
      rw [e, pow_succ]
      congr 2; ring
    · rw [h] at h2; simp at h2

/-- ReadBits raises E_TRUNC when the stream has fewer bits. -/
theorem readBits_trunc (m : InStream) (n v : Nat) (c : Cursor) (h : (streamBits m c).length < n) :
    readBits m n v c = .error (.num .trunc (max c.pos m.len)) := by
  induction n generalizing v c with
  | zero => omega
  | succ n ih =>
    rcases readBit_spec m c with ⟨b', c', h1, h2, h3, h4, -⟩ | ⟨h1, h2⟩
    · rw [h2, List.length_cons] at h
      simp only [readBits, h1]
      rw [ih _ c' (by omega)]
      congr 2; omega
    · simp only [readBits, h1]

/-! ### What the writer wrote, read back -/

/-- The whole bytes and the rest are the bits (spec/44_huffman.md R320). -/
theorem pack_bits (l : List Bool) : ((packBytes l).flatMap fun b => msbBits b.toNat 8) ++ packRest l = l := by
  induction h : l.length using Nat.strong_induction_on generalizing l with
  | _ n ih =>
    by_cases h8 : l.length < 8
    · rw [packBytes_short h8, packRest_short h8]; rfl
    · have hl : (l.take 8).length = 8 := by simp; omega
      obtain ⟨e1, e2⟩ := pack_byte hl (l.drop 8)
      rw [List.take_append_drop] at e1 e2
      have hb : (BitVec.ofNat 8 (bitsValue (l.take 8))).toNat = bitsValue (l.take 8) := by
        rw [BitVec.toNat_ofNat]
        have := bitsValue_lt (l.take 8)
        rw [hl] at this
        exact Nat.mod_eq_of_lt this
      have hm := msbBits_bitsValue (l.take 8)
      rw [hl] at hm
      rw [e1, e2, List.flatMap_cons, hb, hm, List.append_assoc, ih (l.drop 8).length (by simp; omega) _ rfl,
        List.take_append_drop]

theorem packRest_length (l : List Bool) : (packRest l).length = l.length % 8 := by
  induction h : l.length using Nat.strong_induction_on generalizing l with
  | _ n ih =>
    by_cases h8 : l.length < 8
    · rw [packRest_short h8, ← h, Nat.mod_eq_of_lt h8]
    · have hl : (l.take 8).length = 8 := by simp; omega
      obtain ⟨-, e2⟩ := pack_byte hl (l.drop 8)
      rw [List.take_append_drop] at e2
      rw [e2, ih (l.drop 8).length (by simp; omega) _ rfl, List.length_drop, ← h]
      omega

/-- Stuffed bytes are read back as their data bits (spec/20_memory.md R105, 44_huffman.md R330). -/
theorem unstuff_stuff (l k : List Byte) (prev : Byte) (hp : prev ≠ 0xFF) :
    ∃ prev', prev' ≠ 0xFF ∧ unstuffBits prev (stuffBytes l ++ k) = (l.flatMap fun b => msbBits b.toNat 8) ++ unstuffBits prev' k := by
  induction l generalizing prev with
  | nil => exact ⟨prev, hp, rfl⟩
  | cons b l ih =>
    rw [stuffBytes_cons, List.append_assoc, List.flatMap_cons]
    have h1 : ¬ (prev = 0xFF ∧ b = 0x00) := fun h => hp h.1
    by_cases hb : b = 0xFF
    · subst hb
      obtain ⟨q, hq, e⟩ := ih 0x00 (by decide)
      refine ⟨q, hq, ?_⟩
      have e0 : stuffBytes [0xFF] = [0xFF, 0x00] := by decide
      rw [e0, List.cons_append, unstuffBits, if_neg h1, List.cons_append, unstuffBits, if_pos ⟨rfl, rfl⟩, List.nil_append, e]
      simp
    · obtain ⟨q, hq, e⟩ := ih b hb
      refine ⟨q, hq, ?_⟩
      have e0 : stuffBytes [b] = [b] := by rw [← emitBytes_eq, emitBytes, if_neg hb]
      rw [e0, List.cons_append, unstuffBits, if_neg h1, List.nil_append, e]
      simp

/-! ### Tables -/

/-- A symbol that a code lookup finds has that code. -/
theorem findCode_some {n : Nat} {t : Vector Slot n} {l v y : Nat} (h : findCode t l v = some y) :
    ∃ hy : y < n, t[y].len.toNat = l ∧ t[y].code.toNat = v := by
  unfold findCode at h
  rw [List.findIdx?_eq_some_iff_getElem] at h
  obtain ⟨hy, h1, -⟩ := h
  have hy' : y < n := by simpa using hy
  exact ⟨hy', by simpa using h1⟩

/-- In a prefix-free table a code's lookup finds its symbol. -/
theorem findCode_code {n : Nat} {t : Vector Slot n} (ht : tableLegal t) {y : Nat} (hy : y < n) (hl : t[y].len ≠ 0) :
    findCode t t[y].len.toNat t[y].code.toNat = some y := by
  cases hf : findCode t t[y].len.toNat t[y].code.toNat with
  | none =>
    exfalso
    unfold findCode at hf
    rw [List.findIdx?_eq_none_iff] at hf
    have := hf t[y] (by simp)
    simp at this
  | some z =>
    obtain ⟨hz, h1, h2⟩ := findCode_some hf
    by_contra hne
    have hzy : (⟨z, hz⟩ : Fin n) ≠ ⟨y, hy⟩ := by simpa [Fin.ext_iff] using fun e => hne (by rw [e])
    refine ht.2 ⟨z, hz⟩ ⟨y, hy⟩ hzy ⟨?_, hl, ?_, ?_⟩
    · intro e
      have e' : t[z].len = 0 := e
      rw [e'] at h1
      exact hl (BitVec.eq_of_toNat_eq h1.symm)
    · exact h1.le
    · simp [h1, h2]

/-- In a prefix-free table no shorter string of a code's bits is a code. -/
theorem findCode_prefix {n : Nat} {t : Vector Slot n} (ht : tableLegal t) {y : Nat} (hy : y < n) {j : Nat} (hj : 0 < j)
    (hjl : j < t[y].len.toNat) : findCode t j (bitsValue ((codeBits t[y]).take j)) = none := by
  cases hf : findCode t j (bitsValue ((codeBits t[y]).take j)) with
  | none => rfl
  | some z =>
    exfalso
    obtain ⟨hz, h1, h2⟩ := findCode_some hf
    have hzy : (⟨z, hz⟩ : Fin n) ≠ ⟨y, hy⟩ := by
      intro e
      have : z = y := by simpa [Fin.ext_iff] using e
      subst this; omega
    have hle : t[y].code.toNat < 2 ^ t[y].len.toNat := (ht.1 ⟨y, hy⟩).2
    have hc : bitsValue (codeBits t[y]) = t[y].code.toNat := by
      rw [codeBits, bitsValue_msbBits, Nat.mod_eq_of_lt hle]
    have hsplit := bitsValue_append ((codeBits t[y]).take j) ((codeBits t[y]).drop j)
    rw [List.take_append_drop, hc, List.length_drop] at hsplit
    have hlen : (codeBits t[y]).length = t[y].len.toNat := by simp [codeBits]
    have hlt := bitsValue_lt ((codeBits t[y]).drop j)
    rw [List.length_drop, hlen] at hlt
    rw [hlen] at hsplit
    refine ht.2 ⟨z, hz⟩ ⟨y, hy⟩ hzy ⟨?_, ?_, ?_, ?_⟩
    · intro e
      have e' : t[z].len = 0 := e
      rw [e'] at h1
      simp at h1; omega
    · intro e
      have e' : t[y].len = 0 := e
      rw [e'] at hjl
      simp at hjl
    · show t[z].len.toNat ≤ t[y].len.toNat
      omega
    · show t[y].code.toNat / 2 ^ (t[y].len.toNat - t[z].len.toNat) = t[z].code.toNat
      rw [h1, h2, hsplit, Nat.mul_comm, Nat.mul_add_div (by positivity), Nat.div_eq_of_lt hlt, Nat.add_zero]

/-- DecodeSym's loop finds the symbol whose code the stream continues with: `p` are the bits read so far. -/
theorem decodeSymFrom_ok {n : Nat} {t : Vector Slot n} (ht : tableLegal t) (m : InStream) (i : Nat) {y : Nat} (hy : y < n)
    (hl : t[y].len ≠ 0) (q : List Bool) :
    ∀ (p : List Bool) (left : Nat) (c : Cursor) (rest : List Bool), codeBits t[y] = p ++ q → q ≠ [] → q.length ≤ left →
      streamBits m c = q ++ rest →
      ∃ c', decodeSymFrom t m i left p.length (bitsValue p) c = .ok (y, c') ∧ streamBits m c' = rest ∧
        c.pos ≤ c'.pos ∧ c'.pos ≤ max c.pos m.len := by
  induction q with
  | nil => intro p left c rest _ h; exact absurd rfl h
  | cons b q ih =>
    intro p left c rest hp _ hlen hs
    obtain ⟨k, rfl⟩ : ∃ k, left = k + 1 := ⟨left - 1, by simp at hlen; omega⟩
    have hcl : (codeBits t[y]).length = t[y].len.toNat := by simp [codeBits]
    have hbit : bitsValue p * 2 + b.toNat = bitsValue (p ++ [b]) := by rw [bitsValue_snoc]; ring
    rcases readBit_spec m c with ⟨b', c', h1, h2, h3, h4, -⟩ | ⟨h1, h2⟩
    · rw [hs, List.cons_append, List.cons.injEq] at h2
      obtain ⟨hb, hs'⟩ := h2
      simp only [decodeSymFrom, h1, ← hb, hbit]
      by_cases hq : q = []
      · subst hq
        have hw : p ++ [b] = codeBits t[y] := by simp [hp]
        have hv : bitsValue (p ++ [b]) = t[y].code.toNat := by
          have hlt : t[y].code.toNat < 2 ^ t[y].len.toNat := (ht.1 ⟨y, hy⟩).2
          rw [hw, codeBits, bitsValue_msbBits, Nat.mod_eq_of_lt hlt]
        have hn : p.length + 1 = t[y].len.toNat := by rw [← hcl, ← hw]; simp
        rw [hv, hn, findCode_code ht hy hl]
        exact ⟨c', rfl, by simpa using hs'.symm, by omega, by omega⟩
      · have htake : (codeBits t[y]).take (p.length + 1) = p ++ [b] := by
          rw [hp, List.take_append]; simp
        have hnone : findCode t (p.length + 1) (bitsValue (p ++ [b])) = none := by
          rw [← htake]
          refine findCode_prefix ht hy (by omega) ?_
          rw [← hcl, hp]
          have : 0 < q.length := List.length_pos_iff.mpr hq
          simp; omega
        rw [hnone]
        obtain ⟨c'', i1, i2, i3, i4⟩ := ih (p ++ [b]) k c' rest (by simp [hp]) hq (by simpa using hlen) hs'.symm
        rw [List.length_append, List.length_singleton] at i1
        exact ⟨c'', i1, i2, by omega, by omega⟩
    · rw [hs] at h2; simp at h2

/-- DecodeSym reads the symbol whose code the stream begins with (spec/44_huffman.md R333). -/
theorem decodeSym_ok {n : Nat} {t : Vector Slot n} (ht : tableLegal t) (m : InStream) (i : Nat) {y : Nat} (hy : y < n)
    (hl : t[y].len ≠ 0) (c : Cursor) (rest : List Bool) (hs : streamBits m c = codeBits t[y] ++ rest) :
    ∃ c', decodeSym t m i c = .ok (y, c') ∧ streamBits m c' = rest ∧ c.pos ≤ c'.pos ∧ c'.pos ≤ max c.pos m.len := by
  have hcl : (codeBits t[y]).length = t[y].len.toNat := by simp [codeBits]
  have hpos : t[y].len.toNat ≠ 0 := fun e => hl (BitVec.eq_of_toNat_eq e)
  have h16 : t[y].len.toNat ≤ 16 := (ht.1 ⟨y, hy⟩).1
  exact decodeSymFrom_ok ht m i hy hl (codeBits t[y]) [] 16 c rest (by simp)
    (by intro e; rw [e] at hcl; simp at hcl; omega) (by omega) hs

end Sys2Proof.Machine
end

