-- ==== Sys2Proof/Laws/Huffman.lean ====
section
/-! SUPPORT. HENC's plan as bits, and what HDEC's loops take from a stream (spec/44_huffman.md R323, R324, R332, R335). -/

namespace Sys2Proof.Machine

/-! ### Tables by name -/

theorem huffSlot_dc (s : State) (ch : Chan) : s.huffSlot .dc (huffTableId ch) = slotAt (s.hdcOf ch) := by
  cases ch <;> rfl

theorem huffSlot_ac (s : State) (ch : Chan) : s.huffSlot .ac (huffTableId ch) = slotAt (s.hacOf ch) := by
  cases ch <;> rfl

theorem hdcOf_legal {s : State} (h : s.huffLegal) (ch : Chan) : tableLegal (s.hdcOf ch) := by
  cases ch <;> [exact h.1; exact h.2.1; exact h.2.1]

theorem hacOf_legal {s : State} (h : s.huffLegal) (ch : Chan) : tableLegal (s.hacOf ch) := by
  cases ch <;> [exact h.2.2.1; exact h.2.2.2; exact h.2.2.2]

/-- A symbol with a code has a slot of the table. -/
theorem slotAt_coded {n : Nat} {t : Vector Slot n} {y : Nat} (h : (slotAt t y).len ≠ 0) :
    ∃ hy : y < n, slotAt t y = t[y] := by
  by_cases hy : y < n
  · exact ⟨hy, by simp [slotAt, hy]⟩
  · exact (h (by simp only [slotAt, Vector.getElem?_eq_none (Nat.not_lt.mp hy)]; rfl)).elim

theorem codeOf_none {n : Nat} {t : Vector Slot n} {y : Nat} (h : (slotAt t y).len = 0) : codeOf t y = none := by
  simp [codeOf, h]

theorem codeOf_some {n : Nat} {t : Vector Slot n} {y : Nat} (h : (slotAt t y).len ≠ 0) :
    codeOf t y = some ((slotAt t y).code.toNat, (slotAt t y).len.toNat) := by
  rw [codeOf, if_neg h]

/-! ### Amplitudes -/

theorem ampBits_field (a : Int) (n : Nat) : msbBits (ampBits a n) n = ampField a n := by
  rw [ampBits, ampField, BitVec.toNat_ofInt]

@[simp] theorem ampField_length (a : Int) (n : Nat) : (ampField a n).length = n := by simp [ampField]

/-- The field of a coded amplitude: the amplitude itself, or the amplitude raised by 2^n − 1 (spec/44_huffman.md R323). -/
theorem bitsValue_ampField {a : Int} {n : Nat} (h : a.natAbs.size = n) :
    ((bitsValue (ampField a n) : Nat) : Int) = if 0 ≤ a then a else a + ((2 ^ n : Nat) - 1) := by
  have hlt : a.natAbs < 2 ^ n := h ▸ Nat.lt_size_self a.natAbs
  rw [← ampBits_field, bitsValue_msbBits, ampBits]
  split
  · rename_i h0
    have e : a % ((2 ^ n : Nat) : Int) = a := Int.emod_eq_of_lt h0 (by omega)
    rw [e, Nat.mod_eq_of_lt (by omega)]; omega
  · rename_i h0
    have e : (a - 1) % ((2 ^ n : Nat) : Int) = a + ((2 ^ n : Nat) - 1) := by
      rw [← Int.add_emod_right, Int.emod_eq_of_lt] <;> omega
    rw [e, Nat.mod_eq_of_lt (by omega)]; omega

/-- Extend undoes the amplitude field (spec/44_huffman.md R332). -/
theorem extend_ampField {a : Int} {n : Nat} (h : a.natAbs.size = n) : extend (bitsValue (ampField a n)) n = a := by
  have hv := bitsValue_ampField h
  have hlt : a.natAbs < 2 ^ n := h ▸ Nat.lt_size_self a.natAbs
  unfold extend
  rcases Nat.eq_zero_or_pos n with rfl | hn
  · simp at hlt; simp [hlt]
  · have hge : 2 ^ (n - 1) ≤ a.natAbs := Nat.lt_size.mp (by omega)
    have hp : 2 ^ n = 2 * 2 ^ (n - 1) := by rw [← pow_succ']; congr 1; omega
    rw [if_neg (by omega)]
    have hb : ∀ v : Nat, v < 2 ^ n → (v.testBit (n - 1) = true ↔ 2 ^ (n - 1) ≤ v) := by
      intro v hv
      rw [Nat.testBit_eq_decide_div_mod_eq, decide_eq_true_eq]
      have h2 : v / 2 ^ (n - 1) < 2 := (Nat.div_lt_iff_lt_mul (by positivity)).mpr (by omega)
      rw [Nat.mod_eq_of_lt h2]
      constructor
      · intro e
        have := Nat.div_mul_le_self v (2 ^ (n - 1))
        rw [e] at this; omega
      · intro e
        have := (Nat.le_div_iff_mul_le (k := 2 ^ (n - 1)) (by positivity) (x := 1) (y := v)).mpr (by omega)
        omega
    split at hv
    · rw [if_pos ((hb _ (by omega)).mpr (by omega))]; exact hv
    · rw [if_neg (fun e => by have := (hb _ (by omega)).mp e; omega), hv]; ring

/-! ### HENC's plan -/

/-- The plan of the DC symbol (spec/44_huffman.md R324). -/
theorem planDc_ok {d : Vector Slot 12} {y : Sym} (h : (slotAt d y.size).len ≠ 0) :
    ∃ p, planDc d y = .ok p ∧ planBits p = dcSymBits (slotAt d) y := by
  refine ⟨_, by simp [planDc, codeOf_some h]; rfl, ?_⟩
  simp [planBits, dcSymBits, codeBits, ampBits_field]

/-- The plan of an AC symbol: its bits, or E_NO_CODE (spec/44_huffman.md R324). -/
theorem planAc_ok {a : Vector Slot 256} {y : Sym} (i : Nat) (h : acCoded (slotAt a) y) :
    ∃ p, planAc a i y = .ok p ∧ planBits p = acSymBits (slotAt a) y := by
  unfold acCoded at h
  unfold planAc acSymBits
  by_cases he : y = Sym.eob
  · rw [if_pos he] at h ⊢
    rw [if_pos he, codeOf_some h]
    exact ⟨_, rfl, by simp [planBits, codeBits]⟩
  · rw [if_neg he] at h ⊢
    rw [if_neg he, codeOf_some h.2]
    by_cases hz : (slotAt a 0xF0).len = 0
    · rw [codeOf_none hz]
      have hr : y.run.toNat / 16 = 0 := by
        by_contra hne
        exact h.1 (by omega) hz
      refine ⟨_, by simp [hr]; rfl, ?_⟩
      simp [planBits, zrlBits, codeBits, ampBits_field, hr]
    · rw [codeOf_some hz]
      refine ⟨_, rfl, ?_⟩
      simp [planBits, zrlBits, codeBits, ampBits_field, List.flatMap]

theorem planAc_error {a : Vector Slot 256} {y : Sym} (i : Nat) (h : ¬ acCoded (slotAt a) y) :
    planAc a i y = .error (.num .noCode i) := by
  unfold acCoded at h
  unfold planAc
  by_cases he : y = Sym.eob
  · rw [if_pos he] at h ⊢
    rw [codeOf_none (not_not.mp h)]
  · rw [if_neg he] at h ⊢
    by_cases hc : (slotAt a (y.run.toNat % 16 * 16 + y.size)).len = 0
    · rw [codeOf_none hc]
      cases codeOf a 0xF0 <;> rfl
    · rw [codeOf_some hc]
      by_cases hz : (slotAt a 0xF0).len = 0
      · rw [codeOf_none hz]
        have : ¬ y.run.toNat / 16 = 0 := fun e => h ⟨fun h16 => by omega, hc⟩
        simp [this]
      · exact absurd ⟨fun _ => hz, hc⟩ h

theorem planFrom_ok {a : Vector Slot 256} {l : List Sym} (i : Nat) (h : ∀ z ∈ l, acCoded (slotAt a) z) :
    ∃ p, planFrom a i l = .ok p ∧ planBits p = l.flatMap (acSymBits (slotAt a)) := by
  induction l generalizing i with
  | nil => exact ⟨[], rfl, rfl⟩
  | cons y l ih =>
    obtain ⟨p, h1, h2⟩ := planAc_ok i (h y (by simp))
    obtain ⟨q, h3, h4⟩ := ih (i + 1) fun z hz => h z (by simp [hz])
    refine ⟨p ++ q, by simp [planFrom, h1, h3], ?_⟩
    rw [List.flatMap_cons, ← h2, ← h4]
    simp [planBits]

theorem planFrom_error {a : Vector Slot 256} {pre : List Sym} {z : Sym} {post : List Sym} (i : Nat)
    (h : ∀ x ∈ pre, acCoded (slotAt a) x) (hz : ¬ acCoded (slotAt a) z) :
    planFrom a i (pre ++ z :: post) = .error (.num .noCode (i + pre.length)) := by
  induction pre generalizing i with
  | nil => simp [planFrom, planAc_error i hz]
  | cons y l ih =>
    obtain ⟨p, h1, -⟩ := planAc_ok i (h y (by simp))
    have := ih (i + 1) fun x hx => h x (by simp [hx])
    simp only [List.cons_append, planFrom, h1, this, List.length_cons]
    congr 2; omega

/-- Everything HENC's plan can be: the block's bits, or E_NO_CODE at the first entry that lacks a code
(spec/44_huffman.md R324). -/
theorem planSyms_ok {d : Vector Slot 12} {a : Vector Slot 256} {l : List Sym} (h : blockCoded (slotAt d) (slotAt a) l) :
    ∃ p, planSyms d a l = .ok p ∧ planBits p = blockBits (slotAt d) (slotAt a) l := by
  obtain ⟨y, ys, rfl, h1, h2⟩ := h
  obtain ⟨p, h3, h4⟩ := planDc_ok h1
  obtain ⟨q, h5, h6⟩ := planFrom_ok 1 h2
  refine ⟨p ++ q, by simp [planSyms, h3, h5], ?_⟩
  rw [blockBits, ← h4, ← h6]
  simp [planBits]

theorem planSyms_noDc {d : Vector Slot 12} {a : Vector Slot 256} {y : Sym} {ys : List Sym}
    (h : (slotAt d y.size).len = 0) : planSyms d a (y :: ys) = .error (.num .noCode 0) := by
  simp [planSyms, planDc, codeOf_none h]

theorem planSyms_noAc {d : Vector Slot 12} {a : Vector Slot 256} {y : Sym} {pre : List Sym} {z : Sym} {post : List Sym}
    (h : (slotAt d y.size).len ≠ 0) (hp : ∀ x ∈ pre, acCoded (slotAt a) x) (hz : ¬ acCoded (slotAt a) z) :
    planSyms d a (y :: (pre ++ z :: post)) = .error (.num .noCode (pre.length + 1)) := by
  obtain ⟨p, h1, -⟩ := planDc_ok h
  simp [planSyms, h1, planFrom_error 1 hp hz, Nat.add_comm]

/-! ### Cursors -/

/-- The bytes INBUF[a..p−1]. -/
def InStream.bytesUpTo (m : InStream) (a p : Nat) : List Byte := (List.range (p - a)).map fun j => m.byte (a + j)

/-- The bits from a cursor up to INBUF[p]. -/
def Cursor.bitsUpTo (m : InStream) (c : Cursor) (p : Nat) : List Bool :=
  msbBits (m.byte (c.pos - 1)).toNat c.bits ++ unstuffBits c.prev (m.bytesUpTo c.pos p)

theorem bitsUpTo_eq (s : State) (p : Nat) : s.bitsUpTo p = s.cursor.bitsUpTo s.inStream p := rfl

theorem bitsUpTo_len (m : InStream) (c : Cursor) : c.bitsUpTo m m.len = streamBits m c := rfl

theorem InStream.bytesUpTo_of_ge {m : InStream} {a p : Nat} (h : p ≤ a) : m.bytesUpTo a p = [] := by
  have : p - a = 0 := by omega
  simp [InStream.bytesUpTo, this]

theorem InStream.bytesUpTo_of_lt {m : InStream} {a p : Nat} (h : a < p) :
    m.bytesUpTo a p = m.byte a :: m.bytesUpTo (a + 1) p := by
  have : p - a = (p - (a + 1)) + 1 := by omega
  simp only [InStream.bytesUpTo]
  rw [this, List.range_succ_eq_map, List.map_cons, List.map_map]
  refine congrArg₂ List.cons rfl (List.map_congr_left fun j _ => ?_)
  simp only [Function.comp]
  congr 1; omega

@[simp] theorem bitsUpTo_self (m : InStream) (c : Cursor) : (c.bitsUpTo m c.pos).length = c.bits := by
  simp [Cursor.bitsUpTo, InStream.bytesUpTo_of_ge, unstuffBits]

/-- Reading n bits takes the cursor c to c' (spec/44_huffman.md R330): to the first position up to which there are n
bits. -/
structure Cursor.Takes (m : InStream) (n : Nat) (c c' : Cursor) : Prop where
  le     : c.pos ≤ c'.pos
  length : ∀ p, c'.pos ≤ p → (c.bitsUpTo m p).length = n + (c'.bitsUpTo m p).length
  first  : ∀ p, c.pos ≤ p → p < c'.pos → (c.bitsUpTo m p).length < n
  prev   : c'.prev = if c'.pos = c.pos then c.prev else m.byte (c'.pos - 1)

theorem Cursor.Takes.refl (m : InStream) (c : Cursor) : Cursor.Takes m 0 c c :=
  ⟨le_refl _, fun _ _ => (Nat.zero_add _).symm, fun _ _ _ => by omega, by simp⟩

theorem Cursor.Takes.trans {m : InStream} {k n : Nat} {a b c : Cursor} (h : Cursor.Takes m k a b)
    (g : Cursor.Takes m n b c) : Cursor.Takes m (k + n) a c := by
  have h1 := h.le
  have g1 := g.le
  refine ⟨by omega, fun p hp => ?_, fun p hp hlt => ?_, ?_⟩
  · rw [h.length p (by omega), g.length p hp, Nat.add_assoc]
  · by_cases hb : p < b.pos
    · have := h.first p hp hb; omega
    · have := g.first p (by omega) hlt
      rw [h.length p (by omega)]; omega
  · rw [g.prev]
    by_cases e : c.pos = b.pos
    · rw [if_pos e, h.prev, e]
    · rw [if_neg e, if_neg (by omega)]

/-- ReadBit takes one bit. -/
theorem readBit_takes {m : InStream} {c c' : Cursor} {b : Bool} (h : readBit m c = .ok (b, c')) :
    Cursor.Takes m 1 c c' := by
  unfold readBit at h
  by_cases h0 : c.bits = 0
  · rw [if_pos h0] at h
    unfold loadByte skipStuffing at h
    by_cases h1 : m.len ≤ c.pos
    · simp [h1] at h
    rw [if_neg h1] at h
    have hl : ∀ p, c.bitsUpTo m p = unstuffBits c.prev (m.bytesUpTo c.pos p) := fun p => by
      simp [Cursor.bitsUpTo, h0]
    by_cases h2 : c.prev = 0xFF ∧ m.byte c.pos = 0x00
    · rw [if_pos h2] at h
      simp only at h
      by_cases h3 : m.len ≤ c.pos + 1
      · rw [if_pos h3] at h; cases h
      rw [if_neg h3] at h
      simp only [Except.ok.injEq, Prod.mk.injEq] at h
      obtain ⟨-, rfl⟩ := h
      have hn : ¬ ((0x00 : Byte) = 0xFF ∧ m.byte (c.pos + 1) = 0x00) := by simp
      refine ⟨by simp only; omega, fun p hp => ?_, fun p hp hlt => ?_, ?_⟩
      · simp only at hp
        rw [hl, InStream.bytesUpTo_of_lt (by omega), unstuffBits, if_pos h2, InStream.bytesUpTo_of_lt (by omega),
          unstuffBits, if_neg hn]
        simp [Cursor.bitsUpTo]; omega
      · simp only at hlt
        rw [hl]
        rcases Nat.eq_or_lt_of_le hp with e | e
        · rw [InStream.bytesUpTo_of_ge (by omega)]; simp [unstuffBits]
        · rw [InStream.bytesUpTo_of_lt e, unstuffBits, if_pos h2, InStream.bytesUpTo_of_ge (by omega)]
          simp [unstuffBits]
      · rw [if_neg (by simp only; omega)]; rfl
    · rw [if_neg h2] at h
      simp only [if_neg h1, Except.ok.injEq, Prod.mk.injEq] at h
      obtain ⟨-, rfl⟩ := h
      refine ⟨by simp only; omega, fun p hp => ?_, fun p hp hlt => ?_, ?_⟩
      · simp only at hp
        rw [hl, InStream.bytesUpTo_of_lt (by omega), unstuffBits, if_neg h2]
        simp [Cursor.bitsUpTo]; omega
      · simp only at hlt
        rw [hl, InStream.bytesUpTo_of_ge (by omega)]; simp [unstuffBits]
      · simp
  · rw [if_neg h0] at h
    simp only [Except.ok.injEq, Prod.mk.injEq] at h
    obtain ⟨-, rfl⟩ := h
    refine ⟨le_refl _, fun p hp => ?_, fun p hp hlt => by simp only at hlt; omega, by simp⟩
    simp [Cursor.bitsUpTo]; omega

/-- Where reading takes a cursor: forward, not past INLEN, with at most a byte of bits left (spec/10_state.md R51), by some
number of bits. -/
structure Cursor.Reaches (m : InStream) (c c' : Cursor) : Prop where
  le    : c.pos ≤ c'.pos
  max   : c'.pos ≤ Nat.max c.pos m.len
  bits  : c'.bits ≤ Nat.max c.bits 8
  same  : c'.pos = c.pos → c'.bits ≤ c.bits
  takes : ∃ n, Cursor.Takes m n c c'

theorem Cursor.Reaches.refl (m : InStream) (c : Cursor) : Cursor.Reaches m c c :=
  ⟨le_refl _, Nat.le_max_left _ _, Nat.le_max_left _ _, fun _ => le_refl _, 0, .refl m c⟩

theorem Cursor.Reaches.trans {m : InStream} {a b c : Cursor} (h : Cursor.Reaches m a b) (k : Cursor.Reaches m b c) :
    Cursor.Reaches m a c := by
  have h1 := h.le; have h2 := h.max; have h3 := h.bits; have h4 := h.same
  have k1 := k.le; have k2 := k.max; have k3 := k.bits; have k4 := k.same
  obtain ⟨n, t⟩ := h.takes
  obtain ⟨l, u⟩ := k.takes
  simp only [Nat.max_def] at *
  refine ⟨by omega, ?_, ?_, fun e => ?_, n + l, t.trans u⟩
  · simp only [Nat.max_def]; split_ifs at * <;> omega
  · simp only [Nat.max_def]; split_ifs at * <;> omega
  · have := h4 (by omega); have := k4 (by omega); omega

/-- The number of bits taken is the number by which the stream is shorter. -/
theorem Cursor.Reaches.takes_length {m : InStream} {c c' : Cursor} (h : Cursor.Reaches m c c') {l : List Bool}
    (hs : streamBits m c = l ++ streamBits m c') : Cursor.Takes m l.length c c' := by
  obtain ⟨n, t⟩ := h.takes
  have hm := h.max
  have hle := h.le
  have e := congrArg List.length hs
  rw [List.length_append] at e
  have : n = l.length := by
    by_cases hp : c'.pos ≤ m.len
    · have := t.length m.len hp
      rw [bitsUpTo_len, bitsUpTo_len] at this
      omega
    · simp only [Nat.max_def] at hm
      have hpos : c'.pos = c.pos := by split_ifs at hm <;> omega
      have k := t.length c'.pos (le_refl _)
      have e1 : (streamBits m c).length = c.bits := by
        simp [streamBits, InStream.bytesFrom_of_ge (show m.len ≤ c.pos by omega), unstuffBits]
      have e2 : (streamBits m c').length = c'.bits := by
        simp [streamBits, InStream.bytesFrom_of_ge (show m.len ≤ c'.pos by omega), unstuffBits]
      rw [bitsUpTo_self, hpos, bitsUpTo_self] at k
      omega
  exact this ▸ t

theorem readBit_reaches {m : InStream} {c c' : Cursor} {b : Bool} (h : readBit m c = .ok (b, c')) :
    Cursor.Reaches m c c' := by
  have ht := readBit_takes h
  rcases readBit_spec m c with ⟨b', c'', h1, -, h3, h4, h5, h6⟩ | ⟨h1, -⟩
  · rw [h1] at h
    simp only [Except.ok.injEq, Prod.mk.injEq] at h
    obtain ⟨-, rfl⟩ := h
    refine ⟨h3, h4, ?_, fun e => (h6 e).le, 1, ht⟩
    simp only [Nat.max_def]; split_ifs <;> omega
  · rw [h1] at h; cases h

theorem readBits_reaches {m : InStream} {n v : Nat} {c c' : Cursor} {r : Nat} (h : readBits m n v c = .ok (r, c')) :
    Cursor.Reaches m c c' ∧ r < (v + 1) * 2 ^ n := by
  induction n generalizing v c with
  | zero =>
    simp only [readBits, Except.ok.injEq, Prod.mk.injEq] at h
    obtain ⟨rfl, rfl⟩ := h
    exact ⟨.refl _ _, by simp⟩
  | succ n ih =>
    simp only [readBits] at h
    split at h
    · cases h
    · rename_i b c1 h1
      obtain ⟨i1, i2⟩ := ih h
      refine ⟨(readBit_reaches h1).trans i1, i2.trans_le ?_⟩
      rw [pow_succ, Nat.mul_comm (2 ^ n) 2, ← Nat.mul_assoc]
      refine Nat.mul_le_mul_right _ ?_
      cases b <;> simp <;> omega

theorem decodeSymFrom_reaches {n : Nat} {t : Vector Slot n} {m : InStream} {i left l v y : Nat} {c c' : Cursor}
    (h : decodeSymFrom t m i left l v c = .ok (y, c')) : Cursor.Reaches m c c' ∧ y < n := by
  induction left generalizing l v c with
  | zero => simp [decodeSymFrom] at h
  | succ left ih =>
    simp only [decodeSymFrom] at h
    split at h
    · cases h
    · rename_i b c1 h1
      split at h
      · rename_i z hz
        simp only [Except.ok.injEq, Prod.mk.injEq] at h
        obtain ⟨rfl, rfl⟩ := h
        exact ⟨readBit_reaches h1, (findCode_some hz).1⟩
      · obtain ⟨i1, i2⟩ := ih h
        exact ⟨(readBit_reaches h1).trans i1, i2⟩

/-- A decoded symbol is one of the table's, whatever the stream and the table hold (spec/44_huffman.md R333). -/
theorem decodeSym_reaches {n : Nat} {t : Vector Slot n} {m : InStream} {i y : Nat} {c c' : Cursor}
    (h : decodeSym t m i c = .ok (y, c')) : Cursor.Reaches m c c' ∧ y < n := decodeSymFrom_reaches h

/-! ### DecodeSym's faults -/

/-- DecodeSym raises E_TRUNC when the stream ends within a code (spec/44_huffman.md R330, R333). -/
theorem decodeSymFrom_trunc {n : Nat} {t : Vector Slot n} (m : InStream) (i : Nat) (q : List Bool) :
    ∀ (p : List Bool) (left : Nat) (c : Cursor), q.length < left → streamBits m c = q →
      (∀ j, p.length < j → j ≤ p.length + q.length → findCode t j (bitsValue ((p ++ q).take j)) = none) →
      decodeSymFrom t m i left p.length (bitsValue p) c = .error (.num .trunc (max c.pos m.len)) := by
  induction q with
  | nil =>
    intro p left c hl hs _
    obtain ⟨k, rfl⟩ : ∃ k, left = k + 1 := ⟨left - 1, by simp at hl; omega⟩
    rcases readBit_spec m c with ⟨b, c', h1, h2, -⟩ | ⟨h1, -⟩
    · rw [hs] at h2; cases h2
    · simp only [decodeSymFrom, h1]
  | cons b q ih =>
    intro p left c hl hs hf
    obtain ⟨k, rfl⟩ : ∃ k, left = k + 1 := ⟨left - 1, by simp at hl; omega⟩
    have hbit : bitsValue p * 2 + b.toNat = bitsValue (p ++ [b]) := by rw [bitsValue_snoc]; ring
    rcases readBit_spec m c with ⟨b', c', h1, h2, h3, h4, -⟩ | ⟨h1, h2⟩
    · rw [hs, List.cons.injEq] at h2
      obtain ⟨hb, hs'⟩ := h2
      have htake : (p ++ b :: q).take (p.length + 1) = p ++ [b] := by rw [List.take_append]; simp
      have hnone := hf (p.length + 1) (by omega) (by simp)
      rw [htake] at hnone
      simp only [decodeSymFrom, h1, ← hb, hbit, hnone]
      have := ih (p ++ [b]) k c' (by simpa using hl) hs'.symm fun j j1 j2 => by
        simp only [List.length_append, List.length_singleton] at j1 j2
        simpa using hf j (by omega) (by simp; omega)
      rw [List.length_append, List.length_singleton] at this
      rw [this]
      congr 2; omega
    · rw [hs] at h2; cases h2

/-- DecodeSym raises E_UNRESOLVED when no length has a code (spec/44_huffman.md R333). -/
theorem decodeSymFrom_unresolved {n : Nat} {t : Vector Slot n} (m : InStream) (i : Nat) (q : List Bool) :
    ∀ (p : List Bool) (c : Cursor) (rest : List Bool), streamBits m c = q ++ rest →
      (∀ j, p.length < j → j ≤ p.length + q.length → findCode t j (bitsValue ((p ++ q).take j)) = none) →
      decodeSymFrom t m i q.length p.length (bitsValue p) c = .error (.num .unresolved i) := by
  induction q with
  | nil => intro p c rest _ _; rfl
  | cons b q ih =>
    intro p c rest hs hf
    have hbit : bitsValue p * 2 + b.toNat = bitsValue (p ++ [b]) := by rw [bitsValue_snoc]; ring
    rcases readBit_spec m c with ⟨b', c', h1, h2, h3, h4, -⟩ | ⟨h1, h2⟩
    · rw [hs, List.cons_append, List.cons.injEq] at h2
      obtain ⟨hb, hs'⟩ := h2
      have htake : (p ++ b :: q).take (p.length + 1) = p ++ [b] := by rw [List.take_append]; simp
      have hnone := hf (p.length + 1) (by omega) (by simp)
      rw [htake] at hnone
      simp only [List.length_cons, decodeSymFrom, h1, ← hb, hbit, hnone]
      have := ih (p ++ [b]) c' rest hs'.symm fun j j1 j2 => by
        simp only [List.length_append, List.length_singleton] at j1 j2
        simpa using hf j (by omega) (by simp; omega)
      rwa [List.length_append, List.length_singleton] at this
    · rw [hs] at h2; simp at h2

/-- A prefix of bits that a lookup finds is the code of its symbol. -/
theorem findCode_isPrefix {n : Nat} {t : Vector Slot n} {l : List Bool} {j y : Nat} (hj : j ≤ l.length) (hpos : 0 < j)
    (h : findCode t j (bitsValue (l.take j)) = some y) : (slotAt t y).len ≠ 0 ∧ codeBits (slotAt t y) <+: l := by
  obtain ⟨hy, h1, h2⟩ := findCode_some h
  have e : slotAt t y = t[y] := by simp [slotAt, hy]
  rw [e]
  refine ⟨fun h0 => by rw [h0] at h1; simp at h1; omega, ?_⟩
  have hl : (l.take j).length = j := by simp [hj]
  have : codeBits t[y] = l.take j := by
    have := msbBits_bitsValue (l.take j)
    rw [hl] at this
    rw [codeBits, h1, h2, this]
  rw [this]
  exact List.take_prefix j l

/-- DecodeSym raises E_UNRESOLVED when 16 bits begin with no code (spec/44_huffman.md R333). -/
theorem decodeSym_unresolved {n : Nat} {t : Vector Slot n} (m : InStream) (i : Nat) (c : Cursor)
    (hl : 16 ≤ (streamBits m c).length) (hn : ∀ y : Nat, (slotAt t y).len ≠ 0 → ¬ codeBits (slotAt t y) <+: streamBits m c) :
    decodeSym t m i c = .error (.num .unresolved i) := by
  have hq : ((streamBits m c).take 16).length = 16 := by simp [hl]
  have := decodeSymFrom_unresolved (t := t) m i ((streamBits m c).take 16) [] c ((streamBits m c).drop 16) (by simp)
    fun j j1 j2 => by
      rw [hq] at j2
      simp only [List.length_nil, Nat.zero_add] at j1 j2
      cases hf : findCode t j (bitsValue (([] ++ (streamBits m c).take 16).take j)) with
      | none => rfl
      | some y =>
        rw [List.nil_append] at hf
        obtain ⟨k1, k2⟩ := findCode_isPrefix (by omega) j1 hf
        exact (hn y k1 (k2.trans (List.take_prefix _ _))).elim
  rw [hq] at this
  exact this

/-- DecodeSym raises E_TRUNC when fewer than 16 bits are left and begin with no code (spec/44_huffman.md R330, R333). -/
theorem decodeSym_short {n : Nat} {t : Vector Slot n} (m : InStream) (i : Nat) (c : Cursor)
    (hl : (streamBits m c).length < 16)
    (hn : ∀ y : Nat, (slotAt t y).len ≠ 0 → ¬ codeBits (slotAt t y) <+: streamBits m c) :
    decodeSym t m i c = .error (.num .trunc (max c.pos m.len)) := by
  refine decodeSymFrom_trunc m i (streamBits m c) [] 16 c hl rfl fun j j1 j2 => ?_
  simp only [List.length_nil, Nat.zero_add, List.nil_append] at j1 j2 ⊢
  cases hf : findCode t j (bitsValue ((streamBits m c).take j)) with
  | none => rfl
  | some y =>
    obtain ⟨k1, k2⟩ := findCode_isPrefix j2 j1 hf
    exact (hn y k1 k2).elim

/-- DecodeSym raises E_TRUNC when the stream is a proper beginning of a code (spec/44_huffman.md R330, R333). -/
theorem decodeSym_trunc {n : Nat} {t : Vector Slot n} (ht : tableLegal t) (m : InStream) (i : Nat) {y : Nat}
    (hl : (slotAt t y).len ≠ 0) (c : Cursor) (more : List Bool) (hm : more ≠ [])
    (hs : streamBits m c ++ more = codeBits (slotAt t y)) :
    decodeSym t m i c = .error (.num .trunc (max c.pos m.len)) := by
  obtain ⟨hy, e⟩ := slotAt_coded hl
  rw [e] at hl hs
  have hcl : (codeBits t[y]).length = t[y].len.toNat := by simp [codeBits]
  have h16 : t[y].len.toNat ≤ 16 := (ht.1 ⟨y, hy⟩).1
  have hml := List.length_pos_iff.mpr hm
  have hlen : (streamBits m c).length + more.length = t[y].len.toNat := by rw [← hcl, ← hs, List.length_append]
  refine decodeSymFrom_trunc m i (streamBits m c) [] 16 c (by omega) rfl fun j j1 j2 => ?_
  simp only [List.length_nil, Nat.zero_add] at j1 j2
  have : ([] ++ streamBits m c).take j = (codeBits t[y]).take j := by
    rw [← hs, List.nil_append, List.take_append_of_le_length j2]
  rw [this]
  exact findCode_prefix ht hy j1 (by omega)

end Sys2Proof.Machine
end

