-- ==== Sys2Proof/Laws/Hdec.lean ====
section
/-! SUPPORT. What HDEC's loop over the AC symbols does: the well-formed symbols that stand next in the stream, the faults,
and the form of whatever it decodes (spec/44_huffman.md R335, R336). -/

namespace Sys2Proof.Machine

/-- Symbols decoded before the result of the rest of the loop. -/
def prependSyms (l : List Sym) : Except CmdFault (List Sym × Cursor) → Except CmdFault (List Sym × Cursor)
  | .error f => .error f
  | .ok (out, c) => .ok (l ++ out, c)

@[simp] theorem prependSyms_nil (r : Except CmdFault (List Sym × Cursor)) : prependSyms [] r = r := by
  rcases r with _ | ⟨_, _⟩ <;> rfl

@[simp] theorem prependSyms_prependSyms (l k : List Sym) (r : Except CmdFault (List Sym × Cursor)) :
    prependSyms l (prependSyms k r) = prependSyms (l ++ k) r := by
  rcases r with _ | ⟨_, _⟩ <;> simp [prependSyms]

@[simp] theorem prependSyms_error (l : List Sym) (f : CmdFault) : prependSyms l (.error f) = .error f := rfl
@[simp] theorem prependSyms_ok (l out : List Sym) (c : Cursor) : prependSyms l (.ok (out, c)) = .ok (l ++ out, c) := rfl

/-- An AC symbol is not EOB. -/
theorem Sym.isAc.ne_eob {y : Sym} (h : y.isAc) : y ≠ Sym.eob := fun e => h.2.1 (by rw [e]; rfl)

theorem Sym.isAc.size_bounds {y : Sym} (h : y.isAc) : 1 ≤ y.size ∧ y.size ≤ 15 := by
  obtain ⟨-, h1, h2, h3⟩ := h
  rw [h3]
  have hz : y.amp.natAbs ≠ 0 := by omega
  refine ⟨Nat.lt_size.mpr (by rw [pow_zero]; omega), Nat.size_le.mpr ?_⟩
  have := abs_le.mp h2
  omega

/-! ### One turn -/

/-- ZRLs carry their zeros over (spec/44_huffman.md R335). -/
theorem hdecAc_zrls {a : Vector Slot 256} (ha : tableLegal a) (m : InStream) (i pos k : Nat)
    (hz : 1 ≤ k → (slotAt a 0xF0).len ≠ 0) :
    ∀ (turns run : Nat) (c : Cursor) (rest : List Bool), 64 ≤ turns + pos + run → pos < 63 →
      pos + (run + 16 * k) ≤ 63 → streamBits m c = zrlBits (slotAt a) k ++ rest →
      ∃ turns' c', 64 ≤ turns' + pos + (run + 16 * k) ∧ streamBits m c' = rest ∧ c.pos ≤ c'.pos ∧
        c'.pos ≤ max c.pos m.len ∧ hdecAc a m turns i pos run c = hdecAc a m turns' i pos (run + 16 * k) c' := by
  induction k with
  | zero =>
    intro turns run c rest h1 _ _ h3
    exact ⟨turns, c, by omega, by simpa [zrlBits] using h3, le_refl _, by omega, by simp⟩
  | succ k ih =>
    intro turns run c rest h1 hpos h2 h3
    obtain ⟨t, rfl⟩ : ∃ t, turns = t + 1 := ⟨turns - 1, by omega⟩
    have hl := hz (by omega)
    obtain ⟨hy, e⟩ := slotAt_coded hl
    rw [e] at hl
    rw [zrlBits, List.replicate_succ, List.flatten_cons, List.append_assoc, e] at h3
    obtain ⟨c1, d1, d2, d3, d4⟩ := decodeSym_ok ha m i hy hl c _ h3
    rw [← e] at d2
    obtain ⟨t', c', k1, k2, k3, k4, k5⟩ :=
      ih (fun _ => hz (by omega)) t (run + 16) c1 rest (by omega) hpos (by omega) d2
    refine ⟨t', c', by omega, k2, by omega, by omega, ?_⟩
    have e2 : run + 16 * (k + 1) = run + 16 + 16 * k := by ring
    rw [e2, ← k5]
    conv_lhs => unfold hdecAc
    rw [if_neg (by omega), d1]
    simp only
    rw [if_pos (by norm_num), if_neg (by norm_num), if_pos (by norm_num), if_neg (by omega)]

/-- The code and the amplitude field of an AC symbol with `run` zeros carried over (spec/44_huffman.md R335). -/
theorem hdecAc_coef {a : Vector Slot 256} (ha : tableLegal a) (m : InStream) (turns i pos run r : Nat) (x : Int)
    (n : Nat) (hr : r < 16) (hn : 1 ≤ n ∧ n ≤ 15) (hx : x.natAbs.size = n) (hl : (slotAt a (r * 16 + n)).len ≠ 0)
    (hp : pos + (run + r) + 1 ≤ 63) (c : Cursor) (rest : List Bool)
    (hs : streamBits m c = codeBits (slotAt a (r * 16 + n)) ++ ampField x n ++ rest) :
    ∃ c', streamBits m c' = rest ∧ c.pos ≤ c'.pos ∧ c'.pos ≤ max c.pos m.len ∧
      hdecAc a m (turns + 1) i pos run c =
        prependSyms [⟨((run + r : Nat) : Int), n, x⟩] (hdecAc a m turns (i + 1) (pos + (run + r) + 1) 0 c') := by
  obtain ⟨hy, e⟩ := slotAt_coded hl
  rw [List.append_assoc, e] at hs
  rw [e] at hl
  obtain ⟨c1, d1, d2, d3, d4⟩ := decodeSym_ok ha m i hy hl c _ hs
  obtain ⟨c2, r1, r2, r3, r4⟩ := readBits_ok m (ampField x n) 0 c1 rest d2
  rw [ampField_length, Nat.zero_mul, Nat.zero_add] at r1
  refine ⟨c2, r2, by omega, by omega, ?_⟩
  have q1 : (r * 16 + n) % 16 = n := by omega
  have q2 : (r * 16 + n) / 16 = r := by omega
  conv_lhs => unfold hdecAc
  rw [if_neg (by omega), d1]
  simp only [q1, q2]
  rw [if_neg (by omega), if_neg (by omega), r1]
  simp only [extend_ampField hx]
  cases hdecAc a m turns (i + 1) (pos + (run + r) + 1) 0 c2 with
  | error f => rfl
  | ok p => rfl

/-- An AC symbol that stands next is decoded (spec/44_huffman.md R335). -/
theorem hdecAc_sym {a : Vector Slot 256} (ha : tableLegal a) (m : InStream) (turns i pos : Nat) {z : Sym} (hz : z.isAc)
    (hc : acCoded (slotAt a) z) (hp : pos + z.run.toNat + 1 ≤ 63) (ht : 64 ≤ turns + pos) (c : Cursor) (rest : List Bool)
    (hs : streamBits m c = acSymBits (slotAt a) z ++ rest) :
    ∃ turns' c', 64 ≤ turns' + (pos + z.run.toNat + 1) ∧ streamBits m c' = rest ∧ c.pos ≤ c'.pos ∧
      c'.pos ≤ max c.pos m.len ∧
      hdecAc a m turns i pos 0 c = prependSyms [z] (hdecAc a m turns' (i + 1) (pos + z.run.toNat + 1) 0 c') := by
  have hne := hz.ne_eob
  obtain ⟨s1, s2⟩ := hz.size_bounds
  rw [acCoded, if_neg hne] at hc
  rw [acSymBits, if_neg hne, List.append_assoc, List.append_assoc, ← List.append_assoc (codeBits _)] at hs
  have hr0 : (z.run.toNat : Int) = z.run := Int.toNat_of_nonneg hz.1
  obtain ⟨t', c1, k1, k2, k3, k4, k5⟩ := hdecAc_zrls ha m i pos (z.run.toNat / 16)
    (fun h => hc.1 (by omega)) turns 0 c _ (by omega) (by omega) (by omega) hs
  obtain ⟨t, rfl⟩ : ∃ t, t' = t + 1 := ⟨t' - 1, by omega⟩
  obtain ⟨c2, j1, j2, j3, j4⟩ := hdecAc_coef ha m t i pos (0 + 16 * (z.run.toNat / 16)) (z.run.toNat % 16) z.amp z.size
    (by omega) ⟨s1, s2⟩ hz.2.2.2.symm hc.2 (by omega) c1 rest k2
  have e : 0 + 16 * (z.run.toNat / 16) + z.run.toNat % 16 = z.run.toNat := by omega
  rw [e] at j4
  refine ⟨t, c2, by omega, j1, by omega, by omega, ?_⟩
  rw [k5, j4, hr0]

/-- AC symbols that stand next are decoded (spec/44_huffman.md R335). -/
theorem hdecAc_list {a : Vector Slot 256} (ha : tableLegal a) (m : InStream) (l : List Sym) :
    ∀ (turns i pos : Nat) (c : Cursor) (rest : List Bool), (∀ z ∈ l, z.isAc ∧ acCoded (slotAt a) z) →
      pos + acPositions l ≤ 63 → 64 ≤ turns + pos → streamBits m c = l.flatMap (acSymBits (slotAt a)) ++ rest →
      ∃ turns' c', 64 ≤ turns' + (pos + acPositions l) ∧ streamBits m c' = rest ∧ c.pos ≤ c'.pos ∧
        c'.pos ≤ max c.pos m.len ∧
        hdecAc a m turns i pos 0 c = prependSyms l (hdecAc a m turns' (i + l.length) (pos + acPositions l) 0 c') := by
  induction l with
  | nil =>
    intro turns i pos c rest _ _ h3 h4
    exact ⟨turns, c, by simpa [acPositions] using h3, by simpa using h4, le_refl _, by omega, by simp [acPositions]⟩
  | cons z l ih =>
    intro turns i pos c rest h1 h2 h3 h4
    have ep : acPositions (z :: l) = z.run.toNat + 1 + acPositions l := by simp [acPositions]
    rw [ep] at h2 ⊢
    rw [List.flatMap_cons, List.append_assoc] at h4
    obtain ⟨hz, hc⟩ := h1 z (by simp)
    obtain ⟨t1, c1, k1, k2, k3, k4, k5⟩ := hdecAc_sym ha m turns i pos hz hc (by omega) h3 c _ h4
    obtain ⟨t2, c2, j1, j2, j3, j4, j5⟩ :=
      ih t1 (i + 1) (pos + z.run.toNat + 1) c1 rest (fun x hx => h1 x (by simp [hx])) (by omega) (by omega) k2
    refine ⟨t2, c2, by omega, j2, by omega, by omega, ?_⟩
    rw [k5, j5, prependSyms_prependSyms]
    have e1 : i + 1 + l.length = i + (z :: l).length := by simp; omega
    have e2 : pos + z.run.toNat + 1 + acPositions l = pos + (z.run.toNat + 1 + acPositions l) := by omega
    rw [e1, e2]; rfl

/-- The loop ends when every position is filled. -/
theorem hdecAc_full (a : Vector Slot 256) (m : InStream) (turns i run : Nat) (c : Cursor) (ht : 1 ≤ turns) :
    hdecAc a m turns i 63 run c = .ok ([], c) := by
  obtain ⟨t, rfl⟩ : ∃ t, turns = t + 1 := ⟨turns - 1, by omega⟩
  unfold hdecAc; simp

/-- The loop ends at EOB (spec/44_huffman.md R335). -/
theorem hdecAc_eob {a : Vector Slot 256} (ha : tableLegal a) (m : InStream) (turns i pos run : Nat) (ht : 1 ≤ turns)
    (hp : pos < 63) (hl : (slotAt a 0x00).len ≠ 0) (c : Cursor) (rest : List Bool)
    (hs : streamBits m c = codeBits (slotAt a 0x00) ++ rest) :
    ∃ c', streamBits m c' = rest ∧ c.pos ≤ c'.pos ∧ c'.pos ≤ max c.pos m.len ∧
      hdecAc a m turns i pos run c = .ok ([Sym.eob], c') := by
  obtain ⟨t, rfl⟩ : ∃ t, turns = t + 1 := ⟨turns - 1, by omega⟩
  obtain ⟨hy, e⟩ := slotAt_coded hl
  rw [e] at hl hs
  obtain ⟨c1, d1, d2, d3, d4⟩ := decodeSym_ok ha m i hy hl c _ hs
  refine ⟨c1, d2, d3, d4, ?_⟩
  unfold hdecAc
  rw [if_neg (by omega), d1]
  simp

/-! ### Whole blocks -/

/-- A block that stands next in the stream is decoded, and exactly its bits are taken (spec/44_huffman.md R335). -/
theorem hdecSyms_ok {d : Vector Slot 12} {a : Vector Slot 256} (hd : tableLegal d) (ha : tableLegal a) (m : InStream)
    {l : List Sym} (hw : symsWellFormed l) (hc : blockCoded (slotAt d) (slotAt a) l) (c : Cursor) (rest : List Bool)
    (hs : streamBits m c = blockBits (slotAt d) (slotAt a) l ++ rest) :
    ∃ c', hdecSyms d a m c = .ok (l, c') ∧ streamBits m c' = rest := by
  obtain ⟨y, ac, rfl, hy, hform⟩ := hw
  obtain ⟨y', ac', he, hdc, hac⟩ := hc
  obtain ⟨rfl, rfl⟩ := List.cons.inj he
  rw [blockBits, dcSymBits, List.append_assoc, List.append_assoc] at hs
  obtain ⟨hlt, e⟩ := slotAt_coded hdc
  rw [e] at hdc hs
  obtain ⟨c1, d1, d2, -, -⟩ := decodeSym_ok hd m 0 hlt hdc c _ hs
  obtain ⟨c2, r1, r2, -, -⟩ := readBits_ok m (ampField y.amp y.size) 0 c1 _ d2
  rw [ampField_length, Nat.zero_mul, Nat.zero_add] at r1
  have hrest : ∃ c', hdecAc a m 64 1 0 0 c2 = .ok (ac, c') ∧ streamBits m c' = rest := by
    rcases hform with ⟨h1, h2⟩ | ⟨pre, rfl, h1, h2⟩
    · obtain ⟨t, c3, k1, k2, -, -, k3⟩ :=
        hdecAc_list ha m ac 64 1 0 c2 rest (fun z hz => ⟨h1 z hz, hac z hz⟩) (by omega) (by omega) r2
      rw [h2, Nat.zero_add, hdecAc_full a m t _ 0 c3 (by omega)] at k3
      exact ⟨c3, by simpa using k3, k2⟩
    · rw [List.flatMap_append, List.append_assoc] at r2
      obtain ⟨t, c3, k1, k2, -, -, k3⟩ :=
        hdecAc_list ha m pre 64 1 0 c2 _ (fun z hz => ⟨h1 z hz, hac z (by simp [hz])⟩) (by omega) (by omega) r2
      have he : (slotAt a 0x00).len ≠ 0 := by
        have := hac Sym.eob (by simp)
        rwa [acCoded, if_pos rfl] at this
      have k2' : streamBits m c3 = codeBits (slotAt a 0x00) ++ rest := by
        rw [k2]; simp [acSymBits]
      obtain ⟨c4, j1, -, -, j2⟩ := hdecAc_eob ha m t (1 + pre.length) (0 + acPositions pre) 0 (by omega) (by omega) he c3 rest k2'
      rw [j2] at k3
      exact ⟨c4, by simpa using k3, j1⟩
  obtain ⟨c3, k1, k2⟩ := hrest
  refine ⟨c3, ?_, k2⟩
  simp only [hdecSyms, d1, r1, k1, extend_ampField hy.2.2.symm]
  rw [← hy.1]

/-! ### Streams that end within a block -/

/-- A stream that ends before `b ++ c` does: after `b`, or within it. -/
theorem append_split {a more b c : List Bool} (h : a ++ more = b ++ c) :
    (∃ x, a = b ++ x ∧ x ++ more = c) ∨ ∃ y, y ≠ [] ∧ a ++ y = b := by
  rcases List.append_eq_append_iff.mp h with ⟨x, h1, h2⟩ | ⟨x, h1, h2⟩
  · by_cases hx : x = []
    · subst hx
      exact .inl ⟨[], by simpa using h1.symm, by simpa using h2⟩
    · exact .inr ⟨x, hx, h1.symm⟩
  · exact .inl ⟨x, h1, h2.symm⟩

/-- E_TRUNC within an AC symbol (spec/44_huffman.md R330, R335). -/
theorem hdecAc_trunc_coef {a : Vector Slot 256} (ha : tableLegal a) (m : InStream) (i pos r : Nat) (x : Int) (n : Nat)
    (hr : r < 16) (hn : 1 ≤ n ∧ n ≤ 15) (hl : (slotAt a (r * 16 + n)).len ≠ 0) (more : List Bool) (hm : more ≠ [])
    (k : Nat) (hz : 1 ≤ k → (slotAt a 0xF0).len ≠ 0) :
    ∀ (turns run : Nat) (c : Cursor), 64 ≤ turns + pos + run → pos + (run + 16 * k + r) + 1 ≤ 63 →
      streamBits m c ++ more =
        zrlBits (slotAt a) k ++ (codeBits (slotAt a (r * 16 + n)) ++ ampField x n) →
      hdecAc a m turns i pos run c = .error (.num .trunc (max c.pos m.len)) := by
  induction k with
  | zero =>
    intro turns run c h1 h2 h3
    obtain ⟨t, rfl⟩ : ∃ t, turns = t + 1 := ⟨turns - 1, by omega⟩
    unfold hdecAc
    rw [if_neg (by omega)]
    simp only [zrlBits, List.replicate_zero, List.flatten_nil, List.nil_append] at h3
    rcases append_split h3 with ⟨y, e1, e2⟩ | ⟨y, e1, e2⟩
    · obtain ⟨hy, e⟩ := slotAt_coded hl
      rw [e] at e1 hl
      obtain ⟨c1, d1, d2, d3, d4⟩ := decodeSym_ok ha m i hy hl c _ e1
      have q1 : (r * 16 + n) % 16 = n := by omega
      have q2 : (r * 16 + n) / 16 = r := by omega
      have hlen : (streamBits m c1).length < n := by
        have := congrArg List.length e2
        have := List.length_pos_iff.mpr hm
        rw [d2]
        simp only [List.length_append, ampField_length] at *
        omega
      rw [d1]
      simp only [q1, q2]
      rw [if_neg (by omega), if_neg (by omega), readBits_trunc m n 0 c1 hlen]
      simp only
      congr 2; omega
    · rw [decodeSym_trunc ha m i hl c y e1 e2]
  | succ k ih =>
    intro turns run c h1 h2 h3
    obtain ⟨t, rfl⟩ : ∃ t, turns = t + 1 := ⟨turns - 1, by omega⟩
    have hl0 := hz (by omega)
    unfold hdecAc
    rw [if_neg (by omega)]
    rw [zrlBits, List.replicate_succ, List.flatten_cons, List.append_assoc] at h3
    rcases append_split h3 with ⟨y, e1, e2⟩ | ⟨y, e1, e2⟩
    · obtain ⟨hy, e⟩ := slotAt_coded hl0
      rw [e] at e1 hl0
      obtain ⟨c1, d1, d2, d3, d4⟩ := decodeSym_ok ha m i hy hl0 c _ e1
      rw [d1]
      simp only
      rw [if_pos (by norm_num), if_neg (by norm_num), if_pos (by norm_num), if_neg (by omega)]
      rw [ih (fun _ => hz (by omega)) t (run + 16) c1 (by omega) (by omega) (by rw [d2, e2, zrlBits])]
      congr 2; omega
    · rw [decodeSym_trunc ha m i hl0 c y e1 e2]

theorem hdecAc_trunc_sym {a : Vector Slot 256} (ha : tableLegal a) (m : InStream) (turns i pos : Nat) {z : Sym}
    (hz : z.isAc) (hc : acCoded (slotAt a) z) (hp : pos + z.run.toNat + 1 ≤ 63) (ht : 64 ≤ turns + pos) (c : Cursor)
    (more : List Bool) (hm : more ≠ []) (hs : streamBits m c ++ more = acSymBits (slotAt a) z) :
    hdecAc a m turns i pos 0 c = .error (.num .trunc (max c.pos m.len)) := by
  have hne := hz.ne_eob
  have hr0 := hz.1
  rw [acCoded, if_neg hne] at hc
  rw [acSymBits, if_neg hne, List.append_assoc] at hs
  exact hdecAc_trunc_coef ha m i pos (z.run.toNat % 16) z.amp z.size (by omega) hz.size_bounds hc.2 more hm
    (z.run.toNat / 16) (fun h => hc.1 (by omega)) turns 0 c (by omega) (by omega) hs

/-- E_TRUNC within the AC symbols of a block (spec/44_huffman.md R330, R335). -/
theorem hdecAc_trunc {a : Vector Slot 256} (ha : tableLegal a) (m : InStream) (more : List Bool) (hm : more ≠ [])
    (l : List Sym) :
    ∀ (turns i pos : Nat) (c : Cursor), (∀ z ∈ l, acCoded (slotAt a) z) →
      ((∀ z ∈ l, z.isAc) ∧ pos + acPositions l = 63 ∨
        ∃ pre, l = pre ++ [Sym.eob] ∧ (∀ z ∈ pre, z.isAc) ∧ pos + acPositions pre < 63) →
      64 ≤ turns + pos → streamBits m c ++ more = l.flatMap (acSymBits (slotAt a)) →
      hdecAc a m turns i pos 0 c = .error (.num .trunc (max c.pos m.len)) := by
  induction l with
  | nil =>
    intro turns i pos c _ _ _ h
    simp at h
    exact absurd h.2 hm
  | cons z l ih =>
    intro turns i pos c h1 h2 h3 h4
    rw [List.flatMap_cons] at h4
    have ep : ∀ k : List Sym, acPositions (z :: k) = z.run.toNat + 1 + acPositions k := by intro k; simp [acPositions]
    by_cases he : z = Sym.eob
    · subst he
      have hl : l = [] := by
        rcases h2 with ⟨k1, -⟩ | ⟨pre, k1, k2, -⟩
        · exact absurd rfl (k1 Sym.eob (by simp)).ne_eob
        · cases pre with
          | nil => simpa using k1
          | cons y pre =>
            have := (List.cons.inj k1).1
            exact absurd this.symm (k2 y (by simp)).ne_eob
      have hpos : pos < 63 := by
        rcases h2 with ⟨k1, -⟩ | ⟨pre, k1, k2, k3⟩
        · exact absurd rfl (k1 Sym.eob (by simp)).ne_eob
        · omega
      subst hl
      have hc := h1 Sym.eob (by simp)
      rw [acCoded, if_pos rfl] at hc
      obtain ⟨t, rfl⟩ : ∃ t, turns = t + 1 := ⟨turns - 1, by omega⟩
      have hs : streamBits m c ++ more = codeBits (slotAt a 0x00) := by simpa [acSymBits] using h4
      unfold hdecAc
      rw [if_neg (by omega), decodeSym_trunc ha m i hc c more hm hs]
    · have hz : z.isAc ∧ pos + z.run.toNat + 1 ≤ 63 ∧ ((∀ y ∈ l, y.isAc) ∧ pos + z.run.toNat + 1 + acPositions l = 63 ∨
          ∃ pre, l = pre ++ [Sym.eob] ∧ (∀ y ∈ pre, y.isAc) ∧ pos + z.run.toNat + 1 + acPositions pre < 63) := by
        rcases h2 with ⟨k1, k2⟩ | ⟨pre, k1, k2, k3⟩
        · rw [ep] at k2
          exact ⟨k1 z (by simp), by omega, .inl ⟨fun y hy => k1 y (by simp [hy]), by omega⟩⟩
        · cases pre with
          | nil => exact absurd (by simpa using (List.cons.inj k1).1) he
          | cons y pre =>
            obtain ⟨rfl, rfl⟩ := List.cons.inj k1
            rw [ep] at k3
            exact ⟨k2 z (by simp), by omega, .inr ⟨pre, rfl, fun y hy => k2 y (by simp [hy]), by omega⟩⟩
      obtain ⟨z1, z2, z3⟩ := hz
      rcases append_split h4 with ⟨x, e1, e2⟩ | ⟨y, e1, e2⟩
      · obtain ⟨t, c1, d1, d2, d3, d4, d5⟩ := hdecAc_sym ha m turns i pos z1 (h1 z (by simp)) z2 h3 c _ e1
        rw [d5, ih t (i + 1) _ c1 (fun y hy => h1 y (by simp [hy])) z3 d1 (by rw [d2, e2]), prependSyms_error]
        congr 2; omega
      · exact hdecAc_trunc_sym ha m turns i pos z1 (h1 z (by simp)) z2 h3 c y e1 e2

/-- E_TRUNC when the stream ends within a well-formed block (spec/44_huffman.md R330, R335). -/
theorem hdecSyms_trunc {d : Vector Slot 12} {a : Vector Slot 256} (hd : tableLegal d) (ha : tableLegal a) (m : InStream)
    {l : List Sym} (hw : symsWellFormed l) (hc : blockCoded (slotAt d) (slotAt a) l) (c : Cursor) (more : List Bool)
    (hm : more ≠ []) (hs : streamBits m c ++ more = blockBits (slotAt d) (slotAt a) l) :
    hdecSyms d a m c = .error (.num .trunc (max c.pos m.len)) := by
  obtain ⟨y, ac, rfl, hy, hform⟩ := hw
  obtain ⟨y', ac', he, hdc, hac⟩ := hc
  obtain ⟨rfl, rfl⟩ := List.cons.inj he
  rw [blockBits, dcSymBits, List.append_assoc] at hs
  unfold hdecSyms
  rcases append_split hs with ⟨x, e1, e2⟩ | ⟨x, e1, e2⟩
  · obtain ⟨hlt, e⟩ := slotAt_coded hdc
    rw [e] at hdc e1
    obtain ⟨c1, d1, d2, d3, d4⟩ := decodeSym_ok hd m 0 hlt hdc c _ e1
    rw [← d2] at e2
    rw [d1]
    simp only
    rcases append_split e2 with ⟨u, f1, f2⟩ | ⟨u, f1, f2⟩
    · obtain ⟨c2, r1, r2, r3, r4⟩ := readBits_ok m (ampField y.amp y.size) 0 c1 _ f1
      rw [ampField_length, Nat.zero_mul, Nat.zero_add] at r1
      rw [r1]
      simp only
      rw [hdecAc_trunc ha m more hm ac 64 1 0 c2 hac (by simpa using hform) (by omega) (by rw [r2, f2])]
      simp only
      congr 2; omega
    · have hlen : (streamBits m c1).length < y.size := by
        have := congrArg List.length f2
        have := List.length_pos_iff.mpr f1
        simp only [List.length_append, ampField_length] at *
        omega
      rw [readBits_trunc m _ 0 c1 hlen]
      simp only
      congr 2; omega
  · rw [decodeSym_trunc hd m 0 hdc c x e1 e2]

/-- A DC symbol, AC symbols that leave a position free, and k ZRLs stand next: the loop goes on after them with the ZRLs'
zeros carried over (spec/44_huffman.md R335). -/
theorem hdecSyms_prefix {d : Vector Slot 12} {a : Vector Slot 256} (hd : tableLegal d) (ha : tableLegal a) (m : InStream)
    {y : Sym} {pre : List Sym} {k : Nat} (hy : y.isDc) (hdc : (slotAt d y.size).len ≠ 0)
    (hpre : ∀ z ∈ pre, z.isAc ∧ acCoded (slotAt a) z) (hp : acPositions pre < 63)
    (hz : 1 ≤ k → (slotAt a 0xF0).len ≠ 0) (hk : acPositions pre + 16 * k ≤ 63) (c : Cursor) (rest : List Bool)
    (hs : streamBits m c = blockBits (slotAt d) (slotAt a) (y :: pre) ++ zrlBits (slotAt a) k ++ rest) :
    ∃ t c', streamBits m c' = rest ∧ c.pos ≤ c'.pos ∧ c'.pos ≤ max c.pos m.len ∧
      hdecSyms d a m c = prependSyms (y :: pre) (hdecAc a m (t + 1) (pre.length + 1) (acPositions pre) (16 * k) c') := by
  rw [blockBits, dcSymBits, List.append_assoc, List.append_assoc, List.append_assoc] at hs
  obtain ⟨hlt, e⟩ := slotAt_coded hdc
  rw [e] at hdc hs
  obtain ⟨c1, d1, d2, d3, d4⟩ := decodeSym_ok hd m 0 hlt hdc c _ hs
  obtain ⟨c2, r1, r2, r3, r4⟩ := readBits_ok m (ampField y.amp y.size) 0 c1 _ d2
  rw [ampField_length, Nat.zero_mul, Nat.zero_add] at r1
  obtain ⟨t1, c3, k1, k2, k3, k4, k5⟩ := hdecAc_list ha m pre 64 1 0 c2 _ hpre (by omega) (by omega) r2
  obtain ⟨t2, c4, j1, j2, j3, j4, j5⟩ := hdecAc_zrls ha m (1 + pre.length) (0 + acPositions pre) k hz t1 0 c3 rest
    (by omega) (by omega) (by omega) k2
  obtain ⟨t, rfl⟩ : ∃ t, t2 = t + 1 := ⟨t2 - 1, by omega⟩
  refine ⟨t, c4, j2, by omega, by omega, ?_⟩
  have hy' : (⟨-1, y.size, extend (bitsValue (ampField y.amp y.size)) y.size⟩ : Sym) = y := by
    rw [extend_ampField hy.2.2.symm, ← hy.1]
  simp only [hdecSyms, d1, r1, k5, j5, hy']
  rw [Nat.zero_add, Nat.zero_add, Nat.add_comm 1]
  rcases hdecAc a m (t + 1) (pre.length + 1) (acPositions pre) (16 * k) c4 with _ | ⟨_, _⟩ <;> rfl

/-- A block that HDEC reads, with or without ZRLs before its EOB, is decoded, and exactly its bits are taken
(spec/44_huffman.md R335). -/
theorem hdecSyms_reads {d : Vector Slot 12} {a : Vector Slot 256} (hd : tableLegal d) (ha : tableLegal a) (m : InStream)
    {l : List Sym} {bits : List Bool} (hw : symsWellFormed l) (hc : blockCoded (slotAt d) (slotAt a) l)
    (hb : readsAsBlock (slotAt d) (slotAt a) l bits) (c : Cursor) (rest : List Bool) (hs : streamBits m c = bits ++ rest) :
    ∃ c', hdecSyms d a m c = .ok (l, c') ∧ streamBits m c' = rest := by
  rcases hb with rfl | ⟨y, pre, k, rfl, hz, hk, rfl⟩
  · exact hdecSyms_ok hd ha m hw hc c rest hs
  · obtain ⟨y', ac, e, hy, hform⟩ := hw
    obtain ⟨rfl, rfl⟩ := List.cons.inj e
    obtain ⟨y', ac, e, hdc, hac⟩ := hc
    obtain ⟨rfl, rfl⟩ := List.cons.inj e
    obtain ⟨hpre, hp⟩ : (∀ z ∈ pre, z.isAc) ∧ acPositions pre < 63 := by
      rcases hform with ⟨h1, -⟩ | ⟨pre', e, h1, h2⟩
      · exact absurd rfl (h1 Sym.eob (by simp)).ne_eob
      · obtain rfl := List.append_cancel_right e
        exact ⟨h1, h2⟩
    have he : (slotAt a 0x00).len ≠ 0 := by
      have := hac Sym.eob (by simp)
      rwa [acCoded, if_pos rfl] at this
    rw [List.append_assoc] at hs
    obtain ⟨t, c1, k1, -, -, k2⟩ := hdecSyms_prefix hd ha m hy hdc (fun z h => ⟨hpre z h, hac z (by simp [h])⟩) hp hz hk c
      _ hs
    obtain ⟨c2, j1, -, -, j2⟩ := hdecAc_eob ha m (t + 1) (pre.length + 1) (acPositions pre) (16 * k) (by omega) hp he c1
      rest k1
    exact ⟨c2, by rw [k2, j2]; simp, j1⟩

/-! ### Whatever the stream holds -/

/-- An n-bit field extends to an amplitude of size n (spec/44_huffman.md R332). -/
theorem extend_size {v n : Nat} (h : v < 2 ^ n) : n = (extend v n).natAbs.size := by
  have key : ∀ w : Nat, w < 2 ^ n → (1 ≤ n → 2 ^ (n - 1) ≤ w) → n = w.size := by
    intro w h1 h2
    refine le_antisymm ?_ (Nat.size_le.mpr h1)
    rcases Nat.eq_zero_or_pos n with rfl | hn
    · exact Nat.zero_le _
    · have := Nat.lt_size.mpr (h2 hn); omega
  unfold extend
  rcases Nat.eq_zero_or_pos n with rfl | hn
  · simp
  · have hp : 2 ^ n = 2 * 2 ^ (n - 1) := by rw [← pow_succ']; congr 1; omega
    rw [if_neg (by omega)]
    have hb : v.testBit (n - 1) = true ↔ 2 ^ (n - 1) ≤ v := by
      rw [Nat.testBit_eq_decide_div_mod_eq, decide_eq_true_eq]
      have h2 : v / 2 ^ (n - 1) < 2 := (Nat.div_lt_iff_lt_mul (by positivity)).mpr (by omega)
      rw [Nat.mod_eq_of_lt h2]
      constructor
      · intro e
        have := Nat.div_mul_le_self v (2 ^ (n - 1))
        rw [e] at this; omega
      · intro e
        have := (Nat.le_div_iff_mul_le (k := 2 ^ (n - 1)) (by positivity) (x := 1) (y := v)).mpr (by omega)
        omega
    split
    · rename_i ht
      exact key _ (by simpa using h) fun _ => by simpa using hb.mp ht
    · rename_i ht
      have hv : v < 2 ^ (n - 1) := not_le.mp fun e => ht (hb.mpr e)
      exact key _ (by omega) fun _ => by omega

theorem extend_abs {v n : Nat} (h : v < 2 ^ n) : |extend v n| < 2 ^ n := by
  have := Nat.lt_size_self (extend v n).natAbs
  rw [← extend_size h] at this
  rw [Int.abs_eq_natAbs]
  exact_mod_cast this

/-- What HDEC's loop can answer from a turn on (spec/44_huffman.md R336): AC symbols that fill the remaining positions, or
fewer and an EOB. -/
def acTail (pos : Nat) (out : List Sym) : Prop :=
  ((∀ z ∈ out, z.isAc) ∧ pos + acPositions out = 63) ∨
    ∃ pre, out = pre ++ [Sym.eob] ∧ (∀ z ∈ pre, z.isAc) ∧ pos + acPositions pre < 63

/-- Whatever HDEC's loop decodes is well formed, from any stream and any table (spec/44_huffman.md R336). -/
theorem hdecAc_form {a : Vector Slot 256} {m : InStream} (turns : Nat) :
    ∀ (i pos run : Nat) (c : Cursor) (out : List Sym) (c' : Cursor), pos + run ≤ 63 → (pos = 63 → run = 0) →
      64 ≤ turns + pos + run → hdecAc a m turns i pos run c = .ok (out, c') →
      Cursor.Reaches m c c' ∧ acTail pos out := by
  induction turns with
  | zero => intro i pos run c out c' h1 h2 h3; omega
  | succ turns ih =>
    intro i pos run c out c' h1 h2 h3 h
    unfold hdecAc at h
    split at h
    · simp only [Except.ok.injEq, Prod.mk.injEq] at h
      obtain ⟨rfl, rfl⟩ := h
      exact ⟨.refl _ _, .inl ⟨by simp, by simp [acPositions]; omega⟩⟩
    · split at h
      · cases h
      · rename_i hpos _ t c1 hd
        obtain ⟨e1, hy⟩ := decodeSym_reaches hd
        split at h
        · split at h
          · simp only [Except.ok.injEq, Prod.mk.injEq] at h
            obtain ⟨rfl, rfl⟩ := h
            exact ⟨e1, .inr ⟨[], rfl, by simp, by simp [acPositions]; omega⟩⟩
          · split at h
            · split at h
              · cases h
              · obtain ⟨k1, k2⟩ := ih i pos (run + 16) c1 out c' (by omega) (by omega) (by omega) h
                exact ⟨e1.trans k1, k2⟩
            · cases h
        · split at h
          · cases h
          · split at h
            · cases h
            · rename_i v c2 hr
              obtain ⟨e2, hv⟩ := readBits_reaches hr
              rw [Nat.zero_add, Nat.one_mul] at hv
              split at h
              · cases h
              · rename_i out' c3 hr'
                simp only [Except.ok.injEq, Prod.mk.injEq] at h
                obtain ⟨rfl, rfl⟩ := h
                obtain ⟨k1, k2⟩ := ih (i + 1) _ 0 c2 out' c3 (by omega) (by omega) (by omega) hr'
                refine ⟨(e1.trans e2).trans k1, ?_⟩
                have hz : (⟨((run + t / 16 : Nat) : Int), t % 16, extend v (t % 16)⟩ : Sym).isAc := by
                  refine ⟨Int.natCast_nonneg _, ?_, ?_, extend_size hv⟩
                  · intro e0
                    have := extend_size hv
                    simp only at e0
                    rw [e0] at this
                    simp at this; omega
                  · have := extend_abs hv
                    have hle : (2 : Int) ^ (t % 16) ≤ 2 ^ 15 := pow_le_pow_right₀ (by norm_num) (by omega)
                    norm_num at hle
                    simp only; omega
                have ep : ∀ l : List Sym, acPositions ((⟨((run + t / 16 : Nat) : Int), t % 16, extend v (t % 16)⟩ : Sym) :: l)
                    = run + t / 16 + 1 + acPositions l := by
                  intro l; simp only [acPositions, List.map_cons, List.sum_cons, Int.toNat_natCast]
                rcases k2 with ⟨j1, j2⟩ | ⟨pre, rfl, j1, j2⟩
                · refine .inl ⟨fun z hz' => ?_, by rw [ep]; omega⟩
                  rcases List.mem_cons.mp hz' with rfl | hz'
                  · exact hz
                  · exact j1 z hz'
                · refine .inr ⟨_ :: pre, rfl, fun z hz' => ?_, by rw [ep]; omega⟩
                  rcases List.mem_cons.mp hz' with rfl | hz'
                  · exact hz
                  · exact j1 z hz'

/-- Whatever HDEC decodes is well formed, its DC amplitude is below 2^11, and its cursor is a legal one
(spec/44_huffman.md R336). -/
theorem hdecSyms_form {d : Vector Slot 12} {a : Vector Slot 256} {m : InStream} {c c' : Cursor} {l : List Sym}
    (h : hdecSyms d a m c = .ok (l, c')) :
    Cursor.Reaches m c c' ∧ symsWellFormed l ∧ ∀ y ∈ l.head?, |y.amp| ≤ 2047 := by
  unfold hdecSyms at h
  split at h
  · cases h
  · rename_i sz c1 h1
    obtain ⟨e1, hsz⟩ := decodeSym_reaches h1
    split at h
    · cases h
    · rename_i v c2 h2
      obtain ⟨e2, hv⟩ := readBits_reaches h2
      rw [Nat.zero_add, Nat.one_mul] at hv
      split at h
      · cases h
      · rename_i out c3 h3
        simp only [Except.ok.injEq, Prod.mk.injEq] at h
        obtain ⟨rfl, rfl⟩ := h
        obtain ⟨e3, hf⟩ := hdecAc_form 64 1 0 0 c2 out c3 (by omega) (by omega) (by omega) h3
        have hamp : |extend v sz| ≤ 2047 := by
          have := extend_abs hv
          have hle : (2 : Int) ^ sz ≤ 2 ^ 11 := pow_le_pow_right₀ (by norm_num) (by omega)
          norm_num at hle; omega
        refine ⟨(e1.trans e2).trans e3, ⟨_, out, rfl, ⟨rfl, ?_, extend_size hv⟩, ?_⟩, by simpa using hamp⟩
        · show |extend v sz| ≤ 32767
          omega
        · simpa [acTail] using hf

/-- The state in which a cursor is stored has that cursor (spec/10_state.md R51). -/
theorem cursor_of_reaches {s t : State} {c : Cursor} (h : Cursor.Reaches s.inStream s.cursor c)
    (h1 : t.inpos = BitVec.ofNat 15 c.pos) (h2 : t.inbits = BitVec.ofNat 4 c.bits) (h3 : t.inprev = c.prev) :
    t.cursor = c := by
  have hb := h.bits
  have hm := h.max
  have l1 : s.cursor.bits < 16 := s.inbits.isLt
  have l2 : s.cursor.pos < 2 ^ 15 := s.inpos.isLt
  have l3 : s.inStream.len < 2 ^ 15 := s.inlen.isLt
  obtain ⟨p, b, q⟩ := c
  simp only [State.cursor, h1, h2, h3, BitVec.toNat_ofNat, Cursor.mk.injEq, and_true, Nat.max_def] at *
  constructor <;> apply Nat.mod_eq_of_lt <;> split_ifs at * <;> omega

/-- The cursor of the state after n bits were taken (spec/44_huffman.md R330). -/
theorem cursorAfter_of_takes {s t : State} {n : Nat} (h : Cursor.Takes s.inStream n s.cursor t.cursor) :
    s.cursorAfter t n := by
  have hl := h.length t.cursor.pos (le_refl _)
  have hp := h.prev
  rw [bitsUpTo_self] at hl
  simp only [State.cursorAfter, bitsUpTo_eq]
  refine ⟨h.le, ?_, h.first, ?_, ?_⟩
  · show n ≤ (s.cursor.bitsUpTo s.inStream t.cursor.pos).length
    omega
  · show t.cursor.bits = (s.cursor.bitsUpTo s.inStream t.cursor.pos).length - n
    omega
  · by_cases e : t.inpos = s.inpos
    · have e' : t.cursor.pos = s.cursor.pos := by simp only [State.cursor, e]
      rw [if_pos e]; rw [if_pos e'] at hp; exact hp
    · have e' : ¬ t.cursor.pos = s.cursor.pos := fun h => e (BitVec.eq_of_toNat_eq h)
      rw [if_neg e]; rw [if_neg e'] at hp; exact hp

/-- A well-formed sequence has at most 64 symbols, and each fits its SYM entry (spec/43_zigzag_rle.md R266). -/
theorem acPositions_ge (l : List Sym) : l.length ≤ acPositions l := by
  induction l with
  | nil => simp [acPositions]
  | cons z l ih => simp only [acPositions, List.map_cons, List.sum_cons, List.length_cons] at ih ⊢; omega

theorem run_le_acPositions {l : List Sym} {z : Sym} (h : z ∈ l) : z.run.toNat + 1 ≤ acPositions l := by
  induction l with
  | nil => simp at h
  | cons y l ih =>
    simp only [acPositions, List.map_cons, List.sum_cons] at ih ⊢
    rcases List.mem_cons.mp h with rfl | h
    · omega
    · have := ih h; omega

theorem entry_read {y : Sym} (h1 : -128 ≤ y.run) (h2 : y.run ≤ 127) (h3 : y.size ≤ 15) (h4 : |y.amp| ≤ 32767) :
    y.entry.read = y := by
  obtain ⟨r, n, x⟩ := y
  simp only [Sym.entry, SymEntry.read, Sym.mk.injEq] at *
  have := abs_le.mp h4
  refine ⟨?_, ?_, ?_⟩
  · rw [BitVec.toInt_ofInt]; exact Int.bmod_eq_of_le (by norm_num; omega) (by norm_num; omega)
  · rw [BitVec.toNat_ofNat]; exact Nat.mod_eq_of_lt (by norm_num; omega)
  · rw [BitVec.toInt_ofInt]; exact Int.bmod_eq_of_le (by norm_num; omega) (by norm_num; omega)

theorem symsWellFormed_entries {l : List Sym} (h : symsWellFormed l) : l.length ≤ 64 ∧ ∀ y ∈ l, y.entry.read = y := by
  obtain ⟨y, ac, rfl, ⟨d1, d2, d3⟩, hf⟩ := h
  have hac : ∀ z : Sym, z.isAc → z.run.toNat ≤ 62 → z.entry.read = z := fun z hz hr =>
    entry_read (by have := hz.1; omega) (by have := hz.1; omega) hz.size_bounds.2 hz.2.2.1
  have hdc : y.entry.read = y := by
    refine entry_read (by omega) (by omega) ?_ d2
    rw [d3]
    have := abs_le.mp d2
    exact Nat.size_le.mpr (by omega)
  rcases hf with ⟨h1, h2⟩ | ⟨pre, rfl, h1, h2⟩
  · have := acPositions_ge ac
    refine ⟨by simp only [List.length_cons]; omega, fun z hz => ?_⟩
    rcases List.mem_cons.mp hz with rfl | hz
    · exact hdc
    · exact hac z (h1 z hz) (by have := run_le_acPositions hz; omega)
  · have := acPositions_ge pre
    refine ⟨by simp only [List.length_cons, List.length_append, List.length_nil]; omega, fun z hz => ?_⟩
    rcases List.mem_cons.mp hz with rfl | hz
    · exact hdc
    · rcases List.mem_append.mp hz with hz | hz
      · exact hac z (h1 z hz) (by have := run_le_acPositions hz; omega)
      · rw [List.mem_singleton.mp hz]; decide

/-- The symbol buffer after a write, read back (spec/10_state.md R35). -/
theorem writeSyms_read (old : Vector SymEntry 64) {l : List Sym} (hl : l.length ≤ 64) (h : ∀ y ∈ l, y.entry.read = y) :
    ((writeSyms old l).toList.take l.length).map SymEntry.read = l := by
  apply List.ext_getElem
  · simp [hl]
  · intro k h1 h2
    have hk : k < 64 := by simp at h1; omega
    simp [writeSyms, h2, h l[k] (List.getElem_mem h2)]

theorem writeSyms_rest (old : Vector SymEntry 64) {l : List Sym} (i : Fin 64) (h : l.length ≤ i.val) :
    (writeSyms old l)[i] = old[i] := by
  simp [writeSyms, h]

end Sys2Proof.Machine
end

