-- ==== Sys2Proof/Laws/HuffBuild.lean ====
section
/-! SUPPORT. What the construction of a Huffman table does: it fails exactly when the Kraft sum exceeds 1, else it gives each
listed symbol its length and its canonical code, and the table is prefix-free (spec/44_huffman.md R302, R304, R305). -/

namespace Sys2Proof.Machine

/-- VALS[i] as a number. -/
def valAt (vals : Vector Byte 256) (i : Nat) : Nat := (vals[i]?.getD 0).toNat

/-- The code lengths that counts of codes of length n, n + 1, ... stand for. -/
def lensFrom : Nat → List Nat → List Nat
  | _, [] => []
  | n, c :: cs => List.replicate c n ++ lensFrom (n + 1) cs

theorem kraft16_append (l k : List Nat) : kraft16 (l ++ k) = kraft16 l + kraft16 k := by simp [kraft16]

theorem kraft16_single (n : Nat) : kraft16 [n] = 2 ^ (16 - n) := by simp [kraft16]

theorem codeLengths_eq (bits : Vector Byte 16) : codeLengths bits = lensFrom 1 (bits.toList.map BitVec.toNat) := by
  have h : bits.toList = (List.finRange 16).map fun i => bits[i] := by
    apply List.ext_getElem
    · simp
    · intro i h1 h2; simp
  rw [h, codeLengths]
  simp [List.finRange_succ, lensFrom]

theorem lensFrom_length (n : Nat) (cs : List Nat) : (lensFrom n cs).length = cs.sum := by
  induction cs generalizing n with
  | nil => rfl
  | cons c cs ih => simp [lensFrom, ih]

theorem codeLengths_length (bits : Vector Byte 16) : (codeLengths bits).length = bitsTotal bits := by
  rw [codeLengths_eq, lensFrom_length, bitsTotal]

theorem lensFrom_mem {n l : Nat} {cs : List Nat} (h : l ∈ lensFrom n cs) : n ≤ l ∧ l < n + cs.length := by
  induction cs generalizing n with
  | nil => simp [lensFrom] at h
  | cons c cs ih =>
    rw [lensFrom, List.mem_append] at h
    rcases h with h | h
    · rw [List.eq_of_mem_replicate h]; simp
    · have := ih h; simp only [List.length_cons]; omega

theorem lensFrom_sorted (n : Nat) (cs : List Nat) : (lensFrom n cs).Pairwise (· ≤ ·) := by
  induction cs generalizing n with
  | nil => exact .nil
  | cons c cs ih =>
    rw [lensFrom, List.pairwise_append]
    refine ⟨List.pairwise_replicate.mpr (.inr (le_refl _)), ih _, fun a ha b hb => ?_⟩
    rw [List.eq_of_mem_replicate ha]
    have := lensFrom_mem hb
    omega

theorem codeLengths_bounds {bits : Vector Byte 16} {l : Nat} (h : l ∈ codeLengths bits) : 1 ≤ l ∧ l ≤ 16 := by
  rw [codeLengths_eq] at h
  have := lensFrom_mem h
  simp at this; omega

theorem codeLengths_sorted (bits : Vector Byte 16) : (codeLengths bits).Pairwise (· ≤ ·) := by
  rw [codeLengths_eq]; exact lensFrom_sorted _ _

/-! ### The loops -/

/-- The slot of the i-th listed symbol: its length, and the Kraft sum of the earlier codes in units of its length. -/
def listedSlot (lens : List Nat) (i : Nat) : Slot :=
  ⟨BitVec.ofNat 5 (lens.getD i 0), BitVec.ofNat 16 (kraft16 (lens.take i) / 2 ^ (16 - lens.getD i 0))⟩

/-- A table that holds the listed symbols' slots and no other code. -/
def listsSlots {cap : Nat} (vals : Vector Byte 256) (lens : List Nat) (t : Vector Slot cap) : Prop :=
  ∀ y : Fin cap, (∀ i < lens.length, valAt vals i = y.val → t[y] = listedSlot lens i) ∧
    ((∀ i < lens.length, valAt vals i ≠ y.val) → t[y] = Slot.empty)

theorem listedSlot_append {lens : List Nat} (k : List Nat) {i : Nat} (h : i < lens.length) :
    listedSlot (lens ++ k) i = listedSlot lens i := by
  rw [listedSlot, listedSlot, List.getD_append _ _ _ _ h, List.take_append_of_le_length (by omega)]

/-- One more code (spec/44_huffman.md R305). -/
theorem buildOne_spec {cap : Nat} (vals : Vector Byte 256) (n : Nat) (hn : n ≤ 16) (lens : List Nat) (st : BuildSt cap)
    (hk : st.k = lens.length) (hc : st.code * 2 ^ (16 - n) = kraft16 lens) (ht : listsSlots vals lens st.table)
    (hd : ∀ i < lens.length, valAt vals i ≠ valAt vals lens.length) :
    (kraft16 (lens ++ [n]) ≤ 2 ^ 16 → ∃ st', buildOne vals n st = some st' ∧ st'.k = (lens ++ [n]).length ∧
        st'.code * 2 ^ (16 - n) = kraft16 (lens ++ [n]) ∧ listsSlots vals (lens ++ [n]) st'.table) ∧
      (2 ^ 16 < kraft16 (lens ++ [n]) → kraft16 lens ≤ 2 ^ 16 → buildOne vals n st = none) := by
  have hp : 2 ^ n * 2 ^ (16 - n) = 2 ^ 16 := by rw [← pow_add]; congr 1; omega
  have h0 : 0 < 2 ^ (16 - n) := by positivity
  rw [kraft16_append, kraft16_single]
  have hlt : st.code < 2 ^ n ↔ kraft16 lens < 2 ^ 16 := by
    rw [← hc, ← hp]; exact (Nat.mul_lt_mul_right h0).symm
  refine ⟨fun h => ?_, fun h h' => ?_⟩
  · refine ⟨_, by rw [buildOne, if_neg (by omega)], by simp [hk], by simp only [Nat.add_mul, hc]; omega, ?_⟩
    intro y
    have hset : (st.table.setIfInBounds (vals[st.k]?.getD 0).toNat ⟨BitVec.ofNat 5 n, BitVec.ofNat 16 st.code⟩)[y] =
        if valAt vals lens.length = y.val then listedSlot (lens ++ [n]) lens.length else st.table[y] := by
      have hs : listedSlot (lens ++ [n]) lens.length = ⟨BitVec.ofNat 5 n, BitVec.ofNat 16 st.code⟩ := by
        have e : (lens ++ [n]).getD lens.length 0 = n := by simp
        rw [listedSlot, e, List.take_left, ← hc, Nat.mul_div_cancel _ h0]
      rw [hs, hk]
      simp only [Fin.getElem_fin, Vector.getElem_setIfInBounds, valAt]
      rfl
    refine ⟨fun i hi he => ?_, fun hne => ?_⟩
    · rw [List.length_append, List.length_singleton] at hi
      rw [hset]
      by_cases h1 : i = lens.length
      · rw [h1] at he ⊢
        rw [if_pos he]
      · have hi' : i < lens.length := by omega
        rw [if_neg (fun e => hd i hi' (by rw [he, e])), listedSlot_append _ hi']
        exact (ht y).1 i hi' he
    · rw [hset, if_neg (hne _ (by simp))]
      exact (ht y).2 fun i hi => hne i (by simp; omega)
  · rw [buildOne, if_pos]
    by_contra hlt'
    have : kraft16 lens < 2 ^ 16 := hlt.mp (by omega)
    -- the Kraft sum so far is a multiple of 2^(16-n), so one more code fits
    have h2 : st.code + 1 ≤ 2 ^ n := by omega
    have := Nat.mul_le_mul_right (2 ^ (16 - n)) h2
    rw [hp, Nat.add_mul, hc] at this
    omega

/-- `m` codes of length n (spec/44_huffman.md R305). -/
theorem buildLength_spec {cap : Nat} (vals : Vector Byte 256) (n : Nat) (hn : n ≤ 16) (m : Nat) :
    ∀ (lens : List Nat) (st : BuildSt cap), st.k = lens.length → st.code * 2 ^ (16 - n) = kraft16 lens →
      listsSlots vals lens st.table →
      (∀ i j, i < j → j < lens.length + m → valAt vals i ≠ valAt vals j) →
      (kraft16 (lens ++ List.replicate m n) ≤ 2 ^ 16 → ∃ st', buildLength vals n m st = some st' ∧
          st'.k = (lens ++ List.replicate m n).length ∧ st'.code * 2 ^ (16 - n) = kraft16 (lens ++ List.replicate m n) ∧
          listsSlots vals (lens ++ List.replicate m n) st'.table) ∧
        (2 ^ 16 < kraft16 (lens ++ List.replicate m n) → kraft16 lens ≤ 2 ^ 16 → buildLength vals n m st = none) := by
  induction m with
  | zero =>
    intro lens st h1 h2 h3 _
    rw [List.replicate_zero, List.append_nil]
    exact ⟨fun _ => ⟨st, rfl, h1, h2, h3⟩, fun h h' => by omega⟩
  | succ m ih =>
    intro lens st h1 h2 h3 h4
    obtain ⟨o1, o2⟩ := buildOne_spec vals n hn lens st h1 h2 h3 fun i hi => h4 i _ hi (by omega)
    have e : lens ++ List.replicate (m + 1) n = lens ++ [n] ++ List.replicate m n := by
      rw [List.replicate_succ, List.append_assoc]; rfl
    have hmono : kraft16 (lens ++ [n]) ≤ kraft16 (lens ++ List.replicate (m + 1) n) := by
      rw [e, kraft16_append (lens ++ [n])]; omega
    by_cases hk : kraft16 (lens ++ [n]) ≤ 2 ^ 16
    · obtain ⟨st', p1, p2, p3, p4⟩ := o1 hk
      obtain ⟨i1, i2⟩ := ih (lens ++ [n]) st' p2 p3 p4 fun i j hij hj =>
        h4 i j hij (by simp only [List.length_append, List.length_singleton] at hj; omega)
      rw [e, buildLength, p1, Option.bind_some]
      exact ⟨i1, fun h _ => i2 h hk⟩
    · refine ⟨fun h => absurd (hmono.trans h) hk, fun _ h' => ?_⟩
      rw [buildLength, o2 (by omega) h', Option.bind_none]

/-- The loop over the lengths (spec/44_huffman.md R305). -/
theorem buildLengths_spec {cap : Nat} (vals : Vector Byte 256) (cs : List Nat) :
    ∀ (n : Nat) (lens : List Nat) (st : BuildSt cap), n + cs.length = 17 → st.k = lens.length →
      (n ≤ 16 → st.code * 2 ^ (16 - n) = kraft16 lens) → listsSlots vals lens st.table →
      (∀ i j, i < j → j < lens.length + cs.sum → valAt vals i ≠ valAt vals j) →
      (kraft16 (lens ++ lensFrom n cs) ≤ 2 ^ 16 → ∃ st', buildLengths vals n cs st = some st' ∧
          listsSlots vals (lens ++ lensFrom n cs) st'.table) ∧
        (2 ^ 16 < kraft16 (lens ++ lensFrom n cs) → kraft16 lens ≤ 2 ^ 16 → buildLengths vals n cs st = none) := by
  induction cs with
  | nil =>
    intro n lens st _ _ _ h4 _
    rw [lensFrom, List.append_nil]
    exact ⟨fun _ => ⟨st, rfl, h4⟩, fun h h' => by omega⟩
  | cons c cs ih =>
    intro n lens st h1 h2 h3 h4 h5
    simp only [List.length_cons] at h1
    simp only [List.sum_cons] at h5
    obtain ⟨l1, l2⟩ := buildLength_spec vals n (by omega) c lens st h2 (h3 (by omega)) h4 fun i j hij hj =>
      h5 i j hij (by omega)
    have e : lens ++ lensFrom n (c :: cs) = lens ++ List.replicate c n ++ lensFrom (n + 1) cs := by
      rw [lensFrom, List.append_assoc]
    by_cases hk : kraft16 (lens ++ List.replicate c n) ≤ 2 ^ 16
    · obtain ⟨st', p1, p2, p3, p4⟩ := l1 hk
      obtain ⟨i1, i2⟩ := ih (n + 1) (lens ++ List.replicate c n) { st' with code := st'.code * 2 } (by omega) p2
        (fun hn => by
          have : 16 - n = 16 - (n + 1) + 1 := by omega
          rw [this, pow_succ] at p3
          rw [← p3]; ring) p4
        fun i j hij hj => h5 i j hij (by simp only [List.length_append, List.length_replicate] at hj; omega)
      rw [e, buildLengths, p1, Option.bind_some]
      exact ⟨i1, fun h _ => i2 h hk⟩
    · refine ⟨fun h => absurd ?_ hk, fun _ h' => ?_⟩
      · rw [e, kraft16_append (lens ++ _)] at h; omega
      · rw [buildLengths, l2 (by omega) h', Option.bind_none]

/-! ### The whole construction -/

theorem usedVals_eq (d : HuffDef) (h : bitsTotal d.bits ≤ 256) :
    usedVals d = (List.range (bitsTotal d.bits)).map (valAt d.vals) := by
  apply List.ext_getElem
  · simp [usedVals, h]
  · intro i h1 h2
    have hi : i < 256 := by simp at h2; omega
    simp [usedVals, valAt, hi]

/-- HBUILD's construction in full (spec/44_huffman.md R305): the first check that fails, else the table of the listed
symbols. -/
theorem buildTable_spec (cap : Nat) (hcap : cap ≤ 256) (d : HuffDef) :
    (cap < (codeLengths d.bits).length → buildTable cap d = .error 1) ∧
      ((codeLengths d.bits).length ≤ cap → (∃ v ∈ usedVals d, cap ≤ v) → buildTable cap d = .error 2) ∧
      ((codeLengths d.bits).length ≤ cap → (∀ v ∈ usedVals d, v < cap) → ¬ (usedVals d).Nodup →
        buildTable cap d = .error 3) ∧
      ((codeLengths d.bits).length ≤ cap → (∀ v ∈ usedVals d, v < cap) → (usedVals d).Nodup →
        (2 ^ 16 < kraft16 (codeLengths d.bits) → buildTable cap d = .error 4) ∧
          (kraft16 (codeLengths d.bits) ≤ 2 ^ 16 →
            ∃ t, buildTable cap d = .ok t ∧ listsSlots d.vals (codeLengths d.bits) t)) := by
  rw [codeLengths_length]
  unfold buildTable
  refine ⟨fun h => by rw [if_pos h], fun h1 h2 => ?_, fun h1 h2 h3 => ?_, fun h1 h2 h3 => ?_⟩
  · rw [if_neg (by omega), if_pos (by simpa using h2)]
  · rw [if_neg (by omega), if_neg (by simpa using h2), if_pos h3]
  · rw [if_neg (by omega), if_neg (by simpa using h2), if_neg (not_not.mpr h3)]
    have hne : ∀ i j, i < j → j < bitsTotal d.bits → valAt d.vals i ≠ valAt d.vals j := by
      intro i j hij hj e
      rw [usedVals_eq d (by omega)] at h3
      have := (List.Nodup.getElem_inj_iff h3 (i := i) (j := j) (hi := by simp; omega) (hj := by simpa using hj)).mp
        (by simpa using e)
      omega
    obtain ⟨b1, b2⟩ := buildLengths_spec (cap := cap) d.vals (d.bits.toList.map BitVec.toNat) 1 []
      ⟨Vector.replicate cap Slot.empty, 0, 0⟩ (by simp) rfl (fun _ => by simp [kraft16])
      (fun y => ⟨fun i hi => by simp at hi, fun _ => by simp⟩)
      (by simpa [bitsTotal] using hne)
    rw [List.nil_append, ← codeLengths_eq] at b1 b2
    refine ⟨fun h => by rw [b2 h (by simp [kraft16])], fun h => ?_⟩
    obtain ⟨st, p1, p2⟩ := b1 h
    exact ⟨st.table, by rw [p1], p2⟩

/-- A table that HBUILD's construction answers lists the symbols, each once, with a Kraft sum of at most 1. -/
theorem buildTable_ok {cap : Nat} (hcap : cap ≤ 256) {d : HuffDef} {t : Vector Slot cap} (h : buildTable cap d = .ok t) :
    (codeLengths d.bits).length ≤ cap ∧ (∀ v ∈ usedVals d, v < cap) ∧ (usedVals d).Nodup ∧
      kraft16 (codeLengths d.bits) ≤ 2 ^ 16 ∧ listsSlots d.vals (codeLengths d.bits) t := by
  obtain ⟨h1, h2, h3, h4⟩ := buildTable_spec cap hcap d
  have c1 : (codeLengths d.bits).length ≤ cap := by
    by_contra hn; rw [h1 (by omega)] at h; cases h
  have c2 : ∀ v ∈ usedVals d, v < cap := by
    by_contra hn
    push Not at hn
    rw [h2 c1 hn] at h; cases h
  have c3 : (usedVals d).Nodup := by
    by_contra hn; rw [h3 c1 c2 hn] at h; cases h
  obtain ⟨k1, k2⟩ := h4 c1 c2 c3
  have c4 : kraft16 (codeLengths d.bits) ≤ 2 ^ 16 := by
    by_contra hn; rw [k1 (by omega)] at h; cases h
  obtain ⟨t', e, hl⟩ := k2 c4
  rw [e] at h
  exact ⟨c1, c2, c3, c4, by rw [← Except.ok.inj h]; exact hl⟩

/-! ### Canonical codes -/

/-- The Kraft sum of lengths that are at most l is a multiple of the unit of l. -/
theorem kraft16_units {lens : List Nat} {l : Nat} (hl : l ≤ 16) (h : ∀ x ∈ lens, x ≤ l) :
    kraft16 lens = (lens.map fun x => 2 ^ (l - x)).sum * 2 ^ (16 - l) := by
  induction lens with
  | nil => simp [kraft16]
  | cons x lens ih =>
    have hx := h x (by simp)
    have e : (2 : Nat) ^ (16 - x) = 2 ^ (l - x) * 2 ^ (16 - l) := by rw [← pow_add]; congr 1; omega
    have := ih fun y hy => h y (by simp [hy])
    simp only [kraft16, List.map_cons, List.sum_cons] at this ⊢
    rw [this, e, Nat.add_mul]

theorem lens_take_le {lens : List Nat} (hs : lens.Pairwise (· ≤ ·)) {i : Nat} (hi : i < lens.length) :
    ∀ x ∈ lens.take i, x ≤ lens.getD i 0 := by
  intro x hx
  obtain ⟨j, hj, rfl⟩ := List.mem_take_iff_getElem.mp hx
  have h := List.pairwise_iff_getElem.mp hs j i (by omega) hi (by omega)
  rwa [List.getD_eq_getElem _ _ hi]

/-- The code of the i-th listed symbol, in units of its length (spec/44_huffman.md R304). -/
theorem canonicalCode_units {lens : List Nat} (hs : lens.Pairwise (· ≤ ·)) (hb : ∀ l ∈ lens, l ≤ 16) {i : Nat}
    (hi : i < lens.length) : kraft16 (lens.take i) = canonicalCode lens i * 2 ^ (16 - lens.getD i 0) := by
  have h16 : lens.getD i 0 ≤ 16 := by rw [List.getD_eq_getElem _ _ hi]; exact hb _ (List.getElem_mem hi)
  rw [kraft16_units h16 (lens_take_le hs hi)]
  rfl

theorem kraft16_take_succ {lens : List Nat} {i : Nat} (hi : i < lens.length) :
    kraft16 (lens.take (i + 1)) = kraft16 (lens.take i) + 2 ^ (16 - lens.getD i 0) := by
  rw [List.take_succ_eq_append_getElem hi, kraft16_append, kraft16_single, List.getD_eq_getElem _ _ hi]

theorem kraft16_take_mono {lens : List Nat} {i j : Nat} (h : i ≤ j) : kraft16 (lens.take i) ≤ kraft16 (lens.take j) := by
  have : lens.take i = (lens.take j).take i := by rw [List.take_take]; congr 1; omega
  rw [this]
  conv_rhs => rw [← List.take_append_drop i (lens.take j)]
  rw [kraft16_append]; omega

/-- Under a Kraft sum of at most 1 a canonical code fits its length. -/
theorem canonicalCode_lt {lens : List Nat} (hs : lens.Pairwise (· ≤ ·)) (hb : ∀ l ∈ lens, l ≤ 16)
    (hk : kraft16 lens ≤ 2 ^ 16) {i : Nat} (hi : i < lens.length) : canonicalCode lens i < 2 ^ lens.getD i 0 := by
  have h16 : lens.getD i 0 ≤ 16 := by rw [List.getD_eq_getElem _ _ hi]; exact hb _ (List.getElem_mem hi)
  have h1 := canonicalCode_units hs hb hi
  have h2 := kraft16_take_succ hi
  have h3 := kraft16_take_mono (lens := lens) (i := i + 1) (j := lens.length) (by omega)
  rw [List.take_length] at h3
  have hp : 2 ^ lens.getD i 0 * 2 ^ (16 - lens.getD i 0) = 2 ^ 16 := by rw [← pow_add]; congr 1; omega
  have h0 : 0 < 2 ^ (16 - lens.getD i 0) := by positivity
  refine (Nat.mul_lt_mul_right h0).mp ?_
  rw [hp, ← h1]; omega

/-- The slot of a listed symbol: its length and its canonical code (spec/44_huffman.md R304). -/
theorem listedSlot_fields {lens : List Nat} (hs : lens.Pairwise (· ≤ ·)) (hb : ∀ l ∈ lens, l ≤ 16)
    (hk : kraft16 lens ≤ 2 ^ 16) {i : Nat} (hi : i < lens.length) :
    (listedSlot lens i).len.toNat = lens.getD i 0 ∧ (listedSlot lens i).code.toNat = canonicalCode lens i := by
  have h16 : lens.getD i 0 ≤ 16 := by rw [List.getD_eq_getElem _ _ hi]; exact hb _ (List.getElem_mem hi)
  have hlt := canonicalCode_lt hs hb hk hi
  have h2 : (2 : Nat) ^ lens.getD i 0 ≤ 2 ^ 16 := pow_le_pow_right₀ (by norm_num) h16
  refine ⟨?_, ?_⟩
  · rw [listedSlot, BitVec.toNat_ofNat, Nat.mod_eq_of_lt (by omega)]
  · rw [listedSlot, BitVec.toNat_ofNat, canonicalCode_units hs hb hi, Nat.mul_div_cancel _ (by positivity),
      Nat.mod_eq_of_lt (by omega)]

/-- Canonical codes are prefix-free: an earlier code's strings all lie below a later one's (spec/44_huffman.md R302). -/
theorem listedSlot_prefixFree {lens : List Nat} (hs : lens.Pairwise (· ≤ ·)) (hb : ∀ l ∈ lens, l ≤ 16)
    (hk : kraft16 lens ≤ 2 ^ 16) {i j : Nat} (hij : i < j) (hj : j < lens.length) :
    ¬ (listedSlot lens i).prefixOf (listedSlot lens j) ∧ ¬ (listedSlot lens j).prefixOf (listedSlot lens i) := by
  have hi : i < lens.length := by omega
  have h16 : lens.getD j 0 ≤ 16 := by rw [List.getD_eq_getElem _ _ hj]; exact hb _ (List.getElem_mem hj)
  obtain ⟨a1, a2⟩ := listedSlot_fields hs hb hk hi
  obtain ⟨b1, b2⟩ := listedSlot_fields hs hb hk hj
  have hle : lens.getD i 0 ≤ lens.getD j 0 := by
    have := List.pairwise_iff_getElem.mp hs i j hi hj hij
    rwa [List.getD_eq_getElem _ _ hi, List.getD_eq_getElem _ _ hj]
  have ki := canonicalCode_units hs hb hi
  have kj := canonicalCode_units hs hb hj
  have ks := kraft16_take_succ hi
  have km := kraft16_take_mono (lens := lens) (i := i + 1) (j := j) (by omega)
  have hu : (2 : Nat) ^ (16 - lens.getD i 0) = 2 ^ (lens.getD j 0 - lens.getD i 0) * 2 ^ (16 - lens.getD j 0) := by
    rw [← pow_add]; congr 1; omega
  have key : (canonicalCode lens i + 1) * 2 ^ (lens.getD j 0 - lens.getD i 0) ≤ canonicalCode lens j := by
    have h0 : 0 < 2 ^ (16 - lens.getD j 0) := by positivity
    refine (Nat.mul_le_mul_right_iff h0).mp ?_
    rw [← kj, Nat.mul_assoc, ← hu, Nat.add_mul, ← ki]; omega
  refine ⟨?_, ?_⟩
  · rintro ⟨-, -, -, h⟩
    rw [a1, a2, b1, b2] at h
    have := Nat.div_le_div_right (c := 2 ^ (lens.getD j 0 - lens.getD i 0)) key
    rw [h, Nat.mul_div_cancel _ (by positivity)] at this
    omega
  · rintro ⟨-, -, h1, h2⟩
    rw [a1, b1] at h1 h2
    rw [a2, b2] at h2
    have e : lens.getD i 0 - lens.getD j 0 = 0 := by omega
    have e' : lens.getD j 0 - lens.getD i 0 = 0 := by omega
    rw [e, pow_zero, Nat.div_one] at h2
    rw [e', pow_zero, Nat.mul_one] at key
    omega

/-- A table of listed symbols is legal and prefix-free (spec/44_huffman.md R301, R302). -/
theorem listsSlots_legal {cap : Nat} {vals : Vector Byte 256} {lens : List Nat} {t : Vector Slot cap}
    (ht : listsSlots vals lens t) (hs : lens.Pairwise (· ≤ ·)) (hb : ∀ l ∈ lens, l ≤ 16) (hk : kraft16 lens ≤ 2 ^ 16) :
    tableLegal t := by
  have hcase : ∀ y : Fin cap, (∃ i, i < lens.length ∧ valAt vals i = y.val ∧ t[y] = listedSlot lens i) ∨ t[y] = Slot.empty := by
    intro y
    by_cases h : ∃ i, i < lens.length ∧ valAt vals i = y.val
    · obtain ⟨i, hi, e⟩ := h
      exact .inl ⟨i, hi, e, (ht y).1 i hi e⟩
    · push Not at h
      exact .inr ((ht y).2 h)
  refine ⟨fun a => ?_, fun a b hab hp => ?_⟩
  · rcases hcase a with ⟨i, hi, -, e⟩ | e
    · obtain ⟨a1, a2⟩ := listedSlot_fields hs hb hk hi
      rw [e, Slot.legal, a1, a2]
      refine ⟨?_, canonicalCode_lt hs hb hk hi⟩
      rw [List.getD_eq_getElem _ _ hi]; exact hb _ (List.getElem_mem hi)
    · rw [e]; exact ⟨by decide, by decide⟩
  · rcases hcase a with ⟨i, hi, ei, e⟩ | e
    · rcases hcase b with ⟨j, hj, ej, e'⟩ | e'
      · rw [e, e'] at hp
        rcases Nat.lt_trichotomy i j with h | h | h
        · exact (listedSlot_prefixFree hs hb hk h hj).1 hp
        · exact hab (Fin.ext (by rw [← ei, ← ej, h]))
        · exact (listedSlot_prefixFree hs hb hk h hi).2 hp
      · rw [e'] at hp; exact hp.2.1 rfl
    · rw [e] at hp; exact hp.1 rfl

/-- A table of listed symbols is the canonical table of the definition (spec/44_huffman.md R304, R305). -/
theorem listsSlots_canonical {cap : Nat} (hcap : cap ≤ 256) {d : HuffDef} {t : Vector Slot cap}
    (hv : ∀ v ∈ usedVals d, v < cap) (hlen : (codeLengths d.bits).length ≤ cap)
    (hk : kraft16 (codeLengths d.bits) ≤ 2 ^ 16) (ht : listsSlots d.vals (codeLengths d.bits) t) :
    isCanonicalTable (slotAt t) d := by
  have hu := usedVals_eq d (by rw [← codeLengths_length]; omega)
  have va : ∀ i : Fin 256, valAt d.vals i.val = d.vals[i].toNat := by intro i; simp [valAt]
  refine ⟨fun i hi => ?_, fun y hy => ?_⟩
  · have hlt : d.vals[i].toNat < cap := by
      apply hv
      rw [hu, ← va]
      exact List.mem_map.mpr ⟨i.val, by rw [← codeLengths_length]; simpa using hi, rfl⟩
    have : slotAt t d.vals[i].toNat = listedSlot (codeLengths d.bits) i.val := by
      rw [slotAt, Vector.getElem?_eq_getElem hlt]
      exact (ht ⟨_, hlt⟩).1 i.val hi (va i)
    rw [this]
    exact listedSlot_fields (codeLengths_sorted _) (fun l hl => (codeLengths_bounds hl).2) hk hi
  · by_cases hlt : y < cap
    · rw [slotAt, Vector.getElem?_eq_getElem hlt]
      exact (ht ⟨y, hlt⟩).2 fun i hi => by
        have := hy ⟨i, by omega⟩ hi
        rw [← va] at this; exact this
    · rw [slotAt, Vector.getElem?_eq_none (by omega)]; rfl

end Sys2Proof.Machine
end

