-- ==== Sys2Proof/Laws/Motion.lean ====
section
/-! SUPPORT. The parts of a search: the window, its visit order, the error of a candidate, the first minimum, and what a
REFSAVE does to a lookup (spec/45_motion.md R361 to R366, R370). -/

namespace Sys2Proof.Machine

/-! ### The window -/

theorem mem_offsets {r : Nat} {x : Int} : x ∈ offsets r ↔ |x| ≤ r := by
  simp only [offsets, List.mem_map, List.mem_range, abs_le]
  constructor
  · rintro ⟨n, h, rfl⟩; omega
  · rintro ⟨h1, h2⟩; exact ⟨(x + r).toNat, by omega, by omega⟩

theorem offsets_sorted (r : Nat) : (offsets r).Pairwise (· < ·) := by
  rw [offsets, List.pairwise_map]
  exact List.pairwise_lt_range.imp fun h => by omega

/-- The window of a search (spec/45_motion.md R364). -/
theorem mem_displacements {o : SearchOrder} {r : Nat} {d : Int × Int} :
    d ∈ displacements o r ↔ |d.1| ≤ r ∧ |d.2| ≤ r := by
  obtain ⟨x, y⟩ := d
  cases o <;> simp only [displacements, List.mem_flatMap, List.mem_map, mem_offsets, Prod.mk.injEq]
  · constructor
    · rintro ⟨_, h1, _, h2, rfl, rfl⟩; exact ⟨h2, h1⟩
    · rintro ⟨h1, h2⟩; exact ⟨y, h2, x, h1, rfl, rfl⟩
  · constructor
    · rintro ⟨_, h1, _, h2, rfl, rfl⟩; exact ⟨h1, h2⟩
    · rintro ⟨h1, h2⟩; exact ⟨x, h1, y, h2, rfl, rfl⟩

/-- The visit order of a search (spec/45_motion.md R365). -/
theorem displacements_sorted (o : SearchOrder) (r : Nat) :
    (displacements o r).Pairwise fun d e => visitedNoLater o d.1 d.2 e.1 e.2 := by
  cases o <;> simp only [displacements, List.pairwise_flatMap, visitedNoLater]
  · refine ⟨fun y _ => List.pairwise_map.mpr ((offsets_sorted r).imp fun h => .inr ⟨rfl, h.le⟩),
      (offsets_sorted r).imp fun h d hd e he => ?_⟩
    obtain ⟨x, -, rfl⟩ := List.mem_map.mp hd
    obtain ⟨x', -, rfl⟩ := List.mem_map.mp he
    exact .inl h
  · refine ⟨fun x _ => List.pairwise_map.mpr ((offsets_sorted r).imp fun h => .inr ⟨rfl, h.le⟩),
      (offsets_sorted r).imp fun h d hd e he => ?_⟩
    obtain ⟨y, -, rfl⟩ := List.mem_map.mp hd
    obtain ⟨y', -, rfl⟩ := List.mem_map.mp he
    exact .inl h

/-! ### The error -/

/-- The machine's error of a candidate is the sum of squared differences (spec/45_motion.md R366). -/
theorem blockSse_eq (a b : Block) : blockSse a b = (sumSquares a b : Nat) := by
  have h : ∀ k : Fin 64, (a[k].toInt - b[k].toInt) * (a[k].toInt - b[k].toInt) =
      (((a[k].toInt - b[k].toInt) ^ 2).toNat : Int) := by
    intro k
    rw [Int.toNat_of_nonneg (sq_nonneg _), sq]
  rw [blockSse, sumSquares, Nat.cast_sum]
  simp only [h]
  rw [← List.sum_ofFn, List.ofFn_eq_map]

/-- An error of 0 means equal blocks (spec/45_motion.md R368). -/
theorem sumSquares_eq_zero {a b : Block} : sumSquares a b = 0 ↔ a = b := by
  constructor
  · intro h
    rw [sumSquares, Finset.sum_eq_zero_iff] at h
    refine Vector.ext fun i hi => ?_
    have := h ⟨i, hi⟩ (Finset.mem_univ _)
    have h2 : (a[i].toInt - b[i].toInt) ^ 2 = 0 := le_antisymm (Int.toNat_eq_zero.mp this) (sq_nonneg _)
    have h3 : a[i].toInt - b[i].toInt = 0 := by simpa using h2
    exact BitVec.eq_of_toInt_eq (by omega)
  · rintro rfl; simp [sumSquares]

/-! ### The first minimum -/

/-- Everything the search's choice can be: none without candidates; else a candidate whose error no candidate undercuts,
and no earlier one equals (spec/45_motion.md R366). -/
theorem firstMin_some (cs : List Candidate) (b : Candidate) :
    ∃ pre c post, b :: cs = pre ++ c :: post ∧ firstMin (some b) cs = some c ∧ (∀ x ∈ pre, c.e < x.e) ∧
      ∀ x ∈ post, c.e ≤ x.e := by
  induction cs generalizing b with
  | nil => exact ⟨[], b, [], rfl, rfl, by simp, by simp⟩
  | cons d cs ih =>
    unfold firstMin
    split
    · rename_i hlt
      obtain ⟨pre, c, post, h1, h2, h3, h4⟩ := ih d
      refine ⟨b :: pre, c, post, by rw [h1]; rfl, h2, fun x hx => ?_, h4⟩
      rcases List.mem_cons.mp hx with rfl | hx
      · have : c.e ≤ d.e := by
          cases pre with
          | nil => rw [(List.cons.inj h1).1]
          | cons y pre => rw [(List.cons.inj h1).1]; exact (h3 y (by simp)).le
        omega
      · exact h3 x hx
    · rename_i hge
      obtain ⟨pre, c, post, h1, h2, h3, h4⟩ := ih b
      cases pre with
      | nil =>
        obtain ⟨e1, e2⟩ := List.cons.inj h1
        refine ⟨[], b, d :: cs, rfl, by rw [h2, e1], by simp, fun x hx => ?_⟩
        rcases List.mem_cons.mp hx with rfl | hx
        · omega
        · rw [e1]; exact h4 x (by rw [← e2]; exact hx)
      | cons y pre =>
        obtain ⟨e1, e2⟩ := List.cons.inj h1
        subst e1
        have hb := h3 b (by simp)
        refine ⟨b :: d :: pre, c, post, by rw [e2]; rfl, h2, fun x hx => ?_, h4⟩
        simp only [List.mem_cons] at hx
        rcases hx with rfl | rfl | hx
        · exact hb
        · omega
        · exact h3 x (by simp [hx])

theorem firstMin_none (cs : List Candidate) :
    (cs = [] ∧ firstMin none cs = none) ∨
      ∃ pre c post, cs = pre ++ c :: post ∧ firstMin none cs = some c ∧ (∀ x ∈ pre, c.e < x.e) ∧ ∀ x ∈ post, c.e ≤ x.e := by
  cases cs with
  | nil => exact .inl ⟨rfl, rfl⟩
  | cons b cs => exact .inr (by rw [firstMin]; exact firstMin_some cs b)

/-! ### Vectors -/

/-- The packed vector as a number (spec/45_motion.md R370). -/
theorem toNat_packMv (dx dy : Int) :
    (packMv dx dy).toNat = (dx % 16).toNat * 16 + (dy % 16).toNat := by
  rw [packMv, BitVec.toNat_append, BitVec.toNat_ofInt, BitVec.toNat_ofInt, ← Nat.shiftLeft_add_eq_or_of_lt (by omega),
    Nat.shiftLeft_eq]
  norm_num

end Sys2Proof.Machine
end

