-- ==== Sys2Proof/Laws/PerInstr.lean ====
section
/-! SUPPORT. Statements made once per instruction: the encoding of a well-formed instruction stands in its row of the opcode
map (spec/30_encoding.md R152), one lemma per constructor. -/

namespace Sys2Proof.Laws.EncodingInRow

/-- The word of the instruction matches the row of its mnemonic under the row's mask, and its channel field is not 3. -/
def Statement (i : Instr) : Prop :=
  i.wf = true → ∃ r ∈ opTable, r.mnem = i.mnem ∧ encode i &&& r.mask = r.mtch ∧ (fieldsOf (encode i)).ch ≠ 3

theorem nop : Statement .nop := fun _ => by decide
theorem dcreset : Statement .dcreset := fun _ => by decide
theorem bwreset : Statement .bwreset := fun _ => by decide
theorem brreset : Statement .brreset := fun _ => by decide
theorem refclr : Statement .refclr := fun _ => by decide
theorem wbclr : Statement .wbclr := fun _ => by decide
theorem fdct : Statement .fdct := fun _ => by decide
theorem idct : Statement .idct := fun _ => by decide
theorem quant (ch : Chan) : Statement (.quant ch) := fun _ => by cases ch <;> decide
theorem dequant (ch : Chan) : Statement (.dequant ch) := fun _ => by cases ch <;> decide

theorem byte_of_lt {q : Nat} (h : q < 128) : BitVec.ofNat 8 q &&& 0x80 = 0 := by
  have : ∀ q : Fin 128, BitVec.ofNat 8 q.val &&& 0x80 = 0 := by decide
  exact this ⟨q, h⟩

theorem qscale (tid : TableId) (q : Nat) : Statement (.qscale tid q) := fun h => by
  have hq : q < 128 := by simpa [Instr.wf] using h
  refine ⟨⟨0x12, .qscale, 0x48000000, 0xFFFEFF80⟩, by decide, rfl, ?_, ?_⟩
  · rw [and_eq_iff, fieldsOf_encode]
    refine ⟨?_, ?_, ?_, ?_, byte_of_lt hq⟩ <;> cases tid <;> simp only [operandFields, Instr.mnem] <;> decide
  · rw [fieldsOf_encode]; simp [operandFields]

theorem qdefault (tid : TableId) : Statement (.qdefault tid) := fun _ => by cases tid <;> decide
theorem qload (tid : TableId) : Statement (.qload tid) := fun _ => by cases tid <;> decide
theorem zzscan : Statement .zzscan := fun _ => by decide
theorem zzunscan : Statement .zzunscan := fun _ => by decide
theorem rleenc (ch : Chan) : Statement (.rleenc ch) := fun _ => by cases ch <;> decide
theorem rledec (ch : Chan) : Statement (.rledec ch) := fun _ => by cases ch <;> decide
theorem hbuild (cls : TableClass) (tid : TableId) : Statement (.hbuild cls tid) := fun _ => by
  cases cls <;> cases tid <;> decide
theorem hdefault (cls : TableClass) (tid : TableId) : Statement (.hdefault cls tid) := fun _ => by
  cases cls <;> cases tid <;> decide
theorem henc (ch : Chan) : Statement (.henc ch) := fun _ => by cases ch <;> decide
theorem hdec (ch : Chan) : Statement (.hdec ch) := fun _ => by cases ch <;> decide
theorem hflush : Statement .hflush := fun _ => by decide

theorem refsave (ch : Chan) (bx row : Nat) : Statement (.refsave ch bx row) := fun _ => by
  refine ⟨⟨0x28, .refsave, 0xA0000000, 0xFCFF0000⟩, by decide, rfl, ?_, ?_⟩
  · rw [and_eq_iff, fieldsOf_encode]
    refine ⟨?_, ?_, ?_, BitVec.and_zero, BitVec.and_zero⟩ <;> cases ch <;>
      simp only [operandFields, Instr.mnem, Chan.bits] <;> decide
  · rw [fieldsOf_encode]; cases ch <;> simp [operandFields, Chan.bits]

theorem msearch (ch : Chan) (bx row : Nat) : Statement (.msearch ch bx row) := fun _ => by
  refine ⟨⟨0x29, .msearch, 0xA4000000, 0xFCFF0000⟩, by decide, rfl, ?_, ?_⟩
  · rw [and_eq_iff, fieldsOf_encode]
    refine ⟨?_, ?_, ?_, BitVec.and_zero, BitVec.and_zero⟩ <;> cases ch <;>
      simp only [operandFields, Instr.mnem, Chan.bits] <;> decide
  · rw [fieldsOf_encode]; cases ch <;> simp [operandFields, Chan.bits]

theorem resid : Statement .resid := fun _ => by decide
theorem recon : Statement .recon := fun _ => by decide

theorem mvload (ch : Chan) (mv bx row : Nat) : Statement (.mvload ch mv bx row) := fun _ => by
  refine ⟨⟨0x2C, .mvload, 0xB0000000, 0xFC000000⟩, by decide, rfl, ?_, ?_⟩
  · rw [and_eq_iff, fieldsOf_encode]
    refine ⟨?_, ?_, BitVec.and_zero, BitVec.and_zero, BitVec.and_zero⟩ <;> cases ch <;>
      simp only [operandFields, Instr.mnem, Chan.bits] <;> decide
  · rw [fieldsOf_encode]; cases ch <;> simp [operandFields, Chan.bits]

end Sys2Proof.Laws.EncodingInRow
end

