-- ==== Sys2Proof/Laws/Rle.lean ====
section
/-! SUPPORT. What the well-formedness check, the run-length coder's loop and the decoder's walk do
(spec/43_zigzag_rle.md R266 to R268). -/

namespace Sys2Proof.Machine

/-- Symbols read from the buffer have 16-bit amplitudes (spec/43_zigzag_rle.md R265). -/
theorem syms_amp {s : State} {y : Sym} (h : y ∈ s.syms) : -32768 ≤ y.amp ∧ y.amp ≤ 32767 := by
  simp only [State.syms, List.mem_map] at h
  obtain ⟨e, -, rfl⟩ := h
  have h1 := BitVec.le_toInt e.amp
  have h2 := BitVec.toInt_lt (x := e.amp)
  norm_num at h1 h2
  exact ⟨h1, by simp only [SymEntry.read]; omega⟩

theorem isAc_iff {y : Sym} (h : -32768 ≤ y.amp ∧ y.amp ≤ 32767) :
    y.isAc ↔ ¬ (y.run < 0 ∨ y.amp = 0 ∨ y.amp = -32768 ∨ y.size ≠ bitlen y.amp) := by
  rw [bitlen_eq, Sym.isAc, abs_le]
  constructor
  · rintro ⟨h1, h2, h3, h4⟩; omega
  · intro hn; omega

theorem isDc_iff {y : Sym} (h : -32768 ≤ y.amp ∧ y.amp ≤ 32767) : y.isDc ↔ wfDc y = true := by
  simp only [Sym.isDc, wfDc, dcsize, bitlen_eq, abs_le, Bool.and_eq_true, decide_eq_true_eq]
  omega

theorem acTail_nil (pos : Nat) : acTail pos [] ↔ pos = 63 := by
  simp [acTail, acPositions]

theorem acTail_eob (pos : Nat) (l : List Sym) : acTail pos (Sym.eob :: l) ↔ l = [] ∧ pos < 63 := by
  constructor
  · rintro (⟨h, -⟩ | ⟨pre, h1, h2, h3⟩)
    · exact absurd rfl (h Sym.eob (by simp)).ne_eob
    · cases pre with
      | nil => exact ⟨by simpa using h1, by omega⟩
      | cons y pre => exact absurd (List.cons.inj h1).1.symm (h2 y (by simp)).ne_eob
  · rintro ⟨rfl, h⟩
    exact .inr ⟨[], rfl, by simp, by simpa [acPositions] using h⟩

theorem acTail_cons (pos : Nat) {y : Sym} (l : List Sym) (hne : y ≠ Sym.eob) :
    acTail pos (y :: l) ↔ y.isAc ∧ acTail (pos + y.run.toNat + 1) l := by
  have ep : ∀ k : List Sym, acPositions (y :: k) = y.run.toNat + 1 + acPositions k := by intro k; simp [acPositions]
  constructor
  · rintro (⟨h, h2⟩ | ⟨pre, h1, h2, h3⟩)
    · rw [ep] at h2
      exact ⟨h y (by simp), .inl ⟨fun z hz => h z (by simp [hz]), by omega⟩⟩
    · cases pre with
      | nil => exact absurd (by simpa using (List.cons.inj h1).1) hne
      | cons x pre =>
        obtain ⟨rfl, rfl⟩ := List.cons.inj h1
        rw [ep] at h3
        exact ⟨h2 y (by simp), .inr ⟨pre, rfl, fun z hz => h2 z (by simp [hz]), by omega⟩⟩
  · rintro ⟨hy, ⟨h, h2⟩ | ⟨pre, rfl, h2, h3⟩⟩
    · refine .inl ⟨fun z hz => ?_, by rw [ep]; omega⟩
      rcases List.mem_cons.mp hz with rfl | hz
      · exact hy
      · exact h z hz
    · refine .inr ⟨y :: pre, rfl, fun z hz => ?_, by rw [ep]; omega⟩
      rcases List.mem_cons.mp hz with rfl | hz
      · exact hy
      · exact h2 z hz

theorem acTail_le {pos : Nat} {l : List Sym} (h : acTail pos l) : pos ≤ 63 := by
  rcases h with ⟨-, h⟩ | ⟨_, -, -, h⟩ <;> omega

/-- The loop of WF_SYM accepts exactly the AC symbols that fill the remaining positions, or fewer and an EOB
(spec/43_zigzag_rle.md R266). -/
theorem wfSymFrom_none {l : List Sym} (hl : ∀ y ∈ l, -32768 ≤ y.amp ∧ y.amp ≤ 32767) (i pos : Nat) (hp : pos ≤ 63) :
    wfSymFrom i pos l = none ↔ acTail pos l := by
  induction l generalizing i pos with
  | nil => simp [wfSymFrom, acTail_nil]
  | cons y l ih =>
    unfold wfSymFrom
    by_cases he : y = Sym.eob
    · subst he
      rw [if_pos rfl, acTail_eob]
      by_cases hl : l = []
      · by_cases h63 : pos = 63
        · simp [hl, h63]
        · simp [hl, h63]; omega
      · simp [hl]
    · rw [if_neg he, acTail_cons pos l he, isAc_iff (hl y (by simp))]
      split
      · simp [*]
      · rename_i h1
        split
        · rename_i h2
          simp only [reduceCtorEq, false_iff, not_and]
          intro _ h3
          have := acTail_le h3
          omega
        · rw [ih (fun z hz => hl z (by simp [hz])) _ _ (by omega)]
          simp [h1]

/-- The loop of WF_SYM passes over AC symbols that fit (spec/43_zigzag_rle.md R266). -/
theorem wfSymFrom_append {pre l : List Sym} (h : ∀ x ∈ pre, x.isAc) (i pos : Nat) (hp : pos + acPositions pre ≤ 63) :
    wfSymFrom i pos (pre ++ l) = wfSymFrom (i + pre.length) (pos + acPositions pre) l := by
  induction pre generalizing i pos with
  | nil => simp [acPositions]
  | cons y pre ih =>
    have hy := h y (by simp)
    have ep : acPositions (y :: pre) = y.run.toNat + 1 + acPositions pre := by simp [acPositions]
    rw [ep] at hp
    have hne := hy.ne_eob
    obtain ⟨h1, h2, h3, h4⟩ := hy
    have := abs_le.mp h3
    rw [List.cons_append, wfSymFrom, if_neg hne, if_neg (by rw [bitlen_eq]; omega), if_neg (by omega),
      ih (fun x hx => h x (by simp [hx])) _ _ (by omega), ep, List.length_cons]
    congr 1 <;> omega

/-- The loop of WF_SYM fails at an entry that is wrong, with its index (spec/43_zigzag_rle.md R266). -/
theorem wfSymFrom_some {z : Sym} (post : List Sym) (i pos : Nat) (ha : -32768 ≤ z.amp ∧ z.amp ≤ 32767)
    (h : z = Sym.eob ∧ (post ≠ [] ∨ pos = 63) ∨ z ≠ Sym.eob ∧ (¬ z.isAc ∨ 63 < pos + z.run.toNat + 1)) :
    wfSymFrom i pos (z :: post) = some i := by
  unfold wfSymFrom
  rcases h with ⟨h1, h2⟩ | ⟨h1, h2⟩
  · rw [if_pos h1, if_pos h2]
  · rw [if_neg h1]
    split
    · rfl
    · rename_i h3
      rw [if_pos]
      rcases h2 with h2 | h2
      · exact absurd ((isAc_iff ha).mpr h3) h2
      · omega

/-! ### RLEENC -/

/-- What symbols stand for (spec/43_zigzag_rle.md R268). -/
theorem spreadAc_cons (y : Sym) (l : List Sym) : spreadAc (y :: l) = List.replicate y.run.toNat 0 ++ y.amp :: spreadAc l := by
  simp [spreadAc]

/-- RLEENC's loop on coefficients that all fit: AC symbols that stand for them (spec/43_zigzag_rle.md R267). -/
theorem rleAc_ok (l : List Int) :
    ∀ (k run pos : Nat), pos + run + l.length = 63 → (∀ a ∈ l, |a| ≤ 32767) →
      ∃ out, rleAc k run l = .ok out ∧ acTail pos out ∧
        ∃ n, spreadAc out ++ List.replicate n 0 = List.replicate run 0 ++ l := by
  induction l with
  | nil =>
    intro k run pos h _
    simp only [List.length_nil, Nat.add_zero] at h
    refine ⟨_, rfl, ?_⟩
    by_cases hr : run > 0
    · rw [if_pos hr, acTail_eob]
      refine ⟨⟨rfl, by omega⟩, run - 1, ?_⟩
      obtain ⟨r, rfl⟩ : ∃ r, run = r + 1 := ⟨run - 1, by omega⟩
      rw [Nat.add_sub_cancel, List.replicate_succ]
      simp [spreadAc, Sym.eob]
    · rw [if_neg hr, acTail_nil]
      have : run = 0 := by omega
      subst this
      exact ⟨by omega, 0, rfl⟩
  | cons a l ih =>
    intro k run pos h hl
    simp only [List.length_cons] at h
    unfold rleAc
    by_cases ha : a = 0
    · rw [if_pos ha]
      obtain ⟨out, h1, h2, n, h3⟩ := ih (k + 1) (run + 1) pos (by omega) fun x hx => hl x (by simp [hx])
      refine ⟨out, h1, h2, n, ?_⟩
      rw [h3, ha, List.replicate_succ']
      simp
    · rw [if_neg ha, if_pos ((fitsAmp_iff a).mpr (hl a (by simp)))]
      obtain ⟨out, h1, h2, n, h3⟩ := ih (k + 1) 0 (pos + run + 1) (by omega) fun x hx => hl x (by simp [hx])
      rw [h1]
      refine ⟨_, rfl, ?_, n, ?_⟩
      · have hz : (⟨run, bitlen a, a⟩ : Sym).isAc :=
          ⟨Int.natCast_nonneg _, ha, hl a (by simp), bitlen_eq a⟩
        exact (acTail_cons pos out hz.ne_eob).mpr ⟨hz, by simpa using h2⟩
      · rw [spreadAc_cons]
        simp only [Int.toNat_natCast, List.append_assoc, List.cons_append, h3]
        simp

/-- RLEENC's loop on a coefficient that does not fit: E_RANGE with its scan position (spec/43_zigzag_rle.md R267). -/
theorem rleAc_error (pre : List Int) (a : Int) (post : List Int) (ha : 32767 < |a|) :
    ∀ (k run : Nat), (∀ x ∈ pre, |x| ≤ 32767) →
      rleAc k run (pre ++ a :: post) = .error (.num .range (k + pre.length)) := by
  induction pre with
  | nil =>
    intro k run _
    have h0 : a ≠ 0 := by intro e; simp [e] at ha
    have hf : ¬ fitsAmp a = true := fun e => by have := (fitsAmp_iff a).mp e; omega
    simp [rleAc, h0, hf]
  | cons x pre ih =>
    intro k run h
    rw [List.cons_append]
    unfold rleAc
    have e : k + (x :: pre).length = k + 1 + pre.length := by simp; omega
    by_cases hx : x = 0
    · rw [if_pos hx, ih (k + 1) (run + 1) fun y hy => h y (by simp [hy]), e]
    · rw [if_neg hx, if_pos ((fitsAmp_iff x).mpr (h x (by simp))), ih (k + 1) 0 fun y hy => h y (by simp [hy]), e]

/-- Well-formed AC symbols are the ones that RLEENC gives for what they stand for (spec/43_zigzag_rle.md R271). -/
theorem rleAc_spread (out : List Sym) :
    ∀ (k pos n : Nat), acTail pos out → pos + (spreadAc out).length + n = 63 →
      rleAc k 0 (spreadAc out ++ List.replicate n 0) = .ok out := by
  have zeros : ∀ (n k run : Nat) (l : List Int), rleAc k run (List.replicate n 0 ++ l) = rleAc (k + n) (run + n) l := by
    intro n
    induction n with
    | zero => intro k run l; simp
    | succ n ih =>
      intro k run l
      rw [List.replicate_succ, List.cons_append]
      conv_lhs => unfold rleAc
      rw [if_pos rfl, ih]
      congr 1 <;> omega
  induction out with
  | nil =>
    intro k pos n h1 h2
    rw [acTail_nil] at h1
    have : n = 0 := by simp [spreadAc] at h2; omega
    subst this
    simp [spreadAc, rleAc]
  | cons y l ih =>
    intro k pos n h1 h2
    by_cases he : y = Sym.eob
    · subst he
      obtain ⟨rfl, h3⟩ := (acTail_eob _ _).mp h1
      have e : spreadAc [Sym.eob] ++ List.replicate n 0 = List.replicate (n + 1) 0 ++ [] := by
        simp [spreadAc, Sym.eob, List.replicate_succ]
      rw [e, zeros, rleAc]
      simp
    · obtain ⟨hz, h3⟩ := (acTail_cons _ l he).mp h1
      rw [spreadAc_cons] at h2 ⊢
      simp only [List.length_append, List.length_replicate, List.length_cons] at h2
      rw [List.append_assoc, List.cons_append, zeros]
      unfold rleAc
      rw [if_neg hz.2.1, if_pos ((fitsAmp_iff _).mpr hz.2.2.1),
        ih (k + y.run.toNat + 1) (pos + y.run.toNat + 1) n h3 (by omega)]
      have e : (⟨((0 + y.run.toNat : Nat) : Int), bitlen y.amp, y.amp⟩ : Sym) = y := by
        rw [Nat.zero_add, Int.toNat_of_nonneg hz.1, bitlen_eq, ← hz.2.2.2]
      simp only [e]

/-! ### RLEDEC -/

theorem zz_injective {k l : Fin 64} (h : zz k = zz l) : k = l := by
  have e : ∀ k : Fin 64, izz (zz k) = k := by decide +kernel
  rw [← e k, ← e l, h]

theorem rlePlace_eob (pos : Nat) (l : List Sym) (t : Block) : rlePlace pos (Sym.eob :: l) t = t := by simp [rlePlace]

theorem rlePlace_cons (pos : Nat) {y : Sym} (l : List Sym) (t : Block) (h : y ≠ Sym.eob) :
    rlePlace pos (y :: l) t =
      rlePlace (pos + y.run.toNat + 1) l (t.set (zz (Fin.ofNat 64 (pos + y.run.toNat + 1))) (wrap32 y.amp)) := by
  simp [rlePlace, h]

/-- RLEDEC's walk: every position up to `pos` keeps its value, the later ones hold what the symbols stand for, then zeros
(spec/43_zigzag_rle.md R268). -/
theorem rlePlace_spec (ac : List Sym) :
    ∀ (pos : Nat) (t : Block), acTail pos ac → (∀ k : Fin 64, pos < k.val → t[zz k] = 0) →
      ∀ k : Fin 64, (rlePlace pos ac t)[zz k] =
        if k.val ≤ pos then t[zz k] else wrap32 ((spreadAc ac).getD (k.val - pos - 1) 0) := by
  induction ac with
  | nil =>
    intro pos t _ h0 k
    unfold rlePlace
    split
    · rfl
    · rw [h0 k (by omega)]; rfl
  | cons y l ih =>
    intro pos t ht h0 k
    by_cases he : y = Sym.eob
    · subst he
      obtain ⟨rfl, -⟩ := (acTail_eob _ _).mp ht
      simp only [rlePlace_eob]
      split
      · rfl
      · rw [h0 k (by omega)]
        have : spreadAc [Sym.eob] = [0] := rfl
        rw [this]
        cases k.val - pos - 1 <;> rfl
    · obtain ⟨-, h3⟩ := (acTail_cons _ l he).mp ht
      have hle := acTail_le h3
      simp only [rlePlace_cons pos l t he]
      have hv : (Fin.ofNat 64 (pos + y.run.toNat + 1)).val = pos + y.run.toNat + 1 := by
        simp only [Fin.ofNat]; omega
      have hset : ∀ j : Fin 64, (t.set (zz (Fin.ofNat 64 (pos + y.run.toNat + 1))) (wrap32 y.amp))[zz j] =
          if j.val = pos + y.run.toNat + 1 then wrap32 y.amp else t[zz j] := by
        intro j
        by_cases hj : j.val = pos + y.run.toNat + 1
        · have : Fin.ofNat 64 (pos + y.run.toNat + 1) = j := Fin.ext (by omega)
          rw [if_pos hj]
          simp only [Fin.getElem_fin, Vector.getElem_set]
          rw [if_pos (by rw [this])]
        · have hne : (zz (Fin.ofNat 64 (pos + y.run.toNat + 1))).val ≠ (zz j).val := fun e =>
            hj (by have := congrArg Fin.val (zz_injective (Fin.ext e)); omega)
          rw [if_neg hj]
          simp only [Fin.getElem_fin]
          rw [Vector.getElem_set, if_neg hne]
      rw [ih _ _ h3 (fun j hj => by rw [hset, if_neg (by omega)]; exact h0 j (by omega)), hset, spreadAc_cons]
      by_cases h1 : k.val ≤ pos
      · rw [if_pos (by omega), if_neg (by omega), if_pos h1]
      · rw [if_neg h1]
        by_cases h2 : k.val ≤ pos + y.run.toNat
        · rw [if_pos (by omega), if_neg (by omega), h0 k (by omega), List.getD_append _ _ _ _ (by simp; omega)]
          rw [List.getD_replicate _ (by omega)]; rfl
        · rw [List.getD_append_right _ _ _ _ (by simp; omega), List.length_replicate]
          by_cases h4 : k.val = pos + y.run.toNat + 1
          · have : k.val - pos - 1 - y.run.toNat = 0 := by omega
            rw [if_pos (by omega), if_pos h4, this]; rfl
          · obtain ⟨n, hn⟩ : ∃ n, k.val - pos - 1 - y.run.toNat = n + 1 := ⟨k.val - pos - 1 - y.run.toNat - 1, by omega⟩
            have e : k.val - (pos + y.run.toNat + 1) - 1 = n := by omega
            rw [if_neg (by omega), hn, e]; rfl

end Sys2Proof.Machine
end

