-- ==== Sys2Proof/Machine/Asm.lean ====
section
/-! DEFINITION. The assembler syntax of the commands (spec/30_encoding.md R156): printing an instruction and reading one
line. One command per line, operands separated by commas, a comment after `;` (log 24). -/

namespace Sys2Proof.Machine

/-- The mnemonic as the table spells it (30_encoding.md R152). -/
def mnemText : Mnem → String
  | .nop => "NOP"
  | .dcreset => "DCRESET"
  | .bwreset => "BWRESET"
  | .brreset => "BRRESET"
  | .refclr => "REFCLR"
  | .wbclr => "WBCLR"
  | .fdct => "FDCT"
  | .idct => "IDCT"
  | .quant => "QUANT"
  | .dequant => "DEQUANT"
  | .qscale => "QSCALE"
  | .qdefault => "QDEFAULT"
  | .qload => "QLOAD"
  | .zzscan => "ZZSCAN"
  | .zzunscan => "ZZUNSCAN"
  | .rleenc => "RLEENC"
  | .rledec => "RLEDEC"
  | .hbuild => "HBUILD"
  | .hdefault => "HDEFAULT"
  | .henc => "HENC"
  | .hdec => "HDEC"
  | .hflush => "HFLUSH"
  | .refsave => "REFSAVE"
  | .msearch => "MSEARCH"
  | .resid => "RESID"
  | .recon => "RECON"
  | .mvload => "MVLOAD"

/-- The ch token (30_encoding.md R156). -/
def chanText : Chan → String
  | .y => "Y"
  | .cb => "Cb"
  | .cr => "Cr"

/-- The tid token (30_encoding.md R156). -/
def tidText : TableId → String
  | .luma => "0"
  | .chroma => "1"

/-- The cls token (30_encoding.md R156). -/
def clsText : TableClass → String
  | .dc => "DC"
  | .ac => "AC"

/-- The operands of an instruction in the order of its syntax (30_encoding.md R156): bx before by. -/
def operandTexts : Instr → List String
  | .nop | .dcreset | .bwreset | .brreset | .refclr | .wbclr | .fdct | .idct | .zzscan | .zzunscan | .hflush | .resid
  | .recon => []
  | .quant ch | .dequant ch | .rleenc ch | .rledec ch | .henc ch | .hdec ch => [chanText ch]
  | .qscale tid q => [tidText tid, Nat.repr q]
  | .qdefault tid | .qload tid => [tidText tid]
  | .hbuild cls tid | .hdefault cls tid => [clsText cls, tidText tid]
  | .refsave ch bx row | .msearch ch bx row => [chanText ch, Nat.repr bx, Nat.repr row]
  | .mvload ch mv bx row => [chanText ch, Nat.repr mv, Nat.repr bx, Nat.repr row]

/-- An instruction as a line of assembler text (30_encoding.md R156). -/
def asmText (i : Instr) : String :=
  match operandTexts i with
  | [] => mnemText i.mnem
  | o :: os => os.foldl (fun t o => t ++ ", " ++ o) (mnemText i.mnem ++ " " ++ o)

/-- A blank of a source line. -/
def isBlank (c : Char) : Bool := c == ' ' || c == '\t'

/-- A piece of text without the blanks around it. -/
def trimBlanks (l : List Char) : List Char := ((l.dropWhile isBlank).reverse.dropWhile isBlank).reverse

/-- ch: `Y`, `Cb` or `Cr`, case-insensitive, also `U` = Cb and `V` = Cr (30_encoding.md R156). -/
def parseChan (l : List Char) : Option Chan :=
  match l.map Char.toLower with
  | ['y'] => some .y
  | ['c', 'b'] => some .cb
  | ['u'] => some .cb
  | ['c', 'r'] => some .cr
  | ['v'] => some .cr
  | _ => none

/-- tid: `0`/`LUMA` or `1`/`CHROMA` (30_encoding.md R156). -/
def parseTid (l : List Char) : Option TableId :=
  if l = ['0'] ∨ l = ['L', 'U', 'M', 'A'] then some .luma
  else if l = ['1'] ∨ l = ['C', 'H', 'R', 'O', 'M', 'A'] then some .chroma
  else none

/-- cls: `DC` or `AC` (30_encoding.md R156). -/
def parseCls (l : List Char) : Option TableClass :=
  if l = ['D', 'C'] then some .dc else if l = ['A', 'C'] then some .ac else none

/-- A digit of base 16; below 10 of base 10 too. -/
def digitOf (c : Char) : Option Nat :=
  if '0' ≤ c ∧ c ≤ '9' then some (c.toNat - 48)
  else if 'a' ≤ c ∧ c ≤ 'f' then some (c.toNat - 87)
  else if 'A' ≤ c ∧ c ≤ 'F' then some (c.toNat - 55)
  else none

/-- The digits of a number in a base, most significant first, after the value read so far. -/
def parseDigits (base : Nat) : Nat → List Char → Option Nat
  | v, [] => some v
  | v, c :: cs =>
    match digitOf c with
    | some d => if d < base then parseDigits base (v * base + d) cs else none
    | none => none

/-- A decimal or 0x-hexadecimal number (30_encoding.md R156). -/
def parseNum (l : List Char) : Option Nat :=
  match l with
  | [] => none
  | '0' :: 'x' :: c :: cs => parseDigits 16 0 (c :: cs)
  | c :: cs => parseDigits 10 0 (c :: cs)

/-- The mnemonic of a token, letter for letter. -/
def parseMnem (l : List Char) : Option Mnem :=
  (opTable.map OpRow.mnem).find? fun m => (mnemText m).toList == l

/-- An instruction from its mnemonic and operand texts (30_encoding.md R156); a value that does not fit its field is
rejected, never truncated. -/
def parseOperands (m : Mnem) (ops : List (List Char)) : Option Instr :=
  let i : Option Instr :=
    match m, ops with
    | .nop, [] => some .nop
    | .dcreset, [] => some .dcreset
    | .bwreset, [] => some .bwreset
    | .brreset, [] => some .brreset
    | .refclr, [] => some .refclr
    | .wbclr, [] => some .wbclr
    | .fdct, [] => some .fdct
    | .idct, [] => some .idct
    | .zzscan, [] => some .zzscan
    | .zzunscan, [] => some .zzunscan
    | .hflush, [] => some .hflush
    | .resid, [] => some .resid
    | .recon, [] => some .recon
    | .quant, [c] => (parseChan c).map .quant
    | .dequant, [c] => (parseChan c).map .dequant
    | .rleenc, [c] => (parseChan c).map .rleenc
    | .rledec, [c] => (parseChan c).map .rledec
    | .henc, [c] => (parseChan c).map .henc
    | .hdec, [c] => (parseChan c).map .hdec
    | .qdefault, [t] => (parseTid t).map .qdefault
    | .qload, [t] => (parseTid t).map .qload
    | .qscale, [t, q] => (parseTid t).bind fun t => (parseNum q).map (.qscale t)
    | .hbuild, [c, t] => (parseCls c).bind fun c => (parseTid t).map (.hbuild c)
    | .hdefault, [c, t] => (parseCls c).bind fun c => (parseTid t).map (.hdefault c)
    | .refsave, [c, x, y] => (parseChan c).bind fun c => (parseNum x).bind fun x => (parseNum y).map (.refsave c x)
    | .msearch, [c, x, y] => (parseChan c).bind fun c => (parseNum x).bind fun x => (parseNum y).map (.msearch c x)
    | .mvload, [c, v, x, y] =>
      (parseChan c).bind fun c => (parseNum v).bind fun v => (parseNum x).bind fun x => (parseNum y).map (.mvload c v x)
    | _, _ => none
  i.filter Instr.wf

/-- Cut a list at every comma; no text at all has no operand. -/
def splitOperands (l : List Char) : List (List Char) := if trimBlanks l = [] then [] else (l.splitOn ',').map trimBlanks

/-- One source line as an instruction (30_encoding.md R156): mnemonic, operands, optional comment. -/
def assembleLine (line : List Char) : Option Instr :=
  let text := trimBlanks (line.takeWhile (· != ';'))
  (parseMnem (text.takeWhile fun c => !isBlank c)).bind fun m =>
    parseOperands m (splitOperands (text.dropWhile fun c => !isBlank c))

end Sys2Proof.Machine
end

