-- ==== Sys2Proof/Machine/HostProgram.lean ====
section
/-! DEFINITION. The host's pseudo-instructions as events (spec/30_encoding.md R157) and the arithmetic of its block
placement (spec/70_reset_and_hazards.md R484, R485; SUBSAMPLING_411 of spec/00_scope.md R8). A host program is the list of
these events; its decisions between commands are Lean functions of the state it has read. -/

namespace Sys2Proof.Machine

/-- `WR a, v`: HostWrite(a, v) (30_encoding.md R157). -/
def wrEvent (a : BusAddr) (v : Word) : Event := .access (.write .word a v)

/-- `RD a`: HostRead(a); the value is the bus response's data (30_encoding.md R157). -/
def rdEvent (a : BusAddr) : Event := .access (.read .word a)

/-- `WAIT` after a command (30_encoding.md R157): the engine has its turn and the next STATUS read shows BUSY = 0. -/
def waitEvents : List Event := [.engine, rdEvent 0x00014]

/-- The host program stops with a fault after a WAIT that reads ERR = 1 (30_encoding.md R157). -/
def State.programStops (s : State) : Bool := s.err

/-- `MN ops`: WR CMD, then WAIT (30_encoding.md R157). -/
def cmdEvents (i : Instr) : List Event := wrEvent 0x00018 (encode i) :: waitEvents

/-- `LDWB v0, ..., v63` (30_encoding.md R157). -/
def ldwbEvents (b : Block) : List Event :=
  (List.finRange 64).map fun k => wrEvent (BitVec.ofNat 18 (0x00800 + 4 * k.val)) b[k]

/-- `LDRB v0, ..., v63` (30_encoding.md R157). -/
def ldrbEvents (b : Block) : List Event :=
  (List.finRange 64).map fun k => wrEvent (BitVec.ofNat 18 (0x00900 + 4 * k.val)) b[k]

/-- `ENCBLK ch` (30_encoding.md R157). -/
def encblkEvents (ch : Chan) : List Event := [.fdct, .quant ch, .rleenc ch, .henc ch].flatMap cmdEvents

/-- `RECONBLK ch` (30_encoding.md R157). -/
def reconblkEvents (ch : Chan) : List Event := [.dequant ch, .idct].flatMap cmdEvents

/-- `DECBLK ch` (30_encoding.md R157). -/
def decblkEvents (ch : Chan) : List Event := [.hdec ch, .rledec ch, .dequant ch, .idct].flatMap cmdEvents

/-- `LOADDQT tid, b0..b63` (30_encoding.md R157): the DQT bytes in the stream's zigzag order. -/
def loaddqtEvents (tid : TableId) (b : Block) : List Event :=
  ldwbEvents b ++ cmdEvents .zzunscan ++ cmdEvents (.qload tid)

/-- `LOADDHT cls, tid, bits[1..16], vals[]` (30_encoding.md R157, 44_huffman.md R307). -/
def loaddhtEvents (cls : TableClass) (tid : TableId) (bits : Vector Byte 16) (vals : List Byte) : List Event :=
  ((List.finRange 16).map fun n => wrEvent (BitVec.ofNat 18 (0x00100 + 4 * n.val)) (wordOfByte bits[n]))
    ++ (vals.mapIdx fun i v => wrEvent (BitVec.ofNat 18 (0x00400 + 4 * i)) (wordOfByte v))
    ++ cmdEvents (.hbuild cls tid)

/-- `IF flag ... ELSE ... END`: a branch of the host on a STATUS field it has read (30_encoding.md R157). -/
def ifEvents (flag : Bool) (yes no : List Event) : List Event := if flag then yes else no

/-- The subsampling modes (70_reset_and_hazards.md R484). -/
inductive Sampling where
  | s444
  | s422h
  | s422v
  | s411
  deriving DecidableEq, Repr

/-- The luminance sampling factors (H, V) of a mode (70_reset_and_hazards.md R484 item 3). -/
def samplingFactors (p : Params) : Sampling → Nat × Nat
  | .s444 => (1, 1)
  | .s422h => (2, 1)
  | .s422v => (1, 2)
  | .s411 => p.subsampling411

/-- The channels of an MCU's blocks in order (70_reset_and_hazards.md R484 item 3): H·V luminance blocks, then Cb, then
Cr. -/
def mcuChannels (p : Params) (m : Sampling) : List Chan :=
  List.replicate ((samplingFactors p m).1 * (samplingFactors p m).2) .y ++ [.cb, .cr]

/-- The number of blocks of a w×h image (70_reset_and_hazards.md R484 item 4). -/
def imageBlocks (p : Params) (m : Sampling) (w h : Nat) : Nat :=
  let hm := (samplingFactors p m).1
  let vm := (samplingFactors p m).2
  ((w + 8 * hm - 1) / (8 * hm)) * ((h + 8 * vm - 1) / (8 * vm)) * (hm * vm + 2)

/-- The pixel position of a grid coordinate (30_encoding.md R144, 45_motion.md R360, 70_reset_and_hazards.md R485). -/
def pixelOf (bx row : Nat) : Nat × Nat := (8 * bx, 8 * row)

end Sys2Proof.Machine
end

