-- ==== Sys2Proof/Tests/Slice0.lean ====
section
/-! SUPPORT. The model's own tests: the well-formedness check refuses each ill-formed operand; words written out from
spec/30_encoding.md R143 and R152 (and spec/95_test_vectors.md 2.1) decode to their commands; one step on a small state per
test, with the values of spec/95_test_vectors.md; and, for every statement with hypotheses, a state that meets them
(theorems witness_...). -/

namespace Sys2Proof.Tests

open Sys2Proof.Machine

set_option Elab.async false

/-! ## Helpers -/

/-- A block from its elements in raster order; the missing ones are 0. -/
def blockL (l : List Int) : Block := Vector.ofFn fun k => BitVec.ofInt 32 (l.getD k.val 0)

/-- A block of one value. -/
def flat (v : Int) : Block := Vector.replicate 64 (BitVec.ofInt 32 v)

/-- A block that is 0 but for one element. -/
def oneAt (k : Nat) (v : Int) : Block := Vector.ofFn fun j => if j.val = k then BitVec.ofInt 32 v else 0

/-- A state whose symbol buffer holds the given symbols. -/
def withSyms (l : List Sym) (s : State) : State :=
  { s with sym := writeSyms s.sym l, symn := BitVec.ofNat 7 l.length }

/-- A table with the given codes and no others. -/
def tableOf (n : Nat) (l : List (Nat × Slot)) : Vector Slot n :=
  ⟨⟨(List.range n).map fun y => (l.lookup y).getD ⟨0, 0⟩⟩, by simp⟩

/-- The reset state with a few codes of the default luminance tables (95 2.5) in place of all, so that tests stay small. -/
def small : State :=
  { State.reset with
    hdc0 := tableOf 12 [(0, ⟨2, 0b00⟩), (1, ⟨3, 0b010⟩), (6, ⟨4, 0b1110⟩), (9, ⟨7, 0b1111110⟩)]
    hac0 := tableOf 256 [(0x00, ⟨4, 0b1010⟩), (0x01, ⟨2, 0b00⟩), (0x04, ⟨4, 0b1011⟩), (0x61, ⟨7, 0b1111011⟩),
      (0xF0, ⟨11, 0b11111111001⟩)] }

/-- That state, with SYM loaded. -/
def symState (l : List Sym) : State := withSyms l small

/-- The reset state, with WB loaded. -/
def wbState (b : Block) : State := { State.reset with wb := b }

/-- That state, with bytes in INBUF from index 0 on and INLEN after them (20_memory.md R103). -/
def inState (l : List Nat) : State :=
  { small with inbuf := l.mapIdx fun i b => (i, BitVec.ofNat 8 b), inlen := BitVec.ofNat 15 l.length }

/-- HBITS and HVALS loaded with a definition. -/
def stageState (bits vals : List Nat) : State :=
  { State.reset with hbits := byteTable 16 bits, hvals := byteTable 256 vals }

/-- A 4×4 grid of channel Y with two usable cells: (1, 0) of value 10 and (0, 1) of value 12, RADIUS 1 (95 M4). -/
def gridState : State :=
  { State.reset with
    radius := 1
    grid0 := ⟨4, 4⟩
    ref := [(refKey .y 1 0, ⟨true, flat 10⟩), (refKey .y 0 1, ⟨true, flat 12⟩)] }

/-- A state with a fault pending (95 X1). -/
def faultState : State := { State.reset with err := true, errCode := 1, errInfo := 0x18000000 }

/-- What an instruction's next state shows. -/
def after {α : Type} (i : Instr) (s : State) (f : State → α) : Option α :=
  match exec i s with
  | .next t => some (f t)
  | .fault _ => none
  | .refused _ => none

theorem of_after {α : Type} {i : Instr} {s : State} {f : State → α} {v : α} (h : after i s f = some v) :
    ∃ t, exec i s = .next t ∧ f t = v := by
  unfold after at h
  split at h
  · exact ⟨_, ‹_›, Option.some.inj h⟩
  · cases h
  · cases h

/-- The fault an instruction raises: ERR, ERRCODE, ERRDETAIL, CMDCNT. -/
def faultOf (i : Instr) (s : State) : Option (Bool × Byte × Nat × Word) :=
  after i s fun t => (t.err, t.errCode, t.errDetail.toNat, t.cmdCnt)

/-- WB as numbers. -/
def ints (b : Block) : List Int := b.toList.map BitVec.toInt

/-- The bytes of OUTBUF below OUTPTR, with BWN and BWACC. -/
def written (s : State) : List Nat × Nat × Nat :=
  ((List.range s.outptr.toNat).map fun i => ((Sparse.get s.outbuf i).getD 0).toNat, s.bwn.toNat, s.bwacc.toNat)

/-! ## Well-formedness -/

theorem test_wf_qscale : (Instr.qscale .luma 128).wf = false ∧ (Instr.qscale .luma 127).wf = true := by decide
theorem test_wf_refsave_bx : (Instr.refsave .y 256 0).wf = false ∧ (Instr.refsave .y 255 255).wf = true := by decide
theorem test_wf_refsave_row : (Instr.refsave .y 0 256).wf = false := by decide
theorem test_wf_msearch_bx : (Instr.msearch .cb 256 0).wf = false ∧ (Instr.msearch .cb 255 255).wf = true := by decide
theorem test_wf_msearch_row : (Instr.msearch .cb 0 256).wf = false := by decide
theorem test_wf_mvload_mv : (Instr.mvload .cr 256 0 0).wf = false ∧ (Instr.mvload .cr 255 255 255).wf = true := by decide
theorem test_wf_mvload_bx : (Instr.mvload .cr 0 256 0).wf = false := by decide
theorem test_wf_mvload_row : (Instr.mvload .cr 0 0 256).wf = false := by decide

/-! ## Decoding: words from 30_encoding.md R143, R152 (OP in bits [31:26], CH [25:24], MVF [23:16], CLS bit 17, TID bit 16,
BY [15:8], BX [7:0], QF [6:0]) -/

theorem test_decode_nop : decode 0b000000_00_00000000_00000000_00000000 = .ok .nop := by decide
theorem test_decode_dcreset : decode 0b000001_00_00000000_00000000_00000000 = .ok .dcreset := by decide
theorem test_decode_bwreset : decode 0b000010_00_00000000_00000000_00000000 = .ok .bwreset := by decide
theorem test_decode_brreset : decode 0b000011_00_00000000_00000000_00000000 = .ok .brreset := by decide
theorem test_decode_refclr : decode 0b000100_00_00000000_00000000_00000000 = .ok .refclr := by decide
theorem test_decode_wbclr : decode 0b000101_00_00000000_00000000_00000000 = .ok .wbclr := by decide
theorem test_decode_fdct : decode 0b001000_00_00000000_00000000_00000000 = .ok .fdct := by decide
theorem test_decode_idct : decode 0b001001_00_00000000_00000000_00000000 = .ok .idct := by decide
theorem test_decode_quant : decode 0b010000_10_00000000_00000000_00000000 = .ok (.quant .cr) := by decide
theorem test_decode_dequant : decode 0b010001_01_00000000_00000000_00000000 = .ok (.dequant .cb) := by decide
theorem test_decode_qscale : decode 0b010010_00_00000001_00000000_01001011 = .ok (.qscale .chroma 75) := by decide
theorem test_decode_qdefault : decode 0b010011_00_00000001_00000000_00000000 = .ok (.qdefault .chroma) := by decide
theorem test_decode_qload : decode 0b010100_00_00000001_00000000_00000000 = .ok (.qload .chroma) := by decide
theorem test_decode_zzscan : decode 0b011000_00_00000000_00000000_00000000 = .ok .zzscan := by decide
theorem test_decode_zzunscan : decode 0b011001_00_00000000_00000000_00000000 = .ok .zzunscan := by decide
theorem test_decode_rleenc : decode 0b011010_01_00000000_00000000_00000000 = .ok (.rleenc .cb) := by decide
theorem test_decode_rledec : decode 0b011011_10_00000000_00000000_00000000 = .ok (.rledec .cr) := by decide
theorem test_decode_hbuild : decode 0b100000_00_00000011_00000000_00000000 = .ok (.hbuild .ac .chroma) := by decide
theorem test_decode_hdefault : decode 0b100001_00_00000010_00000000_00000000 = .ok (.hdefault .ac .luma) := by decide
theorem test_decode_henc : decode 0b100010_00_00000000_00000000_00000000 = .ok (.henc .y) := by decide
theorem test_decode_hdec : decode 0b100011_10_00000000_00000000_00000000 = .ok (.hdec .cr) := by decide
theorem test_decode_hflush : decode 0b100100_00_00000000_00000000_00000000 = .ok .hflush := by decide
theorem test_decode_refsave : decode 0b101000_00_00000000_00000001_00000010 = .ok (.refsave .y 2 1) := by decide
theorem test_decode_msearch : decode 0b101001_01_00000000_00000100_00000011 = .ok (.msearch .cb 3 4) := by decide
theorem test_decode_resid : decode 0b101010_00_00000000_00000000_00000000 = .ok .resid := by decide
theorem test_decode_recon : decode 0b101011_00_00000000_00000000_00000000 = .ok .recon := by decide
theorem test_decode_mvload : decode 0b101100_00_11101101_00000011_00000010 = .ok (.mvload .y 0xED 2 3) := by decide

/-- 95_test_vectors.md 2.1, the illegal words, with their ERRDETAIL. -/
theorem test_decode_illegal :
    [0x20000001, 0x18000000, 0xFC000000, 0x43000000, 0x43000001, 0x4B000000, 0x480000CB, 0x50020000, 0xA5010403,
        0xB3ED0302, 0x00000001].map (fun w => match decode w with | .ok _ => 9 | .error e => e.detail.toNat) =
      [1, 0, 0, 2, 1, 1, 1, 1, 1, 2, 1] := by decide

/-- 30_encoding.md R156: the encodings of the syntax examples of 95_test_vectors.md 2.1. -/
theorem test_encode :
    [Instr.qscale .luma 75, .hbuild .ac .chroma, .refsave .y 2 1, .msearch .cb 3 4, .mvload .y 0xED 2 3, .hdec .cr].map
        encode =
      [0x4800004B, 0x80030000, 0xA0000102, 0xA5000403, 0xB0ED0302, 0x8E000000] := by decide

theorem test_decode_table_word :
    decodeTableWord 32 0x4800004B = some (.qscale .luma 75) ∧ decodeTableWord 32 0x18000000 = none ∧
      decodeTableWord 32 0x100000000 = none := by decide

/-- 30_encoding.md R156: case of the channel token, hexadecimal and decimal numbers, comments, values that do not fit. -/
theorem test_assemble :
    ["QUANT u", "MVLOAD Y, 0xED, 2, 3 ; vector", "QSCALE LUMA, 127", "QSCALE 0, 128", "REFSAVE Y, 256, 0",
        "HBUILD AC, 1"].map (fun l => assembleLine l.toList) =
      [some (.quant .cb), some (.mvload .y 0xED 2 3), some (.qscale .luma 127), none, none, some (.hbuild .ac .chroma)] := by
  decide +kernel

theorem test_print : asmText (.mvload .cr 237 2 3) = "MVLOAD Cr, 237, 2, 3" ∧ asmText .fdct = "FDCT" := by decide +kernel

/-! ## Meanings: values from 95_test_vectors.md, named in each docstring -/

/-- K1. -/
theorem test_nop : after .nop { State.reset with cmdCnt := 5 } (fun t => (t.cmdCnt, t.done)) = some (6, true) := by
  decide +kernel
/-- 60_exceptions.md R439: CMDCNT wraps. -/
theorem test_nop_wraps : after .nop { State.reset with cmdCnt := 0xFFFFFFFF } (·.cmdCnt) = some 0 := by decide +kernel
/-- K2. -/
theorem test_dcreset :
    after .dcreset { State.reset with lastDc0 := -48, lastDc1 := 9, lastDc2 := 32767 }
      (fun t => (t.lastDc0, t.lastDc1, t.lastDc2)) = some (0, 0, 0) := by decide +kernel
/-- K3. -/
theorem test_bwreset :
    after .bwreset { State.reset with outptr := 5, bwn := 3, bwacc := 5 } (fun t => (t.outptr, t.bwstateWord)) =
      some (0, 0) := by decide +kernel
/-- K4. -/
theorem test_brreset :
    after .brreset { State.reset with inpos := 5, inbits := 7, inprev := 0xB5, inlen := 9 }
      (fun t => (t.inpos, t.inbits, t.inprev, t.inlen)) = some (0, 0, 0, 9) := by decide +kernel
/-- K5: after REFCLR no cell is usable. -/
theorem test_refclr : after .refclr gridState (fun t => (t.usable .y 1 0, t.usable .y 0 1)) = some (none, none) := by
  decide +kernel
/-- K6. -/
theorem test_wbclr : after .wbclr (wbState (flat 9)) (·.wb) = some (flat 0) := by decide +kernel

/-- T3: the ramp WB[k] = k. -/
theorem test_fdct_ramp :
    after .fdct (wbState (blockL ((List.range 64).map Int.ofNat))) (fun t => (ints t.wb).take 9) =
      some [-772, -18, 0, -1, 0, 0, 0, 0, -145] := by decide +kernel
/-- T6: saturation. -/
theorem test_fdct_saturates :
    after .fdct (wbState (flat 0x7FFFFFFF)) (fun t => (t.wb[0], t.wb[1])) = some (0x7FFFFFFF, 0) := by decide +kernel
/-- T8: one horizontal frequency. -/
theorem test_idct_row :
    after .idct (wbState (oneAt 1 100)) (fun t => (ints t.wb).take 8) = some [145, 143, 138, 131, 125, 118, 113, 111] := by
  decide +kernel
/-- T7: ties go toward +∞. -/
theorem test_idct_ties :
    ([4, -4, 12, -12].map fun d => after .idct (wbState (oneAt 0 d)) (fun t => t.wb[63].toInt)) =
      [some 129, some 128, some 130, some 127] := by decide +kernel

/-- 2.3: QUANT Y, and QUANT Cr by QT1. -/
theorem test_quant :
    after (.quant .y) (wbState (blockL [-772, -18, 0, -1, 0, 0, 0, 0, -145])) (fun t => (ints t.wb).take 9) =
      some [-48, -1, 0, 0, 0, 0, 0, 0, -12] := by decide +kernel
theorem test_quant_chroma : after (.quant .cr) (wbState (oneAt 0 (-100))) (fun t => t.wb[0].toInt) = some (-5) := by
  decide +kernel
/-- 2.3: DEQUANT Y wraps. -/
theorem test_dequant_wraps : after (.dequant .y) (wbState (oneAt 0 0x08000000)) (·.wb[0]) = some 0x80000000 := by
  decide +kernel
theorem test_dequant_chroma : after (.dequant .cb) (wbState (oneAt 63 (-3))) (fun t => t.wb[63].toInt) = some (-297) := by
  decide +kernel
/-- 2.3: QSCALE 0, 49. -/
theorem test_qscale :
    after (.qscale .luma 49) State.reset (fun t => (t.qt0.toList.take 8).map BitVec.toNat) =
      some [16, 11, 10, 16, 24, 41, 52, 62] := by decide +kernel
/-- 2.3: QSCALE 0, 101 faults. -/
theorem test_qscale_fault : faultOf (.qscale .luma 101) State.reset = some (true, 0x02, 101, 0) := by decide +kernel
/-- 42_quantizer.md R234. -/
theorem test_qdefault :
    after (.qdefault .chroma) { State.reset with qt1 := Vector.replicate 64 2 } (fun t => (t.qt1[0], t.qt1[63])) =
      some (17, 99) := by decide +kernel
/-- 2.3: QLOAD 1 of twos. -/
theorem test_qload : after (.qload .chroma) (wbState (flat 2)) (fun t => (t.qt1[63], t.qt0[0])) = some (2, 16) := by
  decide +kernel
/-- 2.3: QLOAD 0 with WB[5] = 0 and WB[9] = 300. -/
theorem test_qload_fault :
    faultOf (.qload .luma) (wbState (blockL ([2, 2, 2, 2, 2, 0, 2, 2, 2, 300] ++ List.replicate 54 2))) =
      some (true, 0x03, 5, 0) := by decide +kernel

/-- 2.4: ZZSCAN with WB[r] = r. -/
theorem test_zzscan :
    after .zzscan (wbState (blockL ((List.range 64).map Int.ofNat))) (fun t => (ints t.wb).take 10) =
      some [0, 1, 8, 16, 9, 2, 3, 10, 17, 24] := by decide +kernel
/-- 2.4: ZZUNSCAN with WB[k] = k gives the IZZ table. -/
theorem test_zzunscan :
    after .zzunscan (wbState (blockL ((List.range 64).map Int.ofNat))) (fun t => (ints t.wb).take 10) =
      some [0, 1, 5, 6, 14, 15, 27, 28, 2, 4] := by decide +kernel
/-- S4: a run of 19 is not split. -/
theorem test_rleenc :
    after (.rleenc .y) (wbState (oneAt 40 5)) (fun t => t.syms) = some [⟨-1, 0, 0⟩, ⟨19, 3, 5⟩, ⟨0, 0, 0⟩] := by
  decide +kernel
/-- S7. -/
theorem test_rleenc_fault : faultOf (.rleenc .y) (wbState (oneAt 16 40000)) = some (true, 0x04, 3, 0) := by decide +kernel
/-- S20. -/
theorem test_rledec :
    after (.rledec .cb) { symState [⟨-1, 1, -1⟩, ⟨0, 0, 0⟩] with lastDc1 := 10 } (fun t => (t.wb[0], t.wb[1], t.lastDc1)) =
      some (9, 0, 9) := by decide +kernel
/-- S16: ends at position 4 without EOB. -/
theorem test_rledec_fault : faultOf (.rledec .y) (symState [⟨-1, 0, 0⟩, ⟨3, 1, 1⟩]) = some (true, 0x05, 2, 0) := by
  decide +kernel

/-- B2: the gap at length 2 shifts once per length step. -/
theorem test_hbuild :
    after (.hbuild .dc .chroma) (stageState [1, 0, 2] [5, 6, 7]) (fun t => (t.hdc1[5], t.hdc1[6], t.hdc1[7], t.hdc1[0])) =
      some (⟨1, 0⟩, ⟨3, 4⟩, ⟨3, 5⟩, ⟨0, 0⟩) := by decide +kernel
/-- B4, B5, B6, B7. -/
theorem test_hbuild_faults :
    [faultOf (.hbuild .dc .luma) (stageState [0, 13] (List.range 13)), faultOf (.hbuild .dc .luma) (stageState [1] [12]),
        faultOf (.hbuild .ac .chroma) (stageState [0, 2] [3, 3]), faultOf (.hbuild .ac .luma) (stageState [3] [1, 2, 3])] =
      [some (true, 0x06, 1, 0), some (true, 0x06, 2, 0), some (true, 0x06, 3, 0), some (true, 0x06, 4, 0)] := by
  decide +kernel
/-- B9 for HDC0: the list of 95 2.5; HBITS is not read. -/
theorem test_hdefault :
    after (.hdefault .dc .luma) { stageState [1] [5] with hdc0 := Vector.replicate 12 ⟨0, 0⟩ }
      (fun t => (t.hdc0[0], t.hdc0[6], t.hdc0[11])) =
      some (⟨2, 0b00⟩, ⟨4, 0b1110⟩, ⟨9, 0b111111110⟩) := by decide +kernel
/-- H1. -/
theorem test_henc :
    after (.henc .y) (symState [⟨-1, 6, -48⟩, ⟨0, 1, -1⟩, ⟨0, 4, -12⟩, ⟨6, 1, -1⟩, ⟨0, 0, 0⟩]) written =
      some ([0xE3, 0xC5, 0x9F, 0xB5], 1, 0) := by decide +kernel
/-- H9: the byte FF is followed by stuffing. -/
theorem test_henc_stuffing :
    after (.henc .y) (symState [⟨-1, 9, -256⟩, ⟨0, 0, 0⟩]) written = some ([0xFC, 0xFF, 0x00], 4, 0b1010) := by
  decide +kernel
/-- 2.6: HFLUSH alone with BWN 7, BWACC 0b1111111. -/
theorem test_hflush : after .hflush { State.reset with bwn := 7, bwacc := 0x7F } written = some ([0xFE], 0, 0) := by
  decide +kernel
/-- H17: no room; E_OUT_FULL with the count that would have been reached. -/
theorem test_hflush_full :
    faultOf .hflush { State.reset with bwn := 1, outptr := 4, cfg := { Params.core with outSize := 4 } } =
      some (true, 0x08, 5, 0) := by decide +kernel
/-- D3: the stuffing byte is skipped. -/
theorem test_hdec :
    after (.hdec .y) (inState [0xFC, 0xFF, 0x00, 0xA0]) (fun t => (t.syms, t.inpos, t.inbits, t.inprev)) =
      some ([⟨-1, 9, -256⟩, ⟨0, 0, 0⟩], 4, 4, 0xA0) := by decide +kernel
/-- D8, D9, D10. -/
theorem test_hdec_faults :
    [faultOf (.hdec .y) (inState [0x3F, 0xCF, 0xF9, 0xFF, 0x00, 0x3F, 0xE4]),
        faultOf (.hdec .y) (inState [0xFF, 0x00, 0xFF, 0x00]), faultOf (.hdec .y) (inState [0xE3, 0xC5])] =
      [some (true, 0x0C, 1, 0), some (true, 0x0A, 0, 0), some (true, 0x09, 2, 0)] := by decide +kernel

/-- 45_motion.md R362. -/
theorem test_refsave :
    after (.refsave .y 3 2) { gridState with wb := flat 5 } (fun t => (t.usable .y 3 2, t.usable .y 1 0, t.usable .y 2 3)) =
      some (some (flat 5), some (flat 10), none) := by decide +kernel
/-- M8 for REFSAVE: outside the grid. -/
theorem test_refsave_fault : faultOf (.refsave .y 4 0) gridState = some (true, 0x0D, 4, 0) := by decide +kernel
/-- M4, ROW_MAJOR and COLUMN_MAJOR. -/
theorem test_msearch :
    after (.msearch .y 0 0) { gridState with wb := flat 11 } (fun t => (t.mv, t.matchWord, t.sse, t.rb[0], t.found)) =
        some (0x10, 0x0001, 64, 10, true) ∧
      after (.msearch .y 0 0)
          { gridState with wb := flat 11, cfg := { Params.core with searchOrder := .columnMajor } }
          (fun t => (t.mv, t.matchWord, t.sse, t.rb[0], t.found)) =
        some (0x01, 0x0100, 64, 12, true) := by decide +kernel
/-- M7: no usable cell. -/
theorem test_msearch_none :
    after (.msearch .y 3 3) { gridState with rb := flat 1 } (fun t => (t.mv, t.matchWord, t.sse, t.rb[0], t.found)) =
      some (0, 0x0303, 0xFFFFFFFF, 0, false) := by decide +kernel
/-- M10's vector 0xED (dx = −2, dy = −3) from (3, 3): cell (1, 0). -/
theorem test_mvload : after (.mvload .y 0xED 3 3) gridState (·.rb) = some (flat 10) := by decide +kernel
/-- M11: cell (0, 7) is outside the grid. -/
theorem test_mvload_fault : faultOf (.mvload .y 0xF7 1 0) gridState = some (true, 0x0E, 0xF7, 0) := by decide +kernel
/-- M14. -/
theorem test_resid :
    after .resid { wbState (oneAt 0 (-2147483648)) with rb := oneAt 0 1 } (fun t => (t.wb[0], t.wb[1], t.zres)) =
      some (0x7FFFFFFF, 0, false) := by decide +kernel
/-- M15. -/
theorem test_resid_zero : after .resid { wbState (flat 7) with rb := flat 7 } (fun t => (t.wb, t.zres)) =
    some (flat 0, true) := by decide +kernel
/-- M16. -/
theorem test_recon : after .recon { wbState (oneAt 0 0x7FFFFFFF) with rb := oneAt 0 1 } (·.wb[0]) = some 0x80000000 := by
  decide +kernel

/-! ## Steps and the bus -/

/-- X1 to X4, one event a step. -/
def busRun (s : State) (es : List Event) : Option (Nat × Nat × Nat) :=
  match Host.Core.run Sys2Proof.core es.length { s with env := es } with
  | .next t => some (t.statusWord.toNat, t.errInfo.toNat, t.cmdCnt.toNat)
  | .fault _ => none
  | .refused _ => none

theorem test_illegal_then_clear :
    busRun State.reset [wrEvent 0x18 0x18000000, .engine] = some (0x0104, 0x18000000, 0) ∧
      busRun faultState [wrEvent 0x18 0] = some (0x0124, 0x18000000, 0) ∧
      busRun { faultState with drop := true } [wrEvent 0x14 0x24] = some (0, 0, 0) := by decide +kernel

/-- The first instruction after reset, as the host places it (log 2). -/
theorem test_fetch_word :
    (match step (State.reset.withFetchWord 32 0x4800007F) with
      | .next t => some (t.errCode, t.errDetail, t.errInfo)
      | .fault _ => none
      | .refused _ => none) = some (0x02, 127, 0x4800007F) := by decide +kernel

/-- X9: a byte access and a misaligned one. -/
theorem test_bus_error :
    (hostAccess (.read .byte 0x14) State.reset).resp = some ⟨0, true⟩ ∧
      (hostAccess (.read .word 0x06) State.reset).resp = some ⟨0, true⟩ := by decide +kernel

/-! ## Witnesses: for each statement with hypotheses, states and operands that meet them all, each clause at the ends of its
range -/

/-- A channel-Y decoder table: two DC sizes and four AC symbols, so that every form of HDEC can be met. -/
def hdecBase : State :=
  { State.reset with
    hdc0 := ((Vector.replicate 12 ⟨0, 0⟩).set 0 ⟨1, 0b0⟩).set 3 ⟨2, 0b10⟩
    hdc1 := Vector.replicate 12 ⟨0, 0⟩
    hac0 := ((((Vector.replicate 256 ⟨0, 0⟩).set 0x00 ⟨7, 0b0000000⟩).set 0x10 ⟨4, 0b1110⟩).set 0xF0 ⟨3, 0b110⟩).set 0xF1
      ⟨5, 0b11110⟩
    hac1 := Vector.replicate 256 ⟨0, 0⟩ }

/-- The decoder state with bytes in INBUF. -/
def hdecState (l : List Nat) : State :=
  { hdecBase with inbuf := l.mapIdx fun i b => (i, BitVec.ofNat 8 b), inlen := BitVec.ofNat 15 l.length }

/-- That state with the low n bits of the first byte left. -/
def hdecBits (n : Nat) (l : List Nat) : State := { hdecState l with inpos := 1, inbits := BitVec.ofNat 4 n }

/-- Parameters with short tables, all legal. -/
def tinyParams : Params :=
  { Params.core with
    defaultHac0 := ⟨byteTable 16 [], byteTable 256 []⟩
    defaultHac1 := ⟨byteTable 16 [], byteTable 256 []⟩ }

/-- A state of those parameters with the decoder's tables. -/
def tiny : State := { hdecBase with cfg := tinyParams }

theorem prefixFree_hdecBase : hdecBase.huffLegal := by
  refine ⟨⟨by simp only [Slot.legal]; decide +kernel, by simp only [Slot.prefixOf]; decide +kernel⟩,
    ⟨by simp only [Slot.legal]; decide +kernel, by simp only [Slot.prefixOf]; decide +kernel⟩, ⟨?_, ?_⟩, ⟨?_, ?_⟩⟩
  · intro a
    simp only [hdecBase, Fin.getElem_fin, Vector.getElem_set, Vector.getElem_replicate, Slot.legal]
    split_ifs <;> decide
  · intro a b hab
    have hab' : a.val ≠ b.val := fun h => hab (Fin.ext h)
    simp only [hdecBase, Fin.getElem_fin, Vector.getElem_set, Vector.getElem_replicate, Slot.prefixOf]
    split_ifs <;> first | omega | decide
  · intro a
    simp only [hdecBase, Fin.getElem_fin, Vector.getElem_replicate, Slot.legal]
    decide
  · intro a b _
    simp only [hdecBase, Fin.getElem_fin, Vector.getElem_replicate, Slot.prefixOf]
    decide

theorem witness_DecodeEncodeRoundTrip : (Instr.qscale .chroma 127).wf = true ∧ (Instr.mvload .cr 255 255 255).wf = true := by
  decide
theorem witness_DecodedWordIsItsEncoding : decode 0xB2FFFFFF = .ok (.mvload .cr 255 255 255) := by decide
theorem witness_IllegalWordsInOrder :
    ((0x43000000 : Word).extractLsb' 26 6 = Mnem.quant.opcode ∧ (0xB3000000 : Word).extractLsb' 26 6 = Mnem.mvload.opcode) ∧
      ∀ e w, (e, w) ∈ [(DecodeError.unassignedOp, (0xFC000000 : Word)), (.reservedBit, 0x43000001), (.channelThree, 0xB3000000)] →
        ∃ s : State, s.env = [] ∧ s.pending = some w ∧ decode w = .error e := by
  refine ⟨by decide, fun e w h => ⟨{ State.reset with pending := some w }, rfl, rfl, ?_⟩⟩
  simp only [List.mem_cons, Prod.mk.injEq, List.not_mem_nil, or_false] at h
  rcases h with ⟨rfl, rfl⟩ | ⟨rfl, rfl⟩ | ⟨rfl, rfl⟩ <;> decide
theorem witness_StepRunsDecodedCommand :
    (∃ s : State, s.pending = some 0x20000000 ∧ decode 0x20000000 = .ok .fdct ∧ s.env = []) ∧
      (∃ s : State, s.pending = some 0x20000000 ∧ s.env = [.engine, .hardReset]) ∧
      (∃ s : State, s.pending = none ∧ s.env = []) ∧ (∃ s : State, s.pending = none ∧ s.env = [.engine]) ∧
      (∃ s : State, s.env = [rdEvent 0x14]) ∧ ∃ s : State, s.env = [.hardReset] :=
  ⟨⟨{ State.reset with pending := some 0x20000000 }, rfl, by decide, rfl⟩,
    ⟨{ State.reset with pending := some 0x20000000, env := [.engine, .hardReset] }, rfl, rfl⟩, ⟨State.reset, rfl, rfl⟩,
    ⟨{ State.reset with env := [.engine] }, rfl, rfl⟩, ⟨{ State.reset with env := [rdEvent 0x14] }, rfl⟩,
    ⟨{ State.reset with env := [.hardReset] }, rfl⟩⟩
/-- Each clause has a command that changes what it names. -/
theorem witness_CommandsWriteOnlyTheirOwn :
    [after .wbclr (wbState (oneAt 0 1)) (fun t => t.wb[0] != 1), after (.mvload .y 0x10 0 0) gridState (fun t => t.rb[0] != 0),
        after (.rleenc .y) (wbState (oneAt 0 1)) (fun t => t.symn != 0 && t.lastDc0 != 0),
        after (.rleenc .cb) (wbState (oneAt 0 1)) (fun t => t.lastDc1 != 0),
        after (.rleenc .cr) (wbState (oneAt 0 1)) (fun t => t.lastDc2 != 0),
        after (.qload .luma) (wbState (flat 1)) (fun t => t.qt0[0] != 16),
        after (.hbuild .dc .luma) (stageState [1] [5]) (fun t => t.hdc0[5] != ⟨3, 0b110⟩),
        after .bwreset { State.reset with outptr := 5 } (fun t => t.outptr != 5),
        after .hflush { State.reset with bwn := 1 } (fun t => t.outbuf != []),
        after .brreset { State.reset with inpos := 5 } (fun t => t.inpos != 5),
        after (.refsave .y 0 0) gridState (fun t => t.ref != gridState.ref),
        after (.msearch .y 0 0) gridState (fun t => t.mv != 0 && t.found),
        after .resid State.reset (fun t => t.zres),
        after .fdct { State.reset with cfg := { Params.core with epsNum := 1 } } (fun t => t.draws != 0)] =
      List.replicate 14 (some true) := by decide +kernel
theorem witness_FlagsBelongToTwoCommands :
    ∃ t, exec .nop State.reset = .next t ∧ Instr.nop.mnem ≠ .resid ∧ Instr.nop.mnem ≠ .msearch := ⟨_, rfl, by decide⟩
theorem witness_FdctExact : State.reset.cfg.epsNum = 0 := rfl
theorem witness_IdctExact : State.reset.cfg.epsNum = 0 := rfl
theorem witness_TransformsStayInBand :
    0 < State.reset.cfg.epsDen ∧ 0 < ({ Params.core with epsNum := 1, epsDen := 2 } : Params).epsDen := by decide
theorem witness_ConstantBlockTransforms :
    (State.reset.cfg.epsNum = 0 ∧ |(0 : Word).toInt - 128| < 2 ^ 28 ∧ State.reset.wb = Vector.replicate 64 0) ∧
      |(0x1000007F : Word).toInt - 128| = 2 ^ 28 - 1 ∧ |(0xF0000081 : Word).toInt - 128| = 2 ^ 28 - 1 :=
  ⟨⟨rfl, by decide, rfl⟩, by decide, by decide⟩
theorem witness_TransformRanges :
    (∀ k : Fin 64, |(flat 128)[k].toInt - 128| ≤ (0 : Nat)) ∧
      (2 ^ 28 - 1 < 2 ^ 28 ∧ ∀ k : Fin 64, |(flat 0x1000007F)[k].toInt - 128| ≤ (2 ^ 28 - 1 : Nat)) ∧
      (2 ^ 27 - 1 < 2 ^ 27 ∧ ∀ k : Fin 64, |(flat (1 - 2 ^ 27))[k].toInt| ≤ (2 ^ 27 - 1 : Nat)) := by
  simp only [flat, Fin.getElem_fin, Vector.getElem_replicate]
  decide
theorem witness_QscaleResult : (127 < 128) ∧ (1 ≤ 1 ∧ 1 ≤ 100) ∧ (1 ≤ 100 ∧ 100 ≤ 100) ∧ (0 < 1 ∨ 100 < 0) ∧ (101 < 1 ∨ 100 < 101) ∧
    TableId.chroma ≠ .luma := by decide
theorem witness_QloadResult :
    (∀ k : Fin 64, 1 ≤ (flat 1)[k].toInt ∧ (flat 255)[k].toInt ≤ 255) ∧
      ((∀ j < (0 : Fin 64), 1 ≤ (flat 256)[j].toInt) ∧ 255 < (flat 256)[(0 : Fin 64)].toInt) ∧
      ∃ b : Block, (∀ j < (63 : Fin 64), 1 ≤ b[j].toInt ∧ b[j].toInt ≤ 255) ∧ b[(63 : Fin 64)].toInt < 1 := by
  refine ⟨?_, ?_, blockL (List.replicate 63 255), by decide +kernel, by decide +kernel⟩ <;>
    simp only [flat, Fin.getElem_fin, Vector.getElem_replicate] <;> decide
/-- SYMN 0 and 65; no DC symbol; an EOB that is not last, one at position 63, a wrong size, a run to position 64; entries that
end at position 62. -/
theorem witness_WellFormedSymbols :
    (State.reset.symn.toNat = 0 ∧ 64 < ({ State.reset with symn := 65 } : State).symn.toNat) ∧
      ((symState [⟨0, 1, 1⟩]).syms = [⟨0, 1, 1⟩] ∧ ¬ Sym.isDc ⟨0, 1, 1⟩) ∧
      (Sym.isDc ⟨-1, 0, 0⟩ ∧ Sym.isAc ⟨62, 1, 1⟩ ∧ acPositions [⟨62, 1, 1⟩] = 63 ∧ Sym.isAc ⟨61, 1, 1⟩ ∧
        acPositions [⟨61, 1, 1⟩] = 62 ∧ ¬ Sym.isAc ⟨0, 2, 1⟩ ∧ 63 < acPositions [] + (63 : Int).toNat + 1) ∧
      ∀ l ∈ [[⟨-1, 0, 0⟩, Sym.eob, Sym.eob], [⟨-1, 0, 0⟩, ⟨62, 1, 1⟩, Sym.eob], [⟨-1, 0, 0⟩, ⟨0, 2, 1⟩],
          [⟨-1, 0, 0⟩, ⟨63, 1, 1⟩], [⟨-1, 0, 0⟩, ⟨61, 1, 1⟩]], (symState l).syms = l := by
  refine ⟨by decide, ⟨by decide +kernel, ?_⟩, ?_, by decide +kernel⟩
  · unfold Sym.isDc
    decide
  · unfold Sym.isDc Sym.isAc
    decide +kernel
theorem witness_RleencResult :
    (∃ s : State, (32767 : Int) = s.wb[0].toInt - (s.lastDcOf .y).toInt ∧ ∀ a ∈ acScan s.wb, |a| ≤ 32767) ∧
      (∃ s : State, (-32768 : Int) = s.wb[0].toInt - (s.lastDcOf .cr).toInt) ∧
      (∃ s : State, s.wb[0].toInt - (s.lastDcOf .y).toInt = 0 ∧ 32767 < |s.wb[zz (Fin.succ (0 : Fin 63))].toInt|) ∧
      ∃ s : State, s.wb[0].toInt - (s.lastDcOf .y).toInt = 0 ∧
        (∀ j < (62 : Fin 63), |s.wb[zz j.succ].toInt| ≤ 32767) ∧ 32767 < |s.wb[zz (Fin.succ (62 : Fin 63))].toInt| :=
  ⟨⟨wbState (blockL (List.replicate 64 32767)), by decide +kernel, by decide +kernel⟩,
    ⟨{ State.reset with lastDc2 := 0x8000 }, by decide +kernel⟩,
    ⟨wbState (oneAt 1 (-32768)), by decide +kernel, by decide +kernel⟩,
    ⟨wbState (oneAt 63 32768), by decide +kernel, by decide +kernel, by decide +kernel⟩⟩
theorem witness_RledecResult :
    State.reset.wfSym = some 0xFFFF ∧
      (symState [⟨-1, 1, 1⟩, ⟨0, 0, 0⟩]).wfSym = none ∧ (symState [⟨-1, 1, 1⟩, ⟨0, 0, 0⟩]).syms = [⟨-1, 1, 1⟩, ⟨0, 0, 0⟩] ∧
      (2 ^ 31 - 1 : Int) = (0x7FFFFFFE : Word).toInt + 1 ∧ (2 ^ 31 : Int) = (0x7FFFFFFF : Word).toInt + 1 ∧
      (symState [⟨-1, 1, -1⟩, ⟨0, 0, 0⟩]).wfSym = none ∧ (-2 ^ 31 : Int) = (0x80000001 : Word).toInt + -1 := by
  decide +kernel
theorem witness_RunLengthRoundTrips :
    (|(wbState (oneAt 0 32767)).wb[0].toInt - (State.reset.lastDcOf .y).toInt| ≤ 32767 ∧
        ∀ a ∈ acScan (wbState (oneAt 0 32767)).wb, |a| ≤ 32767) ∧
      (symState [⟨-1, 1, 1⟩, ⟨0, 0, 0⟩]).wfSym = none ∧ (symState [⟨-1, 1, 1⟩, ⟨0, 0, 0⟩]).syms = [⟨-1, 1, 1⟩, ⟨0, 0, 0⟩] ∧
      -2 ^ 31 ≤ ((symState [⟨-1, 1, 1⟩, ⟨0, 0, 0⟩]).lastDcOf .y).toInt + 1 := by decide +kernel
/-- The five clauses at their ends: 13 and 12 codes, DC symbols 12 and 11, a symbol twice, Kraft sums above 1 and equal
to 1. -/
theorem witness_HbuildResult :
    slotCount .dc < (codeLengths (stageState [0, 13] []).hbits).length ∧
      ((codeLengths (stageState [0, 0, 0, 12] []).hbits).length = slotCount .dc) ∧
      (∃ v ∈ ((stageState [1] [12]).hvals.toList.take 1).map BitVec.toNat, 12 ≤ v) ∧
      (∀ v ∈ ((stageState [1] [11]).hvals.toList.take 1).map BitVec.toNat, v < 12) ∧
      ¬ (((stageState [0, 2] [3, 3]).hvals.toList.take 2).map BitVec.toNat).Nodup ∧
      (((stageState [3] [1, 2, 3]).hvals.toList.take 3).map BitVec.toNat).Nodup ∧
      2 ^ 16 < kraft16 (codeLengths (stageState [3] [1, 2, 3]).hbits) ∧
      kraft16 (codeLengths (stageState [2] [1, 2]).hbits) = 2 ^ 16 ∧ kraft16 (codeLengths (stageState [] []).hbits) = 0 := by
  decide +kernel
theorem witness_HdefaultResult : tiny.paramsLegal ∧ (TableClass.dc, TableId.luma) ≠ (.ac, .luma) := by
  refine ⟨?_, by decide⟩
  show tinyParams.legal = true
  decide +kernel
/-- H9's symbols with room for exactly its three bytes. -/
theorem witness_HencResult :
    ∃ s : State, s.wfSym = none ∧ blockCoded (s.huffSlot .dc (huffTableId .y)) (s.huffSlot .ac (huffTableId .y)) s.syms ∧
      s.outptr.toNat + (stuffBytes (packBytes (s.pendingBits ++
        blockBits (s.huffSlot .dc (huffTableId .y)) (s.huffSlot .ac (huffTableId .y)) s.syms))).length = s.cfg.outSize := by
  refine ⟨{ symState [⟨-1, 9, -256⟩, ⟨0, 0, 0⟩] with cfg := { Params.core with outSize := 3 } }, by decide +kernel,
    ⟨⟨-1, 9, -256⟩, [⟨0, 0, 0⟩], by decide +kernel, by decide +kernel, ?_⟩, by decide +kernel⟩
  unfold acCoded
  decide +kernel
theorem witness_HencFaults :
    State.reset.wfSym = some 0xFFFF ∧
      ((symState [⟨-1, 12, 4095⟩, ⟨0, 0, 0⟩]).wfSym = none ∧
        (symState [⟨-1, 12, 4095⟩, ⟨0, 0, 0⟩]).syms = [⟨-1, 12, 4095⟩, ⟨0, 0, 0⟩] ∧ (small.huffSlot .dc .luma 12).len = 0) ∧
      (∃ (s : State) (y z : Sym) (pre post : List Sym), s.wfSym = none ∧ s.syms = y :: (pre ++ z :: post) ∧
        (s.huffSlot .dc .luma y.size).len ≠ 0 ∧ (∀ x ∈ pre, acCoded (s.huffSlot .ac .luma) x) ∧
        ¬ acCoded (s.huffSlot .ac .luma) z) ∧
      ∃ s : State, s.wfSym = none ∧ blockCoded (s.huffSlot .dc .luma) (s.huffSlot .ac .luma) s.syms ∧
        s.cfg.outSize < s.outptr.toNat + (stuffBytes (packBytes (s.pendingBits ++
          blockBits (s.huffSlot .dc .luma) (s.huffSlot .ac .luma) s.syms))).length := by
  refine ⟨by decide +kernel, by decide +kernel,
    ⟨symState [⟨-1, 0, 0⟩, ⟨0, 1, 1⟩, ⟨0, 2, 2⟩, ⟨0, 0, 0⟩], ⟨-1, 0, 0⟩, ⟨0, 2, 2⟩, [⟨0, 1, 1⟩], [⟨0, 0, 0⟩],
      by decide +kernel, by decide +kernel, by decide +kernel, ?_, ?_⟩,
    { symState [⟨-1, 9, -256⟩, ⟨0, 0, 0⟩] with cfg := { Params.core with outSize := 2 } }, by decide +kernel,
    ⟨⟨-1, 9, -256⟩, [⟨0, 0, 0⟩], by decide +kernel, by decide +kernel, ?_⟩, by decide +kernel⟩ <;>
    unfold acCoded <;> decide +kernel
theorem witness_HflushResult :
    State.reset.bwn = 0 ∧ (∃ s : State, s.bwn = 7 ∧ s.outptr.toNat + 1 = s.cfg.outSize) ∧
      ∃ s : State, s.bwn ≠ 0 ∧ s.cfg.outSize < s.outptr.toNat + 1 :=
  ⟨rfl, ⟨{ State.reset with bwn := 7, outptr := 16383 }, by decide⟩, ⟨{ State.reset with bwn := 1, outptr := 16384 }, by decide⟩⟩
theorem witness_ExtendInvertsAmpBits :
    (0 : Int).natAbs.size = 0 ∧ (-32767 : Int).natAbs.size = 15 ∧ (1 : Int).natAbs.size = 1 := by decide +kernel

theorem symsWellFormed_empty : symsWellFormed [⟨-1, 0, 0⟩, Sym.eob] :=
  ⟨_, _, rfl, ⟨rfl, by decide, by decide +kernel⟩, .inr ⟨[], rfl, by simp, by decide⟩⟩
theorem blockCoded_empty : blockCoded (hdecBase.huffSlot .dc .luma) (hdecBase.huffSlot .ac .luma) [⟨-1, 0, 0⟩, Sym.eob] := by
  refine ⟨_, _, rfl, by decide +kernel, ?_⟩
  unfold acCoded
  decide +kernel
/-- The block of no coefficients, alone in the stream, followed by a byte, and with three ZRLs before its EOB. -/
theorem witness_HdecDecodesBlock :
    hdecBase.huffLegal ∧ symsWellFormed [⟨-1, 0, 0⟩, Sym.eob] ∧
      blockCoded (hdecBase.huffSlot .dc .luma) (hdecBase.huffSlot .ac .luma) [⟨-1, 0, 0⟩, Sym.eob] ∧
      (hdecState [0x00]).cursorBits =
        blockBits (hdecBase.huffSlot .dc .luma) (hdecBase.huffSlot .ac .luma) [⟨-1, 0, 0⟩, Sym.eob] ++ [] ∧
      (hdecState [0x00, 0x80]).cursorBits =
        blockBits (hdecBase.huffSlot .dc .luma) (hdecBase.huffSlot .ac .luma) [⟨-1, 0, 0⟩, Sym.eob] ++
          (true :: List.replicate 7 false) ∧
      ∃ bits, readsAsBlock (hdecBase.huffSlot .dc .luma) (hdecBase.huffSlot .ac .luma) [⟨-1, 0, 0⟩, Sym.eob] bits ∧
        bits.length = 17 ∧ (hdecState [0x6D, 0x80, 0x00]).cursorBits = bits ++ List.replicate 7 false :=
  ⟨prefixFree_hdecBase, symsWellFormed_empty, blockCoded_empty, by decide +kernel, by decide +kernel, _,
    .inr ⟨⟨-1, 0, 0⟩, [], 3, rfl, by decide +kernel, by decide, rfl⟩, by decide +kernel, by decide +kernel⟩

theorem hdecBase_dc {y : Nat} (hy : (hdecBase.huffSlot .dc .luma y).len ≠ 0) : y = 0 ∨ y = 3 := by
  rcases Nat.lt_or_ge y 12 with h | h
  · have : ∀ y : Fin 12, (hdecBase.huffSlot .dc .luma y.val).len ≠ 0 → y.val = 0 ∨ y.val = 3 := by decide +kernel
    exact this ⟨y, h⟩ hy
  · simp [State.huffSlot, Vector.getElem?_eq_none h] at hy
theorem hdecBase_ac {b : Nat} (hb : (hdecBase.huffSlot .ac .luma b).len ≠ 0) : b = 0x00 ∨ b = 0x10 ∨ b = 0xF0 ∨ b = 0xF1 := by
  rcases Nat.lt_or_ge b 256 with h | h
  · simp only [State.huffSlot, hdecBase, Vector.getElem?_eq_getElem h, Option.getD_some, Vector.getElem_set,
      Vector.getElem_replicate] at hb
    split_ifs at hb <;> first | omega | exact absurd rfl hb
  · simp [State.huffSlot, Vector.getElem?_eq_none h] at hb

/-- No byte; no byte for a whole block; 15 and 16 bits of no DC code; a DC amplitude of which the last bit is missing. -/
theorem witness_HdecFaults :
    ((hdecState []).inbits = 0 ∧ (hdecState []).inlen.toNat ≤ (hdecState []).inpos.toNat) ∧
      ((hdecState []).cursorBits ++ List.replicate 8 false =
        blockBits (hdecBase.huffSlot .dc .luma) (hdecBase.huffSlot .ac .luma) [⟨-1, 0, 0⟩, Sym.eob]) ∧
      (∀ s ∈ [hdecBits 7 [0x7F, 0xFF], hdecState [0xFF, 0, 0xFF, 0]], ∀ y : Nat, (hdecBase.huffSlot .dc .luma y).len ≠ 0 →
          ¬ codeBits (hdecBase.huffSlot .dc .luma y) <+: s.cursorBits) ∧
      (hdecBits 7 [0x7F, 0xFF]).cursorBits.length = 15 ∧ (hdecState [0xFF, 0, 0xFF, 0]).cursorBits.length = 16 ∧
      (hdecBits 4 [0x08]).cursorBits = codeBits (hdecBase.huffSlot .dc .luma 3) ++ [false, false] := by
  refine ⟨by decide +kernel, by decide +kernel, fun s hs y hy => ?_, by decide +kernel, by decide +kernel, by decide +kernel⟩
  simp only [List.mem_cons, List.not_mem_nil, or_false] at hs
  rcases hs with rfl | rfl <;> rcases hdecBase_dc hy with rfl | rfl <;> decide +kernel

/-- After AC symbols of 48 positions without ZRLs, and after one to three ZRLs from position 0: 15 and 16 bits and more of no
AC code; symbol 0x10; symbol 0xF1 and one more ZRL that pass position 63 (D8); symbol 0xF1 without its amplitude bit. -/
theorem witness_HdecFaults_ac :
    (Sym.isDc ⟨-1, 0, 0⟩ ∧ Sym.isAc ⟨47, 1, 1⟩ ∧ acCoded (hdecBase.huffSlot .ac .luma) ⟨47, 1, 1⟩ ∧
        acPositions [⟨47, 1, 1⟩] = 48) ∧
      (∀ b ∈ [0x10, 0xF0, 0xF1], (hdecBase.huffSlot .ac .luma b).len ≠ 0) ∧
      (∀ n : Nat, ∀ b : Nat, (hdecBase.huffSlot .ac .luma b).len ≠ 0 →
        ¬ codeBits (hdecBase.huffSlot .ac .luma b) <+: List.replicate 5 true ++ List.replicate n true) ∧
      ∀ q ∈ [(hdecState [0x6D, 0xEF, 0x80], ([⟨47, 1, 1⟩] : List Machine.Sym), 0, codeBits (hdecBase.huffSlot .ac .luma 0xF1) ++ List.replicate 6 false),
          (hdecState [0x6D, 0xEE], ([⟨47, 1, 1⟩] : List Machine.Sym), 0, codeBits (hdecBase.huffSlot .ac .luma 0xF0) ++ []),
          (hdecState [0x70], [], 0, codeBits (hdecBase.huffSlot .ac .luma 0x10) ++ List.replicate 3 false),
          (hdecState [0x7F, 0xFF, 0x00, 0x80], [], 0, List.replicate 5 true ++ (List.replicate 11 true ++ List.replicate 7 false)),
          (hdecBits 3 [0x03, 0x7F, 0xFF], [], 1, List.replicate 5 true ++ List.replicate 10 true),
          (hdecState [0x6F, 0xFF, 0x00, 0xFF], [], 1, List.replicate 5 true ++ List.replicate 15 true),
          (hdecState [0x6E], [], 1, codeBits (hdecBase.huffSlot .ac .luma 0x10) ++ []),
          (hdecState [0x6D, 0xBC], [], 3, codeBits (hdecBase.huffSlot .ac .luma 0xF1) ++ [false]),
          (hdecState [0x6D, 0xB0], [], 3, codeBits (hdecBase.huffSlot .ac .luma 0xF0) ++ List.replicate 3 false),
          (hdecBits 4 [0x06, 0xDE], [], 2, codeBits (hdecBase.huffSlot .ac .luma 0xF1) ++ [])],
        q.1.cursorBits = blockBits (hdecBase.huffSlot .dc .luma) (hdecBase.huffSlot .ac .luma) (⟨-1, 0, 0⟩ :: q.2.1) ++
          zrlBits (hdecBase.huffSlot .ac .luma) q.2.2.1 ++ q.2.2.2 := by
  refine ⟨⟨⟨rfl, by decide, by decide +kernel⟩, ⟨by decide, by decide, by decide, by decide +kernel⟩, ?_, by decide⟩,
    by decide +kernel, fun n b hb h => ?_, by decide +kernel⟩
  · unfold acCoded
    decide +kernel
  · have : codeBits (hdecBase.huffSlot .ac .luma b) <+: List.replicate 7 true := by
      have hl : (codeBits (hdecBase.huffSlot .ac .luma b)).length ≤ 7 := by
        rcases hdecBase_ac hb with rfl | rfl | rfl | rfl <;> decide +kernel
      rw [← List.replicate_append_replicate.symm, List.prefix_replicate_iff] at h
      exact List.prefix_replicate_iff.mpr ⟨hl, h.2⟩
    revert this
    rcases hdecBase_ac hb with rfl | rfl | rfl | rfl <;> decide +kernel
theorem witness_HdecSymbolsWellFormed :
    ∃ t, exec (.hdec .y) (hdecState [0x00]) = .next t ∧ (hdecState [0x00]).err = false ∧ t.err = false := by
  have h : after (.hdec .y) (hdecState [0x00]) State.err = some false := by decide +kernel
  obtain ⟨t, h1, h2⟩ := of_after h
  exact ⟨t, h1, rfl, h2⟩
/-- One byte, exactly the room there is. -/
theorem witness_HencHdecRoundTrip :
    ∃ s : State, s.huffLegal ∧ s.cfg.outSize ≤ 16384 ∧ s.wfSym = none ∧
      blockCoded (s.huffSlot .dc (huffTableId .y)) (s.huffSlot .ac (huffTableId .y)) s.syms ∧
      (stuffBytes (packBytes (blockBits (s.huffSlot .dc (huffTableId .y)) (s.huffSlot .ac (huffTableId .y))
        s.syms))).length = 1 ∧ s.cfg.outSize = 1 := by
  have h : (withSyms [⟨-1, 0, 0⟩, Sym.eob] hdecBase).syms = [⟨-1, 0, 0⟩, Sym.eob] := by decide +kernel
  refine ⟨{ withSyms [⟨-1, 0, 0⟩, Sym.eob] hdecBase with cfg := { Params.core with outSize := 1 } },
    prefixFree_hdecBase, by decide, by decide +kernel, ?_, by decide +kernel, rfl⟩
  show blockCoded _ _ (withSyms [⟨-1, 0, 0⟩, Sym.eob] hdecBase).syms
  rw [h]
  exact blockCoded_empty

theorem witness_RefsaveResult :
    (∃ s : State, s.queryInGrid .cr 255 255) ∧ gridState.queryInGrid .y 3 3 ∧ ¬ gridState.queryInGrid .y 4 0 ∧
      ¬ gridState.queryInGrid .y 0 4 ∧ ¬ gridState.queryInGrid .cb 0 0 ∧ refKey .cb 0 0 ≠ refKey .y 3 3 := by
  refine ⟨⟨{ State.reset with grid2 := ⟨256, 256⟩ }, ?_⟩, ?_⟩ <;> unfold State.queryInGrid <;> decide
theorem witness_MsearchResult :
    gridState.queryInGrid .y 0 0 ∧ ¬ gridState.queryInGrid .y 4 0 ∧
      (∃ dx dy : Int, |dx| ≤ gridState.radius.toNat ∧ |dy| ≤ gridState.radius.toNat ∧
        gridState.usable .y ((0 : Nat) + dx) ((0 : Nat) + dy) ≠ none) ∧
      gridState.queryInGrid .y 3 3 ∧
      ∀ dx dy : Int, |dx| ≤ gridState.radius.toNat → |dy| ≤ gridState.radius.toNat →
        gridState.usable .y ((3 : Nat) + dx) ((3 : Nat) + dy) = none := by
  refine ⟨by unfold State.queryInGrid; decide, by unfold State.queryInGrid; decide,
    ⟨1, 0, by decide, by decide, by decide +kernel⟩, by unfold State.queryInGrid; decide, fun dx dy hx hy => ?_⟩
  have hr : gridState.radius.toNat = 1 := rfl
  rw [hr, abs_le] at hx hy
  obtain ⟨hx1, hx2⟩ := hx
  obtain ⟨hy1, hy2⟩ := hy
  norm_num at hx1 hx2 hy1 hy2
  interval_cases dx <;> interval_cases dy <;> decide +kernel
theorem witness_MsearchFindsExactMatch :
    (∃ s : State, s.usable .y (1 : Nat) (0 : Nat) = some s.wb) ∧ ∃ s : State, s.usable .cr (255 : Nat) (255 : Nat) = some s.wb :=
  ⟨⟨{ gridState with wb := flat 10 }, by decide +kernel⟩,
    ⟨{ State.reset with wb := flat 1, grid2 := ⟨256, 256⟩, ref := [(refKey .cr 255 255, ⟨true, flat 1⟩)] }, by decide +kernel⟩⟩
theorem witness_MvloadResult :
    gridState.queryInGrid .y 3 3 ∧ gridState.usable .y ((3 : Nat) + (-2)) ((3 : Nat) + (-3)) = some (flat 10) ∧
      gridState.usable .y ((1 : Nat) + (-1)) ((0 : Nat) + 7) = none ∧ ¬ gridState.queryInGrid .y 4 0 := by
  refine ⟨by unfold State.queryInGrid; decide, by decide +kernel, by decide +kernel, by unfold State.queryInGrid; decide⟩
theorem witness_MvloadFollowsMsearch :
    ∃ t, exec (.msearch .y 0 0) gridState = .next t ∧ gridState.err = false ∧ t.err = false ∧ t.found = true := by
  have h : after (.msearch .y 0 0) gridState (fun t => (t.err, t.found)) = some (false, true) := by decide +kernel
  obtain ⟨t, h1, h2⟩ := of_after h
  exact ⟨t, h1, rfl, congrArg Prod.fst h2, congrArg Prod.snd h2⟩
theorem witness_MotionVectorPacking : (-8 ≤ (-8 : Int) ∧ (-8 : Int) ≤ 7) ∧ (-8 ≤ (7 : Int) ∧ (7 : Int) ≤ 7) := by decide

/-- A state with a command in progress. -/
def busyState : State := { State.reset with pending := some 0 }

theorem witness_CommandAcceptance :
    busyState.busy = true ∧ faultState.err = true ∧ State.reset.busy = false ∧ State.reset.err = false := by decide
theorem witness_AccessesWhileBusy :
    busyState.busy = true ∧ (0x7FFFFFFF : Word).getLsbD 31 = false ∧ (0x80000000 : Word).getLsbD 31 = true ∧
      (2 : Word).getLsbD 1 = true ∧ (busAllowed busyState.cfg .word 0x00018 ∧ busAllowed busyState.cfg .word 0x00800) ∧
      busAllowed busyState.cfg .word 0x1FFFC ∧ busAllowed busyState.cfg .word 0x2FFFC := by
  refine ⟨by decide, by decide, by decide, by decide, ⟨?_, ?_⟩, ?_, ?_⟩ <;> unfold busAllowed busMapped <;> decide
theorem witness_BusErrorsChangeNothing :
    busAllowed Params.core .word 0x00068 ∧ ¬ busAllowed Params.core .word 0x0006C ∧ ¬ busAllowed Params.core .half 0x00068 ∧
      ¬ busAllowed Params.core .word 0x00066 ∧ ¬ busAllowed Params.core .word 0x30000 := by
  refine ⟨?_, ?_, ?_, ?_, ?_⟩ <;> unfold busAllowed busMapped <;> decide
/-- The last written byte of OUTBUF and the next one, the last byte of INBUF. -/
def bufferState : State := { State.reset with outptr := 16383, outbuf := [(16382, 7)], inbuf := [(16383, 9)] }

theorem witness_HostReadsReturnRegisters :
    (bufferState.busy = false ∧ bufferState.cfg.outSize = 16384 ∧ bufferState.cfg.inSize = 16384 ∧
        bufferState.cfg.gridMaxW = 256 ∧ bufferState.cfg.gridMaxH = 256) ∧
      (16382 < bufferState.outptr.toNat ∧ bufferState.outptr.toNat ≤ 16383 ∧ 16383 < bufferState.cfg.outSize) ∧
      Sparse.get bufferState.outbuf 16382 = some 7 ∧ 16383 < bufferState.cfg.inSize ∧
      Sparse.get bufferState.inbuf 16383 = some 9 := by decide +kernel
theorem witness_HostWritesStoreRegisters :
    State.reset.busy = false ∧ State.reset.cfg.outSize ≤ 16384 ∧ State.reset.cfg.inSize ≤ 16384 ∧
      (0x00040101 : Word).getLsbD 31 = false ∧
      (256 : BitVec 9).toNat = min ((0x00040101 : Word).toNat % 512) State.reset.cfg.gridMaxW ∧
      (4 : BitVec 9).toNat = min ((0x00040101 : Word).toNat / 65536 % 512) State.reset.cfg.gridMaxH := by decide
theorem witness_ResetValues :
    (0x80000000 : Word).getLsbD 31 = true ∧ ({ busyState with env := [.hardReset] } : State).env = .hardReset :: [] ∧
      tinyParams.legal = true :=
  ⟨by decide, rfl, witness_HdefaultResult.1⟩
theorem witness_AcceptedCommandsEnd :
    ∃ s : State, s.pending = some 0x20000000 ∧ s.env.length = 2 :=
  ⟨{ State.reset with pending := some 0x20000000, env := [rdEvent 0x14, .engine] }, rfl, rfl⟩
theorem faultRecordLegal_faultState : faultState.faultRecordLegal := by
  unfold State.faultRecordLegal
  decide
theorem witness_FaultsDoNotNest :
    ∃ t, faultState.faultRecordLegal ∧ faultState.err = true ∧ step faultState = .next t ∧ t.err = true :=
  ⟨_, faultRecordLegal_faultState, rfl, rfl, rfl⟩

theorem paramsLegal_tiny : tiny.paramsLegal := witness_HdefaultResult.1
theorem witness_QuantTablesStayInRange : ∃ t, tiny.paramsLegal ∧ tiny.quantLegal ∧ step tiny = .next t := by
  refine ⟨_, paramsLegal_tiny, ?_, rfl⟩
  unfold State.quantLegal
  decide +kernel
theorem witness_HuffmanTablesStayPrefixFree : ∃ t, tiny.paramsLegal ∧ tiny.huffLegal ∧ step tiny = .next t :=
  ⟨_, paramsLegal_tiny, prefixFree_hdecBase, rfl⟩
/-- Bits pending, a byte of OUTBUF written, a byte of INBUF half consumed. -/
theorem witness_StreamStateStaysLegal :
    ∃ s t : State, s.paramsLegal ∧ s.writerLegal ∧ s.readerLegal ∧ step s = .next t ∧ s.bwn = 7 ∧ s.inbits = 8 := by
  refine ⟨{ tiny with
    bwn := 7, bwacc := 0x7F, outptr := 1, outbuf := [(0, 5)], inlen := 1, inpos := 1, inbits := 8, inbuf := [(0, 0xFF)] },
    _, paramsLegal_tiny, ?_, ?_, rfl, rfl, rfl⟩
  · unfold State.writerLegal
    decide +kernel
  · unfold State.readerLegal
    decide +kernel
theorem witness_ReferenceStoreStaysLegal :
    ∃ s t : State, s.paramsLegal ∧ s.gridLegal ∧ s.refLegal ∧ step s = .next t ∧ s.ref ≠ [] := by
  refine ⟨{ tiny with grid0 := ⟨256, 256⟩, ref := [(refKey .cr 255 255, ⟨true, flat 1⟩)] }, _, paramsLegal_tiny, ?_,
    ⟨by decide, ?_⟩, rfl, by simp⟩
  · intro ch
    cases ch <;> decide
  · intro c hc
    simp only [List.mem_singleton] at hc
    exact ⟨.cr, 255, 255, by decide, by decide, by rw [hc]⟩
theorem witness_FaultRecordStaysLegal :
    (∃ t, faultState.faultRecordLegal ∧ step faultState = .next t) ∧ ∃ t, State.reset.faultRecordLegal ∧ step State.reset = .next t :=
  ⟨⟨_, faultRecordLegal_faultState, rfl⟩, ⟨_, by unfold State.faultRecordLegal; decide, rfl⟩⟩

end Sys2Proof.Tests
end

namespace Sys2Proof.Machine

/-! ### What a command can write

Every command ends through `commit`, and what it commits differs from the state before it in the fields of
spec/10_state.md that name a command as a writer, and in no other. The parameters of spec/00_scope.md R8 are among the
fields that stay. -/

/-- `u` is `s` but for the state that some command writes (spec/10_state.md R33 to R39 and R48 to R56, "Command access") and
the model's count of drawn free values (log 12). -/
def State.writesCommandState (s u : State) : Prop :=
  u = { s with
    wb := u.wb, rb := u.rb, sym := u.sym, symn := u.symn
    lastDc0 := u.lastDc0, lastDc1 := u.lastDc1, lastDc2 := u.lastDc2
    qt0 := u.qt0, qt1 := u.qt1, hdc0 := u.hdc0, hdc1 := u.hdc1, hac0 := u.hac0, hac1 := u.hac1
    zres := u.zres, found := u.found
    bwn := u.bwn, bwacc := u.bwacc, outbuf := u.outbuf, outptr := u.outptr
    inpos := u.inpos, inbits := u.inbits, inprev := u.inprev
    ref := u.ref, mv := u.mv, matchX := u.matchX, matchY := u.matchY, sse := u.sse
    draws := u.draws }

theorem State.writesCommandState.cfg_eq {s u : State} (h : s.writesCommandState u) : u.cfg = s.cfg := by
  rw [h]

/-- The block commands write WB, RESID also its flag, and an open transform counts a draw. -/
theorem writesCommandState_block (s : State) (b : Block) (z : Bool) (d : Nat) :
    s.writesCommandState { s with wb := b, zres := z, draws := d } := rfl

theorem writesCommandState_syms (s : State) (y : Vector SymEntry 64) (n : BitVec 7) :
    s.writesCommandState { s with sym := y, symn := n } := rfl

theorem writesCommandState_setQt (s : State) (tid : TableId) (t : QTable) : s.writesCommandState (s.setQt tid t) := by
  cases tid <;> rfl

theorem writesCommandState_setHdc (s : State) (tid : TableId) (t : Vector Slot 12) :
    s.writesCommandState (s.setHdc tid t) := by cases tid <;> rfl

theorem writesCommandState_setHac (s : State) (tid : TableId) (t : Vector Slot 256) :
    s.writesCommandState (s.setHac tid t) := by cases tid <;> rfl

/-- A predictor written after other command state (spec/43_zigzag_rle.md R267, R268). -/
theorem State.writesCommandState.setLastDc {s u : State} (h : s.writesCommandState u) (ch : Chan) (v : Word) :
    s.writesCommandState (u.setLastDc ch v) := by
  unfold State.writesCommandState at h
  rw [h]
  cases ch <;> rfl

theorem writesCommandState_searchResult (s : State) (bx row : Nat) (c : Option Candidate) :
    s.writesCommandState (s.searchResult bx row c) := by cases c <;> rfl

theorem writesCommandState_of_flushWriter {s u : State} {w : BitWriter} (h : s.flushWriter w = .ok u) :
    s.writesCommandState u := by
  unfold State.flushWriter at h
  dsimp only at h
  split at h
  · cases h
  · cases h; rfl

/-! ### How a command ends -/

/-- The outcome of a command that started in `s`: a fault, or command state committed. -/
def endsInCommit (s : State) (o : Host.Outcome State Fault Refusal) : Prop :=
  ∃ r, o = commit s r ∧ ∀ u, r = .ok u → s.writesCommandState u

theorem endsInCommit_ok {s u : State} (h : s.writesCommandState u) : endsInCommit s (commit s (.ok u)) :=
  ⟨_, rfl, fun _ e => Except.ok.inj e ▸ h⟩

theorem endsInCommit_error (s : State) (f : CmdFault) : endsInCommit s (commit s (.error f)) :=
  ⟨_, rfl, fun _ e => nomatch e⟩

theorem endsInCommit_flushWriter (s : State) (w : BitWriter) : endsInCommit s (commit s (s.flushWriter w)) :=
  ⟨_, rfl, fun _ => writesCommandState_of_flushWriter⟩

theorem execQscale_endsInCommit (tid : TableId) (q : Nat) (s : State) : endsInCommit s (execQscale tid q s) := by
  unfold execQscale
  split
  · exact endsInCommit_error ..
  · exact endsInCommit_ok (writesCommandState_setQt ..)

theorem execQload_endsInCommit (tid : TableId) (s : State) : endsInCommit s (execQload tid s) := by
  unfold execQload
  split
  · exact endsInCommit_error ..
  · exact endsInCommit_ok (writesCommandState_setQt ..)

theorem execRleenc_endsInCommit (ch : Chan) (s : State) : endsInCommit s (execRleenc ch s) := by
  unfold execRleenc
  split
  · exact endsInCommit_ok ((writesCommandState_syms ..).setLastDc ..)
  · exact endsInCommit_error ..

theorem execRledec_endsInCommit (ch : Chan) (s : State) : endsInCommit s (execRledec ch s) := by
  unfold execRledec
  split
  · exact endsInCommit_error ..
  · split
    · exact endsInCommit_error ..
    · dsimp only
      split
      · exact endsInCommit_ok ((writesCommandState_block ..).setLastDc ..)
      · exact endsInCommit_error ..

theorem execHbuild_endsInCommit (cls : TableClass) (tid : TableId) (s : State) : endsInCommit s (execHbuild cls tid s) := by
  unfold execHbuild
  cases cls <;> dsimp only <;> split
  · exact endsInCommit_ok (writesCommandState_setHdc ..)
  · exact endsInCommit_error ..
  · exact endsInCommit_ok (writesCommandState_setHac ..)
  · exact endsInCommit_error ..

theorem execHdefault_endsInCommit (cls : TableClass) (tid : TableId) (s : State) :
    endsInCommit s (execHdefault cls tid s) := by
  cases cls <;> cases tid <;> exact endsInCommit_ok rfl

theorem execHenc_endsInCommit (ch : Chan) (s : State) : endsInCommit s (execHenc ch s) := by
  unfold execHenc
  split
  · exact endsInCommit_error ..
  · split
    · exact endsInCommit_error ..
    · exact endsInCommit_flushWriter ..

theorem execHflush_endsInCommit (s : State) : endsInCommit s (execHflush s) := by
  unfold execHflush
  split
  · exact endsInCommit_ok rfl
  · exact endsInCommit_flushWriter ..

theorem execHdec_endsInCommit (ch : Chan) (s : State) : endsInCommit s (execHdec ch s) := by
  unfold execHdec
  split
  · exact endsInCommit_error ..
  · exact endsInCommit_ok rfl

theorem execRefsave_endsInCommit (ch : Chan) (bx row : Nat) (s : State) : endsInCommit s (execRefsave ch bx row s) := by
  unfold execRefsave
  split
  · exact endsInCommit_error ..
  · exact endsInCommit_ok rfl

theorem execMsearch_endsInCommit (ch : Chan) (bx row : Nat) (s : State) : endsInCommit s (execMsearch ch bx row s) := by
  unfold execMsearch
  split
  · exact endsInCommit_error ..
  · exact endsInCommit_ok (writesCommandState_searchResult ..)

theorem execMvload_endsInCommit (ch : Chan) (mv bx row : Nat) (s : State) :
    endsInCommit s (execMvload ch mv bx row s) := by
  unfold execMvload
  split
  · exact endsInCommit_error ..
  · split
    · exact endsInCommit_error ..
    · exact endsInCommit_ok rfl

/-- Everything a command can be: it faults without effect, or it commits command state and nothing else
(spec/60_exceptions.md R433, R439). -/
theorem exec_endsInCommit (i : Instr) (s : State) : endsInCommit s (exec i s) := by
  cases i with
  | nop | dcreset | bwreset | brreset | refclr => exact endsInCommit_ok rfl
  | wbclr | fdct | idct | quant | dequant | zzscan | zzunscan | resid | recon =>
    exact endsInCommit_ok (writesCommandState_block ..)
  | qscale tid q => exact execQscale_endsInCommit tid q s
  | qdefault tid => exact endsInCommit_ok (writesCommandState_setQt ..)
  | qload tid => exact execQload_endsInCommit tid s
  | rleenc ch => exact execRleenc_endsInCommit ch s
  | rledec ch => exact execRledec_endsInCommit ch s
  | hbuild cls tid => exact execHbuild_endsInCommit cls tid s
  | hdefault cls tid => exact execHdefault_endsInCommit cls tid s
  | henc ch => exact execHenc_endsInCommit ch s
  | hdec ch => exact execHdec_endsInCommit ch s
  | hflush => exact execHflush_endsInCommit s
  | refsave ch bx row => exact execRefsave_endsInCommit ch bx row s
  | msearch ch bx row => exact execMsearch_endsInCommit ch bx row s
  | mvload ch mv bx row => exact execMvload_endsInCommit ch mv bx row s

/-! ### No event stops the CORE -/

theorem exec_next (i : Instr) (s : State) : ∃ t, exec i s = .next t := by
  obtain ⟨r, hr, -⟩ := exec_endsInCommit i s
  rw [hr]
  exact commit_next s r

theorem engineTurn_next (s : State) : ∃ t, engineTurn s = .next t := by
  unfold engineTurn
  split
  · exact ⟨_, rfl⟩
  · unfold execWord
    split
    · exact exec_next ..
    · exact ⟨_, rfl⟩

theorem step_next (s : State) : ∃ t, step s = .next t := by
  unfold step
  split
  · exact engineTurn_next s
  · next e rest _ =>
    cases e with
    | access a => exact ⟨_, rfl⟩
    | engine => exact engineTurn_next _
    | hardReset => exact ⟨_, rfl⟩

/-! ### No event changes the parameters -/

@[simp] theorem State.resetNow_cfg (s : State) : s.resetNow.cfg = s.cfg := rfl

@[simp] theorem State.writeCtrl_cfg (s : State) (v : Word) : (s.writeCtrl v).cfg = s.cfg := by
  unfold State.writeCtrl
  split <;> rfl

@[simp] theorem State.writeStatus_cfg (s : State) (v : Word) : (s.writeStatus v).cfg = s.cfg := by
  rw [writeStatus_eq]

@[simp] theorem State.submit_cfg (s : State) (w : Word) : (s.submit w).cfg = s.cfg := by
  obtain ⟨-, h⟩ | ⟨-, -, h⟩ := submit_cases s w <;> rw [h]

@[simp] theorem State.writeData_cfg (s : State) (r : Reg) (v : Word) : (s.writeData r v).cfg = s.cfg := by
  cases r <;> simp [State.writeData]

theorem hostAccess_cfg (a : Access) (s : State) : (hostAccess a s).cfg = s.cfg := by
  cases a with
  | read size addr =>
    obtain ⟨r, d, h⟩ := hostRead_eq size addr s
    rw [hostAccess, h]
  | write size addr v =>
    obtain ⟨-, h⟩ | h | h | h | ⟨-, h⟩ | ⟨r, -, -, h⟩ := hostWrite_cases size addr v s <;> simp [hostAccess, h]

theorem exec_cfg {i : Instr} {s t : State} (h : exec i s = .next t) : t.cfg = s.cfg := by
  obtain ⟨r, hr, hok⟩ := exec_endsInCommit i s
  obtain ⟨u, hu, rfl⟩ | ⟨f, -, rfl⟩ := commit_cases (hr ▸ h)
  · exact (hok u hu).cfg_eq
  · rfl

theorem engineTurn_cfg {s t : State} (h : engineTurn s = .next t) : t.cfg = s.cfg := by
  obtain ⟨-, rfl⟩ | ⟨w, i, -, -, h⟩ | ⟨w, e, -, -, rfl⟩ := engineTurn_cases h
  · rfl
  · exact exec_cfg h
  · rfl

theorem step_cfg {s t : State} (h : step s = .next t) : t.cfg = s.cfg := by
  obtain ⟨r, rfl, h⟩ | ⟨a, rest, -, rfl⟩ | ⟨rest, -, rfl⟩ := step_cases h
  · rw [engineTurn_cfg h]
    split <;> rfl
  · exact hostAccess_cfg a _
  · rfl

/-- Settles O52: every command ends through `commit`, which answers a next state, and no event writes the parameters. -/
theorem noStepStopsTheCore : Obligations.NoStepStopsTheCore := by
  unfold Obligations.NoStepStopsTheCore
  intro s
  obtain ⟨t, h⟩ := step_next s
  exact ⟨t, h, step_cfg h⟩

end Sys2Proof.Machine

namespace Sys2Proof.Machine

/-! ### What each command commits

The state a command commits, command by command: the fields it writes and, where an invariant or a read needs it, the values
it writes there. Every claim about all commands below is read off this table. -/

/-- `u` is what `i` commits when it completes from `s` (spec/10_state.md R33 to R39 and R48 to R56, "Command access"). -/
def commits (i : Instr) (s u : State) : Prop :=
  match i with
  | .nop => u = s
  | .dcreset => u = { s with lastDc0 := 0, lastDc1 := 0, lastDc2 := 0 }
  | .bwreset => u = { s with bwn := 0, bwacc := 0, outptr := 0 }
  | .brreset => u = { s with inpos := 0, inbits := 0, inprev := 0 }
  | .refclr => u = { s with ref := s.ref.map fun c => (c.1, { c.2 with valid := false }) }
  | .fdct | .idct => ∃ b d, u = { s with wb := b, draws := d }
  | .wbclr | .quant _ | .dequant _ | .zzscan | .zzunscan | .recon => ∃ b, u = { s with wb := b }
  | .resid => ∃ b z, u = { s with wb := b, zres := z }
  | .qscale tid _ | .qdefault tid | .qload tid => ∃ t, u = s.setQt tid t
  | .rleenc ch => ∃ y n v, u = { s with sym := y, symn := n }.setLastDc ch v
  | .rledec ch => ∃ b v, u = { s with wb := b }.setLastDc ch v
  | .hbuild .dc tid | .hdefault .dc tid => ∃ t, u = s.setHdc tid t
  | .hbuild .ac tid | .hdefault .ac tid => ∃ t, u = s.setHac tid t
  | .henc _ => ∃ plan, s.flushWriter (putPlan s.writer plan) = .ok u
  | .hflush => u = s ∨ s.flushWriter ⟨0, 0, emitBytes (s.bwacc <<< (8 - s.bwn.toNat))⟩ = .ok u
  | .hdec ch => ∃ out c, hdecSyms (s.hdcOf ch) (s.hacOf ch) s.inStream s.cursor = .ok (out, c) ∧
      u = { s with
        sym := writeSyms s.sym out, symn := BitVec.ofNat 7 out.length
        inpos := BitVec.ofNat 15 c.pos, inbits := BitVec.ofNat 4 c.bits, inprev := c.prev }
  | .refsave ch bx row =>
    s.inGrid ch bx row = true ∧ u = { s with ref := Sparse.set s.ref (refKey ch bx row) ⟨true, s.wb⟩ }
  | .msearch _ bx row => ∃ c, u = s.searchResult bx row c
  | .mvload _ _ _ _ => ∃ b, u = { s with rb := b }

/-- The outcome `o` of `i` from `s` is a fault, or the end of a command that committed what `i` commits. -/
def endsFrom (i : Instr) (s : State) (o : Host.Outcome State Fault Refusal) : Prop :=
  (∃ u, commits i s u ∧ o = .next u.complete) ∨ ∃ f, o = .next (s.raise f)

theorem endsFrom_ok {i : Instr} {s u : State} (h : commits i s u) : endsFrom i s (commit s (.ok u)) := .inl ⟨u, h, rfl⟩

theorem endsFrom_error (i : Instr) (s : State) (f : CmdFault) : endsFrom i s (commit s (.error f)) := .inr ⟨f, rfl⟩

/-- The end of a command whose last act may itself fault. -/
theorem endsFrom_commit {i : Instr} {s : State} {r : Except CmdFault State} (h : ∀ u, r = .ok u → commits i s u) :
    endsFrom i s (commit s r) := by
  cases r with
  | ok u => exact endsFrom_ok (h u rfl)
  | error f => exact endsFrom_error ..

theorem execQscale_endsFrom (tid : TableId) (q : Nat) (s : State) : endsFrom (.qscale tid q) s (execQscale tid q s) := by
  unfold execQscale
  split
  · exact endsFrom_error ..
  · exact endsFrom_ok ⟨_, rfl⟩

theorem execQload_endsFrom (tid : TableId) (s : State) : endsFrom (.qload tid) s (execQload tid s) := by
  unfold execQload
  split
  · exact endsFrom_error ..
  · exact endsFrom_ok ⟨_, rfl⟩

theorem execRleenc_endsFrom (ch : Chan) (s : State) : endsFrom (.rleenc ch) s (execRleenc ch s) := by
  unfold execRleenc
  split
  · exact endsFrom_ok ⟨_, _, _, rfl⟩
  · exact endsFrom_error ..

theorem execRledec_endsFrom (ch : Chan) (s : State) : endsFrom (.rledec ch) s (execRledec ch s) := by
  unfold execRledec
  split
  · exact endsFrom_error ..
  · split
    · exact endsFrom_error ..
    · dsimp only
      split
      · exact endsFrom_ok ⟨_, _, rfl⟩
      · exact endsFrom_error ..

theorem execHbuild_endsFrom (cls : TableClass) (tid : TableId) (s : State) :
    endsFrom (.hbuild cls tid) s (execHbuild cls tid s) := by
  unfold execHbuild
  cases cls <;> dsimp only <;> split
  · exact endsFrom_ok ⟨_, rfl⟩
  · exact endsFrom_error ..
  · exact endsFrom_ok ⟨_, rfl⟩
  · exact endsFrom_error ..

theorem execHdefault_endsFrom (cls : TableClass) (tid : TableId) (s : State) :
    endsFrom (.hdefault cls tid) s (execHdefault cls tid s) := by
  cases cls <;> cases tid <;> exact endsFrom_ok ⟨_, rfl⟩

theorem execHenc_endsFrom (ch : Chan) (s : State) : endsFrom (.henc ch) s (execHenc ch s) := by
  unfold execHenc
  split
  · exact endsFrom_error ..
  · split
    · exact endsFrom_error ..
    · next plan _ => exact endsFrom_commit fun _ h => ⟨plan, h⟩

theorem execHflush_endsFrom (s : State) : endsFrom .hflush s (execHflush s) := by
  unfold execHflush
  split
  · exact endsFrom_ok (.inl rfl)
  · exact endsFrom_commit fun _ => .inr

theorem execHdec_endsFrom (ch : Chan) (s : State) : endsFrom (.hdec ch) s (execHdec ch s) := by
  unfold execHdec
  split
  · exact endsFrom_error ..
  · next out c h => exact endsFrom_ok ⟨out, c, h, rfl⟩

theorem execRefsave_endsFrom (ch : Chan) (bx row : Nat) (s : State) :
    endsFrom (.refsave ch bx row) s (execRefsave ch bx row s) := by
  unfold execRefsave
  obtain ⟨hg, h⟩ | ⟨-, h⟩ := checkGrid_cases s ch bx row <;> rw [h]
  · exact endsFrom_ok ⟨hg, rfl⟩
  · exact endsFrom_error ..

theorem execMsearch_endsFrom (ch : Chan) (bx row : Nat) (s : State) :
    endsFrom (.msearch ch bx row) s (execMsearch ch bx row s) := by
  unfold execMsearch
  split
  · exact endsFrom_error ..
  · exact endsFrom_ok ⟨_, rfl⟩

theorem execMvload_endsFrom (ch : Chan) (mv bx row : Nat) (s : State) :
    endsFrom (.mvload ch mv bx row) s (execMvload ch mv bx row s) := by
  unfold execMvload
  split
  · exact endsFrom_error ..
  · split
    · exact endsFrom_error ..
    · exact endsFrom_ok ⟨_, rfl⟩

theorem exec_endsFrom (i : Instr) (s : State) : endsFrom i s (exec i s) := by
  cases i with
  | nop | dcreset | bwreset | brreset | refclr => exact endsFrom_ok rfl
  | wbclr | quant | dequant | zzscan | zzunscan | recon | qdefault => exact endsFrom_ok ⟨_, rfl⟩
  | fdct | idct | resid => exact endsFrom_ok ⟨_, _, rfl⟩
  | qscale tid q => exact execQscale_endsFrom tid q s
  | qload tid => exact execQload_endsFrom tid s
  | rleenc ch => exact execRleenc_endsFrom ch s
  | rledec ch => exact execRledec_endsFrom ch s
  | hbuild cls tid => exact execHbuild_endsFrom cls tid s
  | hdefault cls tid => exact execHdefault_endsFrom cls tid s
  | henc ch => exact execHenc_endsFrom ch s
  | hdec ch => exact execHdec_endsFrom ch s
  | hflush => exact execHflush_endsFrom s
  | refsave ch bx row => exact execRefsave_endsFrom ch bx row s
  | msearch ch bx row => exact execMsearch_endsFrom ch bx row s
  | mvload ch mv bx row => exact execMvload_endsFrom ch mv bx row s

/-- Everything a command's next state can be: what the command commits, completed, or a fault of the state before it. -/
theorem exec_cases {i : Instr} {s t : State} (h : exec i s = .next t) :
    (∃ u, commits i s u ∧ t = u.complete) ∨ ∃ f, t = s.raise f := by
  obtain ⟨u, hu, e⟩ | ⟨f, e⟩ := exec_endsFrom i s <;> cases h.symm.trans e
  · exact .inl ⟨u, hu, rfl⟩
  · exact .inr ⟨f, rfl⟩

/-- What flushing the bit writer commits (spec/44_huffman.md R322). -/
theorem flushWriter_ok {s u : State} {w : BitWriter} (h : s.flushWriter w = .ok u) :
    s.outptr.toNat + w.out.length ≤ s.cfg.outSize ∧
      u = { s with
        outbuf := Memory.setAll s.outbuf s.outptr.toNat w.out
        outptr := BitVec.ofNat 15 (s.outptr.toNat + w.out.length)
        bwacc := w.acc
        bwn := BitVec.ofNat 3 w.n } := by
  unfold State.flushWriter at h
  dsimp only at h
  split at h
  · cases h
  · next hn => exact ⟨Nat.le_of_not_lt hn, (Except.ok.inj h).symm⟩

end Sys2Proof.Machine

namespace Sys2Proof.Machine

/-! ### Who writes what -/

/-- The writers of every field that a command can write (spec/10_state.md R33 to R39 and R48 to R56, "Command access"): a
field that differs after `i` names `i` as a writer. -/
structure WritesOnlyOwn (i : Instr) (s t : State) : Prop where
  wb      : t.wb ≠ s.wb →
    i.mnem ∈ [.fdct, .idct, .quant, .dequant, .zzscan, .zzunscan, .rledec, .resid, .recon, .wbclr]
  rb      : t.rb ≠ s.rb → i.mnem ∈ [.msearch, .mvload]
  syms    : t.sym ≠ s.sym ∨ t.symn ≠ s.symn → i.mnem ∈ [.rleenc, .hdec]
  lastDc0 : t.lastDc0 ≠ s.lastDc0 → i = .rleenc .y ∨ i = .rledec .y ∨ i = .dcreset
  lastDc1 : t.lastDc1 ≠ s.lastDc1 → i = .rleenc .cb ∨ i = .rledec .cb ∨ i = .dcreset
  lastDc2 : t.lastDc2 ≠ s.lastDc2 → i = .rleenc .cr ∨ i = .rledec .cr ∨ i = .dcreset
  qt      : t.qt0 ≠ s.qt0 ∨ t.qt1 ≠ s.qt1 → i.mnem ∈ [.qscale, .qdefault, .qload]
  huff    : t.hdc0 ≠ s.hdc0 ∨ t.hdc1 ≠ s.hdc1 ∨ t.hac0 ≠ s.hac0 ∨ t.hac1 ≠ s.hac1 → i.mnem ∈ [.hbuild, .hdefault]
  writer  : t.bwn ≠ s.bwn ∨ t.bwacc ≠ s.bwacc ∨ t.outptr ≠ s.outptr → i.mnem ∈ [.henc, .hflush, .bwreset]
  outbuf  : t.outbuf ≠ s.outbuf → i.mnem ∈ [.henc, .hflush]
  cursor  : t.inpos ≠ s.inpos ∨ t.inbits ≠ s.inbits ∨ t.inprev ≠ s.inprev → i.mnem ∈ [.hdec, .brreset]
  ref     : t.ref ≠ s.ref → i.mnem ∈ [.refsave, .refclr]
  motion  : t.mv ≠ s.mv ∨ t.matchX ≠ s.matchX ∨ t.matchY ≠ s.matchY ∨ t.sse ≠ s.sse → i.mnem = .msearch
  draws   : t.draws ≠ s.draws → i.mnem ∈ [.fdct, .idct]
  zres    : i.mnem ≠ .resid → t.zres = s.zres
  found   : i.mnem ≠ .msearch → t.found = s.found

theorem exec_writesOnlyOwn {i : Instr} {s t : State} (h : exec i s = .next t) : WritesOnlyOwn i s t := by
  obtain ⟨u, hu, rfl⟩ | ⟨f, rfl⟩ := exec_cases h
  · cases i with
    | nop | dcreset | bwreset | brreset | refclr => subst hu; constructor <;> simp [Instr.mnem]
    | wbclr | quant | dequant | zzscan | zzunscan | recon | mvload =>
      obtain ⟨b, rfl⟩ := hu; constructor <;> simp [Instr.mnem]
    | fdct | idct | resid => obtain ⟨b, d, rfl⟩ := hu; constructor <;> simp [Instr.mnem]
    | qscale | qdefault | qload => obtain ⟨q, rfl⟩ := hu; constructor <;> simp [Instr.mnem]
    | rleenc ch => obtain ⟨y, n, v, rfl⟩ := hu; constructor <;> cases ch <;> simp [Instr.mnem, State.setLastDc]
    | rledec ch => obtain ⟨b, v, rfl⟩ := hu; constructor <;> cases ch <;> simp [Instr.mnem, State.setLastDc]
    | hbuild cls | hdefault cls => cases cls <;> obtain ⟨q, rfl⟩ := hu <;> constructor <;> simp [Instr.mnem]
    | henc => obtain ⟨plan, hu⟩ := hu; obtain ⟨-, rfl⟩ := flushWriter_ok hu; constructor <;> simp [Instr.mnem]
    | hflush =>
      obtain rfl | hu := hu
      · constructor <;> simp [Instr.mnem]
      · obtain ⟨-, rfl⟩ := flushWriter_ok hu; constructor <;> simp [Instr.mnem]
    | hdec => obtain ⟨out, c, -, rfl⟩ := hu; constructor <;> simp [Instr.mnem]
    | refsave => obtain ⟨-, rfl⟩ := hu; constructor <;> simp [Instr.mnem]
    | msearch => obtain ⟨c, rfl⟩ := hu; constructor <;> cases c <;> simp [Instr.mnem, State.searchResult]
  · constructor <;> simp

/-- A command completes with command state written, or faults. -/
theorem exec_writes {i : Instr} {s t : State} (h : exec i s = .next t) :
    (∃ u, s.writesCommandState u ∧ t = u.complete) ∨ ∃ f, t = s.raise f := by
  obtain ⟨r, hr, hok⟩ := exec_endsInCommit i s
  obtain ⟨u, hu, rfl⟩ | ⟨f, -, rfl⟩ := commit_cases (hr ▸ h)
  · exact .inl ⟨u, hok u hu, rfl⟩
  · exact .inr ⟨f, rfl⟩

/-- What no command writes stays (spec/10_state.md R39, R42, R50, R52, R53). -/
theorem exec_keeps_hostState {i : Instr} {s t : State} (h : exec i s = .next t) :
    t.cfg = s.cfg ∧ t.hbits = s.hbits ∧ t.hvals = s.hvals ∧ t.ieDone = s.ieDone ∧ t.ieErr = s.ieErr ∧ t.drop = s.drop ∧
      t.inbuf = s.inbuf ∧ t.inlen = s.inlen ∧ t.radius = s.radius ∧ t.grid0 = s.grid0 ∧ t.grid1 = s.grid1 ∧
      t.grid2 = s.grid2 ∧ t.env = s.env ∧ t.resp = s.resp ∧ t.epoch = s.epoch := by
  obtain ⟨u, hu, rfl⟩ | ⟨f, rfl⟩ := exec_writes h
  · rw [hu]
    simp
  · simp

/-- Settles O7: the writers of each field, read off the table of what each command commits. -/
theorem commandsWriteOnlyTheirOwn : Obligations.CommandsWriteOnlyTheirOwn := by
  unfold Obligations.CommandsWriteOnlyTheirOwn
  intro i s t h
  have w := exec_writesOnlyOwn h
  exact ⟨w.wb, w.rb, w.syms, w.lastDc0, w.lastDc1, w.lastDc2, w.qt, w.huff, w.writer, w.outbuf, w.cursor, w.ref, w.motion,
    w.draws, exec_keeps_hostState h⟩

end Sys2Proof.Machine

namespace Sys2Proof.Machine

/-! ### The two flags -/

/-- The state with other flags. -/
def State.withFlags (s : State) (z f : Bool) : State := { s with zres := z, found := f }

section
variable (s : State) (z f : Bool)

@[simp] theorem withFlags_wb : (s.withFlags z f).wb = s.wb := rfl
@[simp] theorem withFlags_rb : (s.withFlags z f).rb = s.rb := rfl
@[simp] theorem withFlags_hbits : (s.withFlags z f).hbits = s.hbits := rfl
@[simp] theorem withFlags_hvals : (s.withFlags z f).hvals = s.hvals := rfl
@[simp] theorem withFlags_bwn : (s.withFlags z f).bwn = s.bwn := rfl
@[simp] theorem withFlags_bwacc : (s.withFlags z f).bwacc = s.bwacc := rfl
@[simp] theorem withFlags_writer : (s.withFlags z f).writer = s.writer := rfl
@[simp] theorem withFlags_cursor : (s.withFlags z f).cursor = s.cursor := rfl
@[simp] theorem withFlags_inStream : (s.withFlags z f).inStream = s.inStream := rfl
@[simp] theorem withFlags_syms : (s.withFlags z f).syms = s.syms := rfl
@[simp] theorem withFlags_checkSyms : (s.withFlags z f).checkSyms = s.checkSyms := rfl
@[simp] theorem withFlags_qtOfTid : (s.withFlags z f).qtOfTid = s.qtOfTid := by funext t; cases t <;> rfl
@[simp] theorem withFlags_hdcOf : (s.withFlags z f).hdcOf = s.hdcOf := rfl
@[simp] theorem withFlags_hacOf : (s.withFlags z f).hacOf = s.hacOf := rfl
@[simp] theorem withFlags_lastDcOf : (s.withFlags z f).lastDcOf = s.lastDcOf := by funext c; cases c <;> rfl
@[simp] theorem withFlags_checkGrid : (s.withFlags z f).checkGrid = s.checkGrid := rfl
@[simp] theorem withFlags_usable : (s.withFlags z f).usable = s.usable := rfl
@[simp] theorem withFlags_candidates : (s.withFlags z f).candidates = s.candidates := rfl

theorem setQt_withFlags (tid : TableId) (t : QTable) : (s.withFlags z f).setQt tid t = (s.setQt tid t).withFlags z f := by
  cases tid <;> rfl

theorem setHdc_withFlags (tid : TableId) (t : Vector Slot 12) :
    (s.withFlags z f).setHdc tid t = (s.setHdc tid t).withFlags z f := by cases tid <;> rfl

theorem setHac_withFlags (tid : TableId) (t : Vector Slot 256) :
    (s.withFlags z f).setHac tid t = (s.setHac tid t).withFlags z f := by cases tid <;> rfl

theorem flushWriter_withFlags (w : BitWriter) :
    (s.withFlags z f).flushWriter w = (s.flushWriter w).map (·.withFlags z f) := by
  dsimp only [State.flushWriter]
  rw [apply_ite (Except.map _)]
  rfl

end

/-- The outcome `o'` of a command from `s` with other flags is `o` with those flags. -/
def flagsPassThrough (z f : Bool) (o o' : Host.Outcome State Fault Refusal) : Prop :=
  ∃ t, o = .next t ∧ o' = .next (t.withFlags z f)

theorem flagsPassThrough_commit {s : State} {z f : Bool} {r r' : Except CmdFault State}
    (h : r' = r.map (·.withFlags z f)) : flagsPassThrough z f (commit s r) (commit (s.withFlags z f) r') := by
  subst h
  cases r <;> exact ⟨_, rfl, rfl⟩

theorem exec_withFlags {i : Instr} (hr : i.mnem ≠ .resid) (hm : i.mnem ≠ .msearch) (s : State) (z f : Bool) :
    flagsPassThrough z f (exec i s) (exec i (s.withFlags z f)) := by
  cases i with
  | resid => exact absurd rfl hr
  | msearch => exact absurd rfl hm
  | nop | dcreset | bwreset | brreset | refclr | wbclr | fdct | idct | quant | dequant | zzscan | zzunscan | recon =>
    exact ⟨_, rfl, rfl⟩
  | qscale tid q =>
    apply flagsPassThrough_commit
    simp only [withFlags_qtOfTid, setQt_withFlags]
    split <;> rfl
  | qdefault tid => cases tid <;> exact ⟨_, rfl, rfl⟩
  | qload tid =>
    apply flagsPassThrough_commit
    simp only [withFlags_wb, setQt_withFlags]
    split <;> rfl
  | rleenc ch =>
    apply flagsPassThrough_commit
    simp only [withFlags_wb, withFlags_lastDcOf]
    split
    · cases ch <;> rfl
    · rfl
  | rledec ch =>
    apply flagsPassThrough_commit
    simp only [withFlags_checkSyms, withFlags_syms, withFlags_lastDcOf]
    split
    · rfl
    · split
      · rfl
      · split
        · cases ch <;> rfl
        · rfl
  | hbuild cls tid =>
    apply flagsPassThrough_commit
    cases cls <;> simp only [withFlags_hbits, withFlags_hvals, setHdc_withFlags, setHac_withFlags] <;> split <;> rfl
  | hdefault cls tid => cases cls <;> cases tid <;> exact ⟨_, rfl, rfl⟩
  | henc ch =>
    apply flagsPassThrough_commit
    simp only [withFlags_checkSyms, withFlags_hdcOf, withFlags_hacOf, withFlags_syms, withFlags_writer, flushWriter_withFlags]
    split
    · rfl
    · split <;> rfl
  | hflush =>
    apply flagsPassThrough_commit
    simp only [withFlags_bwn, withFlags_bwacc, flushWriter_withFlags]
    split <;> rfl
  | hdec ch =>
    apply flagsPassThrough_commit
    simp only [withFlags_hdcOf, withFlags_hacOf, withFlags_inStream, withFlags_cursor]
    split <;> rfl
  | refsave ch bx row =>
    apply flagsPassThrough_commit
    simp only [withFlags_checkGrid]
    split <;> rfl
  | mvload ch mv bx row =>
    apply flagsPassThrough_commit
    simp only [withFlags_checkGrid, withFlags_usable]
    split
    · rfl
    · split <;> rfl

/-- RESID does not read the flags: it writes ZRES and keeps FOUND. -/
theorem execResid_withFlags (s : State) (z f : Bool) :
    ∃ t, execResid s = .next t ∧ execResid (s.withFlags z f) = .next (t.withFlags t.zres f) := by
  unfold execResid
  simp only [withFlags_wb, withFlags_rb]
  generalize residBlock s.wb s.rb = b
  exact ⟨_, rfl, rfl⟩

/-- MSEARCH does not read the flags: it writes FOUND, or raises E_GRID and keeps both. -/
theorem execMsearch_withFlags (ch : Chan) (bx row : Nat) (s : State) (z f : Bool) :
    ∃ t, execMsearch ch bx row s = .next t ∧
      execMsearch ch bx row (s.withFlags z f) =
        .next (t.withFlags z (if t.cmdCnt = s.cmdCnt + 1 then t.found else f)) := by
  unfold execMsearch
  simp only [withFlags_checkGrid, withFlags_candidates]
  split
  · next e _ =>
    have hc : (s.raise e).cmdCnt ≠ s.cmdCnt + 1 := by simp
    exact ⟨_, rfl, by rw [if_neg hc]; rfl⟩
  · generalize firstMin none (s.candidates ch bx row) = c
    have hc : (s.searchResult bx row c).complete.cmdCnt = s.cmdCnt + 1 := by cases c <;> rfl
    exact ⟨_, rfl, by rw [if_pos hc]; cases c <;> rfl⟩

/-- Settles O8: a command answers the same from a state with other flags, but for the flag it writes itself. -/
theorem flagsBelongToTwoCommands : Obligations.FlagsBelongToTwoCommands := by
  unfold Obligations.FlagsBelongToTwoCommands
  refine ⟨⟨rfl, rfl⟩, fun _ _ _ h => ?_, fun i s z f => ?_⟩
  · have w := exec_writesOnlyOwn h
    exact ⟨w.zres, w.found⟩
  by_cases hr : i.mnem = .resid
  · cases i <;> cases hr
    obtain ⟨t, h, h'⟩ := execResid_withFlags s z f
    exact ⟨t, _, h, h', rfl, by simp [State.withFlags, Instr.mnem], rfl⟩
  · by_cases hm : i.mnem = .msearch
    · cases i <;> cases hm
      obtain ⟨t, h, h'⟩ := execMsearch_withFlags _ _ _ s z f
      exact ⟨t, _, h, h', rfl, by simp [State.withFlags, Instr.mnem], rfl⟩
    · obtain ⟨t, h, h'⟩ := exec_withFlags hr hm s z f
      exact ⟨t, _, h, h', (if_neg hr).symm, (if_neg fun e => hm e.1).symm, rfl⟩

end Sys2Proof.Machine

namespace Sys2Proof.Machine

/-! ### Invariants over every event

A step is a turn of the engine, a host access or a reset (spec/20_memory.md R114). An invariant is shown piece by piece, and
packaged once for every step. -/

/-- What to show of `P` so that every step keeps it: one field per thing that an event can do to the state. -/
structure StepInvariant (P : State → Prop) : Prop where
  env     : ∀ s e, P s → P { s with env := e }
  reset   : ∀ s, P s → P s.resetNow
  command : ∀ i s t, P s → exec i s = .next t → P t
  illegal : ∀ s e, P s → P (s.raise (illegalFault e))
  answer  : ∀ s r d, P s → P { s with resp := r, draws := d }
  enable  : ∀ s a b, P s → P { s with ieDone := a, ieErr := b }
  status  : ∀ s v, P s → P (s.writeStatus v)
  capture : ∀ s w, P s → s.err = false → P { s with pending := some w }
  drop    : ∀ s, P s → P { s with drop := true }
  data    : ∀ s size addr r v, P s → accessReg s.cfg size addr = some r → P (s.writeData r v)

section
variable {P : State → Prop} {s t : State}

theorem StepInvariant.engineTurn (inv : StepInvariant P) (hs : P s) (h : engineTurn s = .next t) : P t := by
  obtain ⟨-, rfl⟩ | ⟨w, i, -, -, h⟩ | ⟨w, e, -, -, rfl⟩ := engineTurn_cases h
  · exact hs
  · exact inv.command i s t hs h
  · exact inv.illegal s e hs

theorem StepInvariant.writeCtrl (inv : StepInvariant P) (hs : P s) (v : Word) : P (s.writeCtrl v) := by
  unfold State.writeCtrl
  split
  · exact inv.reset s hs
  · exact inv.enable s _ _ hs

theorem StepInvariant.submit (inv : StepInvariant P) (hs : P s) (w : Word) : P (s.submit w) := by
  obtain ⟨-, h⟩ | ⟨-, he, h⟩ := submit_cases s w <;> rw [h]
  · exact inv.drop s hs
  · exact inv.capture s w hs he

theorem StepInvariant.respond (inv : StepInvariant P) (hs : P s) (d : Word) (e : Bool) : P (s.respond d e) :=
  inv.answer s _ s.draws hs

theorem StepInvariant.hostAccess (inv : StepInvariant P) (hs : P s) (a : Access) : P (hostAccess a s) := by
  cases a with
  | read size addr =>
    obtain ⟨r, d, h⟩ := hostRead_eq size addr s
    rw [Machine.hostAccess, h]
    exact inv.answer s r d hs
  | write size addr v =>
    obtain ⟨-, h⟩ | h | h | h | ⟨-, h⟩ | ⟨r, -, hr, h⟩ := hostWrite_cases size addr v s <;>
      rw [Machine.hostAccess, h] <;> apply inv.respond
    · exact hs
    · exact inv.writeCtrl hs v
    · exact inv.status s v hs
    · exact inv.submit hs v
    · exact inv.drop s hs
    · exact inv.data s size addr r v hs hr

theorem StepInvariant.step (inv : StepInvariant P) (hs : P s) (h : step s = .next t) : P t := by
  obtain ⟨r, rfl, h⟩ | ⟨a, rest, -, rfl⟩ | ⟨rest, -, rfl⟩ := step_cases h
  · refine inv.engineTurn ?_ h
    split
    · exact hs
    · exact inv.env s _ hs
  · exact inv.hostAccess (inv.env s rest hs) a
  · exact inv.reset _ (inv.env s rest hs)

end

/-! ### The fault record -/

/-- A command keeps the fault record, or writes one; no command is in progress after it (spec/60_exceptions.md R433, R439). -/
theorem exec_faultRecord {i : Instr} {s t : State} (h : exec i s = .next t) :
    (t.err = s.err ∧ t.errCode = s.errCode ∧ t.errInfo = s.errInfo ∧ t.errDetail = s.errDetail ∧ t.pending = none) ∨
      ∃ f, t = s.raise f := by
  obtain ⟨u, hu, rfl⟩ | hf := exec_writes h
  · rw [hu]
    exact .inl ⟨rfl, rfl, rfl, rfl, rfl⟩
  · exact .inr hf

/-- ERRCODE is a code of spec/60_exceptions.md R431. -/
theorem errCode_range (c : ErrCode) : 1 ≤ c.byte.toNat ∧ c.byte.toNat ≤ 0x0E := by
  cases c <;> decide

theorem faultRecordLegal_raise (s : State) (f : CmdFault) : (s.raise f).faultRecordLegal :=
  ⟨fun h => absurd h (by simp), fun _ => ⟨errCode_range f.code, rfl⟩⟩

/-- The fault record reads ERR, ERRCODE, ERRINFO, ERRDETAIL and, with a fault pending, BUSY. -/
theorem State.faultRecordLegal.congr {s t : State} (h : s.faultRecordLegal) (he : t.err = s.err)
    (hcode : t.errCode = s.errCode) (hinfo : t.errInfo = s.errInfo) (hdetail : t.errDetail = s.errDetail)
    (hp : t.pending = s.pending ∨ t.pending = none) : t.faultRecordLegal := by
  unfold State.faultRecordLegal State.busy at *
  rw [he, hcode, hinfo, hdetail]
  obtain ⟨hclear, hset⟩ := h
  refine ⟨hclear, fun e => ⟨(hset e).1, ?_⟩⟩
  obtain hp | hp := hp <;> rw [hp]
  · exact (hset e).2
  · rfl

theorem faultRecordLegal_writeStatus {s : State} (h : s.faultRecordLegal) (v : Word) : (s.writeStatus v).faultRecordLegal := by
  rw [writeStatus_eq]
  obtain ⟨h0, h1⟩ := h
  cases hv : v.getLsbD 2
  · exact ⟨fun e => h0 (by simpa using e), fun e => h1 (by simpa using e)⟩
  · exact ⟨fun _ => ⟨rfl, rfl, rfl⟩, fun e => by simp at e⟩

theorem writeData_faultRecord (s : State) (r : Reg) (v : Word) :
    (s.writeData r v).err = s.err ∧ (s.writeData r v).errCode = s.errCode ∧ (s.writeData r v).errInfo = s.errInfo ∧
      (s.writeData r v).errDetail = s.errDetail ∧ (s.writeData r v).pending = s.pending := by
  cases r <;> simp [State.writeData]

theorem faultRecordLegal_resetOf (p : Params) : (State.resetOf p).faultRecordLegal :=
  ⟨fun _ => ⟨rfl, rfl, rfl⟩, fun h => absurd h (by simp [State.resetOf])⟩

theorem faultRecordLegal_invariant : StepInvariant State.faultRecordLegal where
  env _ _ h := h
  reset s _ := faultRecordLegal_resetOf s.cfg
  command i s t hs h := by
    obtain ⟨h1, h2, h3, h4, h5⟩ | ⟨f, rfl⟩ := exec_faultRecord h
    · exact hs.congr h1 h2 h3 h4 (.inr h5)
    · exact faultRecordLegal_raise s f
  illegal s _ _ := faultRecordLegal_raise s _
  answer _ _ _ h := h
  enable _ _ _ h := h
  status _ v h := faultRecordLegal_writeStatus h v
  capture _ _ h he := ⟨h.1, fun e => by simp [he] at e⟩
  drop _ h := h
  data s _ _ r v h _ := by
    obtain ⟨h1, h2, h3, h4, h5⟩ := writeData_faultRecord s r v
    exact h.congr h1 h2 h3 h4 (.inl h5)

/-- Settles O59: a command in progress ends with the fault it raises, and CMD captures a word only while ERR is 0. -/
theorem faultRecordStaysLegal : Obligations.FaultRecordStaysLegal := by
  unfold Obligations.FaultRecordStaysLegal
  exact fun _ _ hs h => faultRecordLegal_invariant.step hs h

/-! ### The grids and the reference store -/

theorem exec_keeps_grids {i : Instr} {s t : State} (h : exec i s = .next t) (ch : Chan) : t.gridOf ch = s.gridOf ch := by
  obtain ⟨-, -, -, -, -, -, -, -, -, h0, h1, h2, -⟩ := exec_keeps_hostState h
  cases ch <;> assumption

theorem exec_keeps_ref {i : Instr} {s t : State} (h : exec i s = .next t) (hi : i.mnem ∉ [.refsave, .refclr]) :
    t.ref = s.ref := not_imp_comm.mp (exec_writesOnlyOwn h).ref hi

/-- The size a GRIDDIM write stores (spec/10_state.md R53). -/
theorem gridOfWord_le (p : Params) (v : Word) :
    (gridOfWord p v).gw.toNat ≤ p.gridMaxW ∧ (gridOfWord p v).gh.toNat ≤ p.gridMaxH := by
  simp only [gridOfWord, BitVec.toNat_ofNat]
  exact ⟨(Nat.mod_le ..).trans (Nat.min_le_right ..), (Nat.mod_le ..).trans (Nat.min_le_right ..)⟩

theorem gridLegal_writeData {s : State} (h : s.gridLegal) (r : Reg) (v : Word) : (s.writeData r v).gridLegal := by
  cases r with
  | griddim ch =>
    intro ch'
    simp only [State.writeData, State.setGrid_gridOf, State.setGrid_cfg]
    split
    · exact gridOfWord_le s.cfg v
    · exact h ch'
  | lastdc ch => cases ch <;> exact h
  | _ => exact h

@[simp] theorem writeData_ref (s : State) (r : Reg) (v : Word) : (s.writeData r v).ref = s.ref := by
  cases r <;> simp [State.writeData]

/-- The invariant of the reference store reads the store and the parameters. -/
theorem State.refLegal.congr {s t : State} (h : s.refLegal) (hc : t.cfg = s.cfg) (hr : t.ref = s.ref) : t.refLegal := by
  unfold State.refLegal
  rw [hc, hr]
  exact h

theorem refLegal_refsave {s : State} (hg : s.gridLegal) (h : s.refLegal) {ch : Chan} {bx row : Nat}
    (hin : s.inGrid ch bx row = true) (c : RefCell) :
    ({ s with ref := Sparse.set s.ref (refKey ch bx row) c } : State).refLegal := by
  obtain ⟨hw, hk⟩ := h
  refine ⟨Sparse.wf_set hw _ _, fun d hd => ?_⟩
  obtain rfl | hd := Sparse.mem_set hd
  · obtain ⟨gw, gh⟩ := hg ch
    simp only [State.inGrid, Bool.and_eq_true, decide_eq_true_eq] at hin
    exact ⟨ch, bx, row, by simp only; omega, by simp only; omega, rfl⟩
  · exact hk d hd

theorem refLegal_refclr {s : State} (h : s.refLegal) :
    ({ s with ref := s.ref.map fun c => (c.1, { c.2 with valid := false }) } : State).refLegal := by
  obtain ⟨hw, hk⟩ := h
  refine ⟨(Sparse.wf_mapVal (fun c : RefCell => { c with valid := false }) _).trans hw, fun d hd => ?_⟩
  obtain ⟨c, hc, rfl⟩ := List.mem_map.mp hd
  exact hk c hc

theorem refLegal_command {i : Instr} {s t : State} (hg : s.gridLegal) (h : s.refLegal) (hx : exec i s = .next t) :
    t.refLegal := by
  by_cases hi : i.mnem ∈ [.refsave, .refclr]
  · obtain ⟨u, hu, rfl⟩ | ⟨f, rfl⟩ := exec_cases hx
    · cases i <;> simp only [Instr.mnem, List.mem_cons, List.not_mem_nil, reduceCtorEq, or_self] at hi
      case refclr => subst hu; exact refLegal_refclr h
      case refsave => obtain ⟨hin, rfl⟩ := hu; exact refLegal_refsave hg h hin _
    · exact h
  · exact h.congr (exec_cfg hx) (exec_keeps_ref hx hi)

theorem gridLegal_resetOf (p : Params) : (State.resetOf p).gridLegal := fun ch => by
  cases ch <;> exact ⟨Nat.zero_le _, Nat.zero_le _⟩

theorem refLegal_resetOf (p : Params) : (State.resetOf p).refLegal := ⟨rfl, fun _ h => nomatch h⟩

theorem referenceStore_invariant : StepInvariant fun s => s.gridLegal ∧ s.refLegal where
  env _ _ h := h
  reset s _ := ⟨gridLegal_resetOf s.cfg, refLegal_resetOf s.cfg⟩
  command i s t := fun ⟨hg, hr⟩ h =>
    ⟨fun ch => by rw [exec_keeps_grids h, exec_cfg h]; exact hg ch, refLegal_command hg hr h⟩
  illegal _ _ h := h
  answer _ _ _ h := h
  enable _ _ _ h := h
  status _ _ h := by rw [writeStatus_eq]; exact h
  capture _ _ h _ := h
  drop _ h := h
  data s _ _ r v h _ := ⟨gridLegal_writeData h.1 r v, h.2.congr (State.writeData_cfg ..) (writeData_ref ..)⟩

/-- Settles O58: REFSAVE adds a cell of the grid it checked, REFCLR keeps every key, and GRIDDIM is written within the
implemented maximum. -/
theorem referenceStoreStaysLegal : Obligations.ReferenceStoreStaysLegal := by
  unfold Obligations.ReferenceStoreStaysLegal
  exact fun _ _ _ hg hr h => referenceStore_invariant.step ⟨hg, hr⟩ h

/-! ### The bit writer, OUTBUF, INBUF and the cursor -/

/-- The bit writer's pending bits fit below BWN (spec/10_state.md R48). -/
def BitWriter.fits (w : BitWriter) : Prop := w.n < 8 ∧ w.acc.toNat < 2 ^ w.n

theorem putBit_fits {w : BitWriter} (h : w.fits) (b : Bool) : (putBit w b).fits := by
  obtain ⟨hn, ha⟩ := h
  unfold putBit
  dsimp only
  split
  · exact ⟨by simp, by simp⟩
  · refine ⟨by simp only; omega, ?_⟩
    simp only [putBit_acc, pow_succ]
    have := Bool.toNat_le b
    exact (Nat.mod_le ..).trans_lt (by omega)

theorem putPlan_fits {w : BitWriter} (h : w.fits) (plan : List (Nat × Nat)) : (putPlan w plan).fits := by
  rw [putPlan_eq]
  generalize planBits plan = l
  induction l generalizing w with
  | nil => exact h
  | cons b l ih => exact ih (putBit_fits h b)

theorem State.writerLegal.writer_fits {s : State} (h : s.writerLegal) : s.writer.fits := ⟨s.bwn.isLt, h.1⟩

theorem toNat_ofNat_le (n x : Nat) : (BitVec.ofNat n x).toNat ≤ x := by
  rw [BitVec.toNat_ofNat]
  exact Nat.mod_le ..

/-- Flushing a bit writer whose pending bits fit (spec/44_huffman.md R322). -/
theorem writerLegal_flushWriter {s u : State} {w : BitWriter} (h : s.writerLegal) (hw : w.fits)
    (hu : s.flushWriter w = .ok u) : u.writerLegal := by
  obtain ⟨hle, rfl⟩ := flushWriter_ok hu
  obtain ⟨-, -, hm, hb, hs⟩ := h
  obtain ⟨hn, ha⟩ := hw
  have hptr := toNat_ofNat_le 15 (s.outptr.toNat + w.out.length)
  refine ⟨?_, hptr.trans hle, Memory.wf_setAll hm _ _, Memory.below_setAll hb _ _ hle, fun i hi => ?_⟩
  · have : (BitVec.ofNat 3 w.n).toNat = w.n := by rw [BitVec.toNat_ofNat]; exact Nat.mod_eq_of_lt hn
    simp only [this, ha]
  · have hi' : i < s.outptr.toNat + w.out.length := lt_of_lt_of_le hi hptr
    simp only [Memory.get_setAll]
    split
    · rw [List.getElem?_eq_getElem (by omega)]; rfl
    · exact hs i (by omega)

theorem writerLegal_bwreset {s : State} (h : s.writerLegal) :
    ({ s with bwn := 0, bwacc := 0, outptr := 0 } : State).writerLegal := by
  obtain ⟨-, -, hm, hb, -⟩ := h
  exact ⟨by simp, Nat.zero_le _, hm, hb, fun i hi => by simp at hi⟩

/-- The invariant of the bit writer reads the writer, OUTBUF and the parameters. -/
theorem State.writerLegal.congr {s t : State} (h : s.writerLegal) (hc : t.cfg = s.cfg) (hn : t.bwn = s.bwn)
    (ha : t.bwacc = s.bwacc) (hp : t.outptr = s.outptr) (hb : t.outbuf = s.outbuf) : t.writerLegal := by
  unfold State.writerLegal
  rw [hc, hn, ha, hp, hb]
  exact h

theorem exec_keeps_writer {i : Instr} {s t : State} (h : exec i s = .next t) (hi : i.mnem ∉ [.henc, .hflush, .bwreset]) :
    t.bwn = s.bwn ∧ t.bwacc = s.bwacc ∧ t.outptr = s.outptr ∧ t.outbuf = s.outbuf := by
  have w := exec_writesOnlyOwn h
  have hb : i.mnem ∉ [.henc, .hflush] := fun hm => hi (List.mem_append_left [Mnem.bwreset] hm)
  obtain ⟨hn, ha, hp⟩ : t.bwn = s.bwn ∧ t.bwacc = s.bwacc ∧ t.outptr = s.outptr := by
    simpa only [not_or, not_not] using mt w.writer hi
  exact ⟨hn, ha, hp, not_imp_comm.mp w.outbuf hb⟩

theorem writerLegal_command {i : Instr} {s t : State} (h : s.writerLegal) (hx : exec i s = .next t) : t.writerLegal := by
  by_cases hi : i.mnem ∈ [.henc, .hflush, .bwreset]
  · obtain ⟨u, hu, rfl⟩ | ⟨f, rfl⟩ := exec_cases hx
    · show u.writerLegal
      cases i <;> simp only [Instr.mnem, List.mem_cons, List.not_mem_nil, reduceCtorEq, or_self] at hi
      case bwreset => subst hu; exact writerLegal_bwreset h
      case henc => obtain ⟨plan, hu⟩ := hu; exact writerLegal_flushWriter h (putPlan_fits h.writer_fits plan) hu
      case hflush =>
        obtain rfl | hu := hu
        · exact h
        · exact writerLegal_flushWriter h ⟨by simp, by simp⟩ hu
    · exact h
  · obtain ⟨hn, ha, hp, hb⟩ := exec_keeps_writer hx hi
    exact h.congr (exec_cfg hx) hn ha hp hb

theorem exec_keeps_cursor {i : Instr} {s t : State} (h : exec i s = .next t) (hi : i.mnem ∉ [.hdec, .brreset]) :
    t.inpos = s.inpos ∧ t.inbits = s.inbits := by
  obtain ⟨hp, hb, -⟩ : t.inpos = s.inpos ∧ t.inbits = s.inbits ∧ t.inprev = s.inprev := by
    simpa only [not_or, not_not] using mt (exec_writesOnlyOwn h).cursor hi
  exact ⟨hp, hb⟩

theorem State.readerLegal.congr {s t : State} (h : s.readerLegal) (hc : t.cfg = s.cfg) (hm : t.inbuf = s.inbuf)
    (hl : t.inlen = s.inlen) (hp : t.inpos = s.inpos) (hb : t.inbits = s.inbits) : t.readerLegal := by
  unfold State.readerLegal
  rw [hc, hm, hl, hp, hb]
  exact h

theorem readerLegal_brreset {s : State} (h : s.readerLegal) :
    ({ s with inpos := 0, inbits := 0, inprev := 0 } : State).readerLegal := by
  obtain ⟨hl, -, -, -, hm, hk⟩ := h
  exact ⟨hl, Nat.zero_le _, Nat.zero_le _, fun h0 => by simp at h0, hm, hk⟩

/-- The cursor that reading reaches is a legal one (spec/10_state.md R51). -/
theorem readerLegal_of_reaches {s t : State} {c : Cursor} (h : s.readerLegal) (hc : Cursor.Reaches s.inStream s.cursor c)
    (ht : t.cursor = c) (hcfg : t.cfg = s.cfg) (hm : t.inbuf = s.inbuf) (hl : t.inlen = s.inlen) : t.readerLegal := by
  subst ht
  obtain ⟨k1, k2, k3, k4, k5, k6⟩ := h
  obtain ⟨c1, c2, c3, c4, -⟩ := hc
  simp only [State.cursor, State.inStream] at c1 c2 c3 c4
  unfold State.readerLegal
  rw [hcfg, hm, hl]
  refine ⟨k1, c2.trans (Nat.max_le.mpr ⟨k2, k1⟩), c3.trans (Nat.max_le.mpr ⟨k3, le_rfl⟩), fun h0 => ?_, k5, k6⟩
  by_contra h1
  have := c4 (by omega)
  omega

theorem readerLegal_command {i : Instr} {s t : State} (h : s.readerLegal) (hx : exec i s = .next t) : t.readerLegal := by
  obtain ⟨hc, -, -, -, -, -, hm, hl, -⟩ := exec_keeps_hostState hx
  by_cases hi : i.mnem ∈ [.hdec, .brreset]
  · obtain ⟨u, hu, rfl⟩ | ⟨f, rfl⟩ := exec_cases hx
    · show u.readerLegal
      cases i <;> simp only [Instr.mnem, List.mem_cons, List.not_mem_nil, reduceCtorEq, or_self] at hi
      case brreset => subst hu; exact readerLegal_brreset h
      case hdec =>
        obtain ⟨out, c, hd, rfl⟩ := hu
        obtain ⟨hr, -⟩ := hdecSyms_form hd
        exact readerLegal_of_reaches h hr (cursor_of_reaches hr rfl rfl rfl) rfl rfl rfl
    · exact h
  · obtain ⟨hp, hb⟩ := exec_keeps_cursor hx hi
    exact h.congr hc hm hl hp hb

/-- The INBUF window ends at IN_SIZE (spec/20_memory.md R110). -/
theorem inbuf_lt_of_accessReg {p : Params} {size : AccessSize} {addr : BusAddr} {i : Nat}
    (h : accessReg p size addr = some (.inbuf i)) : i < p.inSize := by
  unfold accessReg at h
  split at h
  · unfold regAt at h
    split at h
    · have := List.mem_of_getElem? h
      simp [controlRegs] at this
    · simp only [Option.or_eq_some_iff, Option.map_eq_some_iff, reduceCtorEq, and_false, exists_false, false_or] at h
      obtain ⟨-, -, -, -, -, -, -, -, -, -, -, -, k, -, e⟩ := h
      exact Reg.inbuf.inj e ▸ k.isLt
  · cases h

theorem writerLegal_writeData {s : State} (h : s.writerLegal) (r : Reg) (v : Word) : (s.writeData r v).writerLegal := by
  cases r with
  | griddim ch | lastdc ch => cases ch <;> exact h
  | _ => exact h

theorem readerLegal_writeData {s : State} (h : s.readerLegal) {size : AccessSize} {addr : BusAddr} {r : Reg}
    (hr : accessReg s.cfg size addr = some r) (v : Word) : (s.writeData r v).readerLegal := by
  cases r with
  | griddim ch | lastdc ch => cases ch <;> exact h
  | inlen =>
    obtain ⟨-, h'⟩ := h
    exact ⟨(toNat_ofNat_le ..).trans (Nat.min_le_right ..), h'⟩
  | inbuf i =>
    obtain ⟨hl, hp, hb, hc, hm, hk⟩ := h
    exact ⟨hl, hp, hb, hc, Sparse.wf_set hm _ _, Sparse.below_set hk (inbuf_lt_of_accessReg hr) _⟩
  | _ => exact h

theorem writerLegal_resetOf (p : Params) : (State.resetOf p).writerLegal :=
  ⟨by simp [State.resetOf], Nat.zero_le _, rfl, rfl, fun i h => by simp [State.resetOf] at h⟩

theorem readerLegal_resetOf (p : Params) : (State.resetOf p).readerLegal :=
  ⟨Nat.zero_le _, Nat.zero_le _, Nat.zero_le _, fun h => by simp [State.resetOf] at h, rfl, rfl⟩

theorem streamState_invariant : StepInvariant fun s => s.writerLegal ∧ s.readerLegal where
  env _ _ h := h
  reset s _ := ⟨writerLegal_resetOf s.cfg, readerLegal_resetOf s.cfg⟩
  command i s t h hx := ⟨writerLegal_command h.1 hx, readerLegal_command h.2 hx⟩
  illegal _ _ h := h
  answer _ _ _ h := h
  enable _ _ _ h := h
  status _ _ h := by rw [writeStatus_eq]; exact h
  capture _ _ h _ := h
  drop _ h := h
  data s _ _ r v h hr := ⟨writerLegal_writeData h.1 r v, readerLegal_writeData h.2 hr v⟩

/-- Settles O57: flushing leaves pending bits below BWN and lists every byte below OUTPTR; reading stays within INLEN. -/
theorem streamStateStaysLegal : Obligations.StreamStateStaysLegal := by
  unfold Obligations.StreamStateStaysLegal
  exact fun _ _ _ hw hr h => streamState_invariant.step ⟨hw, hr⟩ h

end Sys2Proof.Machine

namespace Sys2Proof.Machine

/-! ### STATUS -/

/-- Settles O50: a STATUS write reaches `State.writeStatus`, one record update. -/
theorem statusWriteClears : Obligations.StatusWriteClears := by
  unfold Obligations.StatusWriteClears
  intro s v
  have hw (v : Word) : hostAccess (.write .word 0x00014 v) s = (s.writeStatus v).respond 0 false :=
    hostAccess_write (r := .status) rfl
  refine ⟨?_, ?_, ?_⟩
  · rw [hw, writeStatus_eq]
    rfl
  · simp [State.irq]
  · rw [hw, writeStatus_eq]
    simp [State.irq]

/-! ### Reset -/

/-- The built-in table of a definition that HBUILD's construction accepts (spec/44_huffman.md R306). -/
theorem buildTable_builtin {cap : Nat} {d : HuffDef} (h : (buildTable cap d).isOk = true) :
    buildTable cap d = .ok (builtin cap d) := by
  unfold builtin
  cases hb : buildTable cap d with
  | ok t => rfl
  | error e => rw [hb] at h; cases h

theorem tableLegal_builtin {cap : Nat} (hcap : cap ≤ 256) {d : HuffDef} (h : (buildTable cap d).isOk = true) :
    tableLegal (builtin cap d) := by
  obtain ⟨-, -, -, hk, hl⟩ := buildTable_ok hcap (buildTable_builtin h)
  exact listsSlots_legal hl (codeLengths_sorted _) (fun l hm => (codeLengths_bounds hm).2) hk

theorem isCanonicalTable_builtin {cap : Nat} (hcap : cap ≤ 256) {d : HuffDef} (h : (buildTable cap d).isOk = true) :
    isCanonicalTable (slotAt (builtin cap d)) d := by
  obtain ⟨hlen, hv, -, hk, hl⟩ := buildTable_ok hcap (buildTable_builtin h)
  exact listsSlots_canonical hcap hv hlen hk hl

/-- What legal parameters say of the default tables (spec/00_scope.md R8). -/
theorem legal_defaults {p : Params} (h : p.legal = true) :
    ((∀ e ∈ p.defaultQt0.toList, e ≠ 0) ∧ ∀ e ∈ p.defaultQt1.toList, e ≠ 0) ∧
      (buildTable 12 p.defaultHdc0).isOk = true ∧ (buildTable 12 p.defaultHdc1).isOk = true ∧
        (buildTable 256 p.defaultHac0).isOk = true ∧ (buildTable 256 p.defaultHac1).isOk = true := by
  simp only [Params.legal, Bool.and_eq_true, List.all_eq_true, bne_iff_ne] at h
  obtain ⟨⟨⟨⟨⟨⟨⟨-, q0⟩, q1⟩, d0⟩, d1⟩, a0⟩, a1⟩, -⟩ := h
  exact ⟨⟨q0, q1⟩, d0, d1, a0, a1⟩

theorem quantLegal_resetOf {p : Params} (h : p.legal = true) : (State.resetOf p).quantLegal := by
  obtain ⟨⟨h0, h1⟩, -⟩ := legal_defaults h
  exact fun k => ⟨h0 _ (by simp [State.resetOf]), h1 _ (by simp [State.resetOf])⟩

theorem huffLegal_resetOf {p : Params} (h : p.legal = true) : (State.resetOf p).huffLegal := by
  obtain ⟨-, d0, d1, a0, a1⟩ := legal_defaults h
  exact ⟨tableLegal_builtin (by norm_num) d0, tableLegal_builtin (by norm_num) d1, tableLegal_builtin le_rfl a0,
    tableLegal_builtin le_rfl a1⟩

theorem huffSlot_resetOf {p : Params} (h : p.legal = true) (cls : TableClass) (tid : TableId) :
    isCanonicalTable ((State.resetOf p).huffSlot cls tid) (defaultDef p cls tid) := by
  obtain ⟨-, d0, d1, a0, a1⟩ := legal_defaults h
  cases cls <;> cases tid
  · exact isCanonicalTable_builtin (by norm_num) d0
  · exact isCanonicalTable_builtin (by norm_num) d1
  · exact isCanonicalTable_builtin le_rfl a0
  · exact isCanonicalTable_builtin le_rfl a1

/-- Nothing is usable after a reset (spec/10_state.md R54). -/
theorem usable_resetOf (p : Params) (ch : Chan) (x y : Int) : (State.resetOf p).usable ch x y = none := by
  unfold State.usable
  split <;> rfl

theorem statusWord_resetOf (p : Params) : (State.resetOf p).statusWord = 0 := by
  simp [State.statusWord, State.busy, State.resetOf]

theorem ctrlWord_resetOf (p : Params) : (State.resetOf p).ctrlWord = 0 := by simp [State.ctrlWord, State.resetOf]

theorem matchWord_resetOf (p : Params) : (State.resetOf p).matchWord = 0 := by simp [State.matchWord, State.resetOf]

/-- Settles O51: a CTRL write with bit 31 and the reset input both give `State.resetNow`, whose fields are read off; the tables
are canonical because the construction accepts legal definitions. -/
theorem resetValues : Obligations.ResetValues := by
  unfold Obligations.ResetValues
  refine ⟨fun s v hv => ?_, fun s rest he => ⟨_, by rw [step, he]; rfl, rfl⟩, fun s => rfl, fun p => ?_, rfl⟩
  · rw [hostAccess_write (r := .ctrl) rfl, State.writeReg, State.writeCtrl, if_pos hv]
  · exact ⟨_, rfl, rfl, rfl, rfl, rfl, rfl, rfl, rfl, rfl, rfl, rfl, rfl, rfl, ctrlWord_resetOf p, statusWord_resetOf p,
      rfl, rfl, rfl, rfl, rfl, rfl, rfl, rfl, rfl, rfl, rfl, rfl, rfl, rfl, rfl, usable_resetOf p, rfl,
      matchWord_resetOf p, rfl, rfl, rfl, huffSlot_resetOf⟩

theorem paramsCore_legal : Params.core.legal = true := by decide +kernel

/-- Settles O60: the parameters of this CORE are legal, so its default tables are, and the rest is empty after reset. -/
theorem resetMeetsInvariants : Obligations.ResetMeetsInvariants :=
  ⟨paramsCore_legal, quantLegal_resetOf paramsCore_legal, huffLegal_resetOf paramsCore_legal, writerLegal_resetOf _,
    readerLegal_resetOf _, gridLegal_resetOf _, refLegal_resetOf _, faultRecordLegal_resetOf _⟩

end Sys2Proof.Machine

namespace Sys2Proof.Machine

/-! ### The step and its schedule -/

theorem step_of_env_nil {s : State} (h : s.env = []) : step s = engineTurn s := by rw [step, h]

theorem step_of_env_cons {s : State} {e : Event} {rest : List Event} (h : s.env = e :: rest) :
    step s = runEvent e { s with env := rest } := by rw [step, h]

theorem engineTurn_of_idle {s : State} (h : s.pending = none) : engineTurn s = .next s := by rw [engineTurn, h]

theorem engineTurn_of_decode {s : State} {w : Word} {i : Instr} (h : s.pending = some w) (hd : decode w = .ok i) :
    engineTurn s = exec i s := by
  simp only [engineTurn, h, execWord, hd]

/-- Settles O5: a step is the engine's turn or the event at the head of the schedule, and the engine's turn is decided by the
captured word. -/
theorem stepRunsDecodedCommand : Obligations.StepRunsDecodedCommand := by
  unfold Obligations.StepRunsDecodedCommand
  refine fun s rest => ⟨fun w i hp hd => ⟨fun he => ?_, fun he => ?_⟩, fun hp => ⟨fun he => ?_, fun he => ?_⟩,
    fun a he => step_of_env_cons he, step_of_env_cons⟩
  · exact (step_of_env_nil he).trans (engineTurn_of_decode hp hd)
  · exact (step_of_env_cons he).trans (engineTurn_of_decode hp hd)
  · exact (step_of_env_nil he).trans (engineTurn_of_idle hp)
  · exact (step_of_env_cons he).trans (engineTurn_of_idle hp)

/-! ### The map and its bus errors -/

/-- The register map lists exactly the ranges of spec/20_memory.md R110. -/
theorem regAt_isSome (p : Params) (a : Nat) : (regAt p a).isSome = true ↔ busMapped p a := by
  by_cases h : a < 0x6C
  · have hc : a / 4 < controlRegs.length := by
      show a / 4 < 27
      omega
    simp [regAt_control p h, busMapped, h, hc]
  · simp only [regAt, if_neg h, Option.isSome_or, Option.isSome_map, Bool.or_eq_true, windowIndex_isSome, busMapped]
    omega

/-- An access reaches a location exactly when the CORE answers it without a bus error (spec/20_memory.md R101, R109). -/
theorem accessReg_isSome (p : Params) (size : AccessSize) (a : BusAddr) :
    (accessReg p size a).isSome = true ↔ busAllowed p size a := by
  unfold accessReg busAllowed
  split
  · next h => simp [h, regAt_isSome]
  · next h => exact iff_of_false (by simp) fun ⟨hs, ha, _⟩ => h ⟨hs, ha⟩

theorem hostAccess_busError {s : State} {size : AccessSize} {a : BusAddr} (h : accessReg s.cfg size a = none) (v : Word) :
    hostAccess (.read size a) s = s.respond 0 true ∧ hostAccess (.write size a v) s = s.respond 0 true := by
  simp only [hostAccess, hostRead, hostWrite, h, and_self]

/-- A read that reaches a location is answered without a bus error. -/
theorem hostAccess_read_resp {s : State} {size : AccessSize} {a : BusAddr} {r : Reg} (h : accessReg s.cfg size a = some r) :
    ∃ x, (hostAccess (.read size a) s).resp = some ⟨x, false⟩ := by
  simp only [hostAccess, hostRead, h]
  cases s.readValue r <;> exact ⟨_, rfl⟩

/-- Settles O47: an access gets a bus error exactly when it reaches no location, and then it only leaves the response. -/
theorem busErrorsChangeNothing : Obligations.BusErrorsChangeNothing := by
  unfold Obligations.BusErrorsChangeNothing
  refine fun s size a v => ⟨fun h => ?_, fun h => ?_⟩
  · rw [← accessReg_isSome, Bool.not_eq_true, Option.isSome_eq_false_iff, Option.isNone_iff_eq_none] at h
    exact hostAccess_busError h v
  · obtain ⟨r, hr⟩ := Option.isSome_iff_exists.mp ((accessReg_isSome ..).mpr h)
    exact ⟨hostAccess_read_resp hr, by rw [hostAccess_write hr]⟩

/-! ### Reads with BUSY = 0 -/

section reads

variable {s : State} {a : Nat} {r : Reg}

/-- With BUSY = 0 a read of a location with a value answers it. -/
theorem readsAs_of_regAt (hb : s.busy = false) (hr : regAt s.cfg a = some r) {w : Word} (hv : s.regValue r = .value w)
    (ha : a < 2 ^ 18 := by omega) (h4 : a % 4 = 0 := by omega) : s.readsAs a w :=
  hostAccess_read ((accessReg_word s.cfg ha h4).trans hr) ((readValue_idle hb r).trans hv)

/-- The same for a location whose word is made of fields, by the word's number. -/
theorem readsAs_of_toNat (hb : s.busy = false) (hr : regAt s.cfg a = some r) {w : Word} (hv : s.regValue r = .value w)
    {n : Nat} (hn : w.toNat = n) (ha : a < 2 ^ 18 := by omega) (h4 : a % 4 = 0 := by omega) :
    s.readsAs a (BitVec.ofNat 32 n) := by
  rw [← hn, BitVec.ofNat_toNat, BitVec.setWidth_eq]
  exact readsAs_of_regAt hb hr hv ha h4

/-- The same for a location that shows one narrower field in its low bits. -/
theorem readsAs_of_setWidth (hb : s.busy = false) (hr : regAt s.cfg a = some r) {n : Nat} {x : BitVec n}
    (hv : s.regValue r = .value (x.setWidth 32)) (ha : a < 2 ^ 18 := by omega) (h4 : a % 4 = 0 := by omega) :
    s.readsAs a (BitVec.ofNat 32 x.toNat) := by
  rw [BitVec.ofNat_toNat]
  exact readsAs_of_regAt hb hr hv ha h4

/-- With BUSY = 0 a read of a location with any byte answers a free one (log 8). -/
theorem hostAccess_read_anyByte (hb : s.busy = false) (hr : regAt s.cfg a = some r) (hv : s.regValue r = .anyByte)
    (ha : a < 2 ^ 18) (h4 : a % 4 = 0) :
    ∃ b : Byte, hostAccess (.read .word (BitVec.ofNat 18 a)) s =
      { s with draws := s.draws + 1, resp := some ⟨BitVec.ofNat 32 b.toNat, false⟩ } := by
  refine ⟨Config.freeByte s.draws, ?_⟩
  simp only [hostAccess, hostRead, accessReg_word s.cfg ha h4, hr, readValue_idle hb, hv, BitVec.ofNat_toNat]
  rfl

end reads

theorem regValue_outbuf_written {s : State} {i : Nat} {b : Byte} (hi : i < s.outptr.toNat)
    (hg : Sparse.get s.outbuf i = some b) : s.regValue (.outbuf i) = .value (b.setWidth 32) := by
  simp only [State.regValue, hi, if_true, hg, wordOfByte]

theorem regValue_outbuf_beyond {s : State} {i : Nat} (hi : s.outptr.toNat ≤ i) : s.regValue (.outbuf i) = .anyByte :=
  if_neg (by omega)

theorem regValue_inbuf_written {s : State} {i : Nat} {b : Byte} (hg : Sparse.get s.inbuf i = some b) :
    s.regValue (.inbuf i) = .value (b.setWidth 32) := by
  simp only [State.regValue, State.inStream, InStream.byte, hg, wordOfByte]

theorem statusWord_toNat_idle {s : State} (hb : s.busy = false) :
    s.statusWord.toNat = s.errCode.toNat * 256 + s.drop.toNat * 32 + s.found.toNat * 16 + s.zres.toNat * 8 +
      s.err.toNat * 4 + s.done.toNat * 2 := by
  rw [s.statusWord_toNat, hb, Bool.toNat_false, Nat.add_zero]

/-- Settles O48: row by row of the map, the location at the address and the word it shows. -/
theorem hostReadsReturnRegisters : Obligations.HostReadsReturnRegisters := by
  unfold Obligations.HostReadsReturnRegisters
  intro s hb ho hi
  refine ⟨readsAs_of_regAt hb rfl rfl, readsAs_of_regAt hb rfl rfl, readsAs_of_regAt hb rfl rfl,
    fun hw hh => readsAs_of_toNat hb rfl rfl (hwcfg2Word_toNat s.cfg hw hh),
    readsAs_of_toNat hb rfl rfl s.ctrlWord_toNat, readsAs_of_toNat hb rfl rfl (statusWord_toNat_idle hb),
    readsAs_of_regAt hb rfl rfl, readsAs_of_regAt hb rfl rfl, readsAs_of_regAt hb rfl rfl, readsAs_of_regAt hb rfl rfl,
    readsAs_of_setWidth hb rfl rfl,
    readsAs_of_toNat hb rfl rfl s.grid0.word_toNat, readsAs_of_toNat hb rfl rfl s.grid1.word_toNat,
    readsAs_of_toNat hb rfl rfl s.grid2.word_toNat,
    readsAs_of_regAt hb rfl rfl, readsAs_of_regAt hb rfl rfl, readsAs_of_regAt hb rfl rfl,
    readsAs_of_setWidth hb rfl rfl, readsAs_of_toNat hb rfl rfl s.bwstateWord_toNat, readsAs_of_setWidth hb rfl rfl,
    readsAs_of_setWidth hb rfl rfl, readsAs_of_setWidth hb rfl rfl, readsAs_of_setWidth hb rfl rfl,
    readsAs_of_setWidth hb rfl rfl, readsAs_of_setWidth hb rfl rfl, readsAs_of_toNat hb rfl rfl s.matchWord_toNat,
    readsAs_of_regAt hb rfl rfl, fun n => readsAs_of_setWidth hb (regAt_hbits s.cfg n) rfl,
    fun i => readsAs_of_setWidth hb (regAt_hvals s.cfg i) rfl, fun k => ?blocks, fun y => ?hdc,
    fun y => ?hac, fun i b hp hs hg => ?outbufWritten, fun i hp hs => ?outbufBeyond, fun i b hs hg => ?inbufWritten⟩
  case blocks =>
    obtain ⟨hwb, hrb, hsym, hq0, hq1⟩ := regAt_block s.cfg k
    exact ⟨readsAs_of_regAt hb hwb rfl, readsAs_of_regAt hb hrb rfl, readsAs_of_toNat hb hsym rfl (s.sym[k].word_toNat),
      readsAs_of_setWidth hb hq0 rfl, readsAs_of_setWidth hb hq1 rfl⟩
  case hdc =>
    obtain ⟨h0, h1⟩ := regAt_hdc s.cfg y
    exact ⟨readsAs_of_toNat hb h0 rfl s.hdc0[y].word_toNat, readsAs_of_toNat hb h1 rfl s.hdc1[y].word_toNat⟩
  case hac =>
    obtain ⟨h0, h1⟩ := regAt_hac s.cfg y
    exact ⟨readsAs_of_toNat hb h0 rfl s.hac0[y].word_toNat, readsAs_of_toNat hb h1 rfl s.hac1[y].word_toNat⟩
  case outbufWritten => exact readsAs_of_setWidth hb (regAt_outbuf s.cfg hs) (regValue_outbuf_written hp hg)
  case outbufBeyond =>
    exact hostAccess_read_anyByte hb (regAt_outbuf s.cfg hs) (regValue_outbuf_beyond hp) (by omega) (by omega)
  case inbufWritten => exact readsAs_of_setWidth hb (regAt_inbuf s.cfg hs ho) (regValue_inbuf_written hg)

/-! ### Writes with BUSY = 0 -/

theorem lowBits_eq_ofNat (n : Nat) (v : Word) : lowBits n v = BitVec.ofNat n v.toNat := (BitVec.ofNat_toNat n v).symm

theorem lowBits_eq_ofNat_mod (n : Nat) (v : Word) : lowBits n v = BitVec.ofNat n (v.toNat % 2 ^ n) := by
  rw [lowBits_eq_ofNat]
  exact BitVec.eq_of_toNat_eq (by simp)

/-- A GRIDDIM write stores the two fields of the bus word, each limited to its parameter (spec/10_state.md R53). -/
theorem gridOfWord_eq {p : Params} {v : Word} {g : GridDim} (hw : g.gw.toNat = min (v.toNat % 512) p.gridMaxW)
    (hh : g.gh.toNat = min (v.toNat / 65536 % 512) p.gridMaxH) : gridOfWord p v = g := by
  cases g with
  | mk gw gh =>
    simp only at hw hh
    simp only [gridOfWord, GridDim.mk.injEq, BitVec.extractLsb'_toNat, Nat.shiftRight_eq_div_pow]
    norm_num only [pow_zero, Nat.div_one]
    rw [← hw, ← hh]
    simp

/-- The fields of a written symbol entry as the bus word's quotients (spec/10_state.md R35). -/
theorem symOfWord_eq (v : Word) :
    symOfWord v = ⟨BitVec.ofNat 8 (v.toNat / 2 ^ 24), BitVec.ofNat 4 (v.toNat / 2 ^ 20), BitVec.ofNat 16 v.toNat⟩ := by
  simp [symOfWord, BitVec.extractLsb', Nat.shiftRight_eq_div_pow]

/-- With BUSY = 0 a write stores into every location but CTRL, STATUS and CMD (spec/20_memory.md R108). -/
theorem writeReg_idle {s : State} (hb : s.busy = false) {r : Reg} (hr : r ∉ [.ctrl, .status, .cmd]) (v : Word) :
    s.writeReg r v = s.writeData r v := by
  cases r with
  | ctrl | status | cmd => simp at hr
  | _ => simp [State.writeReg, hb]

theorem writesTo_of_regAt {s t : State} {a : Nat} {r : Reg} {v : Word} (hb : s.busy = false)
    (hr : regAt s.cfg a = some r) (ht : s.writeData r v = t) (hd : r ∉ [.ctrl, .status, .cmd] := by simp)
    (ha : a < 2 ^ 18 := by omega) (h4 : a % 4 = 0 := by omega) : s.writesTo v a t := by
  rw [State.writesTo, hostAccess_write ((accessReg_word s.cfg ha h4).trans hr), writeReg_idle hb hd, ht]

theorem writesTo_ctrl {s : State} {v : Word} (hv : v.getLsbD 31 = false) :
    s.writesTo v 0x10 { s with ieDone := v.getLsbD 0, ieErr := v.getLsbD 1 } := by
  rw [State.writesTo, hostAccess_write (r := .ctrl) rfl, State.writeReg, State.writeCtrl, hv]
  rfl

/-- Settles O49: row by row of the map, the location at the address and what `State.writeData` stores there. -/
theorem hostWritesStoreRegisters : Obligations.HostWritesStoreRegisters := by
  unfold Obligations.HostWritesStoreRegisters
  intro s v hb ho hi
  refine ⟨writesTo_ctrl, writesTo_of_regAt hb rfl (by rw [State.writeData, lowBits_eq_ofNat_mod]; rfl), fun g hw hh => ?grids,
    writesTo_of_regAt hb rfl rfl, writesTo_of_regAt hb rfl rfl, writesTo_of_regAt hb rfl rfl,
    writesTo_of_regAt hb rfl (by rw [State.writeData, lowBits_eq_ofNat_mod]; rfl),
    writesTo_of_regAt hb rfl (by simp only [State.writeData, lowBits, BitVec.toNat_setWidth]),
    fun n => writesTo_of_regAt hb (regAt_hbits s.cfg n) (by rw [State.writeData, lowBits_eq_ofNat]),
    fun i => writesTo_of_regAt hb (regAt_hvals s.cfg i) (by rw [State.writeData, lowBits_eq_ofNat]),
    fun k => ?blocks, fun y => ?hdc, fun y => ?hac, fun i hs => writesTo_of_regAt hb (regAt_outbuf s.cfg hs) rfl,
    fun i hs => ?inbuf, fun a ha => ?readOnly⟩
  case grids =>
    rw [← gridOfWord_eq hw hh]
    exact ⟨writesTo_of_regAt hb rfl rfl, writesTo_of_regAt hb rfl rfl, writesTo_of_regAt hb rfl rfl⟩
  case blocks =>
    obtain ⟨hwb, hrb, hsym, hq0, hq1⟩ := regAt_block s.cfg k
    exact ⟨writesTo_of_regAt hb hwb rfl, writesTo_of_regAt hb hrb rfl,
      writesTo_of_regAt hb hsym (by rw [State.writeData, symOfWord_eq]), writesTo_of_regAt hb hq0 rfl,
      writesTo_of_regAt hb hq1 rfl⟩
  case hdc =>
    obtain ⟨h0, h1⟩ := regAt_hdc s.cfg y
    exact ⟨writesTo_of_regAt hb h0 rfl, writesTo_of_regAt hb h1 rfl⟩
  case hac =>
    obtain ⟨h0, h1⟩ := regAt_hac s.cfg y
    exact ⟨writesTo_of_regAt hb h0 rfl, writesTo_of_regAt hb h1 rfl⟩
  case inbuf =>
    refine ⟨_, writesTo_of_regAt hb (regAt_inbuf s.cfg hs ho) rfl, ?_, fun j hj => ?_⟩
    · rw [Sparse.get_set_self, lowBits_eq_ofNat]
    · exact Sparse.get_set_of_ne _ _ hj.symm
  case readOnly =>
    simp only [List.mem_cons, List.not_mem_nil, or_false] at ha
    rcases ha with rfl | rfl | rfl | rfl | rfl | rfl | rfl | rfl | rfl | rfl | rfl | rfl | rfl | rfl | rfl <;>
      exact writesTo_of_regAt hb rfl rfl

end Sys2Proof.Machine

namespace Sys2Proof.Machine

/-! ### Words and the formats' reserved bits -/

/-- The rows of the opcode map in terms of the formats (spec/30_encoding.md R143, R152): a row's mask covers OP and the bits
that the format reserves, and its match has the opcode and zeros. -/
theorem opTable_columns : ∀ r ∈ opTable,
    fieldsOf r.mask = { fieldsOf (reservedBits r.mnem.format) with op := 0x3F } ∧
      fieldsOf r.mtch = ⟨r.mnem.opcode, 0, 0, 0, 0⟩ := by decide

/-- No format reserves a bit of OP. -/
theorem reservedBits_op (fm : Format) : (fieldsOf (reservedBits fm)).op = 0 := by cases fm <;> decide

/-- A format without a channel reserves the bits of CH, so there CH = 3 is a reserved bit (spec/30_encoding.md R153). -/
theorem hasChannel_of_ch_ne_zero {fm : Format} {w : Word} (hr : w &&& reservedBits fm = 0) (hc : (fieldsOf w).ch ≠ 0) :
    hasChannel fm = true := by
  obtain ⟨-, hch, -⟩ := (and_eq_iff w (reservedBits fm) 0).mp hr
  cases fm
  case c | g | m => rfl
  case z | t | q | h => exact absurd (BitVec.and_allOnes.symm.trans hch) hc

/-- A word with a command's opcode matches the command's row exactly when no bit that its format reserves is 1. -/
theorem and_mask_eq_iff {r : OpRow} (h : r ∈ opTable) {w : Word} (hop : (fieldsOf w).op = r.mnem.opcode) :
    w &&& r.mask = r.mtch ↔ w &&& reservedBits r.mnem.format = 0 := by
  obtain ⟨hmask, hmtch⟩ := opTable_columns r h
  have hzero : fieldsOf (0 : Word) = ⟨0, 0, 0, 0, 0⟩ := by decide
  have hopcode : r.mnem.opcode &&& 0x3F = r.mnem.opcode := BitVec.and_allOnes
  have hnone : r.mnem.opcode &&& 0 = 0 := BitVec.and_zero
  simp only [and_eq_iff, hmask, hmtch, hzero, hop, hopcode, reservedBits_op, hnone, true_and]

/-! ### What the decoder answers -/

@[simp] theorem chanOf_bits (ch : Chan) : chanOf ch.bits = some ch := by cases ch <;> rfl

theorem chanOf_eq_none_iff {b : BitVec 2} : chanOf b = none ↔ b = 3 := by revert b; decide

theorem bits_of_chanOf {b : BitVec 2} {ch : Chan} (h : chanOf b = some ch) : ch.bits = b := by revert b ch; decide

theorem decode_unassignedOp_iff (w : Word) : decode w = .error .unassignedOp ↔ opRow (fieldsOf w).op = none := by
  unfold decode
  cases opRow (fieldsOf w).op with
  | none => simp
  | some r =>
    dsimp only
    split
    · simp
    · cases chanOf (fieldsOf w).ch <;> simp

theorem opRow_eq_none_iff (op : BitVec 6) : opRow op = none ↔ op ∈ unassignedOps := by revert op; decide

/-- Everything a word with the opcode of a command can decode to, in the order of spec/30_encoding.md R153: a bit that the
format reserves is 1; else the format has a channel and CH is 3; else the command with the word's operands. -/
theorem decode_cases {w : Word} {m : Mnem} (hop : (fieldsOf w).op = m.opcode) :
    (w &&& reservedBits m.format ≠ 0 ∧ decode w = .error .reservedBit) ∨
      (w &&& reservedBits m.format = 0 ∧ hasChannel m.format = true ∧ (fieldsOf w).ch = 3 ∧
        decode w = .error .channelThree) ∨
      (w &&& reservedBits m.format = 0 ∧ (fieldsOf w).ch ≠ 3 ∧
        ∃ ch, chanOf (fieldsOf w).ch = some ch ∧ decode w = .ok (assembleInstr m (fieldsOf w) ch)) := by
  obtain ⟨r, hrow, rfl, -⟩ := opRow_opcode m
  have hmatch := and_mask_eq_iff (List.mem_of_find?_eq_some hrow) hop
  unfold decode
  simp only [hop, hrow, ne_eq, hmatch]
  by_cases hr : w &&& reservedBits r.mnem.format = 0
  · rw [if_neg (not_not.mpr hr)]
    cases hc : chanOf (fieldsOf w).ch with
    | none =>
      have hch : (fieldsOf w).ch = 3 := chanOf_eq_none_iff.mp hc
      exact .inr (.inl ⟨hr, hasChannel_of_ch_ne_zero hr (by rw [hch]; decide), hch, rfl⟩)
    | some ch =>
      have hch : (fieldsOf w).ch ≠ 3 := fun h => by simp [chanOf_eq_none_iff.mpr h] at hc
      exact .inr (.inr ⟨hr, hch, ch, rfl, rfl⟩)
  · exact .inl ⟨hr, if_pos hr⟩

/-- A word that decodes has the opcode of a command. -/
theorem opcode_of_decode {w : Word} {i : Instr} (h : decode w = .ok i) : ∃ m : Mnem, (fieldsOf w).op = m.opcode := by
  cases hrow : opRow (fieldsOf w).op with
  | none => simp [(decode_unassignedOp_iff w).mpr hrow] at h
  | some r => exact ⟨r.mnem, opRow_some hrow⟩

/-! ### Operands: assembling and placing them are inverse -/

/-- The encoding of a well-formed instruction stands in its row of the opcode map: the cases of `Laws.EncodingInRow`. -/
theorem encode_in_row : ∀ i : Instr, Laws.EncodingInRow.Statement i
  | .nop => Laws.EncodingInRow.nop
  | .dcreset => Laws.EncodingInRow.dcreset
  | .bwreset => Laws.EncodingInRow.bwreset
  | .brreset => Laws.EncodingInRow.brreset
  | .refclr => Laws.EncodingInRow.refclr
  | .wbclr => Laws.EncodingInRow.wbclr
  | .fdct => Laws.EncodingInRow.fdct
  | .idct => Laws.EncodingInRow.idct
  | .quant ch => Laws.EncodingInRow.quant ch
  | .dequant ch => Laws.EncodingInRow.dequant ch
  | .qscale tid q => Laws.EncodingInRow.qscale tid q
  | .qdefault tid => Laws.EncodingInRow.qdefault tid
  | .qload tid => Laws.EncodingInRow.qload tid
  | .zzscan => Laws.EncodingInRow.zzscan
  | .zzunscan => Laws.EncodingInRow.zzunscan
  | .rleenc ch => Laws.EncodingInRow.rleenc ch
  | .rledec ch => Laws.EncodingInRow.rledec ch
  | .hbuild cls tid => Laws.EncodingInRow.hbuild cls tid
  | .hdefault cls tid => Laws.EncodingInRow.hdefault cls tid
  | .henc ch => Laws.EncodingInRow.henc ch
  | .hdec ch => Laws.EncodingInRow.hdec ch
  | .hflush => Laws.EncodingInRow.hflush
  | .refsave ch bx row => Laws.EncodingInRow.refsave ch bx row
  | .msearch ch bx row => Laws.EncodingInRow.msearch ch bx row
  | .resid => Laws.EncodingInRow.resid
  | .recon => Laws.EncodingInRow.recon
  | .mvload ch mv bx row => Laws.EncodingInRow.mvload ch mv bx row

/-- An encoding has no reserved bit 1 and no CH = 3. -/
theorem encode_legal {i : Instr} (h : i.wf = true) :
    encode i &&& reservedBits i.mnem.format = 0 ∧ (fieldsOf (encode i)).ch ≠ 3 := by
  obtain ⟨r, hmem, hm, hmatch, hch⟩ := encode_in_row i h
  have hop : (fieldsOf (encode i)).op = r.mnem.opcode := by rw [fieldsOf_encode, hm]
  rw [← hm]
  exact ⟨(and_mask_eq_iff hmem hop).mp hmatch, hch⟩

/-- Assembling the operands of an encoding gives the instruction back (spec/30_encoding.md R144). -/
theorem assembleInstr_encode {i : Instr} (h : i.wf = true) {c : Chan} (hc : chanOf (fieldsOf (encode i)).ch = some c) :
    assembleInstr i.mnem (fieldsOf (encode i)) c = i := by
  rw [fieldsOf_encode] at hc ⊢
  cases i
  case nop | dcreset | bwreset | brreset | refclr | wbclr | fdct | idct | zzscan | zzunscan | hflush | resid | recon => rfl
  case quant | dequant | rleenc | rledec | henc | hdec =>
    simp only [operandFields, chanOf_bits, Option.some.injEq] at hc
    simp only [Instr.mnem, assembleInstr, hc]
  case qdefault tid | qload tid => cases tid <;> rfl
  case hbuild cls tid | hdefault cls tid => cases cls <;> cases tid <;> rfl
  case qscale tid q =>
    simp only [Instr.wf, decide_eq_true_eq] at h
    cases tid <;> simp [Instr.mnem, assembleInstr, operandFields, tidOf, TableId.bits] <;> omega
  case refsave | msearch =>
    simp only [operandFields, chanOf_bits, Option.some.injEq] at hc
    simp only [Instr.wf, Bool.and_eq_true, decide_eq_true_eq] at h
    obtain ⟨hbx, hrow⟩ := h
    simp only [Instr.mnem, assembleInstr, operandFields, hc, BitVec.toNat_ofNat, Nat.mod_eq_of_lt hbx, Nat.mod_eq_of_lt hrow]
  case mvload =>
    simp only [operandFields, chanOf_bits, Option.some.injEq] at hc
    simp only [Instr.wf, Bool.and_eq_true, decide_eq_true_eq] at h
    obtain ⟨⟨hmv, hbx⟩, hrow⟩ := h
    simp only [Instr.mnem, assembleInstr, operandFields, hc, BitVec.toNat_ofNat, Nat.mod_eq_of_lt hmv, Nat.mod_eq_of_lt hbx,
      Nat.mod_eq_of_lt hrow]

/-- Settles O1: an encoding has its command's opcode, no reserved bit and a channel, so it decodes to the command that its
columns assemble. -/
theorem decodeEncodeRoundTrip : Obligations.DecodeEncodeRoundTrip := by
  unfold Obligations.DecodeEncodeRoundTrip
  intro i hwf
  obtain ⟨hr, hch⟩ := encode_legal hwf
  have hop : (fieldsOf (encode i)).op = i.mnem.opcode := by rw [fieldsOf_encode]
  obtain ⟨hr', -⟩ | ⟨-, -, hch', -⟩ | ⟨-, -, ch, hc, hd⟩ := decode_cases hop
  · exact absurd hr hr'
  · exact absurd hch' hch
  · rw [hd, assembleInstr_encode hwf hc]

@[simp] theorem assembleInstr_mnem (m : Mnem) (f : Fields) (ch : Chan) : (assembleInstr m f ch).mnem = m := by
  cases m <;> rfl

theorem assembleInstr_wf (m : Mnem) (f : Fields) (ch : Chan) : (assembleInstr m f ch).wf = true := by
  cases m
  case qscale => exact decide_eq_true (BitVec.isLt _)
  case refsave | msearch => simpa [assembleInstr, Instr.wf] using ⟨f.b0.isLt, f.b1.isLt⟩
  case mvload => simpa [assembleInstr, Instr.wf] using ⟨⟨f.b2.isLt, f.b0.isLt⟩, f.b1.isLt⟩
  all_goals rfl

/-- The operand columns that a format writes for the operands read from the columns `f` (spec/30_encoding.md R143): CH,
[23:16], [15:8], [7:0]. -/
def formatColumns (f : Fields) (ch : Chan) : Format → BitVec 2 × Byte × Byte × Byte
  | .z => (0, 0, 0, 0)
  | .c => (ch.bits, 0, 0, 0)
  | .t => (0, (tidOf f).bits, 0, 0)
  | .q => (0, (tidOf f).bits, 0, (f.b0.extractLsb' 0 7).setWidth 8)
  | .h => (0, (clsOf f).bits ||| (tidOf f).bits, 0, 0)
  | .g => (ch.bits, 0, f.b1, f.b0)
  | .m => (ch.bits, f.b2, f.b1, f.b0)

theorem operandFields_assembleInstr (m : Mnem) (f : Fields) (ch : Chan) :
    operandFields (assembleInstr m f ch) = formatColumns f ch m.format := by
  cases m
  case qscale => simp only [assembleInstr, operandFields, Mnem.format, formatColumns, BitVec.ofNat_toNat]
  case refsave | msearch | mvload =>
    simp only [assembleInstr, operandFields, Mnem.format, formatColumns, BitVec.ofNat_toNat, BitVec.setWidth_eq]
  all_goals rfl

/-- In [23:16] of formats T and Q every bit but TID is reserved, so TID is the whole byte. -/
theorem tidOf_bits_of_reserved {f : Fields} (h : f.b2 &&& 0xFE = 0) : (tidOf f).bits = f.b2 := by
  have byte : ∀ b : Byte, b &&& 0xFE = 0 → (if b.getLsbD 0 then TableId.chroma else .luma).bits = b := by decide
  exact byte f.b2 h

/-- In [23:16] of format H every bit but CLS and TID is reserved, so they are the whole byte. -/
theorem clsOf_tidOf_bits_of_reserved {f : Fields} (h : f.b2 &&& 0xFC = 0) : (clsOf f).bits ||| (tidOf f).bits = f.b2 := by
  have byte : ∀ b : Byte, b &&& 0xFC = 0 →
      (if b.getLsbD 1 then TableClass.ac else .dc).bits ||| (if b.getLsbD 0 then TableId.chroma else .luma).bits = b := by
    decide
  exact byte f.b2 h

/-- In [7:0] of format Q bit 7 is reserved, so QF is the whole byte. -/
theorem low7_of_reserved : ∀ b : Byte, b &&& 0x80 = 0 → (b.extractLsb' 0 7).setWidth 8 = b := by decide

/-- A column that is reserved as a whole is 0. -/
theorem zero_eq_of_and_allOnes {n : Nat} {x : BitVec n} (h : x &&& BitVec.allOnes n = 0) : 0 = x :=
  h.symm.trans BitVec.and_allOnes

theorem columns_ext {x y : BitVec 2 × Byte × Byte × Byte} (hch : x.1 = y.1) (h2 : x.2.1 = y.2.1) (h1 : x.2.2.1 = y.2.2.1)
    (h0 : x.2.2.2 = y.2.2.2) : x = y :=
  Prod.ext hch (Prod.ext h2 (Prod.ext h1 h0))

/-- With no reserved bit 1, the operands of a word hold all of its columns (spec/30_encoding.md R154). -/
theorem formatColumns_of_reserved {fm : Format} {w : Word} (hr : w &&& reservedBits fm = 0) {ch : Chan}
    (hc : chanOf (fieldsOf w).ch = some ch) :
    formatColumns (fieldsOf w) ch fm = ((fieldsOf w).ch, (fieldsOf w).b2, (fieldsOf w).b1, (fieldsOf w).b0) := by
  obtain ⟨-, hch, h2, h1, h0⟩ := (and_eq_iff w (reservedBits fm) 0).mp hr
  have hbits := bits_of_chanOf hc
  cases fm
  case z =>
    exact columns_ext (zero_eq_of_and_allOnes hch) (zero_eq_of_and_allOnes h2) (zero_eq_of_and_allOnes h1)
      (zero_eq_of_and_allOnes h0)
  case c => exact columns_ext hbits (zero_eq_of_and_allOnes h2) (zero_eq_of_and_allOnes h1) (zero_eq_of_and_allOnes h0)
  case t =>
    exact columns_ext (zero_eq_of_and_allOnes hch) (tidOf_bits_of_reserved h2) (zero_eq_of_and_allOnes h1)
      (zero_eq_of_and_allOnes h0)
  case q =>
    exact columns_ext (zero_eq_of_and_allOnes hch) (tidOf_bits_of_reserved h2) (zero_eq_of_and_allOnes h1)
      (low7_of_reserved _ h0)
  case h =>
    exact columns_ext (zero_eq_of_and_allOnes hch) (clsOf_tidOf_bits_of_reserved h2) (zero_eq_of_and_allOnes h1)
      (zero_eq_of_and_allOnes h0)
  case g => exact columns_ext hbits (zero_eq_of_and_allOnes h2) rfl rfl
  case m => exact columns_ext hbits rfl rfl rfl

/-- Settles O2: the operands of a decoded word hold every column that its format does not reserve, and the others are 0. -/
theorem decodedWordIsItsEncoding : Obligations.DecodedWordIsItsEncoding := by
  unfold Obligations.DecodedWordIsItsEncoding
  intro w i hd
  obtain ⟨m, hop⟩ := opcode_of_decode hd
  obtain ⟨-, hd'⟩ | ⟨-, -, -, hd'⟩ | ⟨hr, -, ch, hc, hd'⟩ := decode_cases hop
  · simp [hd'] at hd
  · simp [hd'] at hd
  · obtain rfl : assembleInstr m (fieldsOf w) ch = i := by simpa [hd'] using hd
    refine ⟨assembleInstr_wf .., fieldsOf_inj ?_⟩
    rw [fieldsOf_encode, operandFields_assembleInstr, formatColumns_of_reserved hr hc, assembleInstr_mnem, ← hop]

/-! ### Illegal words -/

/-- The engine's turn on an illegal word raises E_ILLEGAL (spec/30_encoding.md R153, 60_exceptions.md R431). -/
theorem engineTurn_of_illegal {s : State} {w : Word} {e : DecodeError} (h : s.pending = some w) (hd : decode w = .error e) :
    engineTurn s = .next (s.faulted 0x01 e.detail) := by
  simp only [engineTurn, h, execWord, hd]
  rfl

/-- Settles O3: the three cases are the decoder's, and the engine's turn on an illegal word only raises E_ILLEGAL. -/
theorem illegalWordsInOrder : Obligations.IllegalWordsInOrder := by
  unfold Obligations.IllegalWordsInOrder
  refine fun w => ⟨(decode_unassignedOp_iff w).trans (opRow_eq_none_iff _), fun m hop => ?_, fun s e henv hp hd => ?_⟩
  · obtain ⟨hr, hd⟩ | ⟨hr, hchan, hc, hd⟩ | ⟨hr, hc, ch, -, hd⟩ := decode_cases hop
    · exact ⟨iff_of_true hd hr, iff_of_false (by simp [hd]) fun ⟨h, _⟩ => hr h,
        iff_of_false (by simp [hd]) fun ⟨h, _⟩ => hr h⟩
    · exact ⟨iff_of_false (by simp [hd]) (not_not.mpr hr), iff_of_true hd ⟨hr, hchan, hc⟩,
        iff_of_false (by simp [hd]) fun ⟨_, h⟩ => h hchan hc⟩
    · exact ⟨iff_of_false (by simp [hd]) (not_not.mpr hr), iff_of_false (by simp [hd]) fun ⟨_, _, h⟩ => hc h,
        iff_of_true ⟨_, hd, assembleInstr_mnem ..⟩ ⟨hr, fun _ => hc⟩⟩
  · rw [step_of_env_nil henv, engineTurn_of_illegal hp hd, State.faulted, State.cmdWord, hp]
    cases e <;> rfl

/-- Settles O4: the decoder evaluated on the ten words. -/
theorem opcodeTableWords : Obligations.OpcodeTableWords := by
  unfold Obligations.OpcodeTableWords
  decide

end Sys2Proof.Machine

namespace Sys2Proof.Machine

/-! ### FDCT and IDCT as sums over the transform basis

Both transforms are Σ Σ a(i)·t(i,j)·b(j) for two lines a, b of the basis matrix C (spec/41_transform.md R200, R201, R204):
rows of C in FDCT, columns in IDCT. -/

/-- C(u, i) = (α(u)/2)·cos((2i+1)uπ/16) (spec/41_transform.md R200). -/
noncomputable def dctBasis (u i : Fin 8) : ℝ := dctAlpha u / 2 * dctCos i u

/-- Σ_i Σ_j a(i)·t(i,j)·b(j), the second form of spec/41_transform.md R201 and R204. -/
noncomputable def doubleSum (a b : Fin 8 → ℝ) (t : Fin 8 → Fin 8 → ℝ) : ℝ := ∑ i, ∑ j, a i * t i j * b j

theorem forwardReal_eq_doubleSum (b : Block) (u v : Fin 8) :
    forwardReal b u v = doubleSum (dctBasis u) (dctBasis v) fun i j => blockAt b i j - 128 := by
  simp only [forwardReal, doubleSum, dctBasis, Finset.mul_sum]
  exact Finset.sum_congr rfl fun i _ => Finset.sum_congr rfl fun j _ => by ring

theorem inverseReal_eq_doubleSum (b : Block) (i j : Fin 8) :
    inverseReal b i j = doubleSum (dctBasis · i) (dctBasis · j) fun u v => blockAt b u v := by
  simp only [inverseReal, doubleSum, dctBasis, Finset.mul_sum]
  exact Finset.sum_congr rfl fun u _ => Finset.sum_congr rfl fun v _ => by ring

theorem twoCos_four_val : (twoCos 4).val = √2 := by
  have h : ((4 : ℕ) : ℝ) * Real.pi / 16 = Real.pi / 4 := by push_cast; ring
  rw [twoCos_val, h, Real.cos_pi_div_four]
  ring

/-- The machine's basis values are 4·C(u, i). -/
@[simp] theorem basis4_val (u i : Fin 8) : (basis4 u i).val = 4 * dctBasis u i := by
  by_cases hu : u = 0
  · subst hu
    have h : 1 / √2 = √2 / 2 := by
      rw [div_eq_div_iff (by positivity) two_ne_zero, sqrt2_mul, one_mul]
    simp only [basis4, dctBasis, dctAlpha, dctCos, Fin.val_zero, if_true, twoCos_four_val, h]
    simp; ring
  · have hv : u.val ≠ 0 := Fin.val_ne_zero_iff.mpr hu
    simp only [basis4, dctBasis, dctAlpha, dctCos, hv, hu, if_false, twoCos_val]
    push_cast; ring

theorem Z8.sum8_val_fin (f : Nat → Z8) : (Z8.sum8 f).val = ∑ i : Fin 8, (f i).val := by
  rw [Z8.sum8_val, Finset.sum_range]

/-- The machine's form of a double sum. -/
theorem Z8.sum8_mul_sum8_val (a b : Nat → Z8) (t : Nat → Nat → Int) :
    (Z8.sum8 fun i => (a i).mul (Z8.sum8 fun j => (b j).smul (t i j))).val =
      doubleSum (fun i => (a i).val) (fun j => (b j).val) fun i j => t i j := by
  simp only [Z8.sum8_val_fin, Z8.val_mul, Z8.val_smul, doubleSum, Finset.mul_sum]
  exact Finset.sum_congr rfl fun i _ => Finset.sum_congr rfl fun j _ => by ring

theorem doubleSum_four_mul (a b : Fin 8 → ℝ) (t : Fin 8 → Fin 8 → ℝ) :
    doubleSum (fun i => 4 * a i) (fun j => 4 * b j) t = 16 * doubleSum a b t := by
  simp only [doubleSum, Finset.mul_sum]
  exact Finset.sum_congr rfl fun i _ => Finset.sum_congr rfl fun j _ => by ring

theorem elemAt_eq_blockAt (b : Block) (i j : Fin 8) : elemAt b i j = blockAt b i j := by
  have h : 8 * i.val + j.val < 64 := by omega
  simp [elemAt, blockAt, h]

/-- The exact value p that FDCT holds for element (u, v) has p/16 = X(u,v). -/
theorem forward16_val_div (b : Block) (u v : Fin 8) :
    (forward16 (fun i j => elemAt b i j - 128) u v).val / 16 = forwardReal b u v := by
  simp only [forward16, Z8.sum8_mul_sum8_val, basis4_val, doubleSum_four_mul, elemAt_eq_blockAt]
  rw [mul_div_cancel_left₀ _ (by norm_num), forwardReal_eq_doubleSum]
  push_cast
  rfl

/-- The exact value p that IDCT holds for element (i, j) has p/16 = Y(i,j). -/
theorem inverse16_val_div (b : Block) (i j : Fin 8) : (inverse16 (elemAt b) i j).val / 16 = inverseReal b i j := by
  simp only [inverse16, Z8.sum8_mul_sum8_val, basis4_val, doubleSum_four_mul, elemAt_eq_blockAt]
  rw [mul_div_cancel_left₀ _ (by norm_num), inverseReal_eq_doubleSum]

/-! ### Rounding -/

/-- `f` rounds reals to integers: it keeps their order and leaves the integers. -/
structure IsRounding (f : ℝ → Int) : Prop where
  mono  : Monotone f
  fixes : ∀ n : Int, f n = n

theorem truncReal_mono : Monotone truncReal := by
  intro x y h
  unfold truncReal
  split
  · split
    · exact Int.ceil_mono h
    · next hx hy => exact (Int.ceil_nonpos.mpr hx.le).trans (Int.floor_nonneg.mpr (not_lt.mp hy))
  · next hx =>
    rw [if_neg (not_lt.mpr ((not_lt.mp hx).trans h))]
    exact Int.floor_mono h

theorem truncReal_isRounding : IsRounding truncReal where
  mono := truncReal_mono
  fixes n := by simp [truncReal]

theorem roundReal_isRounding : IsRounding roundReal where
  mono _ _ h := Int.floor_mono (by linarith)
  fixes n := by rw [roundReal, Int.floor_intCast_add]; norm_num

theorem IsRounding.abs_apply_le {f : ℝ → Int} (hf : IsRounding f) {x : ℝ} {n : Int} (h : |x| ≤ n) : |f x| ≤ n := by
  obtain ⟨h1, h2⟩ := abs_le.mp h
  have hl := hf.mono h1
  have hu := hf.mono h2
  rw [← Int.cast_neg, hf.fixes] at hl
  rw [hf.fixes] at hu
  exact abs_le.mpr ⟨hl, hu⟩

theorem roundHuShift_eq (p : Z8) {m : Nat} (hm : 0 < m) : roundHuShift p m = roundReal (p.val / (16 * m)) + 128 := by
  have h : ((p.smul 2).add (Z8.ofInt (16 * m))).val / (32 * m : Nat) = p.val / (16 * m) + 1 / 2 := by
    simp; field_simp; ring
  rw [roundHuShift, Z8.floorDiv_spec _ _ (by omega), h, roundReal]

theorem forwardPick_exact (p : Z8) (m d : Nat) : forwardPick p 0 m d = truncReal (p.val / 16) := by
  rw [forwardPick, if_pos rfl, p.truncDiv_spec 16 (by norm_num), Nat.cast_ofNat]

theorem inversePick_exact (p : Z8) (m d : Nat) : inversePick p 0 m d = roundReal (p.val / 16) + 128 := by
  rw [inversePick, if_pos rfl, roundHuShift_eq p one_pos, Nat.cast_one, mul_one]

/-! ### The conformance band -/

theorem bandPick_mem {lo hi : Int} (h : lo ≤ hi) (d : Nat) : lo ≤ bandPick lo hi d ∧ bandPick lo hi d ≤ hi := by
  unfold bandPick
  split
  · omega
  · have h0 := Int.emod_nonneg d (b := hi - lo + 1) (by omega)
    have h1 := Int.emod_lt_of_pos d (b := hi - lo + 1) (by omega)
    omega

theorem bandPick_add_const (lo hi c : Int) (d : Nat) : bandPick (lo + c) (hi + c) d = bandPick lo hi d + c := by
  simp only [bandPick, add_le_add_iff_right, add_sub_add_right_eq_sub]
  split
  · rfl
  · ring

/-- An integer between the roundings of x − e and x + e is the rounding of some real within e of x: of itself, or of the
end of the band that it lies beyond. -/
theorem IsRounding.exists_near {f : ℝ → Int} (hf : IsRounding f) {x e : ℝ} (he : 0 ≤ e) {n : Int} (h1 : f (x - e) ≤ n)
    (h2 : n ≤ f (x + e)) : ∃ y, |y - x| ≤ e ∧ f y = n := by
  have hn := hf.fixes n
  rcases lt_or_ge (n : ℝ) (x - e) with hlt | hlo
  · exact ⟨x - e, by simp [abs_of_nonneg he], h1.antisymm (hn ▸ hf.mono hlt.le)⟩
  rcases lt_or_ge (x + e) n with hlt | hhi
  · exact ⟨x + e, by simp [abs_of_nonneg he], (hn ▸ hf.mono hlt.le).antisymm h2⟩
  · exact ⟨n, abs_sub_le_iff.mpr ⟨by linarith, by linarith⟩, hn⟩

/-- The band around x holds what the draw picks. -/
theorem IsRounding.bandPick_near {f : ℝ → Int} (hf : IsRounding f) {x e : ℝ} (he : 0 ≤ e) (d : Nat) :
    ∃ y, |y - x| ≤ e ∧ f y = bandPick (f (x - e)) (f (x + e)) d := by
  obtain ⟨hlo, hhi⟩ := bandPick_mem (hf.mono (show x - e ≤ x + e by linarith)) d
  exact hf.exists_near he hlo hhi

/-- The ends of the band around p/16, as the machine forms them. -/
theorem val_lower_end (p : Z8) (n : Nat) {m : Nat} (hm : 0 < m) :
    ((p.smul m).add (Z8.ofInt (-(16 * n)))).val / (16 * m : Nat) = p.val / 16 - n / m := by
  simp; field_simp; ring

theorem val_upper_end (p : Z8) (n : Nat) {m : Nat} (hm : 0 < m) :
    ((p.smul m).add (Z8.ofInt (16 * n))).val / (16 * m : Nat) = p.val / 16 + n / m := by
  simp; field_simp

/-- FDCT's integer is in Tf(p/16) (spec/41_transform.md R205). -/
theorem forwardPick_near (p : Z8) (n : Nat) {m : Nat} (hm : 0 < m) (d : Nat) :
    ∃ y : ℝ, |y - p.val / 16| ≤ n / m ∧ forwardPick p n m d = truncReal y := by
  by_cases hn : n = 0
  · subst hn
    exact ⟨p.val / 16, by simp, forwardPick_exact ..⟩
  · have hp : 0 < 16 * m := by omega
    rw [forwardPick, if_neg hn, Z8.truncDiv_spec _ _ hp, Z8.truncDiv_spec _ _ hp, val_lower_end p n hm,
      val_upper_end p n hm]
    obtain ⟨y, hy, e⟩ := truncReal_isRounding.bandPick_near (x := p.val / 16) (e := n / m) (by positivity) d
    exact ⟨y, hy, e.symm⟩

/-- IDCT's integer is in Ti(p/16) (spec/41_transform.md R205). -/
theorem inversePick_near (p : Z8) (n : Nat) {m : Nat} (hm : 0 < m) (d : Nat) :
    ∃ z : ℝ, |z - p.val / 16| ≤ n / m ∧ inversePick p n m d = roundReal z + 128 := by
  by_cases hn : n = 0
  · subst hn
    exact ⟨p.val / 16, by simp, inversePick_exact ..⟩
  · have hl := val_lower_end p n hm
    have hu := val_upper_end p n hm
    push_cast at hl hu
    rw [inversePick, if_neg hn, roundHuShift_eq _ hm, roundHuShift_eq _ hm, hl, hu, bandPick_add_const]
    obtain ⟨z, hz, e⟩ := roundReal_isRounding.bandPick_near (x := p.val / 16) (e := n / m) (by positivity) d
    exact ⟨z, hz, by rw [e]⟩

/-! ### The elements of a transformed block -/

theorem blockAt_blockOf (f : Fin 64 → Word) (i j : Fin 8) :
    blockAt (blockOf f) i j = (f ⟨8 * i.val + j.val, by omega⟩).toInt := by
  simp [blockAt]

theorem toInt_getElem_eq_blockAt (b : Block) (k : Fin 64) :
    b[k].toInt = blockAt b ⟨k.val / 8, by omega⟩ ⟨k.val % 8, by omega⟩ := by
  have h : 8 * (k.val / 8) + k.val % 8 = k.val := Nat.div_add_mod ..
  simp [blockAt, h]

theorem blockAt_fdctBlock (p : Params) (draw : Nat) (b : Block) (u v : Fin 8) :
    blockAt (fdctBlock p draw b) u v =
      satInt (forwardPick (forward16 (fun i j => elemAt b i j - 128) u v) p.epsNum p.epsDen
        (Config.bandDraw draw (8 * u.val + v.val))) := by
  have hdiv : (8 * u.val + v.val) / 8 = u.val := by omega
  have hmod : (8 * u.val + v.val) % 8 = v.val := by omega
  rw [fdctBlock, blockAt_blockOf, toInt_sat32, satInt, hdiv, hmod]

theorem blockAt_idctBlock (p : Params) (draw : Nat) (b : Block) (i j : Fin 8) :
    blockAt (idctBlock p draw b) i j =
      satInt (inversePick (inverse16 (elemAt b) i j) p.epsNum p.epsDen (Config.bandDraw draw (8 * i.val + j.val))) := by
  have hdiv : (8 * i.val + j.val) / 8 = i.val := by omega
  have hmod : (8 * i.val + j.val) % 8 = j.val := by omega
  rw [idctBlock, blockAt_blockOf, toInt_sat32, satInt, hdiv, hmod]

section
variable {p : Params} (draw : Nat) (b : Block)

theorem fdctBlock_exact (h : p.epsNum = 0) (u v : Fin 8) :
    blockAt (fdctBlock p draw b) u v = satInt (truncReal (forwardReal b u v)) := by
  rw [blockAt_fdctBlock, h, forwardPick_exact, forward16_val_div]

theorem idctBlock_exact (h : p.epsNum = 0) (i j : Fin 8) :
    blockAt (idctBlock p draw b) i j = satInt (roundReal (inverseReal b i j) + 128) := by
  rw [blockAt_idctBlock, h, inversePick_exact, inverse16_val_div]

theorem fdctBlock_near (h : 0 < p.epsDen) (u v : Fin 8) :
    ∃ y : ℝ, |y - forwardReal b u v| ≤ dctEps p ∧ blockAt (fdctBlock p draw b) u v = satInt (truncReal y) := by
  obtain ⟨y, hy, e⟩ := forwardPick_near (forward16 (fun i j => elemAt b i j - 128) u v) p.epsNum h
    (Config.bandDraw draw (8 * u.val + v.val))
  rw [forward16_val_div] at hy
  exact ⟨y, hy, by rw [blockAt_fdctBlock, e]⟩

theorem idctBlock_near (h : 0 < p.epsDen) (i j : Fin 8) :
    ∃ z : ℝ, |z - inverseReal b i j| ≤ dctEps p ∧
      blockAt (idctBlock p draw b) i j = satInt (roundReal z + 128) := by
  obtain ⟨z, hz, e⟩ := inversePick_near (inverse16 (elemAt b) i j) p.epsNum h
    (Config.bandDraw draw (8 * i.val + j.val))
  rw [inverse16_val_div] at hz
  exact ⟨z, hz, by rw [blockAt_idctBlock, e]⟩

end

/-! ### The two commands -/

theorem exec_fdct (s : State) :
    exec .fdct s = .next ({ s with wb := fdctBlock s.cfg s.draws s.wb, draws := s.drawsAfterBand } : State).complete := rfl

theorem exec_idct (s : State) :
    exec .idct s = .next ({ s with wb := idctBlock s.cfg s.draws s.wb, draws := s.drawsAfterBand } : State).complete := rfl

theorem drawsAfterBand_of_closed {s : State} (h : s.cfg.epsNum = 0) : s.drawsAfterBand = s.draws := if_pos h

/-- Settles O11: the machine holds 16·X(u,v) exactly, and its truncation is exact. -/
theorem fdctExact : Obligations.FdctExact := by
  unfold Obligations.FdctExact
  refine ⟨by decide, fun s h => ⟨_, exec_fdct s, fdctBlock_exact _ _ h, ?_⟩⟩
  rw [drawsAfterBand_of_closed h]
  rfl

/-- Settles O12: the machine holds 16·Y(i,j) exactly, and its rounding is exact. -/
theorem idctExact : Obligations.IdctExact := by
  unfold Obligations.IdctExact
  refine ⟨by decide, fun s h => ⟨_, exec_idct s, idctBlock_exact _ _ h, ?_⟩⟩
  rw [drawsAfterBand_of_closed h]
  rfl

/-- Settles O13: what the draw picks lies between the rounded ends of the band, so a real of the band rounds to it. -/
theorem transformsStayInBand : Obligations.TransformsStayInBand := by
  unfold Obligations.TransformsStayInBand
  exact fun s h => ⟨⟨_, exec_fdct s, fdctBlock_near _ _ h, rfl⟩, _, exec_idct s, idctBlock_near _ _ h, rfl⟩

/-! ### The range of a transform -/

theorem basis4_row_sq (u : Fin 8) : Z8.sum8 (fun i => (basis4 u i).mul (basis4 u i)) = Z8.ofInt 16 := by
  revert u; decide

theorem basis4_col_sq (i : Fin 8) : Z8.sum8 (fun u => (basis4 u i).mul (basis4 u i)) = Z8.ofInt 16 := by
  revert i; decide

theorem sum_sq_of_sum8 {f : Nat → Z8} {a : Fin 8 → ℝ} (hf : ∀ i : Fin 8, (f i).val = 4 * a i)
    (h : Z8.sum8 (fun i => (f i).mul (f i)) = Z8.ofInt 16) : ∑ i, a i ^ 2 = 1 := by
  have hval := congrArg Z8.val h
  have hsq (i : Fin 8) : 4 * a i * (4 * a i) = 16 * a i ^ 2 := by ring
  simp only [Z8.sum8_val_fin, Z8.val_mul, hf, Z8.val_ofInt, hsq, ← Finset.mul_sum] at hval
  push_cast at hval
  linarith

/-- A row of C is a unit vector (spec/41_transform.md R200). -/
theorem dctBasis_row_sq (u : Fin 8) : ∑ i, dctBasis u i ^ 2 = 1 := sum_sq_of_sum8 (basis4_val u) (basis4_row_sq u)

/-- A column of C is a unit vector. -/
theorem dctBasis_col_sq (i : Fin 8) : ∑ u, dctBasis u i ^ 2 = 1 :=
  sum_sq_of_sum8 (f := fun u => basis4 u i) (basis4_val · i) (basis4_col_sq i)

/-- A unit vector of eight entries has sum of magnitudes at most √8 (Cauchy and Schwarz). -/
theorem sum_abs_le_of_unit {a : Fin 8 → ℝ} (h : ∑ i, a i ^ 2 = 1) : ∑ i, |a i| ≤ √8 := by
  apply Real.le_sqrt_of_sq_le
  have := sq_sum_le_card_mul_sum_sq (s := Finset.univ) (f := fun i => |a i|)
  simpa [sq_abs, h] using this

theorem doubleSum_const (a b : Fin 8 → ℝ) (x : ℝ) : doubleSum a b (fun _ _ => x) = x * ((∑ i, a i) * ∑ j, b j) := by
  rw [doubleSum, Finset.sum_mul_sum, Finset.mul_sum]
  refine Finset.sum_congr rfl fun i _ => ?_
  rw [Finset.mul_sum]
  exact Finset.sum_congr rfl fun j _ => by ring

/-- A double sum over unit vectors is at most 8 times the largest term (spec/41_transform.md R208). -/
theorem abs_doubleSum_le {a b : Fin 8 → ℝ} {t : Fin 8 → Fin 8 → ℝ} {m : ℝ} (ha : ∑ i, a i ^ 2 = 1)
    (hb : ∑ j, b j ^ 2 = 1) (ht : ∀ i j, |t i j| ≤ m) : |doubleSum a b t| ≤ 8 * m := by
  have hm : 0 ≤ m := (abs_nonneg _).trans (ht 0 0)
  calc |doubleSum a b t| ≤ ∑ i, ∑ j, |a i * t i j * b j| :=
        (Finset.abs_sum_le_sum_abs _ _).trans (Finset.sum_le_sum fun i _ => Finset.abs_sum_le_sum_abs _ _)
    _ ≤ doubleSum (fun i => |a i|) (fun j => |b j|) (fun _ _ => m) := by
        unfold doubleSum
        gcongr with i _ j _
        rw [abs_mul, abs_mul]
        gcongr
        exact ht i j
    _ = m * ((∑ i, |a i|) * ∑ j, |b j|) := doubleSum_const ..
    _ ≤ m * (√8 * √8) := by
        gcongr
        · exact sum_abs_le_of_unit ha
        · exact sum_abs_le_of_unit hb
    _ = 8 * m := by rw [Real.mul_self_sqrt (by norm_num)]; ring

theorem abs_satInt_le {v : Int} {n : Nat} (h : |v| ≤ n) : |satInt v| ≤ n := by
  unfold satInt
  rw [abs_le] at h ⊢
  omega

theorem abs_satInt_add_sub_le {v : Int} {n : Nat} (h : |v| ≤ n) : |satInt (v + 128) - 128| ≤ n := by
  unfold satInt
  rw [abs_le] at h ⊢
  omega

theorem satInt_of_mem {v : Int} (h1 : -2 ^ 31 ≤ v) (h2 : v ≤ 2 ^ 31 - 1) : satInt v = v := by
  unfold satInt
  omega

/-- Every |X(u,v)| is at most 8·M (spec/41_transform.md R208). -/
theorem abs_forwardReal_le {b : Block} {m : Nat} (h : ∀ i j, |blockAt b i j - 128| ≤ m) (u v : Fin 8) :
    |forwardReal b u v| ≤ 8 * m := by
  rw [forwardReal_eq_doubleSum]
  exact abs_doubleSum_le (dctBasis_row_sq u) (dctBasis_row_sq v) fun i j => by exact_mod_cast h i j

/-- Every |Y(i,j)| is at most 8·M (spec/41_transform.md R208). -/
theorem abs_inverseReal_le {b : Block} {m : Nat} (h : ∀ u v, |blockAt b u v| ≤ m) (i j : Fin 8) :
    |inverseReal b i j| ≤ 8 * m := by
  rw [inverseReal_eq_doubleSum]
  exact abs_doubleSum_le (dctBasis_col_sq i) (dctBasis_col_sq j) fun u v => by exact_mod_cast h u v

theorem abs_fdctBlock_le {p : Params} {b : Block} {m : Nat} (draw : Nat) (hp : p.epsNum = 0)
    (h : ∀ i j, |blockAt b i j - 128| ≤ m) (u v : Fin 8) : |blockAt (fdctBlock p draw b) u v| ≤ (8 * m : Nat) := by
  have hx : |forwardReal b u v| ≤ ((8 * m : Nat) : Int) := by exact_mod_cast abs_forwardReal_le h u v
  rw [fdctBlock_exact draw b hp]
  exact abs_satInt_le (truncReal_isRounding.abs_apply_le hx)

theorem abs_idctBlock_sub_le {p : Params} {b : Block} {m : Nat} (draw : Nat) (hp : p.epsNum = 0)
    (h : ∀ u v, |blockAt b u v| ≤ m) (i j : Fin 8) : |blockAt (idctBlock p draw b) i j - 128| ≤ (8 * m : Nat) := by
  have hy : |inverseReal b i j| ≤ ((8 * m : Nat) : Int) := by exact_mod_cast abs_inverseReal_le h i j
  rw [idctBlock_exact draw b hp]
  exact abs_satInt_add_sub_le (roundReal_isRounding.abs_apply_le hy)

/-- Settles O15: the lines of C are unit vectors, so Σ Σ |a(i)·t(i,j)·b(j)| ≤ √8·√8·M, and rounding and saturation keep the
bound. -/
theorem transformRanges : Obligations.TransformRanges := by
  unfold Obligations.TransformRanges
  refine fun s m hp => ⟨fun _ h => ⟨_, exec_fdct s, fun k => ?_⟩, fun _ h => ⟨_, exec_idct s, fun k => ?_⟩⟩
  · rw [toInt_getElem_eq_blockAt]
    exact_mod_cast abs_fdctBlock_le s.draws hp (fun i j => h ⟨8 * i.val + j.val, by omega⟩) _ _
  · rw [toInt_getElem_eq_blockAt]
    exact_mod_cast abs_idctBlock_sub_le s.draws hp (fun u v => h ⟨8 * u.val + v.val, by omega⟩) _ _

/-! ### Constant blocks -/

theorem dctBasis_zero (i : Fin 8) : dctBasis 0 i = √2 / 4 := by
  have h : (basis4 (0 : Fin 8) i).val = √2 := twoCos_four_val
  rw [basis4_val] at h
  linarith

theorem dctBasis_zero_mul (i j : Fin 8) : dctBasis 0 i * dctBasis 0 j = 1 / 8 := by
  rw [dctBasis_zero, dctBasis_zero]
  linear_combination (1 / 16 : ℝ) * sqrt2_mul

theorem basis4_row_sum {u : Fin 8} (h : u ≠ 0) : Z8.sum8 (basis4 u) = Z8.zero := by
  revert u; decide

/-- Every row of C but the first has sum 0. -/
theorem dctBasis_row_sum {u : Fin 8} (h : u ≠ 0) : ∑ i, dctBasis u i = 0 := by
  have hval := congrArg Z8.val (basis4_row_sum h)
  simp only [Z8.sum8_val_fin, basis4_val, Z8.val_zero, ← Finset.mul_sum] at hval
  linarith

theorem doubleSum_corner (a b : Fin 8 → ℝ) {t : Fin 8 → Fin 8 → ℝ} (h : ∀ i j, ¬(i = 0 ∧ j = 0) → t i j = 0) :
    doubleSum a b t = a 0 * t 0 0 * b 0 := by
  rw [doubleSum, Finset.sum_eq_single 0, Finset.sum_eq_single 0]
  · exact fun j _ hj => by simp [h 0 j (by simp [hj])]
  · simp
  · exact fun i _ hi => Finset.sum_eq_zero fun j _ => by simp [h i j (by simp [hi])]
  · simp

/-- The exact FDCT value at (0, 0) of a constant block (spec/41_transform.md R202). -/
theorem forwardReal_const_zero {b : Block} {c : Int} (h : ∀ i j, blockAt b i j = c) :
    forwardReal b 0 0 = (8 * (c - 128) : Int) := by
  simp only [forwardReal_eq_doubleSum, h, doubleSum_const, Finset.sum_mul_sum, dctBasis_zero_mul]
  simp
  ring

theorem forwardReal_const_ne_zero {b : Block} {c : Int} (h : ∀ i j, blockAt b i j = c) {u v : Fin 8}
    (huv : ¬(u = 0 ∧ v = 0)) : forwardReal b u v = (0 : Int) := by
  have hsum : (∑ i, dctBasis u i) * ∑ j, dctBasis v j = 0 := by
    rcases not_and_or.mp huv with hu | hv
    · rw [dctBasis_row_sum hu, zero_mul]
    · rw [dctBasis_row_sum hv, mul_zero]
  simp only [forwardReal_eq_doubleSum, h, doubleSum_const, hsum]
  simp

/-- A block with one coefficient, the first, is the transform of a constant block (spec/41_transform.md R209). -/
theorem inverseReal_corner {b : Block} {x : Int} (h0 : blockAt b 0 0 = 8 * x)
    (h : ∀ u v, ¬(u = 0 ∧ v = 0) → blockAt b u v = 0) (i j : Fin 8) : inverseReal b i j = x := by
  have hb := dctBasis_zero_mul i j
  rw [inverseReal_eq_doubleSum, doubleSum_corner _ _ fun u v huv => by simp [h u v huv], h0]
  push_cast
  linear_combination (8 * x : ℝ) * hb

theorem fdctBlock_const {p : Params} {b : Block} {c : Int} (draw : Nat) (hp : p.epsNum = 0) (hc : |c - 128| < 2 ^ 28)
    (h : ∀ i j, blockAt b i j = c) (u v : Fin 8) :
    blockAt (fdctBlock p draw b) u v = if u = 0 ∧ v = 0 then 8 * (c - 128) else 0 := by
  rw [abs_lt] at hc
  rw [fdctBlock_exact draw b hp]
  split
  · next huv =>
    obtain ⟨rfl, rfl⟩ := huv
    rw [forwardReal_const_zero h, truncReal_isRounding.fixes]
    exact satInt_of_mem (by omega) (by omega)
  · next huv =>
    rw [forwardReal_const_ne_zero h huv, truncReal_isRounding.fixes]
    rfl

theorem idctBlock_corner {p : Params} {b : Block} {x : Int} (draw : Nat) (hp : p.epsNum = 0) (hx : |x| < 2 ^ 28)
    (h : ∀ u v, blockAt b u v = if u = 0 ∧ v = 0 then 8 * x else 0) (i j : Fin 8) :
    blockAt (idctBlock p draw b) i j = x + 128 := by
  rw [abs_lt] at hx
  have hy := inverseReal_corner (h 0 0) (fun u v huv => (h u v).trans (if_neg huv)) i j
  rw [idctBlock_exact draw b hp, hy, roundReal_isRounding.fixes]
  exact satInt_of_mem (by omega) (by omega)

theorem blockAt_replicate (c : Word) (i j : Fin 8) : blockAt (Vector.replicate 64 c) i j = c.toInt := by simp [blockAt]

/-- Blocks with equal elements in rows and columns are equal. -/
theorem block_ext_blockAt {a b : Block} (h : ∀ i j, blockAt a i j = blockAt b i j) : a = b :=
  block_ext fun k => BitVec.eq_of_toInt_eq (by rw [toInt_getElem_eq_blockAt, toInt_getElem_eq_blockAt, h])

/-- Settles O14: of the row sums of C only the first is not 0, and C(0,i)·C(0,j) = 1/8 brings the constant back. -/
theorem constantBlockTransforms : Obligations.ConstantBlockTransforms := by
  unfold Obligations.ConstantBlockTransforms
  intro s c hp hc hwb
  have hs (i j : Fin 8) : blockAt s.wb i j = c.toInt := by rw [hwb, blockAt_replicate]
  have hf := fdctBlock_const s.draws hp hc hs
  refine ⟨_, _, exec_fdct s, hf 0 0, fun k hk => BitVec.eq_of_toInt_eq ?_, exec_idct _, block_ext_blockAt fun i j => ?_⟩
  · have hcorner : ¬((⟨k.val / 8, by omega⟩ : Fin 8) = 0 ∧ (⟨k.val % 8, by omega⟩ : Fin 8) = 0) := by
      simp only [Fin.ext_iff, Fin.val_zero] at hk ⊢
      omega
    rw [toInt_getElem_eq_blockAt]
    exact (hf _ _).trans (if_neg hcorner)
  · rw [hs]
    exact (idctBlock_corner _ hp hc hf i j).trans (sub_add_cancel ..)

end Sys2Proof.Machine

namespace Sys2Proof.Machine

/-! ### The quantization tables by name -/

@[simp] theorem quantTable_eq_qtOfTid (s : State) (tid : TableId) : s.quantTable tid = s.qtOfTid tid := by
  cases tid <;> rfl

@[simp] theorem complete_qtOfTid (s : State) (tid : TableId) : s.complete.qtOfTid tid = s.qtOfTid tid := by
  cases tid <;> rfl

theorem divisor_eq (s : State) (ch : Chan) (k : Fin 64) : s.divisor ch k = (s.qtOf ch)[k].toNat := by
  cases ch <;> rfl

/-- What the completion of a command that wrote QT(TID) leaves unchanged. -/
theorem setQt_complete_frame (s : State) (tid : TableId) (t : QTable) :
    (∀ tid' ≠ tid, (s.setQt tid t).complete.quantTable tid' = s.quantTable tid') ∧
      (s.setQt tid t).complete =
        { s with
          qt0 := (s.setQt tid t).complete.qt0, qt1 := (s.setQt tid t).complete.qt1
          cmdCnt := s.cmdCnt + 1, done := true, pending := none } :=
  ⟨fun tid' h => by simp [h], by cases tid <;> rfl⟩

/-! ### QSCALE, QDEFAULT and QLOAD -/

/-- A scaled entry, its clamp included, fits its byte (spec/42_quantizer.md R233). -/
theorem scaleEntry_toNat (factor : Nat) (e : Byte) :
    (scaleEntry factor e).toNat = min (max ((e.toNat * factor + 50) / 100) 1) 255 := by
  rw [scaleEntry, clampNat, BitVec.toNat_ofNat]
  omega

theorem scaleTable_toNat (q : Nat) (t : QTable) (k : Fin 64) :
    (scaleTable q t)[k].toNat = min (max ((t[k].toNat * qscaleFactor q + 50) / 100) 1) 255 := by
  rw [← scaleEntry_toNat]
  simp [scaleTable]

theorem exec_qscale {q : Nat} (h1 : 1 ≤ q) (h2 : q ≤ 100) (tid : TableId) (s : State) :
    exec (.qscale tid q) s = .next (s.setQt tid (scaleTable q (s.qtOfTid tid))).complete := by
  have h : ¬(q < 1 ∨ 100 < q) := by omega
  rw [exec, execQscale, if_neg h, commit_ok]

theorem exec_qscale_fault {q : Nat} (h : q < 1 ∨ 100 < q) (tid : TableId) (s : State) :
    exec (.qscale tid q) s = .next (s.raise (.num .qparam q)) := by
  rw [exec, execQscale, if_pos h, commit_error]

theorem exec_qdefault (tid : TableId) (s : State) :
    exec (.qdefault tid) s = .next (s.setQt tid (defaultQtOf s.cfg tid)).complete := rfl

theorem qloadable_iff (w : Word) : qloadable w = true ↔ 1 ≤ w.toInt ∧ w.toInt ≤ 255 := by
  simp [qloadable]

/-- The table that QLOAD makes of WB (spec/42_quantizer.md R235). -/
def loadedTable (b : Block) : QTable := b.map fun w => w.setWidth 8

/-- An entry that QLOAD accepts keeps its value in the table's byte. -/
theorem loadedTable_toNat {b : Block} {k : Fin 64} (h : qloadable b[k] = true) :
    ((loadedTable b)[k].toNat : Int) = b[k].toInt := by
  obtain ⟨h1, h2⟩ := (qloadable_iff _).mp h
  have hget : (loadedTable b)[k] = b[k].setWidth 8 := by simp [loadedTable]
  rw [BitVec.toInt_eq_toNat_cond] at h1 h2 ⊢
  rw [hget, BitVec.toNat_setWidth]
  omega

theorem findIdx_qload_eq_none_iff (b : Block) :
    b.toList.findIdx? (fun w => !qloadable w) = none ↔ ∀ k : Fin 64, qloadable b[k] = true := by
  rw [List.findIdx?_eq_none_iff]
  refine ⟨fun h k => by simpa using h b[k] (by simp), fun h w hw => ?_⟩
  obtain ⟨k, hk, rfl⟩ := List.getElem_of_mem hw
  simpa using h ⟨k, by simpa using hk⟩

theorem exec_qload {s : State} (h : ∀ k : Fin 64, qloadable s.wb[k] = true) (tid : TableId) :
    exec (.qload tid) s = .next (s.setQt tid (loadedTable s.wb)).complete := by
  rw [exec, execQload, (findIdx_qload_eq_none_iff s.wb).mpr h]
  rfl

theorem exec_qload_of_find {s : State} {k : Nat} (h : s.wb.toList.findIdx? (fun w => !qloadable w) = some k)
    (tid : TableId) : exec (.qload tid) s = .next (s.raise (.num .qrange k)) := by
  rw [exec, execQload, h]
  rfl

theorem exec_qload_fault {s : State} {k : Fin 64} (hlow : ∀ j < k, qloadable s.wb[j] = true)
    (hk : qloadable s.wb[k] = false) (tid : TableId) :
    exec (.qload tid) s = .next (s.raise (.num .qrange k.val)) := by
  refine exec_qload_of_find (List.findIdx?_eq_some_iff_getElem.mpr ⟨by simp, by simpa using hk, fun j hj => ?_⟩) tid
  simpa using hlow ⟨j, hj.trans k.isLt⟩ hj

/-! ### Table entries stay nonzero -/

/-- Every entry of the table is in 1..255 (spec/42_quantizer.md R232; an entry is a byte). -/
def tableNonzero (t : QTable) : Prop := ∀ k : Fin 64, t[k] ≠ 0

theorem quantLegal_iff (s : State) : s.quantLegal ↔ ∀ tid, tableNonzero (s.qtOfTid tid) :=
  ⟨fun h tid k => by cases tid; exacts [(h k).1, (h k).2], fun h k => ⟨h .luma k, h .chroma k⟩⟩

theorem quantLegal_setQt {s : State} (h : s.quantLegal) {tid : TableId} {t : QTable} (ht : tableNonzero t) :
    (s.setQt tid t).quantLegal := by
  rw [quantLegal_iff] at h ⊢
  intro tid'
  rw [State.setQt_qtOfTid]
  split
  · exact ht
  · exact h tid'

theorem tableNonzero_of_pos {t : QTable} (h : ∀ k : Fin 64, 0 < t[k].toNat) : tableNonzero t :=
  fun k hk => absurd (h k) (by simp [hk])

theorem tableNonzero_scaleTable (q : Nat) (t : QTable) : tableNonzero (scaleTable q t) :=
  tableNonzero_of_pos fun k => by rw [scaleTable_toNat]; omega

theorem tableNonzero_defaultQtOf {p : Params} (h : p.legal = true) (tid : TableId) : tableNonzero (defaultQtOf p tid) := by
  obtain ⟨⟨h0, h1⟩, -⟩ := legal_defaults h
  cases tid
  · exact fun k => h0 _ (by simp [defaultQtOf])
  · exact fun k => h1 _ (by simp [defaultQtOf])

theorem tableNonzero_loadedTable {b : Block} (h : ∀ k : Fin 64, qloadable b[k] = true) : tableNonzero (loadedTable b) :=
  tableNonzero_of_pos fun k => by
    have hval := loadedTable_toNat (h k)
    have hpos := ((qloadable_iff _).mp (h k)).1
    omega

/-- Everything a command that writes QT can do: it completes with a table of entries in 1..255, or faults. -/
theorem exec_qt_cases {i : Instr} {s t : State} (hp : s.paramsLegal) (hi : i.mnem ∈ [.qscale, .qdefault, .qload])
    (h : exec i s = .next t) :
    (∃ tid q, tableNonzero q ∧ t = (s.setQt tid q).complete) ∨ ∃ f, t = s.raise f := by
  cases i <;> simp only [Instr.mnem, List.mem_cons, List.not_mem_nil, reduceCtorEq, or_self] at hi
  case qscale tid q =>
    by_cases hq : q < 1 ∨ 100 < q
    · cases (exec_qscale_fault hq tid s).symm.trans h
      exact .inr ⟨_, rfl⟩
    · cases (exec_qscale (by omega) (by omega) tid s).symm.trans h
      exact .inl ⟨tid, _, tableNonzero_scaleTable q _, rfl⟩
  case qdefault tid =>
    cases (exec_qdefault tid s).symm.trans h
    exact .inl ⟨tid, _, tableNonzero_defaultQtOf hp tid, rfl⟩
  case qload tid =>
    by_cases hw : ∀ k : Fin 64, qloadable s.wb[k] = true
    · cases (exec_qload hw tid).symm.trans h
      exact .inl ⟨tid, _, tableNonzero_loadedTable hw, rfl⟩
    · rw [← findIdx_qload_eq_none_iff] at hw
      obtain ⟨k, hk⟩ := Option.ne_none_iff_exists'.mp hw
      cases (exec_qload_of_find hk tid).symm.trans h
      exact .inr ⟨_, rfl⟩

theorem quantLegal_command {i : Instr} {s t : State} (hp : s.paramsLegal) (hs : s.quantLegal) (h : exec i s = .next t) :
    t.quantLegal := by
  by_cases hi : i.mnem ∈ [.qscale, .qdefault, .qload]
  · obtain ⟨tid, q, hq, rfl⟩ | ⟨f, rfl⟩ := exec_qt_cases hp hi h
    · exact quantLegal_setQt hs hq
    · exact hs
  · obtain ⟨h0, h1⟩ : t.qt0 = s.qt0 ∧ t.qt1 = s.qt1 := by
      simpa only [not_or, not_not] using mt (exec_writesOnlyOwn h).qt hi
    unfold State.quantLegal
    rw [h0, h1]
    exact hs

/-- The host bus does not write the quantization tables (spec/10_state.md R37). -/
theorem quantLegal_writeData {s : State} (h : s.quantLegal) (r : Reg) (v : Word) : (s.writeData r v).quantLegal := by
  cases r with
  | griddim ch | lastdc ch => cases ch <;> exact h
  | _ => exact h

theorem State.paramsLegal.congr {s t : State} (h : s.paramsLegal) (hc : t.cfg = s.cfg) : t.paramsLegal := by
  unfold State.paramsLegal
  rw [hc]
  exact h

theorem quantTables_invariant : StepInvariant fun s => s.paramsLegal ∧ s.quantLegal where
  env _ _ h := h
  reset _ h := ⟨h.1, quantLegal_resetOf h.1⟩
  command i s t h hx := ⟨h.1.congr (exec_cfg hx), quantLegal_command h.1 h.2 hx⟩
  illegal _ _ h := h
  answer _ _ _ h := h
  enable _ _ _ h := h
  status _ _ h := by rw [writeStatus_eq]; exact h
  capture _ _ h _ := h
  drop _ h := h
  data s _ _ r v h _ := ⟨h.1.congr (State.writeData_cfg s r v), quantLegal_writeData h.2 r v⟩

/-- Settles O55: QSCALE clamps to 1..255, QLOAD checks that range, legal default tables lie in it, and nothing else writes a
quantization table. -/
theorem quantTablesStayInRange : Obligations.QuantTablesStayInRange := by
  unfold Obligations.QuantTablesStayInRange
  exact fun _ _ hp hs h => (quantTables_invariant.step ⟨hp, hs⟩ h).2

/-! ### What the table commands answer -/

/-- Settles O19: QSCALE's table entry by entry, or its fault. -/
theorem qscaleResult : Obligations.QscaleResult := by
  unfold Obligations.QscaleResult
  refine ⟨by decide, fun tid q s => ⟨fun h1 h2 => ⟨_, exec_qscale h1 h2 tid s, fun k => ?_, setQt_complete_frame ..⟩,
    fun h => exec_qscale_fault h tid s⟩⟩
  rw [quantTable_eq_qtOfTid, quantTable_eq_qtOfTid, complete_qtOfTid, State.setQt_qtOfTid, if_pos rfl]
  exact scaleTable_toNat ..

/-- Settles O21: QLOAD searches WB for an entry outside 1..255, and an entry in that range keeps its value in a byte. -/
theorem qloadResult : Obligations.QloadResult := by
  unfold Obligations.QloadResult
  refine ⟨by decide, by decide, fun tid s => ⟨fun h => ?_, fun k hlow hk => ?_⟩⟩
  · have hw (k : Fin 64) : qloadable s.wb[k] = true := (qloadable_iff _).mpr (h k)
    refine ⟨_, exec_qload hw tid, fun k => ?_, setQt_complete_frame ..⟩
    rw [quantTable_eq_qtOfTid, complete_qtOfTid, State.setQt_qtOfTid, if_pos rfl]
    exact loadedTable_toNat (hw k)
  · refine exec_qload_fault (fun j hj => (qloadable_iff _).mpr (hlow j hj)) ?_ tid
    rw [← Bool.not_eq_true, qloadable_iff]
    omega

/-- Settles O20: QDEFAULT has no condition, so it completes with the parameter's table. -/
theorem qdefaultResult : Obligations.QdefaultResult := by
  unfold Obligations.QdefaultResult
  exact ⟨by decide, by decide, fun s => ⟨exec_qdefault .luma s, exec_qdefault .chroma s⟩⟩

/-! ### QUANT and DEQUANT -/

/-- A number between 0 and a register's value is its own s32 pattern. -/
theorem toInt_wrap32_of_mem_uIcc {w : Word} {v : Int} (h : v ∈ Set.uIcc 0 w.toInt) : (wrap32 v).toInt = v := by
  have hw := toInt_bounds w
  rw [Set.mem_uIcc] at h
  exact toInt_wrap32 (by omega) (by omega)

theorem natCast_mem_uIcc {m n : Nat} (h : m ≤ n) : (m : Int) ∈ Set.uIcc 0 (n : Int) :=
  Set.mem_uIcc.mpr (.inl (by omega))

theorem neg_natCast_mem_uIcc {m n : Nat} (h : m ≤ n) : -(m : Int) ∈ Set.uIcc 0 (-(n : Int)) :=
  Set.mem_uIcc.mpr (.inr (by omega))

theorem tdiv_mem_uIcc (c : Int) (q : Nat) : c.tdiv q ∈ Set.uIcc 0 c := by
  obtain ⟨n, rfl | rfl⟩ := c.eq_nat_or_neg
  · rw [← Int.ofNat_tdiv]
    exact natCast_mem_uIcc (Nat.div_le_self n q)
  · rw [Int.neg_tdiv, ← Int.ofNat_tdiv]
    exact neg_natCast_mem_uIcc (Nat.div_le_self n q)

/-- Dividing and multiplying back does not leave the range either (spec/42_quantizer.md R238). -/
theorem tdiv_mul_mem_uIcc (c : Int) (q : Nat) : c.tdiv q * q ∈ Set.uIcc 0 c := by
  obtain ⟨n, rfl | rfl⟩ := c.eq_nat_or_neg
  · rw [← Int.ofNat_tdiv, ← Int.natCast_mul]
    exact natCast_mem_uIcc (Nat.div_mul_le_self n q)
  · rw [Int.neg_tdiv, ← Int.ofNat_tdiv, neg_mul, ← Int.natCast_mul]
    exact neg_natCast_mem_uIcc (Nat.div_mul_le_self n q)

theorem tdiv_of_neg {c : Int} (h : c < 0) (q : Nat) : c.tdiv q = -(|c| / q) := by
  rw [abs_of_neg h, ← Int.tdiv_eq_ediv_of_nonneg (by omega), Int.neg_tdiv, neg_neg]

/-- QUANT on a block with the table `t` (spec/42_quantizer.md R236). -/
def quantBlock (t : QTable) (b : Block) : Block := blockOf fun k => wrap32 (tdiv b[k].toInt t[k].toNat)

/-- DEQUANT on a block with the table `t` (spec/42_quantizer.md R237). -/
def dequantBlock (t : QTable) (b : Block) : Block := blockOf fun k => wrap32 (b[k].toInt * t[k].toNat)

theorem exec_quant (ch : Chan) (s : State) :
    exec (.quant ch) s = .next ({ s with wb := quantBlock (s.qtOf ch) s.wb } : State).complete := rfl

theorem exec_dequant (ch : Chan) (s : State) :
    exec (.dequant ch) s = .next ({ s with wb := dequantBlock (s.qtOf ch) s.wb } : State).complete := rfl

/-- A command that writes WB alone keeps the table a channel selects. -/
theorem complete_qtOf_of_wb (s : State) (b : Block) (ch : Chan) :
    ({ s with wb := b } : State).complete.qtOf ch = s.qtOf ch := by cases ch <;> rfl

theorem quantBlock_toInt (t : QTable) (b : Block) (k : Fin 64) :
    (quantBlock t b)[k].toInt = b[k].toInt.tdiv t[k].toNat := by
  rw [quantBlock, blockOf_get]
  exact toInt_wrap32_of_mem_uIcc (tdiv_mem_uIcc ..)

theorem dequantBlock_get (t : QTable) (b : Block) (k : Fin 64) :
    (dequantBlock t b)[k] = b[k] * BitVec.ofNat 32 t[k].toNat := by
  rw [dequantBlock, blockOf_get, wrap32, BitVec.ofInt_mul, BitVec.ofInt_toInt, BitVec.ofInt_natCast]

theorem dequantBlock_quantBlock_toInt (t : QTable) (b : Block) (k : Fin 64) :
    (dequantBlock t (quantBlock t b))[k].toInt = b[k].toInt.tdiv t[k].toNat * t[k].toNat := by
  rw [dequantBlock, blockOf_get, quantBlock_toInt]
  exact toInt_wrap32_of_mem_uIcc (tdiv_mul_mem_uIcc ..)

/-- Settles O16: the quotient lies between 0 and the element, so no wrapping occurs. -/
theorem quantResult : Obligations.QuantResult := by
  unfold Obligations.QuantResult
  refine ⟨by decide, fun ch s => ⟨_, exec_quant ch s, fun k => ?_, rfl⟩⟩
  rw [divisor_eq]
  exact quantBlock_toInt ..

/-- Settles O17: wrapping an integer product is the product of words. -/
theorem dequantResult : Obligations.DequantResult := by
  unfold Obligations.DequantResult
  refine ⟨by decide, fun ch s => ⟨_, exec_dequant ch s, fun k => ?_, rfl⟩⟩
  rw [divisor_eq]
  exact dequantBlock_get ..

/-- Settles O18: neither command wraps here, and truncation is the floor of the magnitude with the element's sign. -/
theorem quantThenDequantIsLossy : Obligations.QuantThenDequantIsLossy := by
  unfold Obligations.QuantThenDequantIsLossy
  refine fun ch s => ⟨_, _, exec_quant ch s, exec_dequant ch _, fun k => ?_⟩
  simp only [divisor_eq, State.complete_wb, complete_qtOf_of_wb, dequantBlock_quantBlock_toInt, true_and]
  exact ⟨fun hc => by rw [Int.tdiv_eq_ediv_of_nonneg hc], fun hc => by rw [tdiv_of_neg hc, neg_mul]⟩

end Sys2Proof.Machine

namespace Sys2Proof.Machine

/-! ### ZZ and its inverse, ZZSCAN and ZZUNSCAN -/

@[simp] theorem izz_zz : ∀ k : Fin 64, izz (zz k) = k := by decide +kernel

@[simp] theorem zz_izz : ∀ r : Fin 64, zz (izz r) = r := by decide +kernel

/-- WB after ZZSCAN (spec/43_zigzag_rle.md R263). -/
def scanBlock (b : Block) : Block := blockOf fun k => b[zz k]

/-- WB after ZZUNSCAN (spec/43_zigzag_rle.md R264). -/
def unscanBlock (b : Block) : Block := blockOf fun r => b[izz r]

theorem scanBlock_get (b : Block) (k : Fin 64) : (scanBlock b)[k] = b[zz k] := blockOf_get ..

theorem unscanBlock_get (b : Block) (r : Fin 64) : (unscanBlock b)[r] = b[izz r] := blockOf_get ..

theorem unscanBlock_get_zz (b : Block) (k : Fin 64) : (unscanBlock b)[zz k] = b[k] := by
  simp only [unscanBlock_get, izz_zz]

theorem unscanBlock_scanBlock (b : Block) : unscanBlock (scanBlock b) = b :=
  block_ext fun r => by simp only [unscanBlock_get, scanBlock_get, zz_izz]

theorem scanBlock_unscanBlock (b : Block) : scanBlock (unscanBlock b) = b :=
  block_ext fun k => by rw [scanBlock_get, unscanBlock_get_zz]

theorem exec_zzscan (s : State) : exec .zzscan s = .next ({ s with wb := scanBlock s.wb } : State).complete := rfl

theorem exec_zzunscan (s : State) : exec .zzunscan s = .next ({ s with wb := unscanBlock s.wb } : State).complete := rfl

/-- Settles O22: the clauses about ZZ are read off its table, and the commands move the elements by it. -/
theorem zigzagCommands : Obligations.ZigzagCommands := by
  unfold Obligations.ZigzagCommands
  refine ⟨⟨fun k => ⟨izz_zz k, zz_izz k⟩, by decide, by decide, by decide +kernel⟩, by decide, by decide,
    fun s => ⟨?_, ?_⟩⟩
  · exact ⟨_, _, exec_zzscan s, scanBlock_get s.wb, rfl, exec_zzunscan _, unscanBlock_scanBlock s.wb⟩
  · exact ⟨_, _, exec_zzunscan s, unscanBlock_get_zz s.wb, rfl, exec_zzscan _, scanBlock_unscanBlock s.wb⟩

/-! ### Well-formed symbol sequences -/

theorem syms_length {s : State} (h : s.symn.toNat ≤ 64) : s.syms.length = s.symn.toNat := by
  simpa [State.syms] using h

theorem symsWellFormed_cons (y : Sym) (ac : List Sym) : symsWellFormed (y :: ac) ↔ y.isDc ∧ acTail 0 ac := by
  simp only [symsWellFormed, acTail, Nat.zero_add, List.cons.injEq]
  constructor
  · rintro ⟨_, _, ⟨rfl, rfl⟩, h⟩
    exact h
  · exact fun h => ⟨y, ac, ⟨rfl, rfl⟩, h⟩

theorem wfSym_of_symn_le {s : State} (h : s.symn.toNat ≤ 64) : s.wfSym = wfSyms s.syms := if_neg (by omega)

theorem wfSyms_of_isDc {y : Sym} (ha : -32768 ≤ y.amp ∧ y.amp ≤ 32767) (hy : y.isDc) (ac : List Sym) :
    wfSyms (y :: ac) = wfSymFrom 1 0 ac := if_pos ((isDc_iff ha).mp hy)

theorem wfSyms_of_not_isDc {y : Sym} (ha : -32768 ≤ y.amp ∧ y.amp ≤ 32767) (hy : ¬ y.isDc) (ac : List Sym) :
    wfSyms (y :: ac) = some 0 := if_neg (mt (isDc_iff ha).mpr hy)

/-- WF_SYM accepts exactly the well-formed sequences of 16-bit amplitudes (spec/43_zigzag_rle.md R266). -/
theorem wfSyms_eq_none_iff {l : List Sym} (hl : ∀ y ∈ l, -32768 ≤ y.amp ∧ y.amp ≤ 32767) :
    wfSyms l = none ↔ symsWellFormed l := by
  cases l with
  | nil => simp [wfSyms, symsWellFormed]
  | cons y ac =>
    obtain ⟨hy, hac⟩ := List.forall_mem_cons.mp hl
    rw [symsWellFormed_cons]
    by_cases hdc : y.isDc
    · rw [wfSyms_of_isDc hy hdc, wfSymFrom_none hac 1 0 (by omega)]
      exact (and_iff_right hdc).symm
    · rw [wfSyms_of_not_isDc hy hdc]
      simp [hdc]

theorem wfSym_eq_none_iff (s : State) : s.wfSym = none ↔ s.symn.toNat ≤ 64 ∧ symsWellFormed s.syms := by
  by_cases h : s.symn.toNat ≤ 64
  · rw [wfSym_of_symn_le h, wfSyms_eq_none_iff fun _ => syms_amp]
    exact (and_iff_right h).symm
  · simp [State.wfSym, h, not_le.mp h]

/-- AC symbols that leave a position free and are not followed by an EOB: WF_SYM fails past the last
(spec/43_zigzag_rle.md R266). -/
theorem wfSymFrom_unfinished {ac : List Sym} (h : ∀ x ∈ ac, x.isAc) (i pos : Nat) (hp : pos + acPositions ac < 63) :
    wfSymFrom i pos ac = some (i + ac.length) := by
  have hcut := wfSymFrom_append (l := []) h i pos hp.le
  rw [List.append_nil] at hcut
  rw [hcut, wfSymFrom, if_neg hp.ne]

/-- Settles O23: the check's loop passes over the AC symbols that fit and stops at the first wrong entry. -/
theorem wellFormedSymbols : Obligations.WellFormedSymbols := by
  unfold Obligations.WellFormedSymbols
  refine fun s => ⟨wfSym_eq_none_iff s, ?_, fun hn => ?_⟩
  · rintro (h0 | h64)
    · have hnil : s.syms = [] := List.length_eq_zero_iff.mp ((syms_length (by omega)).trans h0)
      rw [wfSym_of_symn_le (by omega), hnil, wfSyms]
    · exact if_pos h64
  · have hlen := syms_length hn
    have hamp {y : Sym} : y ∈ s.syms → -32768 ≤ y.amp ∧ y.amp ≤ 32767 := syms_amp
    rw [wfSym_of_symn_le hn]
    refine ⟨fun y ac hs hy => ?_, fun y pre z post hs hy hpre hp hz => ?_, fun y ac hs hy hac hp => ?_⟩
    · rw [hs] at hamp ⊢
      exact wfSyms_of_not_isDc (hamp (by simp)) hy ac
    · rw [hs] at hamp ⊢
      rw [wfSyms_of_isDc (hamp (by simp)) hy, wfSymFrom_append hpre 1 0 (by omega), Nat.zero_add, Nat.add_comm]
      exact wfSymFrom_some post _ _ (hamp (by simp)) hz
    · rw [hs] at hamp hlen ⊢
      rw [wfSyms_of_isDc (hamp (by simp)) hy, wfSymFrom_unfinished hac 1 0 (by omega), ← hlen, List.length_cons,
        Nat.add_comm]

/-! ### Blocks in scan order -/

theorem scanList_tail (b : Block) : (scanList b).tail = acScan b := by
  rw [scanList, List.finRange_succ, List.map_cons, List.tail_cons, List.map_map]
  rfl

@[simp] theorem acScan_length (b : Block) : (acScan b).length = 63 := by simp [acScan]

@[simp] theorem acScan_getElem (b : Block) (k : Nat) (h : k < (acScan b).length) :
    (acScan b)[k] = b[zz (Fin.succ ⟨k, by simpa using h⟩)].toInt := by simp [acScan]

/-- The DC coefficient and the AC coefficients in scan order determine a block. -/
theorem block_ext_scan {a b : Block} (hdc : a[0].toInt = b[0].toInt) (hac : acScan a = acScan b) : a = b := by
  refine block_ext fun r => BitVec.eq_of_toInt_eq ?_
  rw [← zz_izz r]
  cases izz r using Fin.cases with
  | zero => exact hdc
  | succ k =>
    have hk := List.getElem_of_eq hac (i := k.val) (by simp)
    rwa [acScan_getElem, acScan_getElem] at hk

/-! ### What symbols stand for -/

theorem spreadAc_length (ac : List Sym) : (spreadAc ac).length = acPositions ac := by
  simp [spreadAc, acPositions, List.length_flatMap]

theorem spreadAc_length_le {pos : Nat} {ac : List Sym} (h : acTail pos ac) : pos + (spreadAc ac).length ≤ 63 := by
  rw [spreadAc_length]
  rcases h with ⟨-, h⟩ | ⟨pre, rfl, -, h⟩
  · exact h.le
  · have heob : acPositions (pre ++ [Sym.eob]) = acPositions pre + 1 := by simp [acPositions, Sym.eob]
    omega

theorem acTail_mem {pos : Nat} {ac : List Sym} (h : acTail pos ac) {y : Sym} (hy : y ∈ ac) : y.isAc ∨ y = Sym.eob := by
  obtain ⟨hac, -⟩ | ⟨pre, rfl, hac, -⟩ := h
  · exact .inl (hac y hy)
  · rw [List.mem_append, List.mem_singleton] at hy
    exact hy.imp_left (hac y)

/-- Well-formed symbols stand for coefficients that RLEENC accepts. -/
theorem abs_le_of_mem_spreadAc {pos : Nat} {ac : List Sym} (h : acTail pos ac) {a : Int} (ha : a ∈ spreadAc ac) :
    |a| ≤ 32767 := by
  simp only [spreadAc, List.mem_flatMap, List.mem_append, List.mem_replicate, List.mem_singleton] at ha
  obtain ⟨y, hy, ⟨-, rfl⟩ | rfl⟩ := ha
  · simp
  · obtain hac | rfl := acTail_mem h hy
    · exact hac.2.2.1
    · decide

theorem abs_getD_spreadAc_le {pos : Nat} {ac : List Sym} (h : acTail pos ac) (k : Nat) :
    |(spreadAc ac).getD k 0| ≤ 32767 := by
  by_cases hk : k < (spreadAc ac).length
  · rw [List.getD_eq_getElem _ 0 hk]
    exact abs_le_of_mem_spreadAc h (List.getElem_mem hk)
  · rw [List.getD_eq_default _ 0 (by omega)]
    simp

theorem padAc_length {l : List Int} (h : l.length ≤ 63) : (padAc l).length = 63 := by
  rw [padAc, List.length_append, List.length_replicate]
  omega

theorem padAc_getElem (l : List Int) (k : Nat) (h : k < (padAc l).length) : (padAc l)[k] = l.getD k 0 := by
  simp only [padAc]
  by_cases hk : k < l.length
  · rw [List.getElem_append_left hk, List.getD_eq_getElem l 0 hk]
  · rw [List.getElem_append_right (by omega), List.getElem_replicate, List.getD_eq_default l 0 (by omega)]

theorem eq_padAc {l m : List Int} {n : Nat} (h : l ++ List.replicate n 0 = m) (hm : m.length = 63) : padAc l = m := by
  have hn : 63 - l.length = n := by
    rw [← hm, ← h]; simp
  rw [padAc, hn, h]

/-! ### RLEENC -/

/-- RLEENC's symbol for a DC difference (spec/43_zigzag_rle.md R267). -/
def dcSym (diff : Int) : Sym := ⟨-1, diff.natAbs.size, diff⟩

theorem isDc_dcSym {diff : Int} (h : |diff| ≤ 32767) : (dcSym diff).isDc := ⟨rfl, h, rfl⟩

/-- A well-formed DC symbol is determined by its amplitude. -/
theorem Sym.isDc.eq_dcSym {y : Sym} (h : y.isDc) : y = dcSym y.amp := by
  obtain ⟨run, size, amp⟩ := y
  obtain ⟨hrun, -, hsize⟩ := h
  exact congrArg₂ (Sym.mk · · amp) hrun hsize

section encoder

variable {b : Block} {last : Int}

theorem rleEncode_of_ac_ok (hd : |b[0].toInt - last| ≤ 32767) {ac : List Sym} (h : rleAc 1 0 (acScan b) = .ok ac) :
    rleEncode b last = .ok (dcSym (b[0].toInt - last) :: ac) := by
  simp only [rleEncode, (fitsAmp_iff _).mpr hd, scanList_tail, h, dcsize, bitlen_eq, dcSym, if_true]

theorem rleEncode_of_ac_error (hd : |b[0].toInt - last| ≤ 32767) {f : CmdFault} (h : rleAc 1 0 (acScan b) = .error f) :
    rleEncode b last = .error f := by
  simp only [rleEncode, (fitsAmp_iff _).mpr hd, scanList_tail, h, if_true]

theorem rleEncode_of_dc_error (hd : 32767 < |b[0].toInt - last|) : rleEncode b last = .error (.num .range 0) :=
  if_neg (mt (fitsAmp_iff _).mp hd.not_ge)

/-- RLEENC on a block in range (spec/43_zigzag_rle.md R267). -/
theorem rleEncode_ok (hd : |b[0].toInt - last| ≤ 32767) (hac : ∀ a ∈ acScan b, |a| ≤ 32767) :
    ∃ ac, rleEncode b last = .ok (dcSym (b[0].toInt - last) :: ac) ∧
      symsWellFormed (dcSym (b[0].toInt - last) :: ac) ∧ padAc (spreadAc ac) = acScan b := by
  obtain ⟨ac, hok, htail, n, hn⟩ := rleAc_ok (acScan b) 1 0 0 (by simp) hac
  exact ⟨ac, rleEncode_of_ac_ok hd hok, (symsWellFormed_cons ..).mpr ⟨isDc_dcSym hd, htail⟩, eq_padAc hn (by simp)⟩

/-- RLEENC gives back the symbols of the block that they stand for (spec/43_zigzag_rle.md R271). -/
theorem rleEncode_of_spread {y : Sym} {ac : List Sym} (h : symsWellFormed (y :: ac)) (hd : b[0].toInt - last = y.amp)
    (hac : acScan b = padAc (spreadAc ac)) : rleEncode b last = .ok (y :: ac) := by
  obtain ⟨hy, htail⟩ := (symsWellFormed_cons ..).mp h
  have hlen := spreadAc_length_le htail
  have hok : rleAc 1 0 (acScan b) = .ok ac := by
    rw [hac]
    exact rleAc_spread ac 1 0 _ htail (by omega)
  rw [rleEncode_of_ac_ok (by rw [hd]; exact hy.2.1) hok, hd, ← hy.eq_dcSym]

/-- RLEENC on the first AC coefficient out of range (spec/43_zigzag_rle.md R267). -/
theorem rleEncode_ac_error (hd : |b[0].toInt - last| ≤ 32767) {k : Fin 63}
    (hlow : ∀ j < k, |b[zz j.succ].toInt| ≤ 32767) (hk : 32767 < |b[zz k.succ].toInt|) :
    rleEncode b last = .error (.num .range (k.val + 1)) := by
  have hcut : acScan b = (acScan b).take k ++ b[zz k.succ].toInt :: (acScan b).drop (k + 1) := by
    have hdrop := List.drop_eq_getElem_cons (l := acScan b) (i := k) (by simp)
    rw [acScan_getElem] at hdrop
    rw [← hdrop, List.take_append_drop]
  refine rleEncode_of_ac_error hd ?_
  rw [hcut, rleAc_error _ _ _ hk 1 0 fun a ha => ?_]
  · rw [List.length_take, acScan_length, min_eq_left k.isLt.le, Nat.add_comm]
  · obtain ⟨j, hj, rfl⟩ := List.mem_take_iff_getElem.mp ha
    rw [acScan_getElem]
    exact hlow _ (Fin.lt_def.mpr (lt_min_iff.mp hj).1)

end encoder

@[simp] theorem State.complete_lastDcOf (s : State) (ch : Chan) : s.complete.lastDcOf ch = s.lastDcOf ch := by
  cases ch <;> rfl

/-- The state after a RLEENC that gives the symbols `out` (spec/43_zigzag_rle.md R267). -/
def State.afterRleenc (s : State) (ch : Chan) (out : List Sym) : State :=
  ({ s with sym := writeSyms s.sym out, symn := BitVec.ofNat 7 out.length }.setLastDc ch s.wb[0]).complete

theorem exec_rleenc {ch : Chan} {s : State} {out : List Sym} (h : rleEncode s.wb (s.lastDcOf ch).toInt = .ok out) :
    exec (.rleenc ch) s = .next (s.afterRleenc ch out) := by
  rw [exec, execRleenc, h, commit_ok, State.afterRleenc]

theorem exec_rleenc_fault {ch : Chan} {s : State} {f : CmdFault}
    (h : rleEncode s.wb (s.lastDcOf ch).toInt = .error f) : exec (.rleenc ch) s = .next (s.raise f) := by
  rw [exec, execRleenc, h, commit_error]

section afterRleenc

variable (s : State) (ch : Chan) (out : List Sym)

theorem afterRleenc_sym : (s.afterRleenc ch out).sym = writeSyms s.sym out := by simp [State.afterRleenc]

theorem afterRleenc_symn : (s.afterRleenc ch out).symn = BitVec.ofNat 7 out.length := by simp [State.afterRleenc]

theorem afterRleenc_lastDcOf (c : Chan) :
    (s.afterRleenc ch out).lastDcOf c = if c = ch then s.wb[0] else s.lastDcOf c := by
  rw [State.afterRleenc, State.complete_lastDcOf, State.setLastDc_lastDcOf]
  generalize writeSyms s.sym out = y
  cases c <;> rfl

theorem afterRleenc_frame : s.afterRleenc ch out =
    { s with
      sym := (s.afterRleenc ch out).sym, symn := (s.afterRleenc ch out).symn
      lastDc0 := (s.afterRleenc ch out).lastDc0, lastDc1 := (s.afterRleenc ch out).lastDc1
      lastDc2 := (s.afterRleenc ch out).lastDc2
      cmdCnt := s.cmdCnt + 1, done := true, pending := none } := by
  rw [State.afterRleenc]
  generalize writeSyms s.sym out = y
  cases ch <;> rfl

variable {out} (h : symsWellFormed out)

include h

theorem afterRleenc_symn_toNat : (s.afterRleenc ch out).symn.toNat = out.length := by
  have hlen := (symsWellFormed_entries h).1
  rw [afterRleenc_symn, BitVec.toNat_ofNat]
  omega

/-- The symbols that RLEENC writes read back as they are. -/
theorem afterRleenc_syms : (s.afterRleenc ch out).syms = out := by
  obtain ⟨hlen, hread⟩ := symsWellFormed_entries h
  rw [State.syms, afterRleenc_symn_toNat s ch h, afterRleenc_sym, writeSyms_read s.sym hlen hread]

end afterRleenc

/-- Settles O24: the encoder's loop meets the first value out of range, or gives the symbols of the block. -/
theorem rleencResult : Obligations.RleencResult := by
  unfold Obligations.RleencResult
  refine ⟨by decide, ?_⟩
  rintro ch s _ rfl
  refine ⟨fun hd hac => ?_, fun hd => exec_rleenc_fault (rleEncode_of_dc_error hd),
    fun k hd hlow hk => exec_rleenc_fault (rleEncode_ac_error hd hlow hk)⟩
  obtain ⟨ac, hok, hwf, hpad⟩ := rleEncode_ok hd hac
  have hsyms := afterRleenc_syms s ch hwf
  have hsymn := afterRleenc_symn_toNat s ch hwf
  refine ⟨_, ac, exec_rleenc hok, hsyms, hsymn, hsyms.symm ▸ hwf, hpad, fun i hi => ?_, ?_, fun c hc => ?_,
    afterRleenc_frame ..⟩
  · rw [afterRleenc_sym, writeSyms_rest s.sym i (hsymn ▸ hi)]
  · rw [afterRleenc_lastDcOf, if_pos rfl]
  · rw [afterRleenc_lastDcOf, if_neg hc]

/-! ### RLEDEC -/

/-- An amplitude read back from its block element. -/
theorem toInt_wrap32_of_abs_le {v : Int} (h : |v| ≤ 32767) : (wrap32 v).toInt = v := by
  rw [abs_le] at h
  exact toInt_wrap32 (by omega) (by omega)

/-- The block that RLEDEC's walk starts from: the DC and zeros (spec/43_zigzag_rle.md R268). -/
theorem decodeStart_get_zz (w : Word) (k : Fin 64) :
    ((Vector.replicate 64 (0 : Word)).set (zz 0) w)[zz k] = if k = 0 then w else 0 := by
  have hk : ((zz 0).val = (zz k).val) ↔ k = 0 := by
    rw [← Fin.ext_iff]
    exact ⟨fun h => (zz_injective h).symm, fun h => by rw [h]⟩
  simp only [Fin.getElem_fin, Vector.getElem_set, Vector.getElem_replicate, hk]

section decoder

variable (dc : Int) {ac : List Sym} (h : acTail 0 ac)

include h

/-- RLEDEC's block at each scan position (spec/43_zigzag_rle.md R268). -/
theorem rleDecode_get_zz (k : Fin 64) : (rleDecode dc ac)[zz k] =
    if k.val ≤ 0 then ((Vector.replicate 64 (0 : Word)).set (zz 0) (wrap32 dc))[zz k]
    else wrap32 ((spreadAc ac).getD (k.val - 1) 0) :=
  rlePlace_spec ac 0 _ h (fun j hj => (decodeStart_get_zz _ j).trans (if_neg (Fin.pos_iff_ne_zero.mp hj))) k

theorem rleDecode_zero : (rleDecode dc ac)[0] = wrap32 dc :=
  (rleDecode_get_zz dc h 0).trans (decodeStart_get_zz _ 0)

theorem acScan_rleDecode : acScan (rleDecode dc ac) = padAc (spreadAc ac) := by
  have hlen := spreadAc_length_le h
  refine List.ext_getElem ?_ fun k hk hk' => ?_
  · rw [acScan_length, padAc_length (by omega)]
  · rw [acScan_getElem, padAc_getElem, rleDecode_get_zz dc h, if_neg (by simp), Fin.val_succ, Nat.add_sub_cancel]
    exact toInt_wrap32_of_abs_le (abs_getD_spreadAc_le h k)

end decoder

/-- The state after a RLEDEC that reconstructs `dc` and reads the AC symbols `ac` (spec/43_zigzag_rle.md R268). -/
def State.afterRledec (s : State) (ch : Chan) (dc : Int) (ac : List Sym) : State :=
  ({ s with wb := rleDecode dc ac }.setLastDc ch (wrap32 dc)).complete

theorem afterRledec_wb (s : State) (ch : Chan) (dc : Int) (ac : List Sym) :
    (s.afterRledec ch dc ac).wb = rleDecode dc ac := by simp [State.afterRledec]

theorem afterRledec_lastDcOf (s : State) (ch : Chan) (dc : Int) (ac : List Sym) (c : Chan) :
    (s.afterRledec ch dc ac).lastDcOf c = if c = ch then wrap32 dc else s.lastDcOf c := by
  rw [State.afterRledec, State.complete_lastDcOf, State.setLastDc_lastDcOf]
  cases c <;> rfl

theorem afterRledec_frame (s : State) (ch : Chan) (dc : Int) (ac : List Sym) : s.afterRledec ch dc ac =
    { s with
      wb := (s.afterRledec ch dc ac).wb, lastDc0 := (s.afterRledec ch dc ac).lastDc0
      lastDc1 := (s.afterRledec ch dc ac).lastDc1, lastDc2 := (s.afterRledec ch dc ac).lastDc2
      cmdCnt := s.cmdCnt + 1, done := true, pending := none } := by cases ch <;> rfl

section execRledec

variable {ch : Chan} {s : State} {y : Sym} {ac : List Sym} {dc : Int}

theorem exec_rledec_symForm {d : Nat} (h : s.wfSym = some d) :
    exec (.rledec ch) s = .next (s.raise (.num .symForm d)) := by
  rw [exec, execRledec, State.checkSyms, h]
  rfl

theorem exec_rledec (h : s.wfSym = none) (hs : s.syms = y :: ac) (hdc : dc = (s.lastDcOf ch).toInt + y.amp)
    (h1 : -2 ^ 31 ≤ dc) (h2 : dc ≤ 2 ^ 31 - 1) : exec (.rledec ch) s = .next (s.afterRledec ch dc ac) := by
  subst hdc
  simp only [exec, execRledec, State.checkSyms, h, hs, (fitsS32_iff _).mpr ⟨h1, h2⟩, if_true, commit_ok,
    State.afterRledec]

theorem exec_rledec_range (h : s.wfSym = none) (hs : s.syms = y :: ac) (hdc : dc = (s.lastDcOf ch).toInt + y.amp)
    (hout : dc < -2 ^ 31 ∨ 2 ^ 31 - 1 < dc) : exec (.rledec ch) s = .next (s.raise (.num .range 0)) := by
  subst hdc
  have hf : ¬ fitsS32 ((s.lastDcOf ch).toInt + y.amp) = true := by rw [fitsS32_iff]; omega
  simp only [exec, execRledec, State.checkSyms, h, hs, if_neg hf, commit_error]

end execRledec

/-- Settles O25: the walk of a well-formed sequence writes what the symbols stand for. -/
theorem rledecResult : Obligations.RledecResult := by
  unfold Obligations.RledecResult
  refine ⟨by decide, fun ch s => ⟨fun d h => exec_rledec_symForm h, fun y ac dc h hs hdc =>
    ⟨fun h1 h2 => ?_, exec_rledec_range h hs hdc⟩⟩⟩
  obtain ⟨-, hwf⟩ := (wfSym_eq_none_iff s).mp h
  obtain ⟨-, htail⟩ := (symsWellFormed_cons y ac).mp (hs ▸ hwf)
  refine ⟨_, exec_rledec h hs hdc h1 h2, ?_, ?_, ?_, fun c hc => ?_, afterRledec_frame ..⟩
  · simp only [afterRledec_wb, rleDecode_zero dc htail, toInt_wrap32 h1 h2]
  · rw [afterRledec_wb, acScan_rleDecode dc htail]
  · rw [afterRledec_lastDcOf, if_pos rfl, toInt_wrap32 h1 h2]
  · rw [afterRledec_lastDcOf, if_neg hc]

/-! ### Round trips -/

/-- Settles O26: a block is its DC and its AC coefficients, and well-formed symbols are those of what they stand for. -/
theorem runLengthRoundTrips : Obligations.RunLengthRoundTrips := by
  unfold Obligations.RunLengthRoundTrips
  obtain ⟨-, enc⟩ := rleencResult
  obtain ⟨-, dec⟩ := rledecResult
  refine ⟨fun ch s b hd hac => ?_, fun ch s y ac junk h hs h1 h2 => ?_⟩
  · obtain ⟨t, ac, ht, hsyms, hsymn, hwf, hpad, -⟩ := (enc ch s _ rfl).1 hd hac
    have hnone : t.wfSym = none := by
      have hlen := (symsWellFormed_entries hwf).1
      rw [hsyms, List.length_cons, ← hsymn] at hlen
      exact (wfSym_eq_none_iff t).mpr ⟨hlen, hwf⟩
    have hb := toInt_bounds s.wb[0]
    obtain ⟨u, hu, hdc, hacu, hlast, -⟩ :=
      ((dec ch { t with wb := b, lastDc0 := s.lastDc0, lastDc1 := s.lastDc1, lastDc2 := s.lastDc2 }).2 _ ac s.wb[0].toInt
        hnone hsyms (by cases ch <;> exact (add_sub_cancel ..).symm)).1 hb.1 hb.2
    exact ⟨t, u, ht, hu, block_ext_scan hdc (hacu.trans hpad), BitVec.eq_of_toInt_eq hlast⟩
  · obtain ⟨t, ht, hdc, hac, -⟩ := ((dec ch s).2 y ac _ h hs rfl).1 h1 h2
    obtain ⟨hn, hwf⟩ := (wfSym_eq_none_iff s).mp h
    have hlen := syms_length hn
    rw [hs] at hwf hlen ⊢
    refine ⟨t, _, ht, exec_rleenc (rleEncode_of_spread hwf ?_ hac), afterRleenc_syms _ ch hwf, BitVec.eq_of_toNat_eq ?_⟩
    · cases ch <;> exact sub_eq_of_eq_add' hdc
    · rw [afterRleenc_symn_toNat _ ch hwf, hlen]

end Sys2Proof.Machine

namespace Sys2Proof.Machine

/-! ### The Huffman tables by name -/

/-- Write table(CLS, TID) (spec/44_huffman.md R300). -/
def State.setHuff (s : State) (cls : TableClass) (tid : TableId) (t : Vector Slot (slotCount cls)) : State :=
  match cls, t with
  | .dc, t => s.setHdc tid t
  | .ac, t => s.setHac tid t

theorem slotCount_le (cls : TableClass) : slotCount cls ≤ 256 := by cases cls <;> decide

@[simp] theorem complete_huffSlot (s : State) : s.complete.huffSlot = s.huffSlot := rfl

theorem setHuff_huffSlot (s : State) (cls cls' : TableClass) (tid tid' : TableId) (t : Vector Slot (slotCount cls)) :
    (s.setHuff cls tid t).huffSlot cls' tid' = if (cls', tid') = (cls, tid) then slotAt t else s.huffSlot cls' tid' := by
  cases cls <;> cases tid <;> cases cls' <;> cases tid' <;> rfl

/-- What the completion of a command that wrote table(CLS, TID) leaves unchanged. -/
theorem setHuff_complete_frame (s : State) (cls : TableClass) (tid : TableId) (t : Vector Slot (slotCount cls)) :
    (s.setHuff cls tid t).complete =
      { s with
        hdc0 := (s.setHuff cls tid t).complete.hdc0, hdc1 := (s.setHuff cls tid t).complete.hdc1
        hac0 := (s.setHuff cls tid t).complete.hac0, hac1 := (s.setHuff cls tid t).complete.hac1
        cmdCnt := s.cmdCnt + 1, done := true, pending := none } := by
  cases cls <;> cases tid <;> rfl

theorem huffLegal_setHuff {s : State} (h : s.huffLegal) {cls : TableClass} (tid : TableId)
    {t : Vector Slot (slotCount cls)} (ht : tableLegal t) : (s.setHuff cls tid t).huffLegal := by
  obtain ⟨d0, d1, a0, a1⟩ := h
  cases cls <;> cases tid
  · exact ⟨ht, d1, a0, a1⟩
  · exact ⟨d0, ht, a0, a1⟩
  · exact ⟨d0, d1, ht, a1⟩
  · exact ⟨d0, d1, a0, ht⟩

/-! ### HBUILD and HDEFAULT -/

theorem exec_hbuild {cls : TableClass} {s : State} {t : Vector Slot (slotCount cls)}
    (h : buildTable (slotCount cls) ⟨s.hbits, s.hvals⟩ = .ok t) (tid : TableId) :
    exec (.hbuild cls tid) s = .next (s.setHuff cls tid t).complete := by
  cases cls <;> dsimp only [slotCount] at h <;> simp only [exec, execHbuild, h] <;> rfl

theorem exec_hbuild_fault {cls : TableClass} {s : State} {d : Nat}
    (h : buildTable (slotCount cls) ⟨s.hbits, s.hvals⟩ = .error d) (tid : TableId) :
    exec (.hbuild cls tid) s = .next (s.raise (.num .huffTable d)) := by
  cases cls <;> dsimp only [slotCount] at h <;> simp only [exec, execHbuild, h, commit_error]

theorem exec_hdefault (cls : TableClass) (tid : TableId) (s : State) : exec (.hdefault cls tid) s =
    .next (s.setHuff cls tid (builtin (slotCount cls) (defaultDef s.cfg cls tid))).complete := by
  cases cls <;> cases tid <;> rfl

theorem buildTable_defaultDef {p : Params} (h : p.legal = true) (cls : TableClass) (tid : TableId) :
    (buildTable (slotCount cls) (defaultDef p cls tid)).isOk = true := by
  obtain ⟨-, d0, d1, a0, a1⟩ := legal_defaults h
  cases cls <;> cases tid <;> assumption

theorem resetOf_huffSlot (p : Params) (cls : TableClass) (tid : TableId) :
    (State.resetOf p).huffSlot cls tid = slotAt (builtin (slotCount cls) (defaultDef p cls tid)) := by
  cases cls <;> cases tid <;> rfl

/-- In what HBUILD's construction answers no code begins another (spec/44_huffman.md R302). -/
theorem tableLegal_of_buildTable {cap : Nat} (hcap : cap ≤ 256) {d : HuffDef} {t : Vector Slot cap}
    (h : buildTable cap d = .ok t) : tableLegal t := by
  obtain ⟨-, -, -, hk, hl⟩ := buildTable_ok hcap h
  exact listsSlots_legal hl (codeLengths_sorted _) (fun _ hm => (codeLengths_bounds hm).2) hk

/-! ### Every step keeps the four tables legal -/

/-- Everything a command that writes a Huffman table can do: it completes with a legal table, or faults. -/
theorem exec_huff_cases {i : Instr} {s t : State} (hp : s.paramsLegal) (hi : i.mnem ∈ [.hbuild, .hdefault])
    (h : exec i s = .next t) :
    (∃ cls tid, ∃ q : Vector Slot (slotCount cls), tableLegal q ∧ t = (s.setHuff cls tid q).complete) ∨
      ∃ f, t = s.raise f := by
  cases i <;> simp only [Instr.mnem, List.mem_cons, List.not_mem_nil, reduceCtorEq, or_self] at hi
  case hbuild cls tid =>
    cases hb : buildTable (slotCount cls) ⟨s.hbits, s.hvals⟩ with
    | ok q =>
      cases (exec_hbuild hb tid).symm.trans h
      exact .inl ⟨cls, tid, q, tableLegal_of_buildTable (slotCount_le cls) hb, rfl⟩
    | error d =>
      cases (exec_hbuild_fault hb tid).symm.trans h
      exact .inr ⟨_, rfl⟩
  case hdefault cls tid =>
    cases (exec_hdefault cls tid s).symm.trans h
    exact .inl ⟨cls, tid, _, tableLegal_builtin (slotCount_le cls) (buildTable_defaultDef hp cls tid), rfl⟩

theorem State.huffLegal.congr {s t : State} (h : s.huffLegal) (d0 : t.hdc0 = s.hdc0) (d1 : t.hdc1 = s.hdc1)
    (a0 : t.hac0 = s.hac0) (a1 : t.hac1 = s.hac1) : t.huffLegal := by
  unfold State.huffLegal
  rw [d0, d1, a0, a1]
  exact h

theorem exec_keeps_huff {i : Instr} {s t : State} (h : exec i s = .next t) (hi : i.mnem ∉ [.hbuild, .hdefault]) :
    t.hdc0 = s.hdc0 ∧ t.hdc1 = s.hdc1 ∧ t.hac0 = s.hac0 ∧ t.hac1 = s.hac1 := by
  simpa only [not_or, not_not] using mt (exec_writesOnlyOwn h).huff hi

theorem huffLegal_command {i : Instr} {s t : State} (hp : s.paramsLegal) (hs : s.huffLegal) (h : exec i s = .next t) :
    t.huffLegal := by
  by_cases hi : i.mnem ∈ [.hbuild, .hdefault]
  · obtain ⟨cls, tid, q, hq, rfl⟩ | ⟨f, rfl⟩ := exec_huff_cases hp hi h
    · exact huffLegal_setHuff hs tid hq
    · exact hs
  · obtain ⟨d0, d1, a0, a1⟩ := exec_keeps_huff h hi
    exact hs.congr d0 d1 a0 a1

/-- The host bus does not write the Huffman tables (spec/10_state.md R38). -/
theorem huffLegal_writeData {s : State} (h : s.huffLegal) (r : Reg) (v : Word) : (s.writeData r v).huffLegal := by
  cases r with
  | griddim ch | lastdc ch => cases ch <;> exact h
  | _ => exact h

theorem huffTables_invariant : StepInvariant fun s => s.paramsLegal ∧ s.huffLegal where
  env _ _ h := h
  reset _ h := ⟨h.1, huffLegal_resetOf h.1⟩
  command i s t h hx := ⟨h.1.congr (exec_cfg hx), huffLegal_command h.1 h.2 hx⟩
  illegal _ _ h := h
  answer _ _ _ h := h
  enable _ _ _ h := h
  status _ _ h := by rw [writeStatus_eq]; exact h
  capture _ _ h _ := h
  drop _ h := h
  data s _ _ r v h _ := ⟨h.1.congr (State.writeData_cfg s r v), huffLegal_writeData h.2 r v⟩

/-- Settles O56: HBUILD's construction answers only canonical codes under a Kraft sum of at most 1, none of which begins
another; legal default definitions pass that construction, and nothing else writes a Huffman table. -/
theorem huffmanTablesStayPrefixFree : Obligations.HuffmanTablesStayPrefixFree := by
  unfold Obligations.HuffmanTablesStayPrefixFree
  exact fun _ _ hp hs h => (huffTables_invariant.step ⟨hp, hs⟩ h).2

/-! ### What HBUILD and HDEFAULT answer -/

/-- Only a DC symbol can lie beyond its table's slots (spec/44_huffman.md R305). -/
theorem usedVals_lt_slotCount {cls : TableClass} {d : HuffDef} (h : cls = .dc → ∀ v ∈ usedVals d, v < 12) :
    ∀ v ∈ usedVals d, v < slotCount cls := by
  cases cls with
  | dc => exact h rfl
  | ac =>
    intro v hv
    obtain ⟨b, -, rfl⟩ := List.mem_map.mp hv
    exact b.isLt

/-- Settles O27: HBUILD ends as the construction of the table does. -/
theorem hbuildResult : Obligations.HbuildResult := by
  unfold Obligations.HbuildResult
  refine ⟨by decide, fun cls tid s lens vals hlens hvals => ?_⟩
  have hu : vals = usedVals ⟨s.hbits, s.hvals⟩ := by rw [hvals, hlens, codeLengths_length, usedVals]
  subst hlens hu
  obtain ⟨h1, h2, h3, h4⟩ := buildTable_spec (slotCount cls) (slotCount_le cls) ⟨s.hbits, s.hvals⟩
  refine ⟨fun hn => exec_hbuild_fault (h1 hn) tid, fun hn ⟨hc, hv⟩ => ?_,
    fun hn hv hd => exec_hbuild_fault (h3 hn (usedVals_lt_slotCount hv) hd) tid,
    fun hn hv hd hk => exec_hbuild_fault ((h4 hn (usedVals_lt_slotCount hv) hd).1 hk) tid, fun hn hv hd hk => ?_⟩
  · subst hc
    exact exec_hbuild_fault (h2 hn hv) tid
  · obtain ⟨t, ht, hl⟩ := (h4 hn (usedVals_lt_slotCount hv) hd).2 hk
    refine ⟨_, exec_hbuild ht tid, ?_, fun cls' tid' h => ?_, setHuff_complete_frame ..⟩
    · rw [complete_huffSlot, setHuff_huffSlot, if_pos rfl]
      exact listsSlots_canonical (slotCount_le cls) (usedVals_lt_slotCount hv) hn hk hl
    · rw [complete_huffSlot, setHuff_huffSlot, if_neg h]

/-- Settles O28: HDEFAULT has no condition, and the table it writes is the one after reset. -/
theorem hdefaultResult : Obligations.HdefaultResult := by
  unfold Obligations.HdefaultResult
  refine ⟨by decide, fun cls tid s => ⟨_, exec_hdefault cls tid s, fun hp => ?_, ?_,
    fun cls' tid' h => ?_, setHuff_complete_frame ..⟩⟩
  · rw [complete_huffSlot, setHuff_huffSlot, if_pos rfl]
    exact isCanonicalTable_builtin (slotCount_le cls) (buildTable_defaultDef hp cls tid)
  · rw [complete_huffSlot, setHuff_huffSlot, if_pos rfl, resetOf_huffSlot]
  · rw [complete_huffSlot, setHuff_huffSlot, if_neg h]

/-- Settles O29: the tables after reset are closed terms, so their codes are evaluated. -/
theorem defaultHuffmanCodes : Obligations.DefaultHuffmanCodes := by
  unfold Obligations.DefaultHuffmanCodes
  decide +kernel

end Sys2Proof.Machine

namespace Sys2Proof.Machine

/-! ### Amplitude fields -/

theorem ampBits_lt (a : Int) (n : Nat) : ampBits a n < 2 ^ n := by
  have := Int.emod_lt_of_pos (if 0 ≤ a then a else a - 1) (show (0 : Int) < (2 ^ n : Nat) by positivity)
  unfold ampBits
  omega

/-- The amplitude field as a number is AmpBits (spec/44_huffman.md R323). -/
theorem bitsValue_ampField_eq (a : Int) (n : Nat) : bitsValue (ampField a n) = ampBits a n := by
  rw [← ampBits_field, bitsValue_msbBits, Nat.mod_eq_of_lt (ampBits_lt a n)]

/-- A field with its top bit set extends to itself, any other to a number below 1 (spec/44_huffman.md R332). -/
theorem testBit_top_iff_extend_pos {v n : Nat} (hn : 1 ≤ n) (hv : v < 2 ^ n) :
    v.testBit (n - 1) = true ↔ 0 < extend v n := by
  rw [extend, if_neg (by omega)]
  by_cases ht : v.testBit (n - 1) = true
  · have h0 : v ≠ 0 := by rintro rfl; simp at ht
    rw [if_pos ht]
    exact iff_of_true ht (by omega)
  · rw [if_neg ht]
    exact iff_of_false ht (by omega)

/-- Settles O33: Extend undoes the amplitude field, which is AmpBits as bits, and the sign of what it extends to is its top
bit. -/
theorem extendInvertsAmpBits : Obligations.ExtendInvertsAmpBits := by
  unfold Obligations.ExtendInvertsAmpBits
  intro a n h
  have he : extend (ampBits a n) n = a := by rw [← bitsValue_ampField_eq, extend_ampField h]
  refine ⟨he, ampBits_field a n, fun hn => ?_⟩
  rw [testBit_top_iff_extend_pos hn (ampBits_lt a n), he]

/-! ### Flushing the bit writer -/

/-- `s` with the bytes of `w` stored at OUTPTR and its pending bits kept (spec/44_huffman.md R322). -/
def State.flushed (s : State) (w : BitWriter) : State :=
  { s with
    outbuf := Memory.setAll s.outbuf s.outptr.toNat w.out
    outptr := BitVec.ofNat 15 (s.outptr.toNat + w.out.length)
    bwacc := w.acc
    bwn := BitVec.ofNat 3 w.n }

section flushed

variable {s : State} {w : BitWriter}

theorem flushWriter_room (h : s.outptr.toNat + w.out.length ≤ s.cfg.outSize) : s.flushWriter w = .ok (s.flushed w) :=
  if_neg (not_lt.mpr h)

theorem flushWriter_full (h : s.cfg.outSize < s.outptr.toNat + w.out.length) :
    s.flushWriter w = .error (.num .outFull (s.outptr.toNat + w.out.length)) := if_pos h

variable (s w)

theorem flushed_outptr : (s.flushed w).complete.outptr = s.outptr + BitVec.ofNat 15 w.out.length := by
  rw [State.complete_outptr, State.flushed, BitVec.ofNat_add, BitVec.ofNat_toNat, BitVec.setWidth_eq]

theorem flushed_outbuf (a : Nat) : Sparse.get (s.flushed w).complete.outbuf a =
    if s.outptr.toNat ≤ a ∧ a < s.outptr.toNat + w.out.length then w.out[a - s.outptr.toNat]? else Sparse.get s.outbuf a :=
  Memory.get_setAll ..

variable {w} in
theorem flushed_pendingBits (h : w.n < 8) : (s.flushed w).complete.pendingBits = w.pend := by
  have hn : (BitVec.ofNat 3 w.n).toNat = w.n := Nat.mod_eq_of_lt h
  simp only [State.pendingBits, State.complete_bwacc, State.complete_bwn, State.flushed, BitWriter.pend, hn]

theorem flushed_frame : (s.flushed w).complete =
    { s with
      outbuf := (s.flushed w).complete.outbuf, outptr := (s.flushed w).complete.outptr
      bwn := (s.flushed w).complete.bwn, bwacc := (s.flushed w).complete.bwacc
      cmdCnt := s.cmdCnt + 1, done := true, pending := none } := rfl

end flushed

/-! ### HENC -/

/-- The bits that HENC packs (spec/44_huffman.md R320, R324): the pending ones, then the block's. -/
def State.hencBits (s : State) (ch : Chan) : List Bool :=
  s.pendingBits ++ blockBits (s.huffSlot .dc (huffTableId ch)) (s.huffSlot .ac (huffTableId ch)) s.syms

section execHenc

variable {ch : Chan} {s : State}

theorem exec_henc_symForm {d : Nat} (h : s.wfSym = some d) :
    exec (.henc ch) s = .next (s.raise (.num .symForm d)) := by
  rw [exec, execHenc, State.checkSyms, h]
  rfl

variable (h : s.wfSym = none)

include h

theorem exec_henc_noCode {f : CmdFault} (hp : planSyms (s.hdcOf ch) (s.hacOf ch) s.syms = .error f) :
    exec (.henc ch) s = .next (s.raise f) := by
  simp only [exec, execHenc, State.checkSyms, h, hp, commit_error]

/-- With every code at hand HENC ends as the flush of the block's bits does (spec/44_huffman.md R324). -/
theorem exec_henc (hc : blockCoded (s.huffSlot .dc (huffTableId ch)) (s.huffSlot .ac (huffTableId ch)) s.syms) :
    ∃ w : BitWriter, exec (.henc ch) s = commit s (s.flushWriter w) ∧ w.out = stuffBytes (packBytes (s.hencBits ch)) ∧
      w.pend = packRest (s.hencBits ch) ∧ w.n < 8 := by
  rw [huffSlot_dc, huffSlot_ac] at hc
  obtain ⟨plan, hp, hbits⟩ := planSyms_ok hc
  obtain ⟨hout, hpend, hn⟩ := putPlan_spec plan s.writer s.bwn.isLt
  rw [hbits, ← huffSlot_dc, ← huffSlot_ac] at hout hpend
  exact ⟨_, by simp only [exec, execHenc, State.checkSyms, h, hp], hout, hpend, hn⟩

end execHenc

/-- Settles O30: HENC's plan is the block's bits, and flushing the bit writer stores the bytes they make. -/
theorem hencResult : Obligations.HencResult := by
  unfold Obligations.HencResult
  refine ⟨by decide, fun ch s bits out hwf hc hbits hout hroom => ?_⟩
  obtain ⟨w, hx, hwout, hpend, hn⟩ := exec_henc hwf hc
  obtain rfl : bits = s.hencBits ch := hbits
  obtain rfl : w.out = out := hwout.trans hout.symm
  rw [flushWriter_room hroom, commit_ok] at hx
  refine ⟨_, hx, flushed_outptr s w, fun j hj => ?_, fun a ha => ?_, (flushed_pendingBits s hn).trans hpend,
    flushed_frame s w⟩
  · rw [flushed_outbuf, if_pos (by omega), Nat.add_sub_cancel_left]
  · rw [flushed_outbuf, if_neg (by omega)]

/-- Settles O31: the symbols' form is checked before the plan is made, and the plan before its bytes are stored. -/
theorem hencFaults : Obligations.HencFaults := by
  unfold Obligations.HencFaults
  rintro ch s dc ac rfl rfl
  refine ⟨fun d hd => exec_henc_symForm hd, fun y ys hwf hs h0 => ?_, fun y pre z post hwf hs h0 hpre hz => ?_,
    fun n hwf hc hn hfull => ?_⟩
  · rw [huffSlot_dc] at h0
    exact exec_henc_noCode hwf (by rw [hs, planSyms_noDc h0])
  · rw [huffSlot_dc] at h0
    rw [huffSlot_ac] at hpre hz
    exact exec_henc_noCode hwf (by rw [hs, planSyms_noAc h0 hpre hz])
  · obtain ⟨w, hx, hwout, -, -⟩ := exec_henc hwf hc
    obtain rfl : n = s.outptr.toNat + w.out.length := by rw [hn, hwout, State.hencBits]
    rw [hx, flushWriter_full hfull]
    rfl

/-! ### HFLUSH -/

/-- A shift to the left appends zeros. -/
theorem msbBits_mul_two_pow (v n k : Nat) : msbBits (v * 2 ^ k) (n + k) = msbBits v n ++ List.replicate k false := by
  induction k with
  | zero => simp
  | succ k ih =>
    have e : v * 2 ^ (k + 1) = 2 * (v * 2 ^ k) + false.toNat := by rw [pow_succ, Bool.toNat_false]; ring
    rw [e, ← Nat.add_assoc, msbBits_snoc, ih, List.replicate_succ', List.append_assoc]

/-- The pending bits filled with zeros to a byte (spec/44_huffman.md R325). -/
def State.padByte (s : State) : Byte := s.bwacc <<< (8 - s.bwn.toNat)

theorem msbBits_padByte (s : State) :
    msbBits s.padByte.toNat 8 = s.pendingBits ++ List.replicate (8 - s.bwn.toNat) false := by
  have h8 : s.bwn.toNat + (8 - s.bwn.toNat) = 8 := Nat.add_sub_cancel' s.bwn.isLt.le
  have hs := msbBits_mul_two_pow s.bwacc.toNat s.bwn.toNat (8 - s.bwn.toNat)
  rw [h8] at hs
  rw [State.padByte, BitVec.toNat_shiftLeft, msbBits_mod, Nat.shiftLeft_eq, hs, State.pendingBits]

/-- At least one zero is filled in, so the byte needs no stuffing. -/
theorem padByte_ne (s : State) : s.padByte ≠ 0xFF := by
  intro h
  have h0 : s.padByte.getLsbD 0 = false := by
    have := s.bwn.isLt
    rw [State.padByte, BitVec.getLsbD_shiftLeft]
    simp; omega
  rw [h] at h0
  exact absurd h0 (by decide)

section execHflush

variable {s : State}

theorem exec_hflush_empty (h : s.bwn = 0) : exec .hflush s = .next s.complete := by
  rw [exec, execHflush, if_pos h, commit_ok]

theorem exec_hflush (h : s.bwn ≠ 0) : exec .hflush s = commit s (s.flushWriter ⟨0, 0, [s.padByte]⟩) := by
  rw [exec, execHflush, if_neg h, emitBytes, ← State.padByte, if_neg (padByte_ne s)]

end execHflush

/-- Settles O32: the pending bits are flushed as one byte that is never stuffed. -/
theorem hflushResult : Obligations.HflushResult := by
  unfold Obligations.HflushResult
  refine ⟨by decide, fun s => ⟨exec_hflush_empty, fun h hroom => ?_, fun h hfull => ?_⟩⟩
  · have hx := exec_hflush h
    rw [flushWriter_room hroom, commit_ok] at hx
    refine ⟨_, s.padByte, hx, ?_, msbBits_padByte s, fun a ha => ?_, ?_⟩
    · rw [flushed_outbuf, if_pos (by simp)]
      simp
    · rw [flushed_outbuf, if_neg (by simp only [List.length_singleton]; omega)]
    · rw [flushed_frame, flushed_outptr]
      rfl
  · rw [exec_hflush h, flushWriter_full hfull]
    rfl

end Sys2Proof.Machine

namespace Sys2Proof.Machine

/-! ### HDEC's outcome -/

/-- The state after a HDEC that decodes `out` and leaves the cursor `c` (spec/44_huffman.md R335). -/
def State.afterHdec (s : State) (out : List Sym) (c : Cursor) : State :=
  ({ s with
    sym := writeSyms s.sym out, symn := BitVec.ofNat 7 out.length
    inpos := BitVec.ofNat 15 c.pos, inbits := BitVec.ofNat 4 c.bits, inprev := c.prev } : State).complete

section execHdec

variable {ch : Chan} {s : State}

theorem exec_hdec_fault {f : CmdFault} (h : hdecSyms (s.hdcOf ch) (s.hacOf ch) s.inStream s.cursor = .error f) :
    exec (.hdec ch) s = .next (s.raise f) := by
  simp only [exec, execHdec, h, commit_error]

/-- E_TRUNC with the end of the stream, or the cursor beyond it, as the detail (spec/44_huffman.md R330). -/
theorem exec_hdec_trunc {f : CmdFault} (h : hdecSyms (s.hdcOf ch) (s.hacOf ch) s.inStream s.cursor = .error f)
    (e : f = .num .trunc (max s.cursor.pos s.inStream.len)) :
    exec (.hdec ch) s = .next (s.faulted 0x09 (BitVec.ofNat 32 (max s.inpos.toNat s.inlen.toNat))) := by
  subst e
  exact exec_hdec_fault h

variable {out : List Sym} {c : Cursor}

theorem exec_hdec (h : hdecSyms (s.hdcOf ch) (s.hacOf ch) s.inStream s.cursor = .ok (out, c)) :
    exec (.hdec ch) s = .next (s.afterHdec out c) := by
  simp only [exec, execHdec, h, commit_ok, State.afterHdec]

theorem afterHdec_inStream : (s.afterHdec out c).inStream = s.inStream := by
  simp only [State.inStream, State.afterHdec, State.complete_inlen, State.complete_inbuf, State.complete_epoch]

theorem afterHdec_sym : (s.afterHdec out c).sym = writeSyms s.sym out := rfl

theorem afterHdec_cursor (h : Cursor.Reaches s.inStream s.cursor c) : (s.afterHdec out c).cursor = c :=
  cursor_of_reaches h rfl rfl rfl

theorem afterHdec_symn_toNat (h : symsWellFormed out) : (s.afterHdec out c).symn.toNat = out.length := by
  have hlen := (symsWellFormed_entries h).1
  exact Nat.mod_eq_of_lt (by omega)

/-- The symbols that HDEC stores read back as they are. -/
theorem afterHdec_syms (h : symsWellFormed out) : (s.afterHdec out c).syms = out := by
  obtain ⟨hlen, hread⟩ := symsWellFormed_entries h
  rw [State.syms, afterHdec_symn_toNat h, afterHdec_sym, writeSyms_read s.sym hlen hread]

theorem afterHdec_frame : s.afterHdec out c =
    { s with
      sym := (s.afterHdec out c).sym, symn := (s.afterHdec out c).symn, inpos := (s.afterHdec out c).inpos
      inbits := (s.afterHdec out c).inbits, inprev := (s.afterHdec out c).inprev
      cmdCnt := s.cmdCnt + 1, done := true, pending := none } := by
  unfold State.afterHdec
  generalize writeSyms s.sym out = y
  rfl

/-- The bits before the cursor of the state after HDEC. -/
theorem afterHdec_cursorBits (h : Cursor.Reaches s.inStream s.cursor c) :
    (s.afterHdec out c).cursorBits = streamBits s.inStream c := by
  rw [cursorBits_eq, afterHdec_cursor h, afterHdec_inStream]

end execHdec

/-- Settles O34: HDEC decodes the block that stands next and reaches the cursor after exactly its bits. -/
theorem hdecDecodesBlock : Obligations.HdecDecodesBlock := by
  unfold Obligations.HdecDecodesBlock
  refine ⟨by decide, ?_⟩
  rintro ch s _ _ l bits rest hleg rfl rfl hwf hcoded hreads hbits
  rw [huffSlot_dc, huffSlot_ac] at hcoded hreads
  rw [cursorBits_eq] at hbits
  obtain ⟨c, hok, hrest⟩ :=
    hdecSyms_reads (hdcOf_legal hleg ch) (hacOf_legal hleg ch) s.inStream hwf hcoded hreads s.cursor rest hbits
  obtain ⟨hreach, -⟩ := hdecSyms_form hok
  refine ⟨_, exec_hdec hok, afterHdec_syms hwf, afterHdec_symn_toNat hwf, fun i hi => ?_,
    (afterHdec_cursorBits hreach).trans hrest, cursorAfter_of_takes ?_, afterHdec_frame⟩
  · rw [afterHdec_sym, writeSyms_rest s.sym i hi]
  · rw [afterHdec_cursor hreach]
    exact hreach.takes_length (by rw [hbits, hrest])

/-! ### HDEC's faults -/

section faults

variable {d : Vector Slot 12} {a : Vector Slot 256} {m : InStream} {c c1 : Cursor} {b t i pos run : Nat}

theorem hdecSyms_of_decodeSym_error {f : CmdFault} (h : decodeSym d m 0 c = .error f) : hdecSyms d a m c = .error f := by
  rw [hdecSyms, h]

/-- No code is a beginning of the empty stream. -/
theorem not_codeBits_prefix_nil {s : Slot} (h : s.len ≠ 0) : ¬ codeBits s <+: [] := by
  intro hp
  have hl : (codeBits s).length = s.len.toNat := msbBits_length ..
  rw [List.prefix_nil.mp hp] at hl
  exact h (BitVec.eq_of_toNat_eq hl.symm)

/-- Reading on does not change where the stream ends. -/
theorem trunc_eq_of_reaches (h1 : c.pos ≤ c1.pos) (h2 : c1.pos ≤ max c.pos m.len) :
    CmdFault.num .trunc (max c1.pos m.len) = .num .trunc (max c.pos m.len) := by
  congr 1
  omega

/-- E_TRUNC within the amplitude field of the DC symbol (spec/44_huffman.md R335). -/
theorem hdecSyms_trunc_dcField (hd : tableLegal d) {n : Nat} (hl : (slotAt d n).len ≠ 0) {rest : List Bool}
    (hs : streamBits m c = codeBits (slotAt d n) ++ rest) (hn : rest.length < n) :
    hdecSyms d a m c = .error (.num .trunc (max c.pos m.len)) := by
  obtain ⟨hlt, e⟩ := slotAt_coded hl
  rw [e] at hl hs
  obtain ⟨c1, hdec, hrest, h1, h2⟩ := decodeSym_ok hd m 0 hlt hl c rest hs
  rw [hdecSyms, hdec]
  simp only
  rw [readBits_trunc m n 0 c1 (hrest.symm ▸ hn), trunc_eq_of_reaches h1 h2]

variable (hpos : pos < 63)

include hpos

theorem hdecAc_of_decodeSym_error {f : CmdFault} (h : decodeSym a m i c = .error f) :
    hdecAc a m (t + 1) i pos run c = .error f := by
  rw [hdecAc, if_neg (by omega), h]

variable (h : decodeSym a m i c = .ok (b, c1))

include h

/-- E_BAD_SYMBOL (spec/44_huffman.md R335). -/
theorem hdecAc_badSymbol (hb : b % 16 = 0) (h0 : b ≠ 0x00) (hf : b ≠ 0xF0) :
    hdecAc a m (t + 1) i pos run c = .error (.num .badSymbol b) := by
  rw [hdecAc, if_neg (by omega), h]
  simp only
  rw [if_pos hb, if_neg (by omega), if_neg (by omega)]

/-- E_RUN_OVERFLOW of a coefficient (spec/44_huffman.md R335). -/
theorem hdecAc_overflow_coef (hb : b % 16 ≠ 0) (ho : 63 < pos + run + b / 16 + 1) :
    hdecAc a m (t + 1) i pos run c = .error (.num .runOverflow i) := by
  rw [hdecAc, if_neg (by omega), h]
  simp only
  rw [if_neg hb, if_pos (by omega)]

/-- E_RUN_OVERFLOW of a ZRL (spec/44_huffman.md R335). -/
theorem hdecAc_overflow_zrl (hb : b = 0xF0) (ho : 63 < pos + run + 16) :
    hdecAc a m (t + 1) i pos run c = .error (.num .runOverflow i) := by
  rw [hdecAc, if_neg (by omega), h]
  simp only
  rw [if_pos (by omega), if_neg (by omega), if_pos (by omega), if_pos (by omega)]

/-- E_TRUNC within the amplitude field of a coefficient (spec/44_huffman.md R335). -/
theorem hdecAc_trunc_field (hb : b % 16 ≠ 0) (ho : pos + run + b / 16 + 1 ≤ 63)
    (hs : (streamBits m c1).length < b % 16) :
    hdecAc a m (t + 1) i pos run c = .error (.num .trunc (max c1.pos m.len)) := by
  rw [hdecAc, if_neg (by omega), h]
  simp only
  rw [if_neg hb, if_neg (by omega), readBits_trunc m (b % 16) 0 c1 hs]

end faults

/-- Settles O35: each fault is the one of the first read or check that fails, and the turns before it are those of a block. -/
theorem hdecFaults : Obligations.HdecFaults := by
  unfold Obligations.HdecFaults
  rintro ch s _ _ _ rfl rfl hleg rfl
  have hd := hdcOf_legal hleg ch
  have ha := hacOf_legal hleg ch
  rw [huffSlot_dc, huffSlot_ac, cursorBits_eq]
  refine ⟨fun h0 hle => ?_, fun l more hwf hc hm hs => ?_, fun hno => ⟨fun hshort => ?_, fun hlong => ?_⟩,
    fun n rest hl hs hn => ?_, fun y pre k rest hy hdc hpre hp hz hk hs => ?_⟩
  · have hs : streamBits s.inStream s.cursor = [] := by
      simp [streamBits, State.cursor, h0, InStream.bytesFrom_of_ge (m := s.inStream) hle, unstuffBits]
    have hx := decodeSym_short (t := s.hdcOf ch) s.inStream 0 s.cursor (by simp [hs])
      fun y hy => hs ▸ not_codeBits_prefix_nil hy
    have := exec_hdec_trunc (hdecSyms_of_decodeSym_error hx) rfl
    rwa [max_eq_left hle] at this
  · exact exec_hdec_trunc (hdecSyms_trunc hd ha s.inStream hwf hc s.cursor more hm hs) rfl
  · exact exec_hdec_trunc (hdecSyms_of_decodeSym_error (decodeSym_short s.inStream 0 s.cursor hshort hno)) rfl
  · exact exec_hdec_fault (hdecSyms_of_decodeSym_error (decodeSym_unresolved s.inStream 0 s.cursor hlong hno))
  · exact exec_hdec_trunc (hdecSyms_trunc_dcField hd hl hs hn) rfl
  obtain ⟨t, c, hrest, hc1, hc2, hturn⟩ := hdecSyms_prefix hd ha s.inStream hy hdc hpre hp hz hk s.cursor rest hs
  have hfault {f : CmdFault}
      (h : hdecAc (s.hacOf ch) s.inStream (t + 1) (pre.length + 1) (acPositions pre) (16 * k) c = .error f) :
      hdecSyms (s.hdcOf ch) (s.hacOf ch) s.inStream s.cursor = .error f := by rw [hturn, h, prependSyms_error]
  refine ⟨fun hno => ⟨fun hshort => ?_, fun hlong => ?_⟩, fun b more _ hl hb => ?_⟩
  · refine exec_hdec_trunc (hfault (hdecAc_of_decodeSym_error hp (decodeSym_short s.inStream _ c ?_ ?_)))
      (trunc_eq_of_reaches hc1 hc2) <;> rwa [hrest]
  · refine exec_hdec_fault (hfault (hdecAc_of_decodeSym_error hp (decodeSym_unresolved s.inStream _ c ?_ ?_))) <;>
      rwa [hrest]
  obtain ⟨hlt, e⟩ := slotAt_coded hl
  rw [e] at hl hb
  obtain ⟨c', hdec, hmore, hc3, hc4⟩ := decodeSym_ok ha s.inStream (pre.length + 1) hlt hl c more (hrest.trans hb)
  refine ⟨fun h16 h0 hf => ?_, fun h16 ho => ?_, fun hf ho => ?_, fun h16 ho hshort => ?_⟩
  · exact exec_hdec_fault (hfault (hdecAc_badSymbol hp hdec h16 h0 hf))
  · exact exec_hdec_fault (hfault (hdecAc_overflow_coef hp hdec h16 ho))
  · exact exec_hdec_fault (hfault (hdecAc_overflow_zrl hp hdec hf ho))
  · exact exec_hdec_trunc (hfault (hdecAc_trunc_field hp hdec h16 ho (hmore.symm ▸ hshort)))
      ((trunc_eq_of_reaches hc3 hc4).trans (trunc_eq_of_reaches hc1 hc2))

/-! ### Whatever HDEC stores -/

/-- The amplitudes of well-formed symbols (spec/43_zigzag_rle.md R266). -/
theorem symsWellFormed_amp {l : List Sym} (h : symsWellFormed l) : ∀ y ∈ l, |y.amp| ≤ 32767 := by
  obtain ⟨y, ac, rfl, ⟨-, hdc, -⟩, hac⟩ := h
  refine List.forall_mem_cons.mpr ⟨hdc, ?_⟩
  obtain ⟨h, -⟩ | ⟨pre, rfl, h, -⟩ := hac
  · exact fun z hz => (h z hz).2.2.1
  · refine List.forall_mem_append.mpr ⟨fun z hz => (h z hz).2.2.1, fun z hz => ?_⟩
    rw [List.mem_singleton.mp hz]
    decide

/-- Settles O36: a HDEC that does not fault stores what its loop decodes, which is well formed. -/
theorem hdecSymbolsWellFormed : Obligations.HdecSymbolsWellFormed := by
  unfold Obligations.HdecSymbolsWellFormed
  intro ch s t hx _ hok
  cases hsyms : hdecSyms (s.hdcOf ch) (s.hacOf ch) s.inStream s.cursor with
  | error f =>
    cases (exec_hdec_fault hsyms).symm.trans hx
    cases hok
  | ok r =>
    obtain ⟨out, c⟩ := r
    cases (exec_hdec hsyms).symm.trans hx
    obtain ⟨-, hwf, hamp⟩ := hdecSyms_form hsyms
    rw [afterHdec_symn_toNat hwf, afterHdec_syms hwf]
    exact ⟨(symsWellFormed_entries hwf).1, hwf, symsWellFormed_amp hwf, hamp⟩

end Sys2Proof.Machine

namespace Sys2Proof.Machine

/-! ### One block, written and read back -/

/-- A command other than HBUILD and HDEFAULT leaves every table as it is (spec/10_state.md R38). -/
theorem exec_keeps_huffSlot {i : Instr} {s t : State} (h : exec i s = .next t) (hi : i.mnem ∉ [.hbuild, .hdefault]) :
    t.huffSlot = s.huffSlot ∧ (s.huffLegal → t.huffLegal) := by
  obtain ⟨d0, d1, a0, a1⟩ := exec_keeps_huff h hi
  refine ⟨?_, fun hs => hs.congr d0 d1 a0 a1⟩
  funext cls tid y
  cases cls <;> cases tid <;> simp only [State.huffSlot, d0, d1, a0, a1]

/-- OUTBUF holds `l` from its start, and OUTPTR stands after it. -/
def State.holdsOut (s : State) (l : List Byte) : Prop :=
  s.outptr.toNat = l.length ∧ ∀ j < l.length, Sparse.get s.outbuf j = l[j]?

/-- Flushing appends the emitted bytes to those in OUTBUF. -/
theorem holdsOut_flushed {s : State} {w : BitWriter} {l : List Byte} (h : s.holdsOut l)
    (hfit : l.length + w.out.length < 2 ^ 15) : (s.flushed w).complete.holdsOut (l ++ w.out) := by
  obtain ⟨hptr, hget⟩ := h
  refine ⟨?_, fun j hj => ?_⟩
  · rw [State.complete_outptr, State.flushed, BitVec.toNat_ofNat, hptr, List.length_append, Nat.mod_eq_of_lt hfit]
  · rw [List.length_append] at hj
    rw [flushed_outbuf, hptr]
    by_cases hlt : j < l.length
    · rw [if_neg (by omega), hget j hlt, List.getElem?_append_left hlt]
    · rw [if_pos (by omega), List.getElem?_append_right (by omega)]

theorem pendingBits_length (s : State) : s.pendingBits.length = s.bwn.toNat := msbBits_length ..

/-- HFLUSH writes at most one byte, whose bits are the pending ones and a filling (spec/44_huffman.md R325). -/
theorem exec_hflush_holdsOut {s : State} {l : List Byte} {k : Nat} (h : s.holdsOut l) (hsize : s.cfg.outSize < 2 ^ 15)
    (hk : k = if s.pendingBits.length = 0 then 0 else 1) (hroom : l.length + k ≤ s.cfg.outSize) :
    ∃ t tail fill, exec .hflush s = .next t ∧ t.holdsOut (l ++ tail) ∧ tail.length = k ∧
      tail.flatMap (fun b => msbBits b.toNat 8) = s.pendingBits ++ fill := by
  rw [pendingBits_length] at hk
  by_cases h0 : s.bwn = 0
  · refine ⟨_, [], [], exec_hflush_empty h0, by rwa [List.append_nil], by simp [hk, h0], ?_⟩
    simp [State.pendingBits, h0]
  · have hne : s.bwn.toNat ≠ 0 := fun e => h0 (BitVec.eq_of_toNat_eq e)
    rw [if_neg hne] at hk
    subst hk
    have hx := exec_hflush h0
    rw [flushWriter_room (by rw [h.1]; exact hroom), commit_ok] at hx
    refine ⟨_, [s.padByte], List.replicate (8 - s.bwn.toNat) false, hx, ?_, rfl, ?_⟩
    · exact holdsOut_flushed h (hroom.trans_lt hsize)
    · rw [List.flatMap_singleton, msbBits_padByte]

/-- What a decoder at the start of INBUF has before it when INBUF holds `l` (spec/44_huffman.md R330). -/
theorem cursorBits_start {s : State} {l : List Byte} (hpos : s.inpos = 0) (hbits : s.inbits = 0) (hprev : s.inprev = 0)
    (hlen : s.inlen.toNat = l.length) (hget : ∀ j < l.length, Sparse.get s.inbuf j = l[j]?) :
    s.cursorBits = unstuffBits 0 l := by
  have hbytes : ((List.range l.length).map fun j => s.inStream.byte j) = l := by
    refine List.ext_getElem (by simp) fun j _ hj => ?_
    simp [InStream.byte, State.inStream, hget j hj, hj]
  simp [State.cursorBits, hpos, hbits, hprev, hlen, hbytes]

/-- A byte that does not follow 0xFF is read as its bits. -/
theorem unstuffBits_short {prev : Byte} (hp : prev ≠ 0xFF) {l : List Byte} (hl : l.length ≤ 1) :
    unstuffBits prev l = l.flatMap fun b => msbBits b.toNat 8 := by
  match l, hl with
  | [], _ => rfl
  | [b], _ => rw [unstuffBits, if_neg fun h => hp h.1, unstuffBits, List.flatMap_cons, List.flatMap_nil]

/-- The stuffed whole bytes of `bits` and a last byte that begins with the rest are read as `bits` and the filling
(spec/44_huffman.md R330, R338). -/
theorem unstuff_packed {bits fill : List Bool} {tail : List Byte} (hl : tail.length ≤ 1)
    (ht : tail.flatMap (fun b => msbBits b.toNat 8) = packRest bits ++ fill) :
    unstuffBits 0 (stuffBytes (packBytes bits) ++ tail) = bits ++ fill := by
  obtain ⟨prev, hp, e⟩ := unstuff_stuff (packBytes bits) tail 0 (by decide)
  rw [e, unstuffBits_short hp hl, ht, ← List.append_assoc, pack_bits]

/-- BWRESET, HENC and HFLUSH leave OUTBUF with the block's stuffed whole bytes and at most one more, which begins with the
rest of the bits (spec/44_huffman.md R338). -/
theorem encodes_block {ch : Chan} {s : State} {bits : List Bool} {k : Nat} (hsize : s.cfg.outSize < 2 ^ 15)
    (hwf : s.wfSym = none)
    (hc : blockCoded (s.huffSlot .dc (huffTableId ch)) (s.huffSlot .ac (huffTableId ch)) s.syms)
    (hb : bits = blockBits (s.huffSlot .dc (huffTableId ch)) (s.huffSlot .ac (huffTableId ch)) s.syms)
    (hk : k = if bits.length % 8 = 0 then 0 else 1)
    (hroom : (stuffBytes (packBytes bits)).length + k ≤ s.cfg.outSize) :
    ∃ t1 t2 t3 tail fill, exec .bwreset s = .next t1 ∧ exec (.henc ch) t1 = .next t2 ∧ exec .hflush t2 = .next t3 ∧
      t3.holdsOut (stuffBytes (packBytes bits) ++ tail) ∧ tail.length = k ∧
      tail.flatMap (fun b => msbBits b.toNat 8) = packRest bits ++ fill := by
  set t1 := ({ s with bwn := 0, bwacc := 0, outptr := 0 } : State).complete
  have hempty : t1.holdsOut [] := ⟨rfl, fun j hj => absurd hj (Nat.not_lt_zero j)⟩
  have hbits : t1.hencBits ch = bits := hb.symm
  obtain ⟨w, hx, hout, hpend, hn⟩ := exec_henc (ch := ch) (s := t1) hwf hc
  rw [hbits] at hout hpend
  have hfit : w.out.length ≤ s.cfg.outSize := by rw [hout]; omega
  rw [flushWriter_room (by rw [hempty.1, List.length_nil, Nat.zero_add]; exact hfit), commit_ok] at hx
  have hpending := (flushed_pendingBits t1 hn).trans hpend
  have hheld := holdsOut_flushed hempty (w := w) (by rw [List.length_nil]; omega)
  rw [List.nil_append, hout] at hheld
  obtain ⟨t3, tail, fill, hx3, h3, hlen, hbytes⟩ :=
    exec_hflush_holdsOut hheld hsize (k := k) (by rw [hpending, packRest_length, hk]) hroom
  exact ⟨t1, _, t3, tail, fill, rfl, hx, hx3, h3, hlen, hpending ▸ hbytes⟩

/-- BRRESET and HDEC give back the block whose bits INBUF holds from its start (spec/44_huffman.md R338). -/
theorem decodes_block {ch : Chan} {s : State} {l : List Sym} {bytes : List Byte} {fill : List Bool} (hleg : s.huffLegal)
    (hwf : symsWellFormed l) (hc : blockCoded (s.huffSlot .dc (huffTableId ch)) (s.huffSlot .ac (huffTableId ch)) l)
    (hlen : s.inlen.toNat = bytes.length) (hget : ∀ j < bytes.length, Sparse.get s.inbuf j = bytes[j]?)
    (hbytes : unstuffBits 0 bytes =
      blockBits (s.huffSlot .dc (huffTableId ch)) (s.huffSlot .ac (huffTableId ch)) l ++ fill) :
    ∃ u v, exec .brreset s = .next u ∧ exec (.hdec ch) u = .next v ∧ v.syms = l ∧ v.symn.toNat = l.length := by
  set u := ({ s with inpos := 0, inbits := 0, inprev := 0 } : State).complete
  have hu : u.cursorBits = unstuffBits 0 bytes := cursorBits_start rfl rfl rfl hlen hget
  obtain ⟨v, hx, hsyms, hsymn, -⟩ :=
    hdecDecodesBlock.2 ch u _ _ l _ fill hleg rfl rfl hwf hc (.inl rfl) (hu.trans hbytes)
  exact ⟨u, v, rfl, hx, hsyms, hsymn⟩

/-- Settles O37: the bytes that HENC and HFLUSH leave in OUTBUF are read back as the block's bits and the filling, which
HDEC decodes. -/
theorem hencHdecRoundTrip : Obligations.HencHdecRoundTrip := by
  unfold Obligations.HencHdecRoundTrip
  intro ch s bits n hleg hsize hwf hc hbits hn hroom
  obtain ⟨t1, t2, t3, tail, fill, hx1, hx2, hx3, ⟨hptr, hget⟩, hlen, htail⟩ :=
    encodes_block (by omega) hwf hc hbits rfl (hn ▸ hroom)
  have hn3 : (stuffBytes (packBytes bits) ++ tail).length = n := by rw [List.length_append, hlen, hn]
  rw [hn3] at hptr hget
  refine ⟨t1, t2, t3, hx1, hx2, hx3, hptr, fun m junk hm => ?_⟩
  obtain ⟨hs1, hl1⟩ := exec_keeps_huffSlot hx1 (by simp [Instr.mnem])
  obtain ⟨hs2, hl2⟩ := exec_keeps_huffSlot hx2 (by simp [Instr.mnem])
  obtain ⟨hs3, hl3⟩ := exec_keeps_huffSlot hx3 (by simp [Instr.mnem])
  rw [← hs1, ← hs2, ← hs3] at hc hbits
  obtain ⟨hsymn, hform⟩ := (wfSym_eq_none_iff s).mp hwf
  have hread := unstuff_packed (by rw [hlen]; split <;> omega) htail
  obtain ⟨u, v, hx4, hx5, hsyms, hcount⟩ := decodes_block (ch := ch) (fill := fill)
    (s := { t3 with inbuf := m, inlen := t3.outptr, sym := junk, symn := 0 }) (hl3 (hl2 (hl1 hleg))) hform hc
    (hptr.trans hn3.symm) (fun j hj => (hm j (hn3 ▸ hj)).trans (hget j (hn3 ▸ hj))) (hread.trans (by rw [hbits]; rfl))
  exact ⟨u, v, hx4, hx5, hsyms, BitVec.eq_of_toNat_eq (hcount.trans (syms_length hsymn))⟩

end Sys2Proof.Machine

namespace Sys2Proof.Machine

/-! ### Motion vectors -/

theorem sext4_eq (n : Nat) : sext4 n = if n % 16 < 8 then (n % 16 : Int) else n % 16 - 16 := by
  rw [sext4, BitVec.toInt_eq_toNat_cond, BitVec.toNat_ofNat]
  split <;> split <;> omega

/-- Unpacking gives back the components of a vector in −8..7 (spec/45_motion.md R370). -/
theorem mvDx_mvDy_packMv {dx dy : Int} (hx : -8 ≤ dx ∧ dx ≤ 7) (hy : -8 ≤ dy ∧ dy ≤ 7) :
    mvDx (packMv dx dy).toNat = dx ∧ mvDy (packMv dx dy).toNat = dy := by
  rw [mvDx, mvDy, sext4_eq, sext4_eq, toNat_packMv]
  constructor <;> split <;> omega

/-- Settles O44: a component in −8..7 is the sign extension of its nibble. -/
theorem motionVectorPacking : Obligations.MotionVectorPacking := by
  unfold Obligations.MotionVectorPacking
  exact ⟨fun dx dy hx1 hx2 hy1 hy2 => ⟨toNat_packMv dx dy, mvDx_mvDy_packMv ⟨hx1, hx2⟩ ⟨hy1, hy2⟩⟩, by decide, by decide,
    by decide, by decide⟩

/-! ### Residual and reconstruction -/

/-- RECON's block: WB + RB, wrapping (spec/45_motion.md R373). -/
def reconBlock (a b : Block) : Block := blockOf fun k => wrap32 (a[k].toInt + b[k].toInt)

/-- The state after RESID (spec/45_motion.md R372). -/
def State.afterResid (s : State) : State :=
  ({ s with wb := residBlock s.wb s.rb, zres := zresFlag (residBlock s.wb s.rb) } : State).complete

/-- The state after RECON (spec/45_motion.md R373). -/
def State.afterRecon (s : State) : State := ({ s with wb := reconBlock s.wb s.rb } : State).complete

theorem afterResid_zres (s : State) : s.afterResid.zres = zresFlag (residBlock s.wb s.rb) := by simp [State.afterResid]

theorem afterResid_frame (s : State) : s.afterResid =
    { s with
      wb := s.afterResid.wb, zres := s.afterResid.zres, cmdCnt := s.cmdCnt + 1, done := true, pending := none } := by
  rw [State.afterResid]
  generalize zresFlag (residBlock s.wb s.rb) = z
  rfl

theorem exec_resid (s : State) : exec .resid s = .next s.afterResid := rfl

theorem exec_recon (s : State) : exec .recon s = .next s.afterRecon := rfl

theorem residBlock_get (a b : Block) (k : Fin 64) : (residBlock a b)[k] = a[k] - b[k] := by
  rw [residBlock, blockOf_get, wrap32]
  exact BitVec.eq_of_toInt_eq (by rw [BitVec.toInt_ofInt, BitVec.toInt_sub])

theorem reconBlock_get (a b : Block) (k : Fin 64) : (reconBlock a b)[k] = a[k] + b[k] := by
  rw [reconBlock, blockOf_get, wrap32, BitVec.ofInt_add, BitVec.ofInt_toInt, BitVec.ofInt_toInt]

theorem reconBlock_residBlock (a b : Block) : reconBlock (residBlock a b) b = a :=
  block_ext fun k => by rw [reconBlock_get, residBlock_get, BitVec.sub_add_cancel]

theorem zresFlag_iff (b : Block) : zresFlag b = true ↔ ∀ k : Fin 64, b[k] = 0 := by
  simp only [zresFlag, List.all_eq_true, beq_iff_eq, Vector.mem_toList_iff, Vector.mem_iff_getElem, forall_exists_index]
  exact ⟨fun h k => h _ k.val k.isLt rfl, fun h _ i hi e => e ▸ h ⟨i, hi⟩⟩

theorem zresFlag_residBlock_iff (a b : Block) : zresFlag (residBlock a b) = true ↔ ∀ k : Fin 64, a[k] = b[k] := by
  simp only [zresFlag_iff, residBlock_get, sub_eq_zero]

theorem afterRecon_afterResid_wb (s : State) : s.afterResid.afterRecon.wb = s.wb := by
  simp only [State.afterRecon, State.afterResid, State.complete_wb, State.complete_rb, reconBlock_residBlock]

/-- Settles O43: wrapping an integer difference or sum is that of words, and adding RB undoes subtracting it. -/
theorem residReconResults : Obligations.ResidReconResults := by
  unfold Obligations.ResidReconResults
  refine ⟨by decide, by decide, fun s => ⟨⟨_, _, exec_resid s, residBlock_get s.wb s.rb, ?_, afterResid_frame s,
    exec_recon _, afterRecon_afterResid_wb s⟩, _, exec_recon s, reconBlock_get s.wb s.rb, rfl⟩⟩
  rw [afterResid_zres, zresFlag_residBlock_iff]

end Sys2Proof.Machine

namespace Sys2Proof.Machine

/-! ### Coordinates: words, the grid check and cells -/

/-- The word of a command with a coordinate (spec/30_encoding.md R143): the columns above it, then BY and BX. -/
theorem toNat_encode_of_coord {i : Instr} {bx row : Nat} (hx : bx < 256) (hy : row < 256)
    (hcoord : (operandFields i).2.2 = (BitVec.ofNat 8 row, BitVec.ofNat 8 bx)) : (encode i).toNat =
      i.mnem.opcode.toNat * 2 ^ 26 + (operandFields i).1.toNat * 2 ^ 24 + (operandFields i).2.1.toNat * 2 ^ 16 +
        row * 256 + bx := by
  rw [encode, Fields.word_toNat, hcoord, BitVec.toNat_ofNat, BitVec.toNat_ofNat, Nat.mod_eq_of_lt hx, Nat.mod_eq_of_lt hy]
  rfl

theorem toNat_encode_refsave {bx row : Nat} (hx : bx < 256) (hy : row < 256) (ch : Chan) :
    (encode (.refsave ch bx row)).toNat = 0xA0000000 + chanIndex ch * 0x1000000 + row * 256 + bx := by
  rw [toNat_encode_of_coord hx hy rfl]
  cases ch <;> simp [operandFields, Instr.mnem, Mnem.opcode, Chan.bits, chanIndex]

theorem toNat_encode_msearch {bx row : Nat} (hx : bx < 256) (hy : row < 256) (ch : Chan) :
    (encode (.msearch ch bx row)).toNat = 0xA4000000 + chanIndex ch * 0x1000000 + row * 256 + bx := by
  rw [toNat_encode_of_coord hx hy rfl]
  cases ch <;> simp [operandFields, Instr.mnem, Mnem.opcode, Chan.bits, chanIndex]

theorem toNat_encode_mvload {mv bx row : Nat} (hm : mv < 256) (hx : bx < 256) (hy : row < 256) (ch : Chan) :
    (encode (.mvload ch mv bx row)).toNat =
      0xB0000000 + chanIndex ch * 0x1000000 + mv * 65536 + row * 256 + bx := by
  have hmv : (operandFields (.mvload ch mv bx row)).2.1.toNat = mv := Nat.mod_eq_of_lt hm
  rw [toNat_encode_of_coord hx hy rfl, hmv]
  cases ch <;> simp [operandFields, Instr.mnem, Mnem.opcode, Chan.bits, chanIndex]

theorem coordWord_eq {bx : Nat} (hx : bx < 256) (row : Nat) : coordWord bx row = BitVec.ofNat 32 (row * 256 + bx) := by
  have hor : row * 256 + bx = row * 256 ||| bx := by
    rw [← Nat.shiftLeft_eq row 8]
    exact Nat.shiftLeft_add_eq_or_of_lt hx row
  rw [hor, BitVec.ofNat_or, BitVec.ofNat_mul, coordWord, BitVec.shiftLeft_eq_mul_twoPow]
  rfl

theorem inGrid_iff_queryInGrid {s : State} {ch : Chan} {bx row : Nat} :
    s.inGrid ch bx row = true ↔ s.queryInGrid ch bx row := by
  cases ch <;> simp [State.inGrid, State.queryInGrid, State.gridOf]

theorem State.queryInGrid.congr {s t : State} {ch : Chan} {bx row : Nat} (h : s.queryInGrid ch bx row)
    (hg : t.gridOf ch = s.gridOf ch) : t.queryInGrid ch bx row := by
  rw [← inGrid_iff_queryInGrid, State.inGrid] at h ⊢
  rwa [hg]

theorem checkGrid_of_queryInGrid {s : State} {ch : Chan} {bx row : Nat} (h : s.queryInGrid ch bx row) :
    s.checkGrid ch bx row = .ok () := if_pos (inGrid_iff_queryInGrid.mpr h)

theorem checkGrid_of_not_queryInGrid {s : State} {ch : Chan} {bx row : Nat} (h : ¬ s.queryInGrid ch bx row) :
    s.checkGrid ch bx row = .error ⟨.grid, coordWord bx row⟩ := if_neg (mt inGrid_iff_queryInGrid.mp h)

/-- The three commands with a coordinate raise E_GRID outside the grid (spec/45_motion.md R362, R366, R371). -/
theorem exec_of_not_queryInGrid {s : State} {ch : Chan} {mv bx row : Nat} {i : Instr} (h : ¬ s.queryInGrid ch bx row)
    (hi : i ∈ [.refsave ch bx row, .msearch ch bx row, .mvload ch mv bx row]) :
    exec i s = .next (s.faulted 0x0D (coordWord bx row)) := by
  have hc := checkGrid_of_not_queryInGrid h
  simp only [List.mem_cons, List.not_mem_nil, or_false] at hi
  obtain rfl | rfl | rfl := hi
  · rw [exec, execRefsave, hc]; rfl
  · rw [exec, execMsearch, hc]; rfl
  · rw [exec, execMvload, hc]; rfl

/-- Cells of distinct coordinates have distinct keys (spec/20_memory.md R100). -/
theorem refKey_inj {c d : Chan} {x y x' y' : Nat} (hx : x < 256) (hy : y < 256) (hx' : x' < 256) (hy' : y' < 256) :
    refKey c x y = refKey d x' y' ↔ c = d ∧ x = x' ∧ y = y' := by
  cases c <;> cases d <;> simp only [refKey, chanIndex, reduceCtorEq, true_and, false_and, iff_false] <;> omega

theorem usable_of_get {s : State} {ch : Chan} {bx row : Nat} {b : Block} (h : s.queryInGrid ch bx row)
    (hg : Sparse.get s.ref (refKey ch bx row) = some ⟨true, b⟩) : s.usable ch bx row = some b := by
  rw [State.usable, if_pos (inGrid_iff_queryInGrid.mpr h), Int.toNat_natCast, Int.toNat_natCast, hg]
  rfl

/-- A lookup reads the channel's grid and one cell. -/
theorem usable_congr {s t : State} {ch : Chan} {x y : Int} (hg : t.gridOf ch = s.gridOf ch)
    (hr : Sparse.get t.ref (refKey ch x.toNat y.toNat) = Sparse.get s.ref (refKey ch x.toNat y.toNat)) :
    t.usable ch x y = s.usable ch x y := by
  rw [State.usable, State.usable, State.inGrid, State.inGrid, hg, hr]

/-! ### REFSAVE -/

/-- The state after a completed REFSAVE (spec/45_motion.md R362). -/
def State.afterRefsave (s : State) (ch : Chan) (bx row : Nat) : State :=
  ({ s with ref := Sparse.set s.ref (refKey ch bx row) ⟨true, s.wb⟩ } : State).complete

theorem exec_refsave {s : State} {ch : Chan} {bx row : Nat} (h : s.queryInGrid ch bx row) :
    exec (.refsave ch bx row) s = .next (s.afterRefsave ch bx row) := by
  rw [exec, execRefsave, checkGrid_of_queryInGrid h]
  rfl

theorem afterRefsave_gridOf (s : State) (ch c : Chan) (bx row : Nat) :
    (s.afterRefsave ch bx row).gridOf c = s.gridOf c := by cases c <;> rfl

theorem afterRefsave_get (s : State) (ch : Chan) (bx row key : Nat) :
    Sparse.get (s.afterRefsave ch bx row).ref key =
      if refKey ch bx row = key then some ⟨true, s.wb⟩ else Sparse.get s.ref key := Sparse.get_set ..

/-- A lookup after REFSAVE (spec/45_motion.md R361, R362). -/
theorem afterRefsave_usable {s : State} {ch c : Chan} {bx row x y : Nat} (h : s.queryInGrid ch bx row) (hbx : bx < 256)
    (hrow : row < 256) (hx : x < 256) (hy : y < 256) :
    (s.afterRefsave ch bx row).usable c x y = if c = ch ∧ x = bx ∧ y = row then some s.wb else s.usable c x y := by
  have hkey := refKey_inj (c := c) (d := ch) hx hy hbx hrow
  split
  · next e =>
    obtain ⟨rfl, rfl, rfl⟩ := e
    exact usable_of_get (h.congr (afterRefsave_gridOf ..)) ((afterRefsave_get ..).trans (if_pos rfl))
  · next e =>
    exact usable_congr (afterRefsave_gridOf ..) ((afterRefsave_get ..).trans (if_neg fun k => e (hkey.mp k.symm)))

/-- Settles O38: the write reaches the one key of the named cell, and the grid check raises E_GRID. -/
theorem refsaveResult : Obligations.RefsaveResult := by
  unfold Obligations.RefsaveResult
  refine ⟨fun bx hx row hy => ⟨toNat_encode_refsave hx hy .y, toNat_encode_refsave hx hy .cb, toNat_encode_refsave hx hy .cr⟩,
    fun ch bx row s hx hy => ⟨fun h => ?_, fun h => ?_⟩⟩
  · exact ⟨_, exec_refsave h, (afterRefsave_get ..).trans (if_pos rfl),
      fun key hk => (afterRefsave_get ..).trans (if_neg hk.symm),
      fun c x y hx' hy' => ⟨refKey_inj hx' hy' hx hy, afterRefsave_usable h hx hy hx' hy'⟩, rfl⟩
  · rw [← coordWord_eq hx]
    exact exec_of_not_queryInGrid (mv := 0) h (by simp)

/-! ### MVLOAD -/

theorem exec_mvload {s : State} {ch : Chan} {mv bx row : Nat} {b : Block} (h : s.queryInGrid ch bx row)
    (hb : s.usable ch (bx + mvDx mv) (row + mvDy mv) = some b) :
    exec (.mvload ch mv bx row) s = .next ({ s with rb := b } : State).complete := by
  simp only [exec, execMvload, checkGrid_of_queryInGrid h, hb, commit_ok]

theorem exec_mvload_noref {s : State} {ch : Chan} {mv bx row : Nat} (h : s.queryInGrid ch bx row)
    (hb : s.usable ch (bx + mvDx mv) (row + mvDy mv) = none) :
    exec (.mvload ch mv bx row) s = .next (s.raise (.num .noref mv)) := by
  simp only [exec, execMvload, checkGrid_of_queryInGrid h, hb, commit_error]

/-- Settles O41: the grid check, then the lookup of the cell that the two nibbles name. -/
theorem mvloadResult : Obligations.MvloadResult := by
  unfold Obligations.MvloadResult
  refine ⟨fun mv hm bx hx row hy => ⟨toNat_encode_mvload hm hx hy .y, toNat_encode_mvload hm hx hy .cb,
    toNat_encode_mvload hm hx hy .cr⟩, fun ch mv bx row s dx dy hm hx hy hdx hdy => ?_⟩
  have ex : mvDx mv = dx := by rw [hdx, mvDx, sext4_eq]; split <;> split <;> omega
  have ey : mvDy mv = dy := by rw [hdy, mvDy, sext4_eq]
  rw [← ex, ← ey, ← coordWord_eq hx]
  exact ⟨fun h => exec_of_not_queryInGrid (mv := mv) h (by simp), exec_mvload_noref, fun b => exec_mvload⟩

end Sys2Proof.Machine

namespace Sys2Proof.Machine

/-! ### What a search finds -/

theorem visitedNoLater_refl (o : SearchOrder) (dx dy : Int) : visitedNoLater o dx dy dx dy := by
  cases o <;> exact .inr ⟨rfl, le_rfl⟩

section search

variable {s : State} {ch : Chan} {bx row : Nat}

/-- The candidates are the usable cells of the window with their errors (spec/45_motion.md R364, R366). -/
theorem mem_candidates {c : Candidate} : c ∈ s.candidates ch bx row ↔
    |c.dx| ≤ s.radius.toNat ∧ |c.dy| ≤ s.radius.toNat ∧ s.usable ch (bx + c.dx) (row + c.dy) = some c.data ∧
      c.e = (sumSquares s.wb c.data : Nat) := by
  obtain ⟨e, dx, dy, b⟩ := c
  simp only [State.candidates, List.mem_filterMap, mem_displacements, Option.map_eq_some_iff, Candidate.mk.injEq,
    blockSse_eq]
  constructor
  · rintro ⟨⟨_, _⟩, ⟨hx, hy⟩, _, hu, rfl, rfl, rfl, rfl⟩; exact ⟨hx, hy, hu, rfl⟩
  · rintro ⟨hx, hy, hu, rfl⟩; exact ⟨(dx, dy), ⟨hx, hy⟩, b, hu, rfl, rfl, rfl, rfl⟩

theorem mem_candidates_of_usable {dx dy : Int} {b : Block} (hx : |dx| ≤ s.radius.toNat) (hy : |dy| ≤ s.radius.toNat)
    (hu : s.usable ch (bx + dx) (row + dy) = some b) : ⟨(sumSquares s.wb b : Nat), dx, dy, b⟩ ∈ s.candidates ch bx row :=
  mem_candidates.mpr ⟨hx, hy, hu, rfl⟩

/-- The candidates stand in visit order (spec/45_motion.md R365). -/
theorem candidates_sorted :
    (s.candidates ch bx row).Pairwise fun c d => visitedNoLater s.cfg.searchOrder c.dx c.dy d.dx d.dy := by
  refine List.pairwise_filterMap.mpr ((displacements_sorted ..).imp fun h c hc d hd => ?_)
  obtain ⟨_, -, rfl⟩ := Option.map_eq_some_iff.mp hc
  obtain ⟨_, -, rfl⟩ := Option.map_eq_some_iff.mp hd
  exact h

/-- `c` is the search's result: a usable cell of the window whose error no usable cell undercuts and none visited before it
equals (spec/45_motion.md R366). -/
structure State.isFirstMin (s : State) (ch : Chan) (bx row : Nat) (c : Candidate) : Prop where
  dx_le : |c.dx| ≤ s.radius.toNat
  dy_le : |c.dy| ≤ s.radius.toNat
  usable : s.usable ch (bx + c.dx) (row + c.dy) = some c.data
  error : c.e = (sumSquares s.wb c.data : Nat)
  first : ∀ (dx dy : Int) (b : Block), |dx| ≤ s.radius.toNat → |dy| ≤ s.radius.toNat →
    s.usable ch (bx + dx) (row + dy) = some b →
      sumSquares s.wb c.data ≤ sumSquares s.wb b ∧
        (sumSquares s.wb c.data = sumSquares s.wb b → visitedNoLater s.cfg.searchOrder c.dx c.dy dx dy)

theorem isFirstMin_of_split {pre post : List Candidate} {c : Candidate}
    (hsplit : s.candidates ch bx row = pre ++ c :: post) (hpre : ∀ d ∈ pre, c.e < d.e) (hpost : ∀ d ∈ post, c.e ≤ d.e) :
    s.isFirstMin ch bx row c := by
  obtain ⟨hx, hy, hu, he⟩ := mem_candidates.mp (hsplit ▸ List.mem_append_right pre List.mem_cons_self)
  refine ⟨hx, hy, hu, he, fun dx dy b hx' hy' hu' => ?_⟩
  have hmem := mem_candidates_of_usable hx' hy' hu'
  have hsorted := candidates_sorted (s := s) (ch := ch) (bx := bx) (row := row)
  rw [hsplit, List.mem_append, List.mem_cons] at hmem
  rw [hsplit, List.pairwise_append, List.pairwise_cons] at hsorted
  obtain ⟨-, ⟨hlater, -⟩, -⟩ := hsorted
  obtain hmem | rfl | hmem := hmem
  · have := hpre _ hmem
    simp only at this
    omega
  · exact ⟨le_rfl, fun _ => visitedNoLater_refl ..⟩
  · have := hpost _ hmem
    simp only at this
    exact ⟨by omega, fun _ => hlater _ hmem⟩

/-- Everything a search inside the grid can answer (spec/45_motion.md R366). -/
theorem exec_msearch_cases (h : s.queryInGrid ch bx row) :
    (exec (.msearch ch bx row) s = .next (s.searchResult bx row none).complete ∧
      ∀ dx dy : Int, |dx| ≤ s.radius.toNat → |dy| ≤ s.radius.toNat → s.usable ch (bx + dx) (row + dy) = none) ∨
    ∃ c, exec (.msearch ch bx row) s = .next (s.searchResult bx row (some c)).complete ∧ s.isFirstMin ch bx row c := by
  rw [exec, execMsearch, checkGrid_of_queryInGrid h]
  obtain ⟨hnil, hmin⟩ | ⟨pre, c, post, hsplit, hmin, hpre, hpost⟩ := firstMin_none (s.candidates ch bx row)
  · refine .inl ⟨by rw [hmin, commit_ok], fun dx dy hx hy => Option.eq_none_iff_forall_ne_some.mpr fun b hb => ?_⟩
    have hmem := mem_candidates_of_usable hx hy hb
    rw [hnil] at hmem
    exact List.not_mem_nil hmem
  · exact .inr ⟨c, by rw [hmin, commit_ok], isFirstMin_of_split hsplit hpre hpost⟩

/-- A search with a usable cell in its window finds a first minimum. -/
theorem exec_msearch_of_usable (h : s.queryInGrid ch bx row) {dx dy : Int} (hx : |dx| ≤ s.radius.toNat)
    (hy : |dy| ≤ s.radius.toNat) (hu : s.usable ch (bx + dx) (row + dy) ≠ none) :
    ∃ c, exec (.msearch ch bx row) s = .next (s.searchResult bx row (some c)).complete ∧ s.isFirstMin ch bx row c :=
  (exec_msearch_cases h).resolve_left fun hn => hu (hn.2 dx dy hx hy)

theorem queryInGrid_of_usable {b : Block} (h : s.usable ch bx row = some b) : s.queryInGrid ch bx row := by
  rw [← inGrid_iff_queryInGrid]
  by_contra hn
  rw [State.usable, if_neg hn] at h
  cases h

end search

/-- SSE of an error: saturated at 2^32 − 1 (spec/45_motion.md R366). -/
theorem toNat_saturatedSse {e : Int} {n : Nat} (h : e = n) :
    (BitVec.ofNat 32 (min e.toNat 4294967295)).toNat = min n (2 ^ 32 - 1) := by
  rw [BitVec.toNat_ofNat]
  omega

/-- What a completed search leaves unchanged (spec/45_motion.md R366). -/
theorem searchResult_frame (s : State) (bx row : Nat) (c : Option Candidate) {t : State}
    (ht : t = (s.searchResult bx row c).complete) :
    t = { s with
      rb := t.rb, mv := t.mv, matchX := t.matchX, matchY := t.matchY, sse := t.sse, found := t.found
      cmdCnt := s.cmdCnt + 1, done := true, pending := none } := by
  subst ht
  cases c <;> rfl

/-- Settles O39: the first minimum over the candidates, or the values of an empty window. -/
theorem msearchResult : Obligations.MsearchResult := by
  unfold Obligations.MsearchResult
  refine ⟨fun bx hx row hy => ⟨toNat_encode_msearch hx hy .y, toNat_encode_msearch hx hy .cb, toNat_encode_msearch hx hy .cr⟩,
    fun ch bx row s hx hy => ⟨fun h => ?_, fun h => ?_⟩⟩
  · rw [← coordWord_eq hx]
    exact exec_of_not_queryInGrid (mv := 0) h (by simp)
  · obtain ⟨hex, hnone⟩ | ⟨c, hex, hc⟩ := exec_msearch_cases h
    · refine ⟨_, hex, searchResult_frame s bx row none rfl, fun _ => ⟨rfl, rfl, rfl, rfl, ?_, ?_⟩,
        fun ⟨dx, dy, hdx, hdy, hu⟩ => absurd (hnone dx dy hdx hdy) hu⟩
      · exact Nat.mod_eq_of_lt hx
      · exact Nat.mod_eq_of_lt hy
    · refine ⟨_, hex, searchResult_frame s bx row (some c) rfl, fun hnone => ?_, fun _ =>
        ⟨c.dx, c.dy, c.data, hc.dx_le, hc.dy_le, hc.usable, hc.first, rfl, rfl, toNat_saturatedSse hc.error,
          toNat_packMv .., rfl, rfl⟩⟩
      have hu := hc.usable
      rw [hnone c.dx c.dy hc.dx_le hc.dy_le] at hu
      cases hu

/-- Settles O40: the query's own cell has error 0, so the first minimum has error 0 and holds WB. -/
theorem msearchFindsExactMatch : Obligations.MsearchFindsExactMatch := by
  unfold Obligations.MsearchFindsExactMatch
  intro ch bx row s _ _ hown
  have hzero : |(0 : Int)| ≤ s.radius.toNat := by simp
  have hown' : s.usable ch (bx + 0) (row + 0) = some s.wb := by rwa [add_zero, add_zero]
  obtain ⟨c, hex, hc⟩ := exec_msearch_of_usable (queryInGrid_of_usable hown) hzero hzero
    (hown'.trans_ne (Option.some_ne_none _))
  have hself : sumSquares s.wb s.wb = 0 := sumSquares_eq_zero.mpr rfl
  have hdata : s.wb = c.data := by
    refine sumSquares_eq_zero.mp (Nat.le_zero.mp ?_)
    rw [← hself]
    exact (hc.first 0 0 s.wb hzero hzero hown').1
  have hsse := toNat_saturatedSse hc.error
  rw [← hdata, hself] at hsse
  exact ⟨_, c.dx, c.dy, hex, rfl, BitVec.eq_of_toNat_eq hsse, hdata.symm, hc.dx_le, hc.dy_le, hdata ▸ hc.usable,
    fun dx dy hx hy hu => (hc.first dx dy s.wb hx hy hu).2 (by rw [← hdata]), rfl, rfl, rfl⟩

/-! ### MVLOAD after MSEARCH -/

/-- A displacement of the window fits the nibbles of its vector (spec/45_motion.md R370). -/
theorem displacement_bounds {r : BitVec 3} {d : Int} (h : |d| ≤ r.toNat) : -8 ≤ d ∧ d ≤ 7 := by
  have := r.isLt
  rw [abs_le] at h
  omega

/-- A search that found a block was made inside the grid and ended with a first minimum. -/
theorem exec_msearch_found {s t : State} {ch : Chan} {bx row : Nat} (h : exec (.msearch ch bx row) s = .next t)
    (herr : t.err = false) (hfound : t.found = true) : s.queryInGrid ch bx row ∧
      ∃ c, t = (s.searchResult bx row (some c)).complete ∧ s.isFirstMin ch bx row c := by
  by_cases hq : s.queryInGrid ch bx row
  · refine ⟨hq, ?_⟩
    obtain ⟨hex, -⟩ | ⟨c, hex, hc⟩ := exec_msearch_cases hq <;> obtain rfl := Host.Outcome.next.inj (h.symm.trans hex)
    · cases hfound
    · exact ⟨c, rfl, hc⟩
  · obtain rfl := Host.Outcome.next.inj (h.symm.trans (exec_of_not_queryInGrid (mv := 0) hq (by simp)))
    cases herr

/-- Settles O42: the vector unpacks to the displacement of the cell that was found, and MSEARCH changed neither the grid nor
the store. -/
theorem mvloadFollowsMsearch : Obligations.MvloadFollowsMsearch := by
  unfold Obligations.MvloadFollowsMsearch
  intro ch bx row s t b h _ herr hfound
  obtain ⟨hq, c, ht, hc⟩ := exec_msearch_found h herr hfound
  have hgrid := exec_keeps_grids h ch
  have href := exec_keeps_ref h (by simp [Instr.mnem])
  obtain ⟨ex, ey⟩ := mvDx_mvDy_packMv (displacement_bounds hc.dx_le) (displacement_bounds hc.dy_le)
  have hmv : t.mv = packMv c.dx c.dy := by rw [ht]; rfl
  have hrb : t.rb = c.data := by rw [ht]; rfl
  have hu : t.usable ch (bx + mvDx t.mv.toNat) (row + mvDy t.mv.toNat) = some t.rb := by
    rw [hmv, hrb, ex, ey, usable_congr hgrid (by rw [href])]
    exact hc.usable
  exact exec_mvload (s := { t with rb := b }) (hq.congr hgrid) hu

end Sys2Proof.Machine

namespace Sys2Proof.Machine

/-! ### The control commands -/

theorem exec_nop (s : State) : exec .nop s = .next s.complete := rfl

theorem exec_dcreset (s : State) :
    exec .dcreset s = .next ({ s with lastDc0 := 0, lastDc1 := 0, lastDc2 := 0 } : State).complete := rfl

theorem exec_bwreset (s : State) :
    exec .bwreset s = .next ({ s with bwn := 0, bwacc := 0, outptr := 0 } : State).complete := rfl

theorem exec_brreset (s : State) :
    exec .brreset s = .next ({ s with inpos := 0, inbits := 0, inprev := 0 } : State).complete := rfl

theorem exec_wbclr (s : State) : exec .wbclr s = .next ({ s with wb := Vector.replicate 64 0 } : State).complete := rfl

/-- Settles O9: none of the five commands has a condition, so each completes with the writes of its rule. -/
theorem controlCommandResults : Obligations.ControlCommandResults := by
  unfold Obligations.ControlCommandResults
  exact ⟨fun s => ⟨exec_nop s, exec_dcreset s, exec_bwreset s, exec_brreset s, exec_wbclr s⟩, by decide⟩

/-- A cell as REFCLR leaves it: its data, with VALID 0 (spec/46_control.md R404). -/
def RefCell.invalidated (c : RefCell) : RefCell := { c with valid := false }

/-- The state after a completed REFCLR (spec/46_control.md R404). -/
def State.afterRefclr (s : State) : State :=
  ({ s with ref := s.ref.map fun c => (c.1, c.2.invalidated) } : State).complete

theorem exec_refclr (s : State) : exec .refclr s = .next s.afterRefclr := rfl

theorem afterRefclr_get (s : State) (key : Nat) :
    Sparse.get s.afterRefclr.ref key = (Sparse.get s.ref key).map RefCell.invalidated := Sparse.get_mapVal ..

/-- A cell whose VALID bit is 0 is not usable, in the grid or not (spec/45_motion.md R361). -/
theorem usable_eq_none_of_not_valid {s : State} {ch : Chan} {x y : Int}
    (h : ∀ c, Sparse.get s.ref (refKey ch x.toNat y.toNat) = some c → c.valid = false) : s.usable ch x y = none := by
  unfold State.usable
  split
  · split
    · next c hc => rw [h c hc]; rfl
    · rfl
  · rfl

theorem afterRefclr_usable (s : State) (ch : Chan) (x y : Int) : s.afterRefclr.usable ch x y = none := by
  refine usable_eq_none_of_not_valid fun c hc => ?_
  rw [afterRefclr_get] at hc
  obtain ⟨d, -, rfl⟩ := Option.map_eq_some_iff.mp hc
  rfl

/-- Settles O10: clearing every VALID bit keeps the keys and the data, and leaves no cell a lookup accepts. -/
theorem refclrInvalidatesEveryCell : Obligations.RefclrInvalidatesEveryCell := by
  unfold Obligations.RefclrInvalidatesEveryCell
  exact ⟨by decide, fun s => ⟨s.afterRefclr, exec_refclr s, afterRefclr_get s, afterRefclr_usable s, rfl⟩⟩

end Sys2Proof.Machine

namespace Sys2Proof.Machine

/-! ### CMD, and accesses while BUSY = 1 -/

/-- Settles O45: the access reaches CMD, and `State.submit` has the two outcomes. -/
theorem commandAcceptance : Obligations.CommandAcceptance := by
  unfold Obligations.CommandAcceptance
  intro s w
  rw [hostAccess_write (r := .cmd) rfl, State.writeReg]
  obtain ⟨hdrop, h⟩ | ⟨hbusy, herr, h⟩ := submit_cases s w <;> rw [h]
  · exact ⟨fun _ => rfl, fun hb he => by simp [hb, he] at hdrop⟩
  · exact ⟨fun hd => by simp [hbusy, herr] at hd, fun _ _ => rfl⟩

/-- The map lists CTRL and STATUS at one word each (spec/20_memory.md R110). -/
theorem regAt_ctrl_status {p : Params} {a : Nat} {r : Reg} (hr : r ∈ [.ctrl, .status]) (h : regAt p a = some r) :
    a / 4 = 4 ∨ a / 4 = 5 := by
  have row : ∀ k < 27, ∀ r ∈ [Reg.ctrl, .status], controlRegs[k]? = some r → k = 4 ∨ k = 5 := by decide
  by_cases ha : a < 0x6C
  · exact row _ (by omega) r hr (regAt_control p ha ▸ h)
  · simp only [List.mem_cons, List.not_mem_nil, or_false] at hr
    obtain rfl | rfl := hr <;> simp [regAt, ha, Option.or_eq_some_iff] at h

theorem not_mem_ctrl_status {p : Params} {size : AccessSize} {a : BusAddr} {r : Reg} (h : accessReg p size a = some r)
    (hctrl : a ≠ 0x00010) (hstatus : a ≠ 0x00014) : r ∉ [.ctrl, .status] := by
  intro hr
  obtain ⟨⟨-, h4⟩, h⟩ := Option.ite_none_right_eq_some.mp h
  have := regAt_ctrl_status hr h
  bv_omega

/-- With BUSY = 1 a write of any other location is discarded, a read-only one included (spec/60_exceptions.md R437, log 9). -/
theorem writeReg_busy {s : State} (hb : s.busy = true) {r : Reg} (hr : r ∉ [.ctrl, .status]) (v : Word) :
    s.writeReg r v = { s with drop := true } := by
  cases r with
  | ctrl | status => simp at hr
  | cmd => simp [State.writeReg, State.submit, hb]
  | _ => simp [State.writeReg, hb]

/-- A read that reaches a location answers without error, and may count a drawn value (spec/20_memory.md R108, log 6). -/
theorem hostAccess_read_frame {s : State} {size : AccessSize} {a : BusAddr} {r : Reg}
    (h : accessReg s.cfg size a = some r) :
    ∃ x d, hostAccess (.read size a) s = { s with draws := d, resp := some ⟨x, false⟩ } := by
  simp only [hostAccess, hostRead, h]
  cases s.readValue r <;> exact ⟨_, _, rfl⟩

theorem statusWord_busy {s : State} (hb : s.busy = true) : s.statusWord.getLsbD 0 = true := by
  rw [BitVec.getLsbD, Nat.testBit_zero, s.statusWord_toNat, hb, Bool.toNat_true, decide_eq_true_iff]
  omega

/-- Settles O46: CTRL and STATUS are written as at any time, every other write only sets DROP, and the six registers read while
BUSY = 1 show their value. -/
theorem accessesWhileBusy : Obligations.AccessesWhileBusy := by
  unfold Obligations.AccessesWhileBusy
  intro s a v hb
  refine ⟨writesTo_ctrl, fun hv => ?reset, (statusWriteClears s v).1, fun ha hctrl hstatus => ?drop, fun ha => ?read,
    hostAccess_read (r := .id) rfl (readValue_busy rfl), hostAccess_read (r := .hwcfg0) rfl (readValue_busy rfl),
    hostAccess_read (r := .hwcfg1) rfl (readValue_busy rfl), hostAccess_read (r := .hwcfg2) rfl (readValue_busy rfl),
    hostAccess_read (r := .ctrl) rfl (readValue_busy rfl), hostAccess_read (r := .status) rfl (readValue_busy rfl),
    statusWord_busy hb⟩
  case reset =>
    rw [resetValues.1 s v hv]
    rfl
  case drop =>
    obtain ⟨r, hr⟩ := Option.isSome_iff_exists.mp ((accessReg_isSome ..).mpr ha)
    rw [hostAccess_write hr, writeReg_busy hb (not_mem_ctrl_status hr hctrl hstatus)]
  case read =>
    obtain ⟨r, hr⟩ := Option.isSome_iff_exists.mp ((accessReg_isSome ..).mpr ha)
    exact hostAccess_read_frame hr

/-! ### A pending fault -/

/-- While a fault is pending after `t` it is the one of `s`, with CMDCNT as it was and no command in progress
(spec/60_exceptions.md R436). -/
def State.keepsFault (s t : State) : Prop :=
  t.err = true →
    t.errCode = s.errCode ∧ t.errInfo = s.errInfo ∧ t.errDetail = s.errDetail ∧ t.cmdCnt = s.cmdCnt ∧ t.pending = none

section pendingFault

variable {s : State} (herr : s.err = true) (hp : s.pending = none)

include hp

theorem keepsFault_writeCtrl (v : Word) : s.keepsFault (s.writeCtrl v) := by
  unfold State.writeCtrl
  split
  · exact fun h => absurd h (by simp [State.resetNow, State.resetOf])
  · exact fun _ => ⟨rfl, rfl, rfl, rfl, hp⟩

theorem keepsFault_writeStatus (v : Word) : s.keepsFault (s.writeStatus v) := by
  rw [writeStatus_eq]
  intro h
  obtain ⟨-, hv⟩ : s.err = true ∧ v.getLsbD 2 = false := by simpa using h
  simp only [hv, Bool.false_eq_true, if_false, hp, and_self]

theorem keepsFault_writeData (r : Reg) (v : Word) : s.keepsFault (s.writeData r v) := by
  obtain ⟨-, hcode, hinfo, hdetail, hpend⟩ := writeData_faultRecord s r v
  have hcnt : (s.writeData r v).cmdCnt = s.cmdCnt := by cases r <;> simp [State.writeData]
  exact fun _ => ⟨hcode, hinfo, hdetail, hcnt, hpend.trans hp⟩

theorem keepsFault_engineTurn {t : State} (h : engineTurn s = .next t) : s.keepsFault t := by
  cases (engineTurn_of_idle hp).symm.trans h
  exact fun _ => ⟨rfl, rfl, rfl, rfl, hp⟩

include herr

/-- CMD accepts no word while a fault is pending (spec/60_exceptions.md R438). -/
theorem keepsFault_submit (w : Word) : s.keepsFault (s.submit w) := by
  obtain ⟨-, h⟩ | ⟨-, he, -⟩ := submit_cases s w
  · rw [h]
    exact fun _ => ⟨rfl, rfl, rfl, rfl, hp⟩
  · simp [herr] at he

theorem keepsFault_hostAccess (a : Access) : s.keepsFault (hostAccess a s) := by
  cases a with
  | read size addr =>
    obtain ⟨r, d, h⟩ := hostRead_eq size addr s
    rw [hostAccess, h]
    exact fun _ => ⟨rfl, rfl, rfl, rfl, hp⟩
  | write size addr v =>
    obtain ⟨-, h⟩ | h | h | h | ⟨-, h⟩ | ⟨r, -, -, h⟩ := hostWrite_cases size addr v s <;> rw [hostAccess, h]
    · exact fun _ => ⟨rfl, rfl, rfl, rfl, hp⟩
    · exact keepsFault_writeCtrl hp v
    · exact keepsFault_writeStatus hp v
    · exact keepsFault_submit herr hp v
    · exact fun _ => ⟨rfl, rfl, rfl, rfl, hp⟩
    · exact keepsFault_writeData hp r v

end pendingFault

/-- Settles O54: with ERR = 1 no command is in progress, so the engine idles, and no access captures a word. -/
theorem faultsDoNotNest : Obligations.FaultsDoNotNest := by
  unfold Obligations.FaultsDoNotNest
  intro s t hs herr h
  have hp : s.pending = none := by simpa [State.busy] using (hs.2 herr).2
  obtain ⟨r, rfl, h⟩ | ⟨a, rest, -, rfl⟩ | ⟨rest, -, rfl⟩ := step_cases h
  · split at h
    · exact keepsFault_engineTurn hp h
    · next rest _ => exact keepsFault_engineTurn (s := { s with env := rest }) hp h
  · exact keepsFault_hostAccess (s := { s with env := rest }) herr hp a
  · exact fun he => absurd he (by simp [State.resetNow, State.resetOf])

end Sys2Proof.Machine

namespace Sys2Proof.Machine

/-! ### The faults of each command

The codes of spec/60_exceptions.md R431, from the operations up to the commands that raise them. -/

/-- Every fault that `r` can be has one of the codes. -/
structure FaultsIn {α : Type} (codes : List ErrCode) (r : Except CmdFault α) : Prop where
  code_mem : ∀ f, r = .error f → f.code ∈ codes

section FaultsIn

variable {α β : Type} {codes sub : List ErrCode} {r : Except CmdFault α} {f : CmdFault}

theorem faultsIn_ok (a : α) : FaultsIn codes (.ok a) := ⟨fun _ h => nomatch h⟩

theorem faultsIn_error (h : f.code ∈ codes) : FaultsIn codes (.error f : Except CmdFault α) :=
  ⟨fun _ e => Except.error.inj e ▸ h⟩

/-- A fault handed on from an earlier operation. -/
theorem FaultsIn.error (h : FaultsIn sub r) (e : r = .error f) (hsub : sub ⊆ codes := by simp) :
    FaultsIn codes (.error f : Except CmdFault β) := faultsIn_error (hsub (h.code_mem f e))

theorem FaultsIn.byte_mem (h : FaultsIn codes r) (e : r = .error f) : f.code.byte ∈ codes.map ErrCode.byte :=
  List.mem_map_of_mem (h.code_mem f e)

end FaultsIn

theorem faultsIn_rleAc (l : List Int) (k run : Nat) : FaultsIn [.range] (rleAc k run l) := by
  induction l generalizing k run with
  | nil => exact faultsIn_ok _
  | cons a rest ih =>
    unfold rleAc
    split
    · exact ih ..
    · split
      · split
        · exact faultsIn_ok _
        · next h => exact (ih ..).error h
      · exact faultsIn_error (.head _)

theorem faultsIn_rleEncode (b : Block) (last : Int) : FaultsIn [.range] (rleEncode b last) := by
  unfold rleEncode
  dsimp only
  split
  · split
    · exact faultsIn_ok _
    · next h => exact (faultsIn_rleAc ..).error h
  · exact faultsIn_error (.head _)

theorem faultsIn_planAc (a : Vector Slot 256) (i : Nat) (y : Sym) : FaultsIn [.noCode] (planAc a i y) := by
  by_cases h : acCoded (slotAt a) y
  · obtain ⟨p, hp, -⟩ := planAc_ok i h
    exact hp ▸ faultsIn_ok _
  · exact planAc_error i h ▸ faultsIn_error (.head _)

theorem faultsIn_planFrom (a : Vector Slot 256) (l : List Sym) (i : Nat) : FaultsIn [.noCode] (planFrom a i l) := by
  induction l generalizing i with
  | nil => exact faultsIn_ok _
  | cons y rest ih =>
    unfold planFrom
    split
    · next h => exact (faultsIn_planAc ..).error h
    · split
      · next h => exact (ih ..).error h
      · exact faultsIn_ok _

theorem faultsIn_planDc (d : Vector Slot 12) (y : Sym) : FaultsIn [.noCode] (planDc d y) := by
  unfold planDc
  split
  · exact faultsIn_error (.head _)
  · exact faultsIn_ok _

theorem faultsIn_planSyms (d : Vector Slot 12) (a : Vector Slot 256) (l : List Sym) :
    FaultsIn [.noCode] (planSyms d a l) := by
  unfold planSyms
  split
  · exact faultsIn_ok _
  · split
    · next h => exact (faultsIn_planDc ..).error h
    · split
      · next h => exact (faultsIn_planFrom ..).error h
      · exact faultsIn_ok _

theorem faultsIn_readBit (m : InStream) (c : Cursor) : FaultsIn [.trunc] (readBit m c) := by
  obtain ⟨b, c', h, -⟩ | ⟨h, -⟩ := readBit_spec m c <;> rw [h]
  · exact faultsIn_ok _
  · exact faultsIn_error (.head _)

theorem faultsIn_readBits (m : InStream) (n v : Nat) (c : Cursor) : FaultsIn [.trunc] (readBits m n v c) := by
  induction n generalizing v c with
  | zero => exact faultsIn_ok _
  | succ n ih =>
    unfold readBits
    split
    · next h => exact (faultsIn_readBit ..).error h
    · exact ih ..

theorem faultsIn_decodeSymFrom {n : Nat} (t : Vector Slot n) (m : InStream) (i left l v : Nat) (c : Cursor) :
    FaultsIn [.trunc, .unresolved] (decodeSymFrom t m i left l v c) := by
  induction left generalizing l v c with
  | zero => exact faultsIn_error (.tail _ (.head _))
  | succ left ih =>
    unfold decodeSymFrom
    split
    · next h => exact (faultsIn_readBit ..).error h
    · split
      · exact faultsIn_ok _
      · exact ih ..

theorem faultsIn_decodeSym {n : Nat} (t : Vector Slot n) (m : InStream) (i : Nat) (c : Cursor) :
    FaultsIn [.trunc, .unresolved] (decodeSym t m i c) := faultsIn_decodeSymFrom ..

/-- The faults of HDEC (spec/44_huffman.md R335). -/
def hdecFaultCodes : List ErrCode := [.trunc, .unresolved, .badSymbol, .runOverflow]

theorem faultsIn_hdecAc (a : Vector Slot 256) (m : InStream) (turns i pos run : Nat) (c : Cursor) :
    FaultsIn hdecFaultCodes (hdecAc a m turns i pos run c) := by
  induction turns generalizing i pos run c with
  | zero => exact faultsIn_ok _
  | succ turns ih =>
    unfold hdecAc
    split
    · exact faultsIn_ok _
    split
    · next h => exact (faultsIn_decodeSym ..).error h (by decide)
    split
    · split
      · exact faultsIn_ok _
      split
      · split
        · exact faultsIn_error (by simp [hdecFaultCodes, CmdFault.num])
        · exact ih ..
      · exact faultsIn_error (by simp [hdecFaultCodes, CmdFault.num])
    split
    · exact faultsIn_error (by simp [hdecFaultCodes, CmdFault.num])
    split
    · next h => exact (faultsIn_readBits ..).error h (by decide)
    split
    · next h => exact (ih ..).error h
    · exact faultsIn_ok _

theorem faultsIn_hdecSyms (d : Vector Slot 12) (a : Vector Slot 256) (m : InStream) (c : Cursor) :
    FaultsIn hdecFaultCodes (hdecSyms d a m c) := by
  unfold hdecSyms
  split
  · next h => exact (faultsIn_decodeSym ..).error h (by decide)
  split
  · next h => exact (faultsIn_readBits ..).error h (by decide)
  split
  · next h => exact (faultsIn_hdecAc ..).error h
  · exact faultsIn_ok _

/-! ### Every command completes or raises a fault of its own -/

/-- The outcome of a command that started in `s`: command state committed, or a fault with one of the codes. -/
inductive CompletesOrFaults (codes : List Byte) (s : State) (o : Host.Outcome State Fault Refusal) : Prop
  | completes {u : State} (h : o = .next u.complete) (hu : s.writesCommandState u)
  | faults {f : CmdFault} (h : o = .next (s.raise f)) (hf : f.code.byte ∈ codes)

theorem writesCommandState_setHuff (s : State) (cls : TableClass) (tid : TableId) (t : Vector Slot (slotCount cls)) :
    s.writesCommandState (s.setHuff cls tid t) := by cases cls <;> cases tid <;> rfl

section commands

variable (s : State)

theorem flushWriter_completesOrFaults {codes : List Byte} (hc : 0x08 ∈ codes) (w : BitWriter) :
    CompletesOrFaults codes s (commit s (s.flushWriter w)) := by
  by_cases h : s.outptr.toNat + w.out.length ≤ s.cfg.outSize
  · rw [flushWriter_room h]
    exact .completes rfl rfl
  · rw [flushWriter_full (not_le.mp h)]
    exact .faults rfl hc

theorem qscale_completesOrFaults (tid : TableId) (q : Nat) : CompletesOrFaults [0x02] s (exec (.qscale tid q) s) := by
  by_cases h : q < 1 ∨ 100 < q
  · exact .faults (exec_qscale_fault h tid s) (.head _)
  · exact .completes (exec_qscale (by omega) (by omega) tid s) (writesCommandState_setQt ..)

theorem qload_completesOrFaults (tid : TableId) : CompletesOrFaults [0x03] s (exec (.qload tid) s) := by
  cases h : s.wb.toList.findIdx? (fun w => !qloadable w) with
  | none => exact .completes (exec_qload ((findIdx_qload_eq_none_iff s.wb).mp h) tid) (writesCommandState_setQt ..)
  | some k => exact .faults (exec_qload_of_find h tid) (.head _)

theorem rleenc_completesOrFaults (ch : Chan) : CompletesOrFaults [0x04] s (exec (.rleenc ch) s) := by
  cases h : rleEncode s.wb (s.lastDcOf ch).toInt with
  | ok out => exact .completes (exec_rleenc h) ((writesCommandState_syms ..).setLastDc ..)
  | error f => exact .faults (exec_rleenc_fault h) ((faultsIn_rleEncode ..).byte_mem h)

theorem rledec_completesOrFaults (ch : Chan) : CompletesOrFaults [0x05, 0x04] s (exec (.rledec ch) s) := by
  cases h : s.wfSym with
  | some d => exact .faults (exec_rledec_symForm h) (.head _)
  | none =>
    obtain ⟨y, ac, hs, -⟩ := ((wfSym_eq_none_iff s).mp h).2
    by_cases hr : -2 ^ 31 ≤ (s.lastDcOf ch).toInt + y.amp ∧ (s.lastDcOf ch).toInt + y.amp ≤ 2 ^ 31 - 1
    · exact .completes (exec_rledec h hs rfl hr.1 hr.2) ((writesCommandState_block ..).setLastDc ..)
    · exact .faults (exec_rledec_range h hs rfl (by omega)) (.tail _ (.head _))

theorem hbuild_completesOrFaults (cls : TableClass) (tid : TableId) :
    CompletesOrFaults [0x06] s (exec (.hbuild cls tid) s) := by
  cases h : buildTable (slotCount cls) ⟨s.hbits, s.hvals⟩ with
  | ok t => exact .completes (exec_hbuild h tid) (writesCommandState_setHuff ..)
  | error d => exact .faults (exec_hbuild_fault h tid) (.head _)

theorem henc_completesOrFaults (ch : Chan) : CompletesOrFaults [0x05, 0x07, 0x08] s (exec (.henc ch) s) := by
  cases h : s.wfSym with
  | some d => exact .faults (exec_henc_symForm h) (.head _)
  | none =>
    cases hp : planSyms (s.hdcOf ch) (s.hacOf ch) s.syms with
    | error f =>
      have hf := (faultsIn_planSyms ..).byte_mem hp
      exact .faults (exec_henc_noCode h hp) (.tail _ (List.mem_append_left [0x08] hf))
    | ok plan =>
      have he : exec (.henc ch) s = commit s (s.flushWriter (putPlan s.writer plan)) := by
        simp only [exec, execHenc, State.checkSyms, h, hp]
      exact he ▸ flushWriter_completesOrFaults s (by decide) _

theorem hflush_completesOrFaults : CompletesOrFaults [0x08] s (exec .hflush s) := by
  by_cases h : s.bwn = 0
  · exact .completes (exec_hflush_empty h) rfl
  · exact exec_hflush h ▸ flushWriter_completesOrFaults s (.head _) _

theorem hdec_completesOrFaults (ch : Chan) : CompletesOrFaults (hdecFaultCodes.map ErrCode.byte) s (exec (.hdec ch) s) := by
  cases h : hdecSyms (s.hdcOf ch) (s.hacOf ch) s.inStream s.cursor with
  | ok r => exact .completes (exec_hdec h) rfl
  | error f => exact .faults (exec_hdec_fault h) ((faultsIn_hdecSyms ..).byte_mem h)

variable (ch : Chan) (mv bx row : Nat)

/-- The three commands with a coordinate raise E_GRID outside the grid, so what is left is the query inside it. -/
theorem grid_completesOrFaults {codes : List Byte} {i : Instr} (hc : 0x0D ∈ codes)
    (hi : i ∈ [.refsave ch bx row, .msearch ch bx row, .mvload ch mv bx row])
    (h : s.queryInGrid ch bx row → CompletesOrFaults codes s (exec i s)) : CompletesOrFaults codes s (exec i s) := by
  by_cases hg : s.queryInGrid ch bx row
  · exact h hg
  · exact .faults (f := ⟨.grid, coordWord bx row⟩) (exec_of_not_queryInGrid hg hi) hc

theorem refsave_completesOrFaults : CompletesOrFaults [0x0D] s (exec (.refsave ch bx row) s) :=
  grid_completesOrFaults s ch 0 bx row (.head _) (.head _) fun h => .completes (exec_refsave h) rfl

theorem msearch_completesOrFaults : CompletesOrFaults [0x0D] s (exec (.msearch ch bx row) s) := by
  refine grid_completesOrFaults s ch 0 bx row (.head _) (.tail _ (.head _)) fun h => ?_
  obtain ⟨he, -⟩ | ⟨c, he, -⟩ := exec_msearch_cases h <;> exact .completes he (writesCommandState_searchResult ..)

theorem mvload_completesOrFaults : CompletesOrFaults [0x0D, 0x0E] s (exec (.mvload ch mv bx row) s) := by
  refine grid_completesOrFaults s ch mv bx row (.head _) (.tail _ (.tail _ (.head _))) fun h => ?_
  cases hu : s.usable ch (bx + mvDx mv) (row + mvDy mv) with
  | none => exact .faults (exec_mvload_noref h hu) (.tail _ (.head _))
  | some b => exact .completes (exec_mvload h hu) rfl

end commands

/-- Everything a command can do, with its faults (spec/60_exceptions.md R431, column "raised by"). -/
theorem exec_completesOrFaults (i : Instr) (s : State) : CompletesOrFaults (commandFaults i) s (exec i s) := by
  cases i with
  | nop | dcreset | bwreset | brreset | refclr => exact .completes rfl rfl
  | wbclr | fdct | idct | quant | dequant | zzscan | zzunscan | resid | recon =>
    exact .completes rfl (writesCommandState_block ..)
  | qdefault tid => exact .completes (exec_qdefault tid s) (writesCommandState_setQt ..)
  | hdefault cls tid => exact .completes (exec_hdefault cls tid s) (writesCommandState_setHuff ..)
  | qscale tid q => exact qscale_completesOrFaults s tid q
  | qload tid => exact qload_completesOrFaults s tid
  | rleenc ch => exact rleenc_completesOrFaults s ch
  | rledec ch => exact rledec_completesOrFaults s ch
  | hbuild cls tid => exact hbuild_completesOrFaults s cls tid
  | henc ch => exact henc_completesOrFaults s ch
  | hflush => exact hflush_completesOrFaults s
  | hdec ch => exact hdec_completesOrFaults s ch
  | refsave ch bx row => exact refsave_completesOrFaults s ch bx row
  | msearch ch bx row => exact msearch_completesOrFaults s ch bx row
  | mvload ch mv bx row => exact mvload_completesOrFaults s ch mv bx row

/-- Settles O6: command state leaves CMDCNT and the fault record alone, so completion changes only CMDCNT, DONE and BUSY of
them, and a fault is raised in the state before the command. -/
theorem commandsCompleteOrFault : Obligations.CommandsCompleteOrFault := by
  unfold Obligations.CommandsCompleteOrFault
  intro i s
  cases exec_completesOrFaults i s with
  | completes h hu =>
    refine ⟨_, h, rfl, .inl ?_⟩
    rw [hu]
    exact ⟨rfl, rfl, rfl, rfl, rfl, rfl⟩
  | faults h hf => exact ⟨_, h, rfl, .inr ⟨_, hf, _, rfl⟩⟩

end Sys2Proof.Machine

namespace Sys2Proof.Machine

/-! ### An accepted command ends -/

@[simp] theorem State.writeCtrl_env (s : State) (v : Word) : (s.writeCtrl v).env = s.env := by
  unfold State.writeCtrl
  split <;> rfl

@[simp] theorem State.writeStatus_env (s : State) (v : Word) : (s.writeStatus v).env = s.env := by
  rw [writeStatus_eq]

@[simp] theorem State.submit_env (s : State) (w : Word) : (s.submit w).env = s.env := by
  obtain ⟨-, h⟩ | ⟨-, -, h⟩ := submit_cases s w <;> rw [h]

@[simp] theorem State.writeData_env (s : State) (r : Reg) (v : Word) : (s.writeData r v).env = s.env := by
  cases r <;> simp [State.writeData]

/-- No access schedules or takes off an event (log 1). -/
@[simp] theorem hostAccess_env (a : Access) (s : State) : (hostAccess a s).env = s.env := by
  cases a with
  | read size addr =>
    obtain ⟨r, d, h⟩ := hostRead_eq size addr s
    rw [hostAccess, h]
  | write size addr v =>
    obtain ⟨-, h⟩ | h | h | h | ⟨-, h⟩ | ⟨r, -, -, h⟩ := hostWrite_cases size addr v s <;> simp [hostAccess, h]

/-- A command completes or faults within its own turn of the engine (log 4). -/
theorem engineTurn_pending {s t : State} (h : engineTurn s = .next t) : t.pending = none := by
  obtain ⟨hp, rfl⟩ | ⟨w, i, -, -, h⟩ | ⟨w, e, -, -, rfl⟩ := engineTurn_cases h
  · exact hp
  · obtain ⟨-, -, -, -, hp⟩ | ⟨f, rfl⟩ := exec_faultRecord h
    · exact hp
    · rfl
  · rfl

/-- A step that leaves a command in progress has taken one event off the schedule: only an access neither runs nor abandons
it (spec/70_reset_and_hazards.md R490). -/
theorem step_pending {s t : State} (h : step s = .next t) : t.pending = none ∨ ∃ e, s.env = e :: t.env := by
  obtain ⟨r, -, h⟩ | ⟨a, rest, he, rfl⟩ | ⟨rest, -, rfl⟩ := step_cases h
  · exact .inl (engineTurn_pending h)
  · exact .inr ⟨_, by rw [he, hostAccess_env]⟩
  · exact .inl rfl

/-- Running one step more: a step, then the rest of the run. -/
theorem run_succ {s t : State} (h : step s = .next t) (n : Nat) :
    Host.Core.run Sys2Proof.core (n + 1) s = Host.Core.run Sys2Proof.core n t := by
  simp only [Host.Core.run, Sys2Proof.core, h]

/-- From every state the schedule, or the engine's turn after it, reaches a state with no command in progress. -/
theorem exists_run_pending_none (l : List Event) (s : State) (hl : s.env = l) :
    ∃ n ≤ l.length + 1, ∃ t : State, Host.Core.run Sys2Proof.core n s = .next t ∧ t.pending = none := by
  induction l generalizing s with
  | nil =>
    obtain ⟨t, h⟩ := step_next s
    exact ⟨1, le_rfl, t, run_succ h 0, engineTurn_pending ((step_of_env_nil hl).symm.trans h)⟩
  | cons e rest ih =>
    obtain ⟨u, h⟩ := step_next s
    obtain hp | ⟨e', he⟩ := step_pending h
    · exact ⟨1, by simp, u, run_succ h 0, hp⟩
    · obtain ⟨n, hn, t, ht, hp⟩ := ih u (List.cons.inj (he.symm.trans hl)).2
      exact ⟨n + 1, Nat.succ_le_succ hn, t, (run_succ h n).trans ht, hp⟩

/-- Settles O53, by induction on the schedule: an access takes one event off it, and any other step ends the command. -/
theorem acceptedCommandsEnd : Obligations.AcceptedCommandsEnd := by
  unfold Obligations.AcceptedCommandsEnd
  exact fun s _ _ => exists_run_pending_none s.env s rfl

end Sys2Proof.Machine
